-- ==== Sys2Proof/Word.lean ====
section
/-! DEFINITION. The plain types of the RC412: bytes, glyph codes and the numbered things of the rack.
A thing numbered from 1 (a bay, an arm, a meter, …; 00_scope.md, "Numbering") is held as `Fin n`, the value
one below its number. Classes and groups are numbered from 0 and held as they are. -/

namespace Sys2Proof

/-- One byte on the host link or on a bay line. -/
abbrev Byte := BitVec 8

/-- A glyph code of the bay panel, 0 to 63 (Table 10-1). -/
abbrev Glyph := Fin 64

/-- Bays 1 to 4. -/
abbrev BayId := Fin 4
/-- Loading arms 1 to 12. -/
abbrev ArmId := Fin 12
/-- Product meters 1 to 16. -/
abbrev MeterId := Fin 16
/-- Injectors 1 to 8. -/
abbrev InjectorId := Fin 8
/-- Supply headers 1 to 4. -/
abbrev HeaderId := Fin 4
/-- Panel screens 1 to 24. -/
abbrev ScreenId := Fin 24
/-- Product codes 1 to 32. -/
abbrev ProductId := Fin 32
/-- Order slots 1 to 64 (section 3.1). -/
abbrev SlotId := Fin 64
/-- Compartment numbers 1 to 8. -/
abbrev CompNo := Fin 8
/-- Product classes and compatibility groups, codes 0 to 7. -/
abbrev GroupCode := Fin 8

/-- A timer: the milliseconds it has left, or `none` while it is stopped (log entry 2). -/
abbrev Timer := Option Nat

end Sys2Proof
end

