-- ==== Sys2Proof/Machine/Frames.lean ====
section
/-! DEFINITION. The frames of the host link and of the bay lines as bytes: CRC, layout and the tests a
received frame passes (Tables 11-1, 11-2, 11-7, R167, R176). -/

namespace Sys2Proof.Machine

/-- One bit of the CRC: polynomial 0x1021 (section 11.1). -/
def crcShift (c : BitVec 16) : BitVec 16 := if c.msb then (c <<< 1) ^^^ 0x1021#16 else c <<< 1

/-- One byte of the CRC, most significant bit first. -/
def crcByte (c : BitVec 16) (b : Byte) : BitVec 16 :=
  let c0 := c ^^^ (b.zeroExtend 16 <<< 8)
  crcShift (crcShift (crcShift (crcShift (crcShift (crcShift (crcShift (crcShift c0)))))))

/-- The CRC-16 of the host link: initial value 0xFFFF, no final inversion (section 11.1). -/
def crc16 (bytes : List Byte) : BitVec 16 := bytes.foldl crcByte 0xFFFF#16

/-- `n` bytes of a number, least significant byte first (Table 11-4). -/
def littleEndian : Nat → Nat → List Byte
  | 0, _ => []
  | k + 1, v => BitVec.ofNat 8 v :: littleEndian k (v / 256)

/-- The number that bytes spell, least significant byte first. -/
def ofLittleEndian : List Byte → Nat
  | [] => 0
  | b :: rest => b.toNat + 256 * ofLittleEndian rest

/-- The two bytes of a CRC, least significant first. -/
def crcBytes (bytes : List Byte) : List Byte := littleEndian 2 (crc16 bytes).toNat

/-- The start byte of the host link. -/
def hostStart : Byte := 0xA5
/-- The start byte of a bay line. -/
def bayStart : Byte := 0x5A

/-- A frame with the start byte, the length of its content, the content and the CRC over length and
content (Tables 11-1 and 11-2). -/
def hostFrame (content : List Byte) : List Byte :=
  let covered := littleEndian 2 content.length ++ content
  hostStart :: covered ++ crcBytes covered

/-- A response frame (Table 11-2). -/
def responseFrame (kind tag result status : Byte) (body : List Byte) : List Byte :=
  hostFrame (kind :: tag :: result :: status :: body)

/-- The content (kind, tag, body) of an accepted request frame: it begins with 0xA5, its length field lies
in 2 to 502 and counts the bytes from kind through body, and its CRC matches (Table 11-1, R167). A frame
that fails any of this is discarded. -/
def acceptedContent (frame : List Byte) : Option (Byte × Byte × List Byte) :=
  match frame with
  | start :: l0 :: l1 :: rest =>
    let len := ofLittleEndian [l0, l1]
    let content := rest.take len
    if start = hostStart ∧ 2 ≤ len ∧ len ≤ 502 ∧ rest.length = len + 2
        ∧ rest.drop len = crcBytes (l0 :: l1 :: content) then
      match content with
      | kind :: tag :: body => some (kind, tag, body)
      | _ => none
    else none
  | _ => none

/-- What one more byte makes of the bytes of a host frame under way (R167). -/
inductive Hunted where
  | waiting (buffer : List Byte)
  | discarded (frame : List Byte)
  | accepted (kind tag : Byte) (body : List Byte)
  deriving DecidableEq, Repr

/-- The port's test of the bytes of a frame, from its start byte on (R167): a length field below 2 or above 502
discards them; once the length and CRC bytes are there, the CRC accepts or discards the frame. -/
def judgeFrame (frame : List Byte) : Hunted :=
  match frame with
  | _ :: l0 :: l1 :: rest =>
    let len := ofLittleEndian [l0, l1]
    if len < 2 ∨ 502 < len then .discarded frame
    else if rest.length < len + 2 then .waiting frame
    else
      match acceptedContent frame with
      | some (kind, tag, body) => .accepted kind tag body
      | none => .discarded frame
  | _ => .waiting frame

/-- One byte received while the port hunts, `buffer` being the frame under way (R167): with none under way every byte
other than 0xA5 is discarded. -/
def huntByte (buffer : List Byte) (b : Byte) : Hunted :=
  if buffer = [] ∧ b ≠ hostStart then .waiting [] else judgeFrame (buffer ++ [b])

/-- What a hunt leaves: the frame still under way, the frames discarded in their order, and the content accepted. -/
structure Hunt where
  buffer : List Byte
  discarded : List (List Byte)
  accepted : Option (Byte × Byte × List Byte)
  deriving DecidableEq, Repr

/-- The hunt of the port over the bytes received (R167). Every byte after an accepted frame is discarded until the
response has been sent, so an acceptance ends the hunt. -/
def hunt : List Byte → List Byte → Hunt
  | buffer, [] => { buffer, discarded := [], accepted := none }
  | buffer, b :: rest =>
    match huntByte buffer b with
    | .waiting buffer => hunt buffer rest
    | .discarded frame =>
      let h := hunt [] rest
      { h with discarded := frame :: h.discarded }
    | .accepted kind tag body => { buffer := [], discarded := [], accepted := some (kind, tag, body) }

/-- What a well-formed terminal frame carries (Table 11-7). -/
inductive TerminalFrame where
  | heartbeat
  | card (number : BitVec 32)
  | key (code : Fin 17)
  deriving DecidableEq, Repr

/-- A terminal frame's content, if it is well-formed: start byte 0x5A, type 0x01, 0x02 or 0x03 with the
bytes that type carries, a key code from 0 to 16, and a matching CRC (R176). -/
def terminalContent (frame : List Byte) : Option TerminalFrame :=
  match frame with
  | [start, 0x01, c0, c1] =>
    if start = bayStart ∧ [c0, c1] = crcBytes [0x01] then some .heartbeat else none
  | [start, 0x02, n0, n1, n2, n3, c0, c1] =>
    if start = bayStart ∧ [c0, c1] = crcBytes [0x02, n0, n1, n2, n3] then
      some (.card (BitVec.ofNat 32 (ofLittleEndian [n0, n1, n2, n3]))) else none
  | [start, 0x03, k, c0, c1] =>
    if start = bayStart ∧ [c0, c1] = crcBytes [0x03, k] then
      if h : k.toNat < 17 then some (.key ⟨k.toNat, h⟩) else none
    else none
  | _ => none

/-- A panel frame: type 0x10, four height marks, eighty cell values, CRC over the type and the bytes after
it (Table 11-7). -/
def panelFrame (marks cells : List Byte) : List Byte :=
  let covered := 0x10 :: marks ++ cells
  bayStart :: covered ++ crcBytes covered

/-- The request codes of Table 11-6. -/
def knownKinds : List Byte :=
  [0x01, 0x02, 0x03, 0x04, 0x05, 0x06, 0x10, 0x11, 0x12, 0x13, 0x14, 0x15,
   0x20, 0x21, 0x22, 0x23, 0x30, 0x31, 0x32, 0x33, 0x34, 0x35, 0x40, 0x41,
   0x42, 0x50, 0x51, 0x52, 0x53, 0x54, 0x55, 0x56, 0x60, 0x61, 0x62, 0x70,
   0x71, 0x72, 0x73, 0x74, 0x78, 0x79, 0x7A, 0x80, 0x81, 0x82]

end Sys2Proof.Machine
end

