-- ==== Sys2Proof/Syntax.lean ====
section
/-! DEFINITION. The commands of the RC412: one constructor for each row of spec/opcode_table.json, in the
table's order. A host request carries the tag and the body bytes of its accepted frame (Table 11-1); the
part itself reads the body as Table 11-4 lays it out, so that a body that does not fit its kind is a
command like any other (R168). The table gives no row any operands; they are the model's (log entry 1). -/

namespace Sys2Proof

/-- The two permissive inputs of a bay (R65). -/
inductive Permissive where
  | bond
  | overfill
  deriving DecidableEq, Repr

/-- What the probe front-end hands over for one probe (R112): a temperature in tenths of a degree, or a
fault indication. -/
inductive ProbeReading where
  | temperature (tenths : Int)
  | fault
  deriving DecidableEq, Repr

/-- A reset that a loss of power cut in the midst of its recovery (R56, R174): which reset it was, and how many of the
orders then ACTIVE it had recovered, in the order in which it takes them (log entry 30). -/
structure CutReset where
  /-- It was a rack reset; else a power-up. -/
  byRackReset : Bool
  /-- The number of orders recovered before the loss. -/
  recovered : Nat
  deriving DecidableEq, Repr

/-- What a power-up finds: the levels on the level inputs when the power-on reset input is released (R81, R170,
section 11.1; log entry 8), and the resets that losses of power have cut since the part last ran (log entry 30). -/
structure Found where
  /-- The baud strap is high (115 200 bit/s). -/
  strapHigh : Bool
  /-- The ESD input is active. -/
  esdActive : Bool
  /-- The BOND input of each bay is present. -/
  bond : Vector Bool 4
  /-- The OVERFILL input of each bay is present. -/
  overfill : Vector Bool 4
  /-- The CONNECTED input of each arm is present. -/
  connected : Vector Bool 12
  /-- The resets cut before this power-up, the earliest first. -/
  cuts : List CutReset
  deriving DecidableEq, Repr

/-- The commands, one for each row of the opcode table. -/
inductive Instr where
  /-- POWER_UP (R174): Power returns and the power-on reset input is released: flags cleared with RESTART set, batches and injectors reset, ACTIVE orders recovered, sessions IDLE, clock UNSET and ESD active. -/
  | powerUp (found : Found)
  /-- HOST_FRAME_DISCARD (R167): A received host-link frame with a bad length or CRC is discarded without response and hunting resumes. -/
  | hostFrameDiscard (received : List Byte)
  /-- HOST_FRAME_TIMEOUT (R167): More than 10 ms pass between two bytes of a host-link frame, which is then discarded. -/
  | hostFrameTimeout (received : List Byte)
  /-- UNKNOWN_KIND (R168): An accepted frame whose kind is not in the request catalogue is answered INVALID with an empty body. -/
  | unknownKind (kind : Byte) (tag : Byte) (body : List Byte)
  /-- RESPONSE_SENT (R167): The last byte of a response has been sent and the port resumes hunting for a start byte. -/
  | responseSent
  /-- STATUS_GET (R173): Returns clock, ESD state, flags, mask and per-bay, per-arm and per-injector states without change. -/
  | statusGet (tag : Byte) (body : List Byte)
  /-- EVENTS_ACK (R172): Clears the named event flags. -/
  | eventsAck (tag : Byte) (body : List Byte)
  /-- EVENTS_MASK (R172): Replaces the whole event mask with the named set. -/
  | eventsMask (tag : Byte) (body : List Byte)
  /-- CLOCK_SET (R169): Sets the rack clock to the given day and second. -/
  | clockSet (tag : Byte) (body : List Byte)
  /-- RACK_RESET (R174): Resets flags, batches, injectors, sessions and volatile permit fields, and recovers ACTIVE orders, keeping clock and retained records. -/
  | rackReset (tag : Byte) (body : List Byte)
  /-- CLEAR_ALL (R175): With every session IDLE and no proving run, returns every retained table to its defaults. -/
  | clearAll (tag : Byte) (body : List Byte)
  /-- PERMIT_PUT (R3): Creates or replaces a permit record after field checks. -/
  | permitPut (tag : Byte) (body : List Byte)
  /-- PERMIT_GET (R5): Returns a permit record except its personal code. -/
  | permitGet (tag : Byte) (body : List Byte)
  /-- PERMIT_LIST (R6): Returns up to 16 card numbers greater than the starting card, with a more indication. -/
  | permitList (tag : Byte) (body : List Byte)
  /-- PERMIT_HOLD (R8): Places a persistent or dynamic hold on a permit. -/
  | permitHold (tag : Byte) (body : List Byte)
  /-- PERMIT_RELEASE (R9): Releases a persistent or dynamic hold; a dynamic release also zeroes strikes. -/
  | permitRelease (tag : Byte) (body : List Byte)
  /-- PERMIT_RETIRE (R7): Removes a permit not in session and not named by an OPEN or ACTIVE order. -/
  | permitRetire (tag : Byte) (body : List Byte)
  /-- PRODUCT_PUT (R22): Defines or replaces a product record after field checks. -/
  | productPut (tag : Byte) (body : List Byte)
  /-- PRODUCT_GET (R23): Returns a product record with its in-use indication. -/
  | productGet (tag : Byte) (body : List Byte)
  /-- PRODUCT_DELETE (R24): Makes a product slot UNDEFINED unless an OPEN or ACTIVE order names it. -/
  | productDelete (tag : Byte) (body : List Byte)
  /-- MATRIX_PUT (R28): Sets or keeps the eight verdicts of one compatibility-matrix row and reads it back. -/
  | matrixPut (tag : Byte) (body : List Byte)
  /-- ORDER_CREATE (R43): Creates an OPEN order in the lowest FREE slot with the next creation sequence. -/
  | orderCreate (tag : Byte) (body : List Byte)
  /-- ORDER_AMEND (R44): Changes the plan and product of one compartment of an OPEN or ACTIVE order. -/
  | orderAmend (tag : Byte) (body : List Byte)
  /-- ORDER_CANCEL (R46): Frees the slot of an OPEN order. -/
  | orderCancel (tag : Byte) (body : List Byte)
  /-- ORDER_GET (R47): Returns an order with up to four compartments from a starting position, and computed totals and averages. -/
  | orderGet (tag : Byte) (body : List Byte)
  /-- ORDER_LIST (R48): Returns up to 32 orders passing a state filter beyond a starting creation sequence. -/
  | orderList (tag : Byte) (body : List Byte)
  /-- ORDER_COLLECT (R49): Frees the slot of a NOTED order whose note number matches. -/
  | orderCollect (tag : Byte) (body : List Byte)
  /-- BAY_CLOSE (R78): Host closes a bay's session, stopping flowing arms and ending held batches. -/
  | bayClose (tag : Byte) (body : List Byte)
  /-- BAY_RESET (R79): Host resets a bay: batches end at once without settle, and the session releases or closes its order. -/
  | bayReset (tag : Byte) (body : List Byte)
  /-- BAY_MESSAGE (R164): Sets a bay's override screen for a duration. -/
  | bayMessage (tag : Byte) (body : List Byte)
  /-- ARM_PUT (R83): Assigns or unassigns an arm record with all its fields. -/
  | armPut (tag : Byte) (body : List Byte)
  /-- ARM_GET (R84): Returns the arm record and its live batch figures. -/
  | armGet (tag : Byte) (body : List Byte)
  /-- ARM_RETURN (R84): Returns an OUT_OF_SERVICE arm to IN_SERVICE. -/
  | armReturn (tag : Byte) (body : List Byte)
  /-- HEADER_PUT (R96): Sets a header's capacity and recomputes the ceilings of its drawing arms. -/
  | headerPut (tag : Byte) (body : List Byte)
  /-- HEADER_GET (R96): Returns a header's capacity, drawing set and ceilings. -/
  | headerGet (tag : Byte) (body : List Byte)
  /-- BATCH_HOLD (R103): Host holds an arm's batch with the HOST cause. -/
  | batchHold (tag : Byte) (body : List Byte)
  /-- BATCH_RESUME (R103): Host resumes a HELD batch whose set holds no condition cause. -/
  | batchResume (tag : Byte) (body : List Byte)
  /-- METER_PUT (R120): Configures an unbound meter's header, K factor and probe presence. -/
  | meterPut (tag : Byte) (body : List Byte)
  /-- METER_GET (R121): Returns a meter record with its role and bound state. -/
  | meterGet (tag : Byte) (body : List Byte)
  /-- METER_CLEAR (R121): Returns a meter to OK and clears its counts and unauthorized volume. -/
  | meterClear (tag : Byte) (body : List Byte)
  /-- INJECTOR_PUT (R138): Configures an idle, unreserved injector's six configuration fields. -/
  | injectorPut (tag : Byte) (body : List Byte)
  /-- INJECTOR_GET (R139): Returns an injector record, free stock, queue and current shot. -/
  | injectorGet (tag : Byte) (body : List Byte)
  /-- INJECTOR_CLEAR (R139): Clears an injector's FAULT and its consecutive failures. -/
  | injectorClear (tag : Byte) (body : List Byte)
  /-- STOCK_ADD (R140): Raises an injector's stock by an amount. -/
  | stockAdd (tag : Byte) (body : List Byte)
  /-- STOCK_SET (R140): Replaces an injector's stock. -/
  | stockSet (tag : Byte) (body : List Byte)
  /-- PROVE_START (R144): Starts a proving run of a number of shots on an idle, unreserved injector. -/
  | proveStart (tag : Byte) (body : List Byte)
  /-- PROVE_RESULT (R147): Computes a new K factor from the measured volume and installs it if within 10 percent. -/
  | proveResult (tag : Byte) (body : List Byte)
  /-- PROVE_ABORT (R148): Ends a proving run early, keeping the K factor. -/
  | proveAbort (tag : Byte) (body : List Byte)
  /-- SCREEN_PUT (R159): Writes a screen record not currently shown at any bay. -/
  | screenPut (tag : Byte) (body : List Byte)
  /-- SCREEN_GET (R159): Returns a screen record and the bays currently showing it. -/
  | screenGet (tag : Byte) (body : List Byte)
  /-- PROMPT_MAP_PUT (R163): Changes prompt-map entries and returns all nine. -/
  | promptMapPut (tag : Byte) (body : List Byte)
  /-- HEARTBEAT (R67): A well-formed heartbeat frame from a bay terminal counts as a sign of life. -/
  | heartbeat (bay : BayId)
  /-- BAY_FRAME_DISCARD (R176): A terminal frame that is not well-formed is discarded and is no sign of life. -/
  | bayFrameDiscard (bay : BayId) (received : List Byte)
  /-- BAY_FRAME_TIMEOUT (R176): More than 10 ms pass between two bytes of a terminal frame, which is then discarded. -/
  | bayFrameTimeout (bay : BayId) (received : List Byte)
  /-- CARD_EVENT (R60): A card frame is handed to the session and, in IDLE, to the card presentation check. -/
  | cardEvent (bay : BayId) (card : BitVec 32)
  /-- DIGIT_KEY (R63): A digit key is collected, selects a candidate, sets the focus position or selects a compartment, according to state. -/
  | digitKey (bay : BayId) (digit : Fin 10)
  /-- ENTER (R61): ENTER in CODE_ENTRY refuses an incomplete code or hands four digits to the code check. -/
  | enter (bay : BayId)
  /-- CANCEL (R64): CANCEL ends a pre-loading session, clears a selection in LOADING, or clears the refusal in IDLE. -/
  | cancel (bay : BayId)
  /-- ARM (R69): The ARM key in LOADING sets arm selection pending. -/
  | arm (bay : BayId)
  /-- START (R71): START in LOADING runs the thirteen ordered start checks on the focus arm and selected compartment. -/
  | start (bay : BayId)
  /-- STOP (R92): STOP on the focus arm takes a flowing or HELD batch to CLOSING with close kind STOPPED. -/
  | stop (bay : BayId)
  /-- RESUME (R102): The driver's RESUME on the focus arm is judged against the hold set. -/
  | resume (bay : BayId)
  /-- FINISH (R76): FINISH in LOADING, with no arm flowing or closing, ends held batches and takes the session to CLOSING. -/
  | finish (bay : BayId)
  /-- SESSION_TIMEOUT (R64): The CODE_ENTRY, ORDER_SELECT or WAIT_BOND time limit expires and the session returns to IDLE. -/
  | sessionTimeout (bay : BayId)
  /-- INACTIVITY_LIMIT_EXPIRY (R75): The 600 s LOADING inactivity limit expires and the session acts as if FINISH were keyed with cause TIMEOUT. -/
  | inactivityLimitExpiry (bay : BayId)
  /-- REFUSAL_DISPLAY_EXPIRY (R80): The 5 s refusal display time runs out and the refusal reason becomes none. -/
  | refusalDisplayExpiry (bay : BayId)
  /-- TERMINAL_LOST (R68): No well-formed frame for 3 s makes the terminal LOST, ending a pre-loading session or holding the bay's batches. -/
  | terminalLost (bay : BayId)
  /-- PERMISSIVE_INPUT_PRESENT (R65): A BOND or OVERFILL input becoming present starts its 2 s debounce. -/
  | permissiveInputPresent (bay : BayId) (which : Permissive)
  /-- PERMISSIVE_DEBOUNCE_END (R65): The 2 s debounce ends and the permissive becomes PRESENT, removing PERMISSIVE causes when both are present. -/
  | permissiveDebounceEnd (bay : BayId) (which : Permissive)
  /-- PERMISSIVE_INPUT_ABSENT (R65): A BOND or OVERFILL input becoming absent makes the permissive NOT_PRESENT and hands PERMISSIVE to the bay's batches. -/
  | permissiveInputAbsent (bay : BayId) (which : Permissive)
  /-- CONNECTED_ABSENT (R99): An arm's CONNECTED input becoming absent hands ARM_DISCONNECTED to its batch. -/
  | connectedAbsent (armId : ArmId)
  /-- CONNECTED_PRESENT (R101): An arm's CONNECTED input becoming present removes ARM_DISCONNECTED from its HELD batch. -/
  | connectedPresent (armId : ArmId)
  /-- ESD_INPUT_ACTIVE (R170): The ESD input becoming active makes the ESD state active at once, holding batches and ending shots and proving runs. -/
  | esdInputActive
  /-- ESD_INPUT_INACTIVE (R170): The ESD input becoming inactive while ESD is active starts the 2 s release debounce. -/
  | esdInputInactive
  /-- ESD_DEBOUNCE_END (R170): The release debounce ends, the ESD state becomes inactive and ESD causes leave every hold set. -/
  | esdDebounceEnd
  /-- METER_A_PULSE (R109): An A pulse adds 10 000 to the residue, producing tenths credited to the bound batch or to unauthorized volume. -/
  | meterAPulse (meter : MeterId)
  /-- METER_B_PULSE (R109): A B pulse adds to the B count for the integrity check. -/
  | meterBPulse (meter : MeterId)
  /-- PROBE_READING (R112): Once each second each present probe is read and sets its meter's last temperature and probe state. -/
  | probeReading (meter : MeterId) (reading : ProbeReading)
  /-- BLEND_TIMER_EXPIRY (R115): Each second of flow the blend demand is set from the main measured flow and the blend ratio. -/
  | blendTimerExpiry (armId : ArmId)
  /-- NO_FLOW_TIMER_EXPIRY (R117): 10 s without a main pulse at non-zero demand holds the batch with NO_FLOW. -/
  | noFlowTimerExpiry (armId : ArmId)
  /-- RAMP_TIMER_EXPIRY (R89): The ramp interval expires and the demand moves one step toward the ceiling, entering HIGH on reaching it. -/
  | rampTimerExpiry (armId : ArmId)
  /-- SETTLE_TIMER_EXPIRY (R93): 2 s without a pulse on the bound meters ends a CLOSING batch with its close kind. -/
  | settleTimerExpiry (armId : ArmId)
  /-- LEAK_TIMER_EXPIRY (R93): 30 s in CLOSING without settling ends the batch with VALVE_LEAK, takes the arm OUT_OF_SERVICE and sets ARM_FAULT. -/
  | leakTimerExpiry (armId : ArmId)
  /-- ADDITIVE_METER_PULSE (R130): An additive meter pulse is counted to the current shot. -/
  | additiveMeterPulse (injector : InjectorId)
  /-- SHOT_WINDOW_EXPIRY (R130): The shot window expires before the target, the solenoid closes with outcome FAILED and the tail starts. -/
  | shotWindowExpiry (injector : InjectorId)
  /-- SHOT_TAIL_END (R131): The 1 s tail ends and the shot is credited, the queue rotated and the next shot started. -/
  | shotTailEnd (injector : InjectorId)
  /-- PANEL_REFRESH (R165): Every 200 ms each bay's situation is settled, a screen chosen, filled and sent as a panel frame. -/
  | panelRefresh (bay : BayId)
  /-- OVERRIDE_EXPIRY (R164): A bay's message override time runs out and the override is cancelled. -/
  | overrideExpiry (bay : BayId)
  /-- RESTORED_TIME_EXPIRY (R165): The 5 s restored time reaches 0 and TERMINAL_RESTORED is no longer shown. -/
  | restoredTimeExpiry (bay : BayId)
  /-- CLOCK_TICK (R169): The set rack clock advances one second, passing to the next day at second 86399. -/
  | clockTick
  deriving DecidableEq, Repr

end Sys2Proof
end

