-- ==== Sys2Proof/WellFormed.lean ====
section
/-! DEFINITION. Which commands can occur: a request's body is what a frame of Table 11-1 can carry, the
frames of the discard rows are frames that fail their tests, an unknown kind is one that Table 11-6 does
not list, and a probe reading lies in the range of Table 6-1. Numbers of bays, arms, meters and injectors
are in range by their types. Only a check of commands: `exec` gives every command its meaning, checked or
not. -/

namespace Sys2Proof

open Sys2Proof.Machine

/-- A request body has at most 500 bytes (Table 11-1). -/
def bodyFits (body : List Byte) : Bool := decide (body.length ≤ 500)

/-- The command can occur. -/
def Instr.wellFormed : Instr → Bool
  | .statusGet _ body => bodyFits body
  | .eventsAck _ body => bodyFits body
  | .eventsMask _ body => bodyFits body
  | .clockSet _ body => bodyFits body
  | .rackReset _ body => bodyFits body
  | .clearAll _ body => bodyFits body
  | .permitPut _ body => bodyFits body
  | .permitGet _ body => bodyFits body
  | .permitList _ body => bodyFits body
  | .permitHold _ body => bodyFits body
  | .permitRelease _ body => bodyFits body
  | .permitRetire _ body => bodyFits body
  | .productPut _ body => bodyFits body
  | .productGet _ body => bodyFits body
  | .productDelete _ body => bodyFits body
  | .matrixPut _ body => bodyFits body
  | .orderCreate _ body => bodyFits body
  | .orderAmend _ body => bodyFits body
  | .orderCancel _ body => bodyFits body
  | .orderGet _ body => bodyFits body
  | .orderList _ body => bodyFits body
  | .orderCollect _ body => bodyFits body
  | .bayClose _ body => bodyFits body
  | .bayReset _ body => bodyFits body
  | .bayMessage _ body => bodyFits body
  | .armPut _ body => bodyFits body
  | .armGet _ body => bodyFits body
  | .armReturn _ body => bodyFits body
  | .headerPut _ body => bodyFits body
  | .headerGet _ body => bodyFits body
  | .batchHold _ body => bodyFits body
  | .batchResume _ body => bodyFits body
  | .meterPut _ body => bodyFits body
  | .meterGet _ body => bodyFits body
  | .meterClear _ body => bodyFits body
  | .injectorPut _ body => bodyFits body
  | .injectorGet _ body => bodyFits body
  | .injectorClear _ body => bodyFits body
  | .stockAdd _ body => bodyFits body
  | .stockSet _ body => bodyFits body
  | .proveStart _ body => bodyFits body
  | .proveResult _ body => bodyFits body
  | .proveAbort _ body => bodyFits body
  | .screenPut _ body => bodyFits body
  | .screenGet _ body => bodyFits body
  | .promptMapPut _ body => bodyFits body
  | .hostFrameDiscard received => (hunt [] received).accepted.isNone
  | .hostFrameTimeout received => (hunt [] received).accepted.isNone
  | .unknownKind kind _ body => !(knownKinds.contains kind) && bodyFits body
  | .bayFrameDiscard _ received => (terminalContent received).isNone
  | .bayFrameTimeout _ received => (terminalContent received).isNone
  | .probeReading _ (.temperature t) => decide (-9999 ≤ t ∧ t ≤ 9999)
  | .powerUp _ => true
  | .responseSent => true
  | .heartbeat _ => true
  | .cardEvent _ _ => true
  | .digitKey _ _ => true
  | .enter _ => true
  | .cancel _ => true
  | .arm _ => true
  | .start _ => true
  | .stop _ => true
  | .resume _ => true
  | .finish _ => true
  | .sessionTimeout _ => true
  | .inactivityLimitExpiry _ => true
  | .refusalDisplayExpiry _ => true
  | .terminalLost _ => true
  | .permissiveInputPresent _ _ => true
  | .permissiveDebounceEnd _ _ => true
  | .permissiveInputAbsent _ _ => true
  | .connectedAbsent _ => true
  | .connectedPresent _ => true
  | .esdInputActive => true
  | .esdInputInactive => true
  | .esdDebounceEnd => true
  | .meterAPulse _ => true
  | .meterBPulse _ => true
  | .probeReading _ .fault => true
  | .blendTimerExpiry _ => true
  | .noFlowTimerExpiry _ => true
  | .rampTimerExpiry _ => true
  | .settleTimerExpiry _ => true
  | .leakTimerExpiry _ => true
  | .additiveMeterPulse _ => true
  | .shotWindowExpiry _ => true
  | .shotTailEnd _ => true
  | .panelRefresh _ => true
  | .overrideExpiry _ => true
  | .restoredTimeExpiry _ => true
  | .clockTick => true

end Sys2Proof
end

