-- ==== Sys2Proof/Decode.lean ====
section
/-! DEFINITION. Decoding. The opcode table gives no row any bits, so no word spells a command
(`decodeTableWord`). What the part does receive as bytes, frames, is decoded here by Tables 11-1, 11-6 and
11-7: `hostCommands` and `terminalCommand` name the commands that the bytes received are. -/

namespace Sys2Proof

open Sys2Proof.Machine

/-- The command that a word spells by the opcode table's bits: none, since no row has bits. -/
def decodeTableWord (_nbits _w : Nat) : Option Instr := none

/-- The request of a kind (Table 11-6). -/
def requestOf (kind tag : Byte) (body : List Byte) : Instr :=
  match kind with
  | 0x01 => .statusGet tag body
  | 0x02 => .eventsAck tag body
  | 0x03 => .eventsMask tag body
  | 0x04 => .clockSet tag body
  | 0x05 => .rackReset tag body
  | 0x06 => .clearAll tag body
  | 0x10 => .permitPut tag body
  | 0x11 => .permitGet tag body
  | 0x12 => .permitList tag body
  | 0x13 => .permitHold tag body
  | 0x14 => .permitRelease tag body
  | 0x15 => .permitRetire tag body
  | 0x20 => .productPut tag body
  | 0x21 => .productGet tag body
  | 0x22 => .productDelete tag body
  | 0x23 => .matrixPut tag body
  | 0x30 => .orderCreate tag body
  | 0x31 => .orderAmend tag body
  | 0x32 => .orderCancel tag body
  | 0x33 => .orderGet tag body
  | 0x34 => .orderList tag body
  | 0x35 => .orderCollect tag body
  | 0x40 => .bayClose tag body
  | 0x41 => .bayReset tag body
  | 0x42 => .bayMessage tag body
  | 0x50 => .armPut tag body
  | 0x51 => .armGet tag body
  | 0x52 => .armReturn tag body
  | 0x53 => .headerPut tag body
  | 0x54 => .headerGet tag body
  | 0x55 => .batchHold tag body
  | 0x56 => .batchResume tag body
  | 0x60 => .meterPut tag body
  | 0x61 => .meterGet tag body
  | 0x62 => .meterClear tag body
  | 0x70 => .injectorPut tag body
  | 0x71 => .injectorGet tag body
  | 0x72 => .injectorClear tag body
  | 0x73 => .stockAdd tag body
  | 0x74 => .stockSet tag body
  | 0x78 => .proveStart tag body
  | 0x79 => .proveResult tag body
  | 0x7A => .proveAbort tag body
  | 0x80 => .screenPut tag body
  | 0x81 => .screenGet tag body
  | 0x82 => .promptMapPut tag body
  | _ => .unknownKind kind tag body

/-- The operands of the discards of one stretch of bytes: each the frame discarded, the last with the bytes of the frame
then under way behind it (log entry 1). -/
def discardOperands : List (List Byte) → List Byte → List (List Byte)
  | [], _ => []
  | [last], rest => [last ++ rest]
  | frame :: next :: frames, rest => frame :: discardOperands (next :: frames) rest

/-- The commands that the bytes received on the host link are, where the hunting port holds the bytes `buffer` of a
frame under way: a discard for each frame that fails its tests, then the request of the frame accepted, if one is. Bytes
between frames, and the bytes of a frame not yet complete, are no command (R167, R168); `State.receive` keeps the latter
in the port's buffer. -/
def hostCommands (buffer received : List Byte) : List Instr :=
  match (hunt buffer received).accepted with
  | some (kind, tag, body) =>
    (hunt buffer received).discarded.map .hostFrameDiscard ++ [requestOf kind tag body]
  | none => (discardOperands (hunt buffer received).discarded (hunt buffer received).buffer).map .hostFrameDiscard

/-- The command of a key code (Table 11-7). -/
def keyCommand (bay : BayId) (code : Fin 17) : Instr :=
  if h : code.val < 10 then .digitKey bay ⟨code.val, h⟩
  else match code.val with
  | 10 => .enter bay
  | 11 => .cancel bay
  | 12 => .arm bay
  | 13 => .start bay
  | 14 => .stop bay
  | 15 => .resume bay
  | _ => .finish bay

/-- The command that the bytes of one terminal frame are (R176). -/
def terminalCommand (bay : BayId) (frame : List Byte) : Instr :=
  match terminalContent frame with
  | some .heartbeat => .heartbeat bay
  | some (.card number) => .cardEvent bay number
  | some (.key code) => keyCommand bay code
  | none => .bayFrameDiscard bay frame

end Sys2Proof
end

