-- ==== Sys2Proof/Config.lean ====
section
/-! DEFINITION. The free values: what the manual leaves open where the part goes on (log entry 16). -/

namespace Sys2Proof

/-- The values the manual does not state: the k-th one drawn is `Config.freeValue k`, with k counted by
`State.freeCount`. It has no body, so nothing can be proved of it: the delivered volume of an additive
result past its range (Table 3-4), the total pulses of a proving run past theirs (Table 8-1), the computed K of a
measured volume of 0 (R147). -/
opaque Config.freeValue : Nat → Nat

/-- The most permit records the Permit Table holds (R1). -/
abbrev Config.permitCapacity : Nat := 512

end Sys2Proof
end

