-- ==== Sys2Proof/Machine/State.lean ====
section
/-! DEFINITION. The state of the RC412: every record of every block (Table 0-1), the levels of its inputs,
what it last sent, and the queue of commands that wait. All of it is plain data; sets are lists that hold
their members in one fixed order without repeats, so that equal sets are equal data. -/

namespace Sys2Proof.Machine

/-! ### Named values, each in the order its chapter lists them (Table 11-4) -/

/-- Dynamic hold of a permit (Table 1-1). -/
inductive DynamicHold where
  | none | host | strike
  deriving DecidableEq, Repr

/-- Requirement of an additive entry (Table 2-2). -/
inductive Requirement where
  | required | optional
  deriving DecidableEq, Repr

/-- Verdict of the compatibility matrix (section 2.4). -/
inductive Verdict where
  | allow | lowFlow | forbid
  deriving DecidableEq, Repr

/-- Service state of an arm or an injector (Tables 5-1, 7-1). -/
inductive Service where
  | inService | outOfService
  deriving DecidableEq, Repr

/-- State of a compartment entry (Table 3-3). -/
inductive CompState where
  | unplanned | planned | loading | held | partly | filled
  deriving DecidableEq, Repr

/-- Compartment flags (Table 3-3, R41). -/
inductive CompFlag where
  | tempSubstituted | lowFlowOnly | closedUnderTrip | endedByReset | valveLeak | powerInterrupted
  deriving DecidableEq, Repr

/-- Flags of an additive result (Table 3-4). -/
inductive ResultFlag where
  | underdosed | lagged | outOfTolerance | skipped
  deriving DecidableEq, Repr

/-- Note flags (section 3.1, R152). -/
inductive NoteFlag where
  | powerInterrupted | bayReset | hostClosed
  deriving DecidableEq, Repr

/-- State of a bay session (Table 4-1). -/
inductive SessionState where
  | idle | codeEntry | orderSelect | waitBond | loading | closing
  deriving DecidableEq, Repr

/-- Close cause of a session (Table 4-1); no cause is `none` of the optional field. -/
inductive CloseCause where
  | driver | timeout | host | reset
  deriving DecidableEq, Repr

/-- Liveness of a bay terminal (Table 4-1). -/
inductive Terminal where
  | present | lost
  deriving DecidableEq, Repr

/-- Refusal reasons shown at a bay (Table 4-4; NOT_HELD and HOLD_CONDITION from R92 and R102). -/
inductive Reason where
  | clockUnset | esdActive | unknownCard | inSessionElsewhere | permitHeld | notYetValid | permitExpired
  | allowanceUsed | codeIncomplete | wrongCode | struckOut | noOrder | orderUnavailable | sessionTimeout
  | noSuchArm | permissiveMissing | armOutOfService | armBusy | armNotConnected | compNotLoadable
  | productNotOnArm | classNotPermitted | incompatible | meterFault | injectorUnavailable | doseUnworkable
  | additiveShort | armsFlowing | hostHold | notHeld | holdCondition
  deriving DecidableEq, Repr

/-- State of a batch out of IDLE (Table 5-2); IDLE is the absent batch (R85). -/
inductive BatchState where
  | lowStart | ramping | high | topping | closing | held
  deriving DecidableEq, Repr

/-- Hold causes, in the order of Table 5-6. -/
inductive HoldCause where
  | permissive | esd | armDisconnected | terminalLost | meter | additive | noFlow | blend | host
  deriving DecidableEq, Repr

/-- Close kind of a batch (Table 5-2); no kind is `none` of the optional field. -/
inductive CloseKind where
  | target | stopped
  deriving DecidableEq, Repr

/-- State of a meter (Table 6-1). -/
inductive MeterState where
  | ok | fault
  deriving DecidableEq, Repr

/-- State of a temperature probe (Table 6-1). -/
inductive ProbeState where
  | noReading | valid | outOfRange | probeFault
  deriving DecidableEq, Repr

/-- State of an injector (Table 7-1). -/
inductive InjectorState where
  | idle | shot | fault | proving | proveWait
  deriving DecidableEq, Repr

/-- Phase of a shot (Table 7-3). -/
inductive ShotPhase where
  | opened | tail
  deriving DecidableEq, Repr

/-- How the open phase of a shot ended (Table 7-3). -/
inductive ShotOutcome where
  | none | completed | failed | ended
  deriving DecidableEq, Repr

/-- Emphasis of a panel cell (R160): codes NORMAL 0, INVERSE 1, FLASHING 2. -/
inductive Emphasis where
  | normal | inverse | flashing
  deriving DecidableEq, Repr

/-- Field codes, in the order of Table 10-2 with CANDIDATE_1 to CANDIDATE_4 spelled out. -/
inductive FieldCode where
  | holderName | cardNo | orderNo | tankerId | candidate1 | candidate2 | candidate3 | candidate4 | focusArm
  | compNo | productName | planned | delivered | remaining | flow | holdCause | reason | codeMask | clock
  | noteNo
  deriving DecidableEq, Repr

/-- Display situations, in the order of R162. -/
inductive Situation where
  | terminalRestored | refusal | armHeld | idle | codeEntry | orderSelect | waitBond | loading | closing
  deriving DecidableEq, Repr

/-- Event flags, in the order of Table 11-5. -/
inductive EventFlag where
  | restart | session1 | session2 | session3 | session4 | orderNoted | strikeout | batchHold | armFault
  | meterFault | unauthFlow | injectorFault | stockLow | proveDone | esdChange | terminalLost
  deriving DecidableEq, Repr

/-- Result codes of a response, in the order of Table 11-2. -/
inductive ResultCode where
  | ok | notFound | exists | full | invalid | inUse | wrongState
  deriving DecidableEq, Repr

/-- What the Host Link Port is doing (R167): hunting for a start byte, or busy from the acceptance of a
frame to the last byte of its response. -/
inductive PortPhase where
  | hunting | responding
  deriving DecidableEq, Repr

/-! ### Records -/

/-- A time of the rack clock: day number and second of the day (R169). -/
structure Time where
  day : Nat
  second : Nat
  deriving DecidableEq, Repr

/-- Permit record (Table 1-1). -/
structure Permit where
  card : Nat
  name : List Glyph
  code : List (Fin 10)
  classes : List GroupCode
  validFrom : Nat
  expiry : Nat
  allowance : Option Nat
  strikes : Nat
  /-- The persistent hold is SET. -/
  persistent : Bool
  dynamic : DynamicHold
  sessionBay : Option BayId
  deriving DecidableEq, Repr

/-- Blend part of a product (Table 2-1). -/
structure BlendPart where
  header : HeaderId
  ratio : Nat
  tolerance : Nat
  deriving DecidableEq, Repr

/-- Additive entry of a product (Table 2-2). -/
structure AdditiveEntry where
  injector : InjectorId
  rate : Nat
  requirement : Requirement
  tolerance : Nat
  deriving DecidableEq, Repr

/-- Correction point (Table 2-3): temperature in tenths of a degree, factor in ten-thousandths. -/
structure CorrectionPoint where
  temperature : Int
  factor : Nat
  deriving DecidableEq, Repr

/-- Product record (Table 2-1). -/
structure Product where
  name : List Glyph
  cls : GroupCode
  group : GroupCode
  mainHeader : HeaderId
  blend : Option BlendPart
  additives : List AdditiveEntry
  correction : List CorrectionPoint
  deriving DecidableEq, Repr

/-- An additive entry as a recipe snapshot holds it (R31): with its entry index, and whether the start
marked it SKIPPED. -/
structure SnapshotEntry where
  entry : AdditiveEntry
  index : Nat
  skipped : Bool
  deriving DecidableEq, Repr

/-- Recipe snapshot of a batch (R31). -/
structure Snapshot where
  code : ProductId
  name : List Glyph
  cls : GroupCode
  group : GroupCode
  mainHeader : HeaderId
  blend : Option BlendPart
  entries : List SnapshotEntry
  correction : List CorrectionPoint
  verdict : Verdict
  deriving DecidableEq, Repr

/-- Additive result of a compartment (Table 3-4). -/
structure AdditiveResult where
  index : Nat
  injector : InjectorId
  rate : Nat
  requirement : Requirement
  tolerance : Nat
  expected : Nat
  delivered : Nat
  flags : List ResultFlag
  deriving DecidableEq, Repr

/-- Compartment entry of an order (Table 3-3); volumes in tenths of a litre. -/
structure Compartment where
  number : CompNo
  capacity : Nat
  planned : Nat
  product : Option ProductId
  prevGroup : Option GroupCode
  state : CompState
  gross : Nat
  net : Nat
  tempSum : Int
  batchCount : Nat
  lastArm : Option ArmId
  results : List AdditiveResult
  flags : List CompFlag
  deriving DecidableEq, Repr

/-- Session part of an order (section 3.1). -/
structure SessionPart where
  bay : BayId
  startTime : Option Time
  endTime : Option Time
  deriving DecidableEq, Repr

/-- Note part of an order (section 3.1). -/
structure NotePart where
  number : Nat
  holder : List Glyph
  flags : List NoteFlag
  deriving DecidableEq, Repr

/-- State of an order with the parts it carries in that state (R36): a session part exactly in ACTIVE and
NOTED, a note part exactly in NOTED. -/
inductive Stage where
  | opened
  | active (part : SessionPart)
  | noted (part : SessionPart) (note : NotePart)
  deriving DecidableEq, Repr

/-- Order record (Table 3-1). -/
structure Order where
  number : Nat
  seq : Nat
  stage : Stage
  card : Nat
  bay : Option BayId
  tanker : List Glyph
  comps : List Compartment
  deriving DecidableEq, Repr

/-- A compartment named by order slot, order number and compartment number (Table 7-2). -/
structure CompRef where
  slot : SlotId
  order : Nat
  comp : CompNo
  deriving DecidableEq, Repr

/-- One permissive of a bay (R65): the input level, the debounced state, and the 2 s debounce. -/
structure PermissiveUnit where
  input : Bool
  present : Bool
  debounce : Timer
  deriving DecidableEq, Repr

/-- Session context of a bay (Table 4-1), with the terminal's 3 s silence timer (R67). -/
structure Session where
  state : SessionState
  card : Option Nat
  digits : List (Fin 10)
  candidates : List Nat
  bound : Option Nat
  focus : Fin 6
  armPending : Bool
  selected : Option CompNo
  closeCause : Option CloseCause
  timer : Timer
  reason : Option Reason
  reasonTimer : Timer
  terminal : Terminal
  silence : Timer
  bond : PermissiveUnit
  overfill : PermissiveUnit
  deriving DecidableEq, Repr

/-- Shot-point record of one usable entry (R118): the shot volume that fixed its spacing at the start
(check 12), and the number of points passed. -/
structure ShotPoint where
  index : Nat
  shotVolume : Nat
  passed : Nat
  deriving DecidableEq, Repr

/-- Metering context of a batch (section 6.5); `secondTenths` counts the main tenths of the second under
way (R115). -/
structure Metering where
  stepMain : Nat
  stepBlend : Nat
  steps : Nat
  outOfTolerance : Nat
  base : Nat
  points : List ShotPoint
  noFlow : Timer
  blendTimer : Timer
  secondTenths : Nat
  deriving DecidableEq, Repr

/-- Batch context of an arm out of IDLE (Table 5-2). -/
structure Batch where
  state : BatchState
  ref : CompRef
  target : Nat
  snapshot : Snapshot
  gross : Nat
  blendGross : Nat
  net : Nat
  sinceStart : Nat
  mainDemand : Nat
  blendDemand : Nat
  ceiling : Option Nat
  holdSet : List HoldCause
  closeKind : Option CloseKind
  ramp : Timer
  settle : Timer
  leak : Timer
  metering : Metering
  deriving DecidableEq, Repr

/-- Arm record (Table 5-1) with the arm's CONNECTED input and its batch context; no batch is IDLE (R85). -/
structure Arm where
  bay : Option BayId
  mainMeter : Option MeterId
  blendMeter : Option MeterId
  products : List ProductId
  maxFlow : Nat
  lowFlow : Nat
  startupVolume : Nat
  rampStep : Nat
  rampInterval : Nat
  toppingFlow : Nat
  toppingVolume : Nat
  closingAllowance : Nat
  service : Service
  connected : Bool
  batch : Option Batch
  deriving DecidableEq, Repr

/-- Header record (Table 5-4). -/
structure Header where
  capacity : Nat
  drawing : List ArmId
  deriving DecidableEq, Repr

/-- Meter record (Table 6-1). -/
structure Meter where
  header : HeaderId
  k : Nat
  probe : Bool
  state : MeterState
  totalizer : Nat
  residue : Nat
  unauthorized : Nat
  unauthorizedFlag : Bool
  aCount : Nat
  bCount : Nat
  lastTemp : Option Int
  probeState : ProbeState
  deriving DecidableEq, Repr

/-- A reservation: additive set aside on one injector for one compartment (section 7.2). -/
structure Reservation where
  ref : CompRef
  amount : Nat
  deriving DecidableEq, Repr

/-- Entry of a pending queue (Table 7-2). -/
structure QueueEntry where
  arm : ArmId
  ref : CompRef
  index : Nat
  owed : Nat
  inService : Bool
  deriving DecidableEq, Repr

/-- Whose shot a normal shot is (Table 7-3); a proving shot has no owner. -/
structure ShotOwner where
  arm : ArmId
  ref : CompRef
  index : Nat
  deriving DecidableEq, Repr

/-- Current shot of an injector (Table 7-3), with its window and its tail timer (R130). -/
structure Shot where
  owner : Option ShotOwner
  target : Nat
  counted : Nat
  phase : ShotPhase
  outcome : ShotOutcome
  queued : Bool
  window : Timer
  tail : Timer
  deriving DecidableEq, Repr

/-- Proving context (Table 8-1). -/
structure Proving where
  requested : Nat
  remaining : Nat
  totalShots : Nat
  totalPulses : Nat
  oldK : Nat
  deriving DecidableEq, Repr

/-- Injector record (Table 7-1); its reserved figure is the sum of `reservations` (R124, log entry 23). -/
structure Injector where
  service : Service
  shotVolume : Nat
  k : Nat
  window : Nat
  follower : Option InjectorId
  stock : Nat
  mark : Nat
  state : InjectorState
  reservations : List Reservation
  failures : Nat
  queue : List QueueEntry
  shot : Option Shot
  proving : Option Proving
  deriving DecidableEq, Repr

/-- Column cell of a screen line (section 10.1). -/
inductive Cell where
  | character (glyph : Glyph)
  | attr (emphasis : Emphasis)
  | field (code : FieldCode) (width : Nat)
  deriving DecidableEq, Repr

/-- Line of a screen: its format cell and its column cells (section 10.1). -/
structure Line where
  hidden : Bool
  double : Bool
  emphasis : Emphasis
  cells : List Cell
  deriving DecidableEq, Repr

/-- Screen record: four lines (R158). -/
structure Screen where
  lines : Vector Line 4
  deriving DecidableEq, Repr

/-- Entry of the prompt map (R162). -/
structure MapEntry where
  screen : ScreenId
  priority : Bool
  deriving DecidableEq, Repr

/-- Host message in force at a bay (R164): its screen and its remaining time in milliseconds. -/
structure Override where
  screen : ScreenId
  remaining : Nat
  deriving DecidableEq, Repr

/-- Display context of a bay (section 10.4), with the refresh timer and the last frame sent (R165). -/
structure Display where
  current : Option ScreenId
  override : Option Override
  restored : Timer
  lastNote : Option Nat
  refresh : Timer
  frame : Option (List Byte)
  deriving DecidableEq, Repr

/-- ESD state, input and release debounce (R170). -/
structure Esd where
  active : Bool
  input : Bool
  debounce : Timer
  deriving DecidableEq, Repr

/-- Host Link Port (R167): while it hunts, `rx` holds the bytes of the frame under way, from its start byte on; the
accepted request (kind, tag and body) stands there until its response has been sent; `response` is the frame last
composed; `fastBaud` is the strap as sampled at power-up. -/
structure Port where
  phase : PortPhase
  rx : List Byte
  response : Option (List Byte)
  fastBaud : Bool
  deriving DecidableEq, Repr

/-! ### The machine -/

/-- The whole state of the part. -/
structure State where
  permits : List Permit
  products : Vector (Option Product) 32
  matrix : Vector (Vector Verdict 8) 8
  orders : Vector (Option Order) 64
  creationCounter : Nat
  noteCounter : Nat
  bays : Vector Session 4
  arms : Vector Arm 12
  headers : Vector Header 4
  meters : Vector Meter 16
  injectors : Vector Injector 8
  screens : Vector Screen 24
  promptMap : Vector MapEntry 9
  displays : Vector Display 4
  clock : Option Time
  clockPhase : Timer
  esd : Esd
  flags : List EventFlag
  mask : List EventFlag
  port : Port
  /-- How many free values have been drawn (log entry 16). -/
  freeCount : Nat
  /-- The commands that wait, first in, first out. -/
  pending : List Instr
  deriving DecidableEq, Repr

/-- Why the block stops with a fault: never. The spec gives every command an effect, so the type has no
member (INVENTORY.md, "Faults"). -/
inductive Fault where
  deriving DecidableEq, Repr

/-- Why the model has no meaning for a command. -/
inductive Refusal where
  /-- Raised by `exec` alone, for a command that has no meaning yet. Safe: nothing can be proved of it. -/
  | notModelled (mnemonic : String)
  deriving DecidableEq, Repr

/-! ### Reset -/

/-- The blank line: VISIBLE, SINGLE, NORMAL, twenty spaces (R158). -/
def Line.blank : Line :=
  { hidden := false, double := false, emphasis := .normal, cells := List.replicate 20 (.character 0) }

/-- The blank screen (R158). -/
def Screen.blank : Screen := { lines := Vector.replicate 4 Line.blank }

/-- Session context after power-up with both inputs absent (R58, R81). -/
def Session.atReset : Session :=
  { state := .idle, card := none, digits := [], candidates := [], bound := none, focus := 0,
    armPending := false, selected := none, closeCause := none, timer := none, reason := none,
    reasonTimer := none, terminal := .present, silence := some 3000,
    bond := { input := false, present := false, debounce := none },
    overfill := { input := false, present := false, debounce := none } }

/-- The arm record at the defaults of Table 5-1, CONNECTED absent, batch IDLE. -/
def Arm.default : Arm :=
  { bay := none, mainMeter := none, blendMeter := none, products := [], maxFlow := 1000, lowFlow := 200,
    startupVolume := 500, rampStep := 200, rampInterval := 2, toppingFlow := 200, toppingVolume := 1000,
    closingAllowance := 50, service := .inService, connected := false, batch := none }

/-- The header record at the defaults of Table 5-4. -/
def Header.default : Header := { capacity := 2000, drawing := [] }

/-- The meter record at the defaults of Table 6-1. -/
def Meter.default : Meter :=
  { header := 0, k := 100000, probe := false, state := .ok, totalizer := 0, residue := 0, unauthorized := 0,
    unauthorizedFlag := false, aCount := 0, bCount := 0, lastTemp := none, probeState := .noReading }

/-- The injector record at the defaults of Table 7-1. -/
def Injector.default : Injector :=
  { service := .inService, shotVolume := 50, k := 1000, window := 5, follower := none, stock := 0, mark := 0,
    state := .idle, reservations := [], failures := 0, queue := [], shot := none, proving := none }

/-- The prompt-map entry until the host changes it (R162). -/
def MapEntry.default : MapEntry := { screen := 0, priority := false }

/-- Display context after power-up and rack reset (R166); the refresh is counted from there (R165). -/
def Display.atReset : Display :=
  { current := none, override := none, restored := none, lastNote := none, refresh := some 200, frame := none }

/-- The part after its first power-up: retained memory at its defaults (log entry 5), inputs at rest
(log entry 6), nothing sent yet (log entry 7), everything else as R81, R106, R122, R142, R166, R170, R172
and R174 leave it. -/
def State.reset : State :=
  { permits := []
    products := Vector.replicate 32 none
    matrix := Vector.replicate 8 (Vector.replicate 8 .allow)
    orders := Vector.replicate 64 none
    creationCounter := 1
    noteCounter := 1
    bays := Vector.replicate 4 Session.atReset
    arms := Vector.replicate 12 Arm.default
    headers := Vector.replicate 4 Header.default
    meters := Vector.replicate 16 Meter.default
    injectors := Vector.replicate 8 Injector.default
    screens := Vector.replicate 24 Screen.blank
    promptMap := Vector.replicate 9 MapEntry.default
    displays := Vector.replicate 4 Display.atReset
    clock := none
    clockPhase := none
    esd := { active := true, input := true, debounce := none }
    flags := [.restart]
    mask := []
    port := { phase := .hunting, rx := [], response := none, fastBaud := false }
    freeCount := 0
    pending := [] }

end Sys2Proof.Machine
end

