-- ==== Sys2Proof/Machine/Ops.lean ====
section
/-! DEFINITION. The named operations over the records: tables, sets, timers, permits, orders and their
compartments, stock and reservations. Every meaning reads and writes the state through them. -/

namespace Sys2Proof.Machine

/-! ### Tables, numbers, sets, timers -/

/-- The record of number `i` in a table. -/
def vget {α : Type} {n : Nat} (v : Vector α n) (i : Fin n) : α := v[i.val]

/-- The table with the record of number `i` replaced. -/
def vset {α : Type} {n : Nat} (v : Vector α n) (i : Fin n) (x : α) : Vector α n := v.set i.val x

/-- The table with every record changed. -/
def vmap {α β : Type} {n : Nat} (f : α → β) (v : Vector α n) : Vector β n := Vector.ofFn fun i => f v[i.val]

/-- The thing of number `k`, for things numbered from 1 to `n` (00_scope.md, "Numbering"). -/
def numbered (n k : Nat) : Option (Fin n) :=
  if h : 1 ≤ k ∧ k ≤ n then some ⟨k - 1, by omega⟩ else none

/-- The thing of code `k`, for codes from 0 to `n - 1`. -/
def coded (n k : Nat) : Option (Fin n) := if h : k < n then some ⟨k, h⟩ else none

/-- The number, from 1, of a numbered thing. -/
def num {n : Nat} (i : Fin n) : Nat := i.val + 1

/-- `k` lies in `lo` to `hi`. -/
def inRange (lo hi k : Nat) : Bool := decide (lo ≤ k ∧ k ≤ hi)

/-- Adds a member to a set; a set lists its members in the order of `all` (00_scope.md, "Sets and lists"). -/
def addTo {α : Type} [DecidableEq α] (all : List α) (x : α) (set : List α) : List α :=
  all.filter fun y => decide (y = x ∨ y ∈ set)

/-- Removes a member from a set. -/
def dropFrom {α : Type} [DecidableEq α] (x : α) (set : List α) : List α :=
  set.filter fun y => decide (y ≠ x)

/-- A timer started at a number of seconds. -/
def seconds (n : Nat) : Timer := some (1000 * n)

/-- A timer has run out. -/
def Timer.due (t : Timer) : Bool := decide (t = some 0)

/-- An expiry of a timer: it acts where the timer has run out, and an expiry that does not or no longer
applies, because its timer has been stopped or restarted, is not taken (R59, log entry 3). -/
def State.expire (s : State) (t : Timer) (act : State → State) : State := if Timer.due t then act s else s

/-- All hold causes, in the order of Table 5-6. -/
def HoldCause.all : List HoldCause :=
  [.permissive, .esd, .armDisconnected, .terminalLost, .meter, .additive, .noFlow, .blend, .host]

/-- All event flags, in the order of Table 11-5. -/
def EventFlag.all : List EventFlag :=
  [.restart, .session1, .session2, .session3, .session4, .orderNoted, .strikeout, .batchHold, .armFault,
   .meterFault, .unauthFlow, .injectorFault, .stockLow, .proveDone, .esdChange, .terminalLost]

/-- All compartment flags, in the order of Table 3-3. -/
def CompFlag.all : List CompFlag :=
  [.tempSubstituted, .lowFlowOnly, .closedUnderTrip, .endedByReset, .valveLeak, .powerInterrupted]

/-- All additive-result flags, in the order of Table 3-4. -/
def ResultFlag.all : List ResultFlag := [.underdosed, .lagged, .outOfTolerance, .skipped]

/-- All note flags, in the order of section 3.1. -/
def NoteFlag.all : List NoteFlag := [.powerInterrupted, .bayReset, .hostClosed]

/-! ### The records of the state -/

/-- Session context of a bay. -/
def State.session (s : State) (b : BayId) : Session := vget s.bays b
/-- Arm record of an arm. -/
def State.arm (s : State) (a : ArmId) : Arm := vget s.arms a
/-- Header record. -/
def State.header (s : State) (h : HeaderId) : Header := vget s.headers h
/-- Meter record. -/
def State.meter (s : State) (m : MeterId) : Meter := vget s.meters m
/-- Injector record. -/
def State.injector (s : State) (i : InjectorId) : Injector := vget s.injectors i
/-- Display context of a bay. -/
def State.display (s : State) (b : BayId) : Display := vget s.displays b
/-- The order held in a slot, if the slot is not FREE. -/
def State.orderIn (s : State) (t : SlotId) : Option Order := vget s.orders t
/-- The record of a product code, if its slot is DEFINED. -/
def State.product (s : State) (p : ProductId) : Option Product := vget s.products p

/-- Changes one session context. -/
def State.modSession (s : State) (b : BayId) (f : Session → Session) : State :=
  { s with bays := vset s.bays b (f (s.session b)) }
/-- Changes one arm record. -/
def State.modArm (s : State) (a : ArmId) (f : Arm → Arm) : State :=
  { s with arms := vset s.arms a (f (s.arm a)) }
/-- Changes one header record. -/
def State.modHeader (s : State) (h : HeaderId) (f : Header → Header) : State :=
  { s with headers := vset s.headers h (f (s.header h)) }
/-- Changes one meter record. -/
def State.modMeter (s : State) (m : MeterId) (f : Meter → Meter) : State :=
  { s with meters := vset s.meters m (f (s.meter m)) }
/-- Changes one injector record. -/
def State.modInjector (s : State) (i : InjectorId) (f : Injector → Injector) : State :=
  { s with injectors := vset s.injectors i (f (s.injector i)) }
/-- Changes one display context. -/
def State.modDisplay (s : State) (b : BayId) (f : Display → Display) : State :=
  { s with displays := vset s.displays b (f (s.display b)) }
/-- Changes the order of one slot; a FREE slot stays FREE. -/
def State.modOrder (s : State) (t : SlotId) (f : Order → Order) : State :=
  { s with orders := vset s.orders t ((s.orderIn t).map f) }

/-- The batch of an arm, if it is out of IDLE. -/
def State.batch (s : State) (a : ArmId) : Option Batch := (s.arm a).batch

/-- Changes the batch of an arm; an IDLE batch stays IDLE. -/
def State.modBatch (s : State) (a : ArmId) (f : Batch → Batch) : State :=
  s.modArm a fun r => { r with batch := r.batch.map f }

/-- Sets an event flag; a flag already set stays set (R171). -/
def State.raise (s : State) (e : EventFlag) : State := { s with flags := addTo EventFlag.all e s.flags }

/-- The flag SESSION_n of a bay (R58). -/
def sessionFlag (b : BayId) : EventFlag :=
  match b with
  | 0 => .session1
  | 1 => .session2
  | 2 => .session3
  | 3 => .session4

/-- A value that must lie in 0 to `max`: the exact one where it does, and where it does not, for which
the manual states no value, the next free value within the range (log entry 16). -/
def State.bounded (s : State) (max exact : Nat) : Nat × State :=
  if exact ≤ max then (exact, s)
  else (Config.freeValue s.freeCount % (max + 1), { s with freeCount := s.freeCount + 1 })

/-! ### Permits -/

/-- The one record that carries a card number, or none (R1). -/
def State.findPermit (s : State) (card : Nat) : Option Permit := s.permits.find? fun p => decide (p.card = card)

/-- Changes the record of a card; other records and the order of the list stay. -/
def State.modPermit (s : State) (card : Nat) (f : Permit → Permit) : State :=
  { s with permits := s.permits.map fun p => if p.card = card then f p else p }

/-- Puts a record at the place its card number gives it (R1). -/
def insertPermit (p : Permit) : List Permit → List Permit
  | [] => [p]
  | q :: rest => if p.card < q.card then p :: q :: rest else q :: insertPermit p rest

/-! ### Orders and compartments -/

/-- The slots of the Order Table, lowest first. -/
def allSlots : List SlotId := List.finRange 64

/-- The slot and record of the order that holds an order number, or none (R35). -/
def State.findOrder (s : State) (n : Nat) : Option (SlotId × Order) :=
  allSlots.findSome? fun t =>
    match s.orderIn t with
    | some o => if o.number = n then some (t, o) else none
    | none => none

/-- The orders held, with their slots, lowest slot first. -/
def State.heldOrders (s : State) : List (SlotId × Order) :=
  allSlots.filterMap fun t => (s.orderIn t).map fun o => (t, o)

/-- OPEN or ACTIVE: the order counts as using its permit and its products (R55). -/
def Order.inUse (o : Order) : Bool :=
  match o.stage with
  | .opened => true
  | .active _ => true
  | .noted _ _ => false

/-- ACTIVE. -/
def Order.isActive (o : Order) : Bool :=
  match o.stage with
  | .active _ => true
  | _ => false

/-- An order in OPEN or ACTIVE names this card (R55). -/
def State.cardInUse (s : State) (card : Nat) : Bool :=
  s.heldOrders.any fun e => e.2.inUse && decide (e.2.card = card)

/-- An order in OPEN or ACTIVE has a compartment naming this product code (R55). -/
def State.productInUse (s : State) (p : ProductId) : Bool :=
  s.heldOrders.any fun e => e.2.inUse && e.2.comps.any fun c => decide (c.product = some p)

/-- Total delivered gross and net of an order (R36, R153). -/
def Order.totalGross (o : Order) : Nat := (o.comps.map (·.gross)).sum
def Order.totalNet (o : Order) : Nat := (o.comps.map (·.net)).sum

/-- The compartment of a number. -/
def Order.comp (o : Order) (n : CompNo) : Option Compartment := o.comps.find? fun c => decide (c.number = n)

/-- Changes the compartment of a number. -/
def Order.modComp (o : Order) (n : CompNo) (f : Compartment → Compartment) : Order :=
  { o with comps := o.comps.map fun c => if c.number = n then f c else c }

/-- The order a reference names, while its slot still holds it. -/
def State.orderOf (s : State) (r : CompRef) : Option Order :=
  (s.orderIn r.slot).filter fun o => decide (o.number = r.order)

/-- The compartment a reference names. -/
def State.compOf (s : State) (r : CompRef) : Option Compartment := (s.orderOf r).bind fun o => o.comp r.comp

/-- Changes the compartment a reference names; nothing changes if the slot no longer holds the order. -/
def State.modComp (s : State) (r : CompRef) (f : Compartment → Compartment) : State :=
  match s.orderOf r with
  | some _ => s.modOrder r.slot fun o => o.modComp r.comp f
  | none => s

/-- Sets a compartment flag, which then stays set (R41). -/
def Compartment.addFlag (c : Compartment) (f : CompFlag) : Compartment :=
  { c with flags := addTo CompFlag.all f c.flags }

/-- Sets a flag of an additive result, which then stays set (R40). -/
def AdditiveResult.addFlag (r : AdditiveResult) (f : ResultFlag) : AdditiveResult :=
  { r with flags := addTo ResultFlag.all f r.flags }

/-- Changes the additive result laid down for an injector (R127: the result is named by its injector). -/
def Compartment.modResult (c : Compartment) (i : InjectorId) (f : AdditiveResult → AdditiveResult) :
    Compartment :=
  { c with results := c.results.map fun r => if r.injector = i then f r else r }

/-- The slot still holds the order of the reference in ACTIVE: credits and dosing flags apply (R132). -/
def State.creditable (s : State) (r : CompRef) : Bool := (s.orderOf r).any Order.isActive

/-- Sets a dosing flag (LAGGED, UNDERDOSED) on the result of an injector, while the order is ACTIVE
(R132). -/
def State.doseFlag (s : State) (r : CompRef) (i : InjectorId) (f : ResultFlag) : State :=
  if s.creditable r then s.modComp r fun c => c.modResult i fun x => x.addFlag f else s

/-- The order of orders by age: ascending creation sequence (R37); orders of one sequence keep the order
of their slots (log entry 17). -/
def insertBySeq (e : SlotId × Order) : List (SlotId × Order) → List (SlotId × Order)
  | [] => [e]
  | x :: rest => if e.2.seq < x.2.seq then e :: x :: rest else x :: insertBySeq e rest

/-- Orders in creation order. -/
def inCreationOrder (l : List (SlotId × Order)) : List (SlotId × Order) :=
  l.foldl (fun acc e => insertBySeq e acc) []

/-- The order may be loaded at this bay: its restriction is absent or names the bay (R50). -/
def Order.allowsBay (o : Order) (b : BayId) : Bool := o.bay.all fun x => decide (x = b)

/-- OPEN. -/
def Order.isOpen (o : Order) : Bool :=
  match o.stage with
  | .opened => true
  | _ => false

/-! ### Arms -/

/-- All arms, lowest number first. -/
def allArms : List ArmId := List.finRange 12

/-- The bay's arms, in ascending arm number (section 4.1). -/
def State.bayArms (s : State) (b : BayId) : List ArmId := allArms.filter fun a => decide ((s.arm a).bay = some b)

/-- The focus arm: the arm at the focus position as the arm records stand (section 4.1). -/
def State.focusArm (s : State) (b : BayId) : Option ArmId := (s.bayArms b)[(s.session b).focus.val]?

/-- The flowing states (section 5.3). -/
def BatchState.flowing : BatchState → Bool
  | .lowStart => true
  | .ramping => true
  | .high => true
  | .topping => true
  | .closing => false
  | .held => false

/-- The arm's batch is in a flowing state. -/
def State.flowing (s : State) (a : ArmId) : Bool := (s.batch a).any fun b => b.state.flowing

/-- The arm's batch is in the given state. -/
def State.batchIs (s : State) (a : ArmId) (st : BatchState) : Bool := (s.batch a).any fun b => decide (b.state = st)

/-- Every arm of the bay has its batch in IDLE. -/
def State.allIdle (s : State) (b : BayId) : Bool := (s.bayArms b).all fun a => (s.batch a).isNone

/-- The role of a meter in an arm: main, or blend. -/
inductive Role where
  | main | blend
  deriving DecidableEq, Repr

/-- The arm whose batch has the meter bound, and in which role (sections 5.2, 6.1). -/
def State.boundTo (s : State) (m : MeterId) : Option (ArmId × Role) :=
  allArms.findSome? fun a =>
    match s.batch a with
    | none => none
    | some b =>
      if (s.arm a).mainMeter = some m then some (a, .main)
      else if (s.arm a).blendMeter = some m ∧ b.snapshot.blend.isSome then some (a, .blend)
      else none

/-- The bound meters of an arm's batch (section 5.2). -/
def State.boundMeters (s : State) (a : ArmId) : List MeterId :=
  match s.batch a with
  | none => []
  | some b =>
    (s.arm a).mainMeter.toList ++ (if b.snapshot.blend.isSome then (s.arm a).blendMeter.toList else [])

/-- The usable entries of a snapshot: those not marked SKIPPED (R72). -/
def Snapshot.usable (n : Snapshot) : List SnapshotEntry := n.entries.filter fun e => !e.skipped

/-- The entry of an index. -/
def Snapshot.entryAt (n : Snapshot) (index : Nat) : Option SnapshotEntry :=
  n.entries.find? fun e => decide (e.index = index)

/-! ### Injectors -/

/-- All injectors, lowest number first. -/
def allInjectors : List InjectorId := List.finRange 8

/-- An injector is available: IN_SERVICE and in IDLE or SHOT (R72). -/
def Injector.available (i : Injector) : Bool :=
  decide (i.service = .inService) && (decide (i.state = .idle) || decide (i.state = .shot))

/-- The reserved figure: the sum of the reservations (R124). -/
def Injector.reserved (i : Injector) : Nat := (i.reservations.map (·.amount)).sum

/-- The free stock: the stock less the reserved figure, 0 where that is negative (section 7.2). -/
def Injector.free (i : Injector) : Nat := i.stock - i.reserved

/-- The reservation of a compartment, 0 where it holds none. -/
def Injector.reservation (i : Injector) (r : CompRef) : Nat :=
  match i.reservations.find? fun x => decide (x.ref = r) with
  | some x => x.amount
  | none => 0

/-- Sets the reservation of a compartment, creating it where there is none. -/
def Injector.setReservation (i : Injector) (r : CompRef) (amount : Nat) : Injector :=
  if i.reservations.any fun x => decide (x.ref = r) then
    { i with reservations := i.reservations.map fun x => if x.ref = r then { x with amount := amount } else x }
  else { i with reservations := i.reservations ++ [{ ref := r, amount := amount }] }

/-- Lowers the reservation of a compartment, where one is held, by an amount or by the reservation,
whichever is smaller (R131, stage 4). -/
def Injector.lowerReservation (i : Injector) (r : CompRef) (amount : Nat) : Injector :=
  { i with reservations := i.reservations.map fun x =>
      if x.ref = r then { x with amount := x.amount - amount } else x }

/-- Sets the stock; STOCK_LOW is set when this takes it from at or above the mark to below it (R125). -/
def State.putStock (s : State) (i : InjectorId) (stock : Nat) : State :=
  let x := s.injector i
  let s' := s.modInjector i fun x => { x with stock := stock }
  if x.mark ≤ x.stock ∧ stock < x.mark then s'.raise .stockLow else s'

/-- Lowers the stock, not below 0 (R125). -/
def State.lowerStock (s : State) (i : InjectorId) (amount : Nat) : State :=
  s.putStock i ((s.injector i).stock - amount)

/-- Quotient rounded to the nearest whole number, a half rounded up. -/
def roundHalfUp (n d : Nat) : Nat := (2 * n + d) / (2 * d)

/-- Pulses that make one shot volume (R128): shot volume × K / 1000, rounded half up, at least 1. -/
def Injector.targetPulses (i : Injector) : Nat := max 1 (roundHalfUp (i.shotVolume * i.k) 1000)

/-- Millilitres measured by a count of pulses (R131): pulses × 1000 / K, rounded half up. -/
def Injector.measured (i : Injector) (pulses : Nat) : Nat := roundHalfUp (pulses * 1000) i.k

/-- Releases every reservation of a compartment, on all injectors (R94 stage 3, R124). -/
def State.releaseReservations (s : State) (r : CompRef) : State :=
  { s with injectors := vmap (fun i =>
      { i with reservations := i.reservations.filter fun x => decide (x.ref ≠ r) }) s.injectors }

/-- Removes the queue entries of an arm in every injector; a shot being given to a removed entry runs on
with entry queued no (R136). -/
def State.removeQueueEntries (s : State) (a : ArmId) : State :=
  { s with injectors := vmap (fun i =>
      { i with
        queue := i.queue.filter fun e => decide (e.arm ≠ a)
        shot := if i.queue.any fun e => decide (e.arm = a) && e.inService
          then i.shot.map fun x => { x with queued := false } else i.shot }) s.injectors }

/-! ### Sessions -/

/-- Both permissives of the bay are PRESENT. -/
def Session.permissivesPresent (x : Session) : Bool := x.bond.present && x.overfill.present

/-- Shows a refusal for 5 s (R80). -/
def State.refuse (s : State) (b : BayId) (r : Reason) : State :=
  s.modSession b fun x => { x with reason := some r, reasonTimer := seconds 5 }

/-- Clears the refusal reason (R80). -/
def State.clearReason (s : State) (b : BayId) : State :=
  s.modSession b fun x => { x with reason := none, reasonTimer := none }

/-- The session context as every return to IDLE leaves it (R58): refusal reason, terminal and permissives
keep their values. -/
def Session.toIdle (x : Session) : Session :=
  { x with state := .idle, card := none, digits := [], candidates := [], bound := none, focus := 0,
           armPending := false, selected := none, closeCause := none, timer := none }

/-- A session's return to IDLE: the permit's session bay becomes none (R11), the context is reset and
SESSION_n is set (R58). -/
def State.returnToIdle (s : State) (b : BayId) : State :=
  let s1 := match (s.session b).card with
    | some c => s.modPermit c fun p => { p with sessionBay := none }
    | none => s
  (s1.modSession b Session.toIdle).raise (sessionFlag b)

end Sys2Proof.Machine
end

