-- ==== Sys2Proof/Machine/Operands.lean ====
section
/-! DEFINITION. The operands of the host requests: how the body of each kind is read (Tables 11-4 and
11-6), and the field checks a request must pass before any block is touched. A body that does not match
the fields of its kind reads as `none` (R168). -/

namespace Sys2Proof.Machine

/-! ### Readers -/

/-- Reads a value off the front of a body and gives the rest of the body. -/
abbrev Reader (α : Type) := List Byte → Option (α × List Byte)

/-- Reads the whole body: bytes left over do not match the kind (R168). -/
def whole {α : Type} (r : Reader α) (body : List Byte) : Option α :=
  match r body with
  | some (a, []) => some a
  | _ => none

/-- A body without fields. -/
def noFields : List Byte → Option Unit
  | [] => some ()
  | _ => none

/-- A whole number of `n` bytes. -/
def word (n : Nat) : Reader Nat := fun bs =>
  if bs.length < n then none else some (ofLittleEndian (bs.take n), bs.drop n)

/-- A temperature: two's complement in 2 bytes. -/
def signedWord : Reader Int := fun bs =>
  (word 2 bs).map fun x => (if x.1 < 32768 then (x.1 : Int) else (x.1 : Int) - 65536, x.2)

/-- A named value: one byte counting from 0 through the list of values; a byte past the list is
malformed. -/
def named {α : Type} (values : List α) : Reader α := fun bs =>
  match bs with
  | b :: rest => values[b.toNat]?.map fun v => (v, rest)
  | [] => none

/-- A yes-or-no field: 0 no, 1 yes. -/
def yesNo : Reader Bool := named [false, true]

/-- An optional field: a mark of 0, or a mark of 1 and the value. -/
def optional {α : Type} (r : Reader α) : Reader (Option α) := fun bs =>
  match bs with
  | 0#8 :: rest => some (none, rest)
  | 1#8 :: rest => (r rest).map fun x => (some x.1, x.2)
  | _ => none

/-- `n` values one after the other. -/
def times {α : Type} (r : Reader α) : Nat → Reader (List α)
  | 0 => fun bs => some ([], bs)
  | n + 1 => fun bs =>
    match r bs with
    | none => none
    | some (a, rest) => (times r n rest).map fun x => (a :: x.1, x.2)

/-- A list: one byte of entry count, then the entries. -/
def counted {α : Type} (r : Reader α) : Reader (List α) := fun bs =>
  match bs with
  | n :: rest => times r n.toNat rest
  | [] => none

/-- A set: `n` bytes, the bit of each member at its place in `all`. -/
def setOf {α : Type} (n : Nat) (all : List α) : Reader (List α) := fun bs =>
  (word n bs).map fun x => ((all.zipIdx.filter fun e => x.1.testBit e.2).map fun e => e.1, x.2)

/-- All class codes, in order. -/
def allClasses : List GroupCode := List.finRange 8

/-- All product codes, in order. -/
def allProducts : List ProductId := List.finRange 32

/-- A text: one byte of character count, then one glyph code per character. -/
def text : Reader (List Nat) := counted (word 1)

/-- The glyphs of a text of 1 to `max` characters, each from the 64-glyph set (R2, R21, R42). -/
def glyphsOf (max : Nat) (raw : List Nat) : Option (List Glyph) :=
  if 1 ≤ raw.length ∧ raw.length ≤ max then raw.mapM (coded 64) else none

/-- An optional number taken as a numbered thing: out of range fails, absent stays absent. -/
def optionalNumbered (n : Nat) : Option Nat → Option (Option (Fin n))
  | none => some none
  | some k => (numbered n k).map some

/-- An optional number taken as a code from 0. -/
def optionalCoded (n : Nat) : Option Nat → Option (Option (Fin n))
  | none => some none
  | some k => (coded n k).map some

/-! ### Rack status and clock -/

/-- EVENTS_ACK, EVENTS_MASK: a set of flags. -/
def readFlags : List Byte → Option (List EventFlag) := whole (setOf 2 EventFlag.all)

/-- CLOCK_SET: day, second, as whole numbers of 2 and 4 bytes without a present mark (the model's choice, log entry
38). -/
def readTime : List Byte → Option Time := whole fun bs => do
  let (day, bs) ← word 2 bs
  let (second, bs) ← word 4 bs
  some ({ day, second }, bs)

/-- A number of one byte: a bay, an arm, a header, a meter, an injector, a screen, a product code. -/
def readByte : List Byte → Option Nat := whole (word 1)

/-- A number of four bytes: a card, an order. -/
def readLong : List Byte → Option Nat := whole (word 4)

/-! ### Permits -/

/-- The fields of PERMIT_PUT. -/
structure PermitFields where
  card : Nat
  name : List Nat
  code : List Nat
  classes : List GroupCode
  validFrom : Nat
  expiry : Nat
  allowance : Option Nat
  deriving DecidableEq, Repr

/-- PERMIT_PUT: card, name, code, classes, valid-from, expiry, optional allowance. -/
def readPermit : List Byte → Option PermitFields := whole fun bs => do
  let (card, bs) ← word 4 bs
  let (name, bs) ← text bs
  let (code, bs) ← times (word 1) 4 bs
  let (classes, bs) ← setOf 1 allClasses bs
  let (validFrom, bs) ← word 2 bs
  let (expiry, bs) ← word 2 bs
  let (allowance, bs) ← optional (word 2) bs
  some ({ card, name, code, classes, validFrom, expiry, allowance }, bs)

/-- The checks of R2; the record they give is the one R3 creates: strikes 0, no holds, no session bay. -/
def PermitFields.checked (f : PermitFields) : Option Permit :=
  if inRange 1 99999999 f.card && decide (f.validFrom ≤ f.expiry) && f.allowance.all (fun a => decide (a ≤ 9999)) then
    match glyphsOf 24 f.name, f.code.mapM (coded 10) with
    | some name, some code =>
      some { card := f.card, name, code, classes := f.classes, validFrom := f.validFrom, expiry := f.expiry,
             allowance := f.allowance, strikes := 0, persistent := false, dynamic := .none, sessionBay := none }
    | _, _ => none
  else none

/-- The kind of a hold (R8). -/
inductive HoldKind where
  | persistent | dynamic
  deriving DecidableEq, Repr

/-- PERMIT_HOLD, PERMIT_RELEASE: card, kind. -/
def readHold : List Byte → Option (Nat × HoldKind) := whole fun bs => do
  let (card, bs) ← word 4 bs
  let (kind, bs) ← named [HoldKind.persistent, .dynamic] bs
  some ((card, kind), bs)

/-! ### Products -/

/-- The raw fields of an additive entry. -/
structure AdditiveFields where
  injector : Nat
  rate : Nat
  requirement : Requirement
  tolerance : Nat
  deriving DecidableEq, Repr

/-- The fields of PRODUCT_PUT. -/
structure ProductFields where
  code : Nat
  name : List Nat
  cls : Nat
  group : Nat
  mainHeader : Nat
  blend : Option (Nat × Nat × Nat)
  additives : List AdditiveFields
  correction : List CorrectionPoint
  deriving DecidableEq, Repr

/-- A blend part: blend header, ratio, tolerance. -/
def blendFields : Reader (Nat × Nat × Nat) := fun bs => do
  let (header, bs) ← word 1 bs
  let (ratio, bs) ← word 2 bs
  let (tolerance, bs) ← word 1 bs
  some ((header, ratio, tolerance), bs)

/-- An additive entry: injector, rate, requirement, tolerance. -/
def additiveFields : Reader AdditiveFields := fun bs => do
  let (injector, bs) ← word 1 bs
  let (rate, bs) ← word 2 bs
  let (requirement, bs) ← named [Requirement.required, .optional] bs
  let (tolerance, bs) ← word 1 bs
  some ({ injector, rate, requirement, tolerance }, bs)

/-- A correction point: temperature, factor. -/
def correctionPoint : Reader CorrectionPoint := fun bs => do
  let (temperature, bs) ← signedWord bs
  let (factor, bs) ← word 2 bs
  some ({ temperature, factor }, bs)

/-- PRODUCT_PUT: the whole record; the blend-present indication and the two counts are its declared
counts. -/
def readProduct : List Byte → Option ProductFields := whole fun bs => do
  let (code, bs) ← word 1 bs
  let (name, bs) ← text bs
  let (cls, bs) ← word 1 bs
  let (group, bs) ← word 1 bs
  let (mainHeader, bs) ← word 1 bs
  let (blend, bs) ← optional blendFields bs
  let (additives, bs) ← counted additiveFields bs
  let (correction, bs) ← counted correctionPoint bs
  some ({ code, name, cls, group, mainHeader, blend, additives, correction }, bs)

/-- The blend part of a product whose main header is given (R21). -/
def checkedBlend (main : HeaderId) : Option (Nat × Nat × Nat) → Option (Option BlendPart)
  | none => some none
  | some (h, ratio, tolerance) =>
    match numbered 4 h with
    | some header =>
      if header ≠ main ∧ inRange 10 500 ratio ∧ inRange 1 50 tolerance then
        some (some { header, ratio, tolerance })
      else none
    | none => none

/-- An additive entry within its ranges (R21). -/
def AdditiveFields.checked (f : AdditiveFields) : Option AdditiveEntry :=
  match numbered 8 f.injector with
  | some injector =>
    if inRange 1 5000 f.rate && inRange 1 20 f.tolerance then
      some { injector, rate := f.rate, requirement := f.requirement, tolerance := f.tolerance }
    else none
  | none => none

/-- Each temperature is greater than the one before it (R21). -/
def increasing : List CorrectionPoint → Bool
  | p :: q :: rest => decide (p.temperature < q.temperature) && increasing (q :: rest)
  | _ => true

/-- A correction table of 2 to 8 points within their ranges (R21). -/
def checkedCorrection (points : List CorrectionPoint) : Option (List CorrectionPoint) :=
  if inRange 2 8 points.length && increasing points
      && points.all (fun p => decide (-400 ≤ p.temperature ∧ p.temperature ≤ 600) && inRange 9000 11000 p.factor) then
    some points
  else none

/-- The checks of R21. -/
def ProductFields.checked (f : ProductFields) : Option (ProductId × Product) := do
  let code ← numbered 32 f.code
  let name ← glyphsOf 12 f.name
  let cls ← coded 8 f.cls
  let group ← coded 8 f.group
  let mainHeader ← numbered 4 f.mainHeader
  let blend ← checkedBlend mainHeader f.blend
  let additives ← f.additives.mapM AdditiveFields.checked
  let correction ← checkedCorrection f.correction
  if additives.length ≤ 3 ∧ (additives.map (·.injector)).Nodup then
    some (code, { name, cls, group, mainHeader, blend, additives, correction })
  else none

/-- An entry of MATRIX_PUT: a verdict, or KEEP as `none` (R28). -/
def readMatrixRow : List Byte → Option (Nat × List (Option Verdict)) := whole fun bs => do
  let (row, bs) ← word 1 bs
  let (entries, bs) ← times (named [some Verdict.allow, some .lowFlow, some .forbid, none]) 8 bs
  some ((row, entries), bs)

/-! ### Orders -/

/-- The raw fields of a compartment entry of ORDER_CREATE. -/
structure CompFields where
  number : Nat
  capacity : Nat
  planned : Nat
  product : Option Nat
  prevGroup : Option Nat
  deriving DecidableEq, Repr

/-- The fields of ORDER_CREATE. -/
structure OrderFields where
  number : Nat
  card : Nat
  bay : Option Nat
  tanker : List Nat
  comps : List CompFields
  deriving DecidableEq, Repr

/-- A compartment entry: number, capacity, planned gross, product code, previous-cargo group. -/
def compFields : Reader CompFields := fun bs => do
  let (number, bs) ← word 1 bs
  let (capacity, bs) ← word 4 bs
  let (planned, bs) ← word 4 bs
  let (product, bs) ← optional (word 1) bs
  let (prevGroup, bs) ← optional (word 1) bs
  some ({ number, capacity, planned, product, prevGroup }, bs)

/-- ORDER_CREATE: order number, card, bay restriction, tanker identity, compartments. -/
def readOrder : List Byte → Option OrderFields := whole fun bs => do
  let (number, bs) ← word 4 bs
  let (card, bs) ← word 4 bs
  let (bay, bs) ← optional (word 1) bs
  let (tanker, bs) ← text bs
  let (comps, bs) ← counted compFields bs
  some ({ number, card, bay, tanker, comps }, bs)

/-- The checks of Table 3-6 on one compartment entry; it takes PLANNED or UNPLANNED with nothing delivered
(R43). -/
def CompFields.checked (f : CompFields) : Option Compartment :=
  match numbered 8 f.number, optionalNumbered 32 f.product, optionalCoded 8 f.prevGroup with
  | some number, some product, some prevGroup =>
    if inRange 1000 200000 f.capacity && (decide (f.planned = 0) || inRange 500 f.capacity f.planned)
        && decide (product.isSome ↔ 0 < f.planned) then
      some { number, capacity := f.capacity, planned := f.planned, product, prevGroup,
             state := if f.planned = 0 then .unplanned else .planned,
             gross := 0, net := 0, tempSum := 0, batchCount := 0, lastArm := none, results := [], flags := [] }
    else none
  | _, _, _ => none

/-- The checks of Table 3-6. The record they give is OPEN; its creation sequence is assigned when the
request is taken. -/
def OrderFields.checked (f : OrderFields) : Option Order :=
  if inRange 1 999999 f.number && inRange 1 99999999 f.card && inRange 1 8 f.comps.length then
    match optionalNumbered 4 f.bay, glyphsOf 12 f.tanker, f.comps.mapM CompFields.checked with
    | some bay, some tanker, some comps =>
      if (comps.map (·.number)).Nodup then
        some { number := f.number, seq := 0, stage := .opened, card := f.card, bay, tanker, comps }
      else none
    | _, _, _ => none
  else none

/-- The fields of ORDER_AMEND. -/
structure AmendFields where
  number : Nat
  comp : Nat
  planned : Nat
  product : Option Nat
  deriving DecidableEq, Repr

/-- ORDER_AMEND: order number, compartment number, new planned gross, product code. -/
def readAmend : List Byte → Option AmendFields := whole fun bs => do
  let (number, bs) ← word 4 bs
  let (comp, bs) ← word 1 bs
  let (planned, bs) ← word 4 bs
  let (product, bs) ← optional (word 1) bs
  some ({ number, comp, planned, product }, bs)

/-- Test 1 of Table 3-8; gives the compartment number and the product code. -/
def AmendFields.checked (f : AmendFields) : Option (CompNo × Option ProductId) :=
  match numbered 8 f.comp, optionalNumbered 32 f.product with
  | some comp, some product =>
    if inRange 1 999999 f.number && (decide (f.planned = 0) || inRange 500 999999 f.planned)
        && decide (product.isSome ↔ 0 < f.planned) then some (comp, product)
    else none
  | _, _ => none

/-- ORDER_GET: order number, starting position. -/
def readOrderGet : List Byte → Option (Nat × Nat) := whole fun bs => do
  let (number, bs) ← word 4 bs
  let (position, bs) ← word 1 bs
  some ((number, position), bs)

/-- The state filter of ORDER_LIST (R48). -/
inductive OrderFilter where
  | opened | active | noted | any
  deriving DecidableEq, Repr

/-- ORDER_LIST: filter, starting creation sequence. -/
def readOrderList : List Byte → Option (OrderFilter × Nat) := whole fun bs => do
  let (filter, bs) ← named [OrderFilter.opened, .active, .noted, .any] bs
  let (start, bs) ← word 4 bs
  some ((filter, start), bs)

/-- ORDER_COLLECT: order number, note number. -/
def readCollect : List Byte → Option (Nat × Nat) := whole fun bs => do
  let (number, bs) ← word 4 bs
  let (note, bs) ← word 4 bs
  some ((number, note), bs)

/-! ### Bays, arms, headers -/

/-- BAY_MESSAGE: bay, screen, duration. -/
def readMessage : List Byte → Option (Nat × Nat × Nat) := whole fun bs => do
  let (bay, bs) ← word 1 bs
  let (screen, bs) ← word 1 bs
  let (duration, bs) ← word 1 bs
  some ((bay, screen, duration), bs)

/-- The fields of an ASSIGNED ARM_PUT. -/
structure ArmFields where
  bay : Nat
  mainMeter : Nat
  blendMeter : Option Nat
  products : List ProductId
  maxFlow : Nat
  lowFlow : Nat
  startupVolume : Nat
  rampStep : Nat
  rampInterval : Nat
  toppingFlow : Nat
  toppingVolume : Nat
  closingAllowance : Nat
  service : Service
  deriving DecidableEq, Repr

/-- The fields of an ASSIGNED ARM_PUT, in the order of R83. -/
def armFields : Reader ArmFields := fun bs => do
  let (bay, bs) ← word 1 bs
  let (mainMeter, bs) ← word 1 bs
  let (blendMeter, bs) ← optional (word 1) bs
  let (products, bs) ← setOf 4 allProducts bs
  let (maxFlow, bs) ← word 2 bs
  let (lowFlow, bs) ← word 2 bs
  let (startupVolume, bs) ← word 4 bs
  let (rampStep, bs) ← word 2 bs
  let (rampInterval, bs) ← word 1 bs
  let (toppingFlow, bs) ← word 2 bs
  let (toppingVolume, bs) ← word 4 bs
  let (closingAllowance, bs) ← word 4 bs
  let (service, bs) ← named [Service.inService, .outOfService] bs
  some ({ bay, mainMeter, blendMeter, products, maxFlow, lowFlow, startupVolume, rampStep, rampInterval,
          toppingFlow, toppingVolume, closingAllowance, service }, bs)

/-- ARM_PUT: arm, assignment (ASSIGNED 0, UNASSIGNED 1), and the arm's fields when ASSIGNED; UNASSIGNED is
`none`. -/
def readArmPut : List Byte → Option (Nat × Option ArmFields) := whole fun bs => do
  let (arm, bs) ← word 1 bs
  let (assigned, bs) ← named [true, false] bs
  if assigned then
    let (fields, bs) ← armFields bs
    some ((arm, some fields), bs)
  else some ((arm, none), bs)

/-- The ranges of Table 5-1 (R83). The record they give is IDLE, its CONNECTED input absent until the
request is taken. -/
def ArmFields.checked (f : ArmFields) : Option Arm :=
  match numbered 4 f.bay, numbered 16 f.mainMeter, optionalNumbered 16 f.blendMeter with
  | some bay, some mainMeter, some blendMeter =>
    if blendMeter ≠ some mainMeter ∧ inRange 100 4000 f.maxFlow ∧ inRange 50 1000 f.lowFlow ∧ f.lowFlow ≤ f.maxFlow
        ∧ f.startupVolume ≤ 5000 ∧ inRange 25 1000 f.rampStep ∧ inRange 1 10 f.rampInterval
        ∧ inRange 50 1000 f.toppingFlow ∧ f.toppingFlow ≤ f.maxFlow ∧ inRange 50 5000 f.toppingVolume
        ∧ f.closingAllowance ≤ 500 then
      some { bay := some bay, mainMeter := some mainMeter, blendMeter, products := f.products,
             maxFlow := f.maxFlow, lowFlow := f.lowFlow, startupVolume := f.startupVolume, rampStep := f.rampStep,
             rampInterval := f.rampInterval, toppingFlow := f.toppingFlow, toppingVolume := f.toppingVolume,
             closingAllowance := f.closingAllowance, service := f.service, connected := false, batch := none }
    else none
  | _, _, _ => none

/-- HEADER_PUT: header, capacity. -/
def readHeaderPut : List Byte → Option (Nat × Nat) := whole fun bs => do
  let (header, bs) ← word 1 bs
  let (capacity, bs) ← word 2 bs
  some ((header, capacity), bs)

/-! ### Meters and injectors -/

/-- METER_PUT: meter, header, K factor, probe present. -/
def readMeterPut : List Byte → Option (Nat × Nat × Nat × Bool) := whole fun bs => do
  let (meter, bs) ← word 1 bs
  let (header, bs) ← word 1 bs
  let (k, bs) ← word 4 bs
  let (probe, bs) ← yesNo bs
  some ((meter, header, k, probe), bs)

/-- The six configuration fields of INJECTOR_PUT, with the injector (R138). -/
structure InjectorFields where
  injector : Nat
  service : Service
  shotVolume : Nat
  k : Nat
  window : Nat
  follower : Option Nat
  mark : Nat
  deriving DecidableEq, Repr

/-- INJECTOR_PUT: injector, service state, shot volume, K factor, shot window, follower, low-stock mark. -/
def readInjectorPut : List Byte → Option InjectorFields := whole fun bs => do
  let (injector, bs) ← word 1 bs
  let (service, bs) ← named [Service.inService, .outOfService] bs
  let (shotVolume, bs) ← word 2 bs
  let (k, bs) ← word 2 bs
  let (window, bs) ← word 1 bs
  let (follower, bs) ← optional (word 1) bs
  let (mark, bs) ← word 4 bs
  some ({ injector, service, shotVolume, k, window, follower, mark }, bs)

/-- The ranges of Table 7-1 (R138); gives the injector and the follower. -/
def InjectorFields.checked (f : InjectorFields) : Option (InjectorId × Option InjectorId) :=
  match numbered 8 f.injector, optionalNumbered 8 f.follower with
  | some injector, some follower =>
    if inRange 1 500 f.shotVolume && inRange 10 20000 f.k && inRange 1 10 f.window && decide (f.mark ≤ 2000000) then
      some (injector, follower)
    else none
  | _, _ => none

/-- STOCK_ADD, STOCK_SET: injector, millilitres; PROVE_RESULT: injector, measured volume. -/
def readInjectorAmount : List Byte → Option (Nat × Nat) := whole fun bs => do
  let (injector, bs) ← word 1 bs
  let (amount, bs) ← word 4 bs
  some ((injector, amount), bs)

/-- PROVE_START: injector, number of shots. -/
def readProveStart : List Byte → Option (Nat × Nat) := whole fun bs => do
  let (injector, bs) ← word 1 bs
  let (shots, bs) ← word 1 bs
  some ((injector, shots), bs)

/-! ### Screens and the prompt map -/

/-- All emphases, by code (R160). -/
def Emphasis.all : List Emphasis := [.normal, .inverse, .flashing]

/-- All field codes, in the order of Table 10-2. -/
def FieldCode.all : List FieldCode :=
  [.holderName, .cardNo, .orderNo, .tankerId, .candidate1, .candidate2, .candidate3, .candidate4, .focusArm,
   .compNo, .productName, .planned, .delivered, .remaining, .flow, .holdCause, .reason, .codeMask, .clock,
   .noteNo]

/-- All situations, in the order of R162. -/
def Situation.all : List Situation :=
  [.terminalRestored, .refusal, .armHeld, .idle, .codeEntry, .orderSelect, .waitBond, .loading, .closing]

/-- A column cell: cell kind 1 with a glyph code, 2 with an emphasis, 3 with a field code and a width of 1
to 16 (Table 11-4). -/
def columnCell : Reader Cell := fun bs =>
  match bs with
  | 1#8 :: g :: rest => (coded 64 g.toNat).map fun glyph => (.character glyph, rest)
  | 2#8 :: rest => (named Emphasis.all rest).map fun x => (.attr x.1, x.2)
  | 3#8 :: rest => do
    let (code, rest) ← named FieldCode.all rest
    let (width, rest) ← word 1 rest
    if inRange 1 16 width then some (.field code width, rest) else none
  | _ => none

/-- A line: its format cell (kind 0, visibility, height, starting emphasis), then the declared count and
the column cells. -/
def screenLine : Reader Line := fun bs =>
  match bs with
  | 0#8 :: rest => do
    let (hidden, rest) ← named [false, true] rest
    let (double, rest) ← named [false, true] rest
    let (emphasis, rest) ← named Emphasis.all rest
    let (cells, rest) ← counted columnCell rest
    some ({ hidden, double, emphasis, cells }, rest)
  | _ => none

/-- The columns a cell takes (section 10.1). -/
def Cell.columns : Cell → Nat
  | .character _ => 1
  | .attr _ => 1
  | .field _ width => width

/-- The columns of a line. -/
def Line.columns (l : Line) : Nat := (l.cells.map Cell.columns).sum

/-- SCREEN_PUT: screen number, four lines. -/
def readScreenPut : List Byte → Option (Nat × List Line) := whole fun bs => do
  let (screen, bs) ← word 1 bs
  let (lines, bs) ← times screenLine 4 bs
  some ((screen, lines), bs)

/-- The checks of R159: the screen number, and 20 columns in every line. -/
def checkedScreen (f : Nat × List Line) : Option (ScreenId × Screen) :=
  match numbered 24 f.1, f.2 with
  | some n, [a, b, c, d] =>
    if a.columns = 20 ∧ b.columns = 20 ∧ c.columns = 20 ∧ d.columns = 20 then some (n, { lines := #v[a, b, c, d] })
    else none
  | _, _ => none

/-- One change of PROMPT_MAP_PUT: situation, screen, priority. -/
def mapChange : Reader (Situation × Nat × Bool) := fun bs => do
  let (situation, bs) ← named Situation.all bs
  let (screen, bs) ← word 1 bs
  let (priority, bs) ← yesNo bs
  some ((situation, screen, priority), bs)

/-- PROMPT_MAP_PUT: a list of changes. -/
def readMapPut : List Byte → Option (List (Situation × Nat × Bool)) := whole (counted mapChange)

/-- The checks of R163: at most nine changes, no situation named twice, screens 1 to 24. -/
def checkedMap (changes : List (Situation × Nat × Bool)) : Option (List (Situation × MapEntry)) :=
  if changes.length ≤ 9 ∧ (changes.map (·.1)).Nodup then
    changes.mapM fun c => (numbered 24 c.2.1).map fun screen => (c.1, { screen, priority := c.2.2 })
  else none

end Sys2Proof.Machine
end

