-- ==== Sys2Proof/Machine/Bodies.lean ====
section
/-! DEFINITION. The bodies of the responses, laid out by Table 11-4. Fields stand in the order in which the
owning rule lists them (log entries 13 to 15). -/

namespace Sys2Proof.Machine

/-! ### Writers -/

/-- A whole number in one, two or four bytes. -/
def put1 (v : Nat) : List Byte := littleEndian 1 v
def put2 (v : Nat) : List Byte := littleEndian 2 v
def put4 (v : Nat) : List Byte := littleEndian 4 v

/-- A signed number in `n` bytes, two's complement. -/
def putSigned (n : Nat) (v : Int) : List Byte := littleEndian n (v % (256 ^ n : Nat)).toNat

/-- A yes-or-no field. -/
def putBool (b : Bool) : List Byte := [if b then 1 else 0]

/-- An optional field. -/
def putOptional {α : Type} (f : α → List Byte) : Option α → List Byte
  | none => [0]
  | some a => 1 :: f a

/-- A list, preceded by its count. -/
def putList {α : Type} (f : α → List Byte) (l : List α) : List Byte := put1 l.length ++ l.flatMap f

/-- A set in `n` bytes, the bit of each member at its place in `all`. -/
def putSet {α : Type} [DecidableEq α] (n : Nat) (all set : List α) : List Byte :=
  littleEndian n ((all.zipIdx.map fun e => if e.1 ∈ set then 2 ^ e.2 else 0).sum)

/-- A numbered thing. -/
def putNum {n : Nat} (i : Fin n) : List Byte := put1 (num i)

/-- A text: count and glyph codes. -/
def putText (t : List Glyph) : List Byte := putList (fun g => put1 g.val) t

/-- A time: present mark, day and second. -/
def putTime : Option Time → List Byte := putOptional fun t => put2 t.day ++ put4 t.second

/-! ### Codes of named values, from 0 in the order of their tables -/

def DynamicHold.code : DynamicHold → Nat
  | .none => 0
  | .host => 1
  | .strike => 2
def Requirement.code : Requirement → Nat
  | .required => 0
  | .optional => 1
def Verdict.code : Verdict → Nat
  | .allow => 0
  | .lowFlow => 1
  | .forbid => 2
def Service.code : Service → Nat
  | .inService => 0
  | .outOfService => 1
def CompState.code : CompState → Nat
  | .unplanned => 0
  | .planned => 1
  | .loading => 2
  | .held => 3
  | .partly => 4
  | .filled => 5
def SessionState.code : SessionState → Nat
  | .idle => 0
  | .codeEntry => 1
  | .orderSelect => 2
  | .waitBond => 3
  | .loading => 4
  | .closing => 5
def Terminal.code : Terminal → Nat
  | .present => 0
  | .lost => 1
/-- IDLE is 0 and is the absent batch. -/
def BatchState.code : BatchState → Nat
  | .lowStart => 1
  | .ramping => 2
  | .high => 3
  | .topping => 4
  | .closing => 5
  | .held => 6
def MeterState.code : MeterState → Nat
  | .ok => 0
  | .fault => 1
def ProbeState.code : ProbeState → Nat
  | .noReading => 0
  | .valid => 1
  | .outOfRange => 2
  | .probeFault => 3
def InjectorState.code : InjectorState → Nat
  | .idle => 0
  | .shot => 1
  | .fault => 2
  | .proving => 3
  | .proveWait => 4
def ShotPhase.code : ShotPhase → Nat
  | .opened => 0
  | .tail => 1
def ShotOutcome.code : ShotOutcome → Nat
  | .none => 0
  | .completed => 1
  | .failed => 2
  | .ended => 3
def Emphasis.code : Emphasis → Nat
  | .normal => 0
  | .inverse => 1
  | .flashing => 2
/-- The code of a field (Table 11-4, "Field code"). -/
def FieldCode.code (f : FieldCode) : Nat := FieldCode.all.idxOf f
def ResultCode.code : ResultCode → Nat
  | .ok => 0
  | .notFound => 1
  | .exists => 2
  | .full => 3
  | .invalid => 4
  | .inUse => 5
  | .wrongState => 6
/-- OPEN 0, ACTIVE 1, NOTED 2. -/
def Stage.code : Stage → Nat
  | .opened => 0
  | .active _ => 1
  | .noted _ _ => 2

/-- A value listed as set (first) or clear (second): SET 0, CLEAR 1 (log entry 15). -/
def putSetClear (b : Bool) : List Byte := put1 (if b then 0 else 1)

/-- NOT_PRESENT 0, PRESENT 1. -/
def putPresent (b : Bool) : List Byte := put1 (if b then 1 else 0)

/-- The batch state of an arm, IDLE 0. -/
def State.batchCode (s : State) (a : ArmId) : Nat :=
  match s.batch a with
  | some b => b.state.code
  | none => 0

/-- A hold set in 2 bytes. -/
def putHoldSet (h : List HoldCause) : List Byte := putSet 2 HoldCause.all h

/-- A compartment reference as the order number and the compartment number. -/
def putRef (r : CompRef) : List Byte := put4 r.order ++ putNum r.comp

/-! ### Rack status -/

/-- Flags and mask, 2 bytes each (R172). -/
def State.flagsBody (s : State) : List Byte := putSet 2 EventFlag.all s.flags ++ putSet 2 EventFlag.all s.mask

/-- The body of STATUS_GET (R173); ESD state active 0, inactive 1 (log entry 15). -/
def State.statusBody (s : State) : List Byte :=
  putTime s.clock ++ put1 (if s.esd.active then 0 else 1) ++ s.flagsBody
    ++ (List.finRange 4).flatMap (fun b =>
        let x := s.session b
        put1 x.state.code ++ putOptional put4 x.bound ++ put1 x.terminal.code ++ putPresent x.bond.present
          ++ putPresent x.overfill.present)
    ++ allArms.flatMap (fun a => put1 (s.batchCode a) ++ put1 (s.arm a).service.code)
    ++ allInjectors.flatMap (fun i => put1 (s.injector i).state.code ++ put1 (s.injector i).service.code)

/-! ### Records -/

/-- The body of PERMIT_GET: every field but the personal code (R5). -/
def Permit.body (p : Permit) : List Byte :=
  put4 p.card ++ putText p.name ++ putSet 1 allClasses p.classes ++ put2 p.validFrom ++ put2 p.expiry
    ++ putOptional put2 p.allowance ++ put1 p.strikes ++ putSetClear p.persistent ++ put1 p.dynamic.code
    ++ putOptional putNum p.sessionBay

/-- The body of PERMIT_LIST: up to sixteen cards beyond the starting card, and the more indication (R6). -/
def permitListBody (permits : List Permit) (start : Nat) : List Byte :=
  let beyond := (permits.map (·.card)).filter fun c => decide (start < c)
  putList put4 (beyond.take 16) ++ putBool (decide (16 < beyond.length))

/-- An additive entry. -/
def AdditiveEntry.body (e : AdditiveEntry) : List Byte :=
  putNum e.injector ++ put2 e.rate ++ put1 e.requirement.code ++ put1 e.tolerance

/-- A correction point. -/
def CorrectionPoint.body (p : CorrectionPoint) : List Byte := putSigned 2 p.temperature ++ put2 p.factor

/-- The body of PRODUCT_GET: every field in stored order, and the in-use indication (R23). -/
def Product.body (p : Product) (inUse : Bool) : List Byte :=
  putText p.name ++ put1 p.cls.val ++ put1 p.group.val ++ putNum p.mainHeader
    ++ putOptional (fun b => putNum b.header ++ put2 b.ratio ++ put1 b.tolerance) p.blend
    ++ putList AdditiveEntry.body p.additives ++ putList CorrectionPoint.body p.correction ++ putBool inUse

/-- An additive result, all fields of Table 3-4. -/
def AdditiveResult.body (r : AdditiveResult) : List Byte :=
  put1 r.index ++ putNum r.injector ++ put2 r.rate ++ put1 r.requirement.code ++ put1 r.tolerance
    ++ put4 r.expected ++ put4 r.delivered ++ putSet 2 ResultFlag.all r.flags

/-- Quotient of whole numbers rounded to the nearest, a half away from zero. -/
def roundHalfAway (n : Int) (d : Nat) : Int :=
  if 0 ≤ n then ((2 * n.natAbs + d) / (2 * d) : Nat) else -(((2 * n.natAbs + d) / (2 * d) : Nat) : Int)

/-- Average temperature of a compartment, absent where nothing was delivered (R153). -/
def Compartment.average (c : Compartment) : Option Int :=
  if c.gross = 0 then none else some (roundHalfAway c.tempSum c.gross)

/-- A compartment entry, all fields of Table 3-3, then its average temperature (R47, R153); that Last arm, "None, or"
an arm, goes as an optional field is the model's choice (log entry 38). -/
def Compartment.body (c : Compartment) : List Byte :=
  putNum c.number ++ put4 c.capacity ++ put4 c.planned ++ putOptional putNum c.product
    ++ putOptional (fun g : GroupCode => put1 g.val) c.prevGroup ++ put1 c.state.code ++ put4 c.gross ++ put4 c.net
    ++ putSigned 6 c.tempSum ++ put1 c.batchCount ++ putOptional putNum c.lastArm
    ++ putList AdditiveResult.body c.results ++ putSet 2 CompFlag.all c.flags ++ putOptional (putSigned 2) c.average

/-- A session part: bay, start time, end time. -/
def SessionPart.body (p : SessionPart) : List Byte := putNum p.bay ++ putTime p.startTime ++ putTime p.endTime

/-- A note part: note number, holder name, note flags. -/
def NotePart.body (n : NotePart) : List Byte := put4 n.number ++ putText n.holder ++ putSet 2 NoteFlag.all n.flags

/-- The session part and the note part of an order, each where present. -/
def Stage.body : Stage → List Byte
  | .opened => [0] ++ [0]
  | .active p => 1 :: p.body ++ [0]
  | .noted p n => 1 :: p.body ++ 1 :: n.body

/-- The body of ORDER_GET from a starting position (R47), with the computed totals (R153); that the totals stand between
the note part and the compartments, and each average behind the flags of its compartment, is the model's choice (log
entry 13). -/
def Order.body (o : Order) (position : Nat) : List Byte :=
  let rest := o.comps.drop (position - 1)
  put4 o.number ++ put4 o.seq ++ put1 o.stage.code ++ put4 o.card ++ putOptional putNum o.bay ++ putText o.tanker
    ++ o.stage.body ++ put4 o.totalGross ++ put4 o.totalNet
    ++ putList Compartment.body (rest.take 4) ++ putBool (decide (4 < rest.length))

/-- The body of ARM_GET: every field of the record and the live batch figures (R84); that the fields given as "None,
or" a value (bay, main meter, bound order and compartment, ceiling) go as optional fields is the model's choice (log
entry 38). -/
def Arm.body (r : Arm) : List Byte :=
  putOptional putNum r.bay ++ putOptional putNum r.mainMeter ++ putOptional putNum r.blendMeter
    ++ putSet 4 allProducts r.products ++ put2 r.maxFlow ++ put2 r.lowFlow ++ put4 r.startupVolume ++ put2 r.rampStep
    ++ put1 r.rampInterval ++ put2 r.toppingFlow ++ put4 r.toppingVolume ++ put4 r.closingAllowance
    ++ put1 r.service.code
    ++ (match r.batch with
        | none => put1 0 ++ [0] ++ [0] ++ put4 0 ++ put4 0 ++ put4 0 ++ put2 0 ++ put2 0 ++ [0] ++ putHoldSet []
        | some b =>
          put1 b.state.code ++ putOptional put4 (some b.ref.order) ++ putOptional putNum (some b.ref.comp)
            ++ put4 b.target ++ put4 b.gross ++ put4 b.net ++ put2 b.mainDemand ++ put2 b.blendDemand
            ++ putOptional put2 b.ceiling ++ putHoldSet b.holdSet)

/-- The body of HEADER_GET: capacity, drawing set, and each drawing arm's ceiling in ascending arm number (R96); that the
ceilings go as a list, behind their count, is the model's choice (log entry 38). -/
def State.headerBody (s : State) (h : HeaderId) : List Byte :=
  let r := s.header h
  put2 r.capacity ++ putSet 2 allArms r.drawing
    ++ putList (fun a => put2 (((s.batch a).bind (·.ceiling)).getD 0)) (allArms.filter fun a => decide (a ∈ r.drawing))

/-- The batch state and hold set of an arm (R103). -/
def State.holdBody (s : State) (a : ArmId) : List Byte :=
  put1 (s.batchCode a) ++ putHoldSet (match s.batch a with
    | some b => b.holdSet
    | none => [])

/-- The role of a meter among the assigned arms, by code MAIN 0, BLEND 1, NONE 2, with the arm (R121). -/
def State.meterRole (s : State) (m : MeterId) : Nat × Option ArmId :=
  match allArms.find? fun a => decide ((s.arm a).mainMeter = some m) with
  | some a => (0, some a)
  | none =>
    match allArms.find? fun a => decide ((s.arm a).blendMeter = some m) with
    | some a => (1, some a)
    | none => (2, none)

/-- The body of METER_GET: every field of Table 6-1 except the residue, the role with its arm, and whether
the meter is bound (R121); that the arm goes as an optional field, absent with the role NONE, is the model's choice (log
entry 38). -/
def State.meterBody (s : State) (m : MeterId) : List Byte :=
  let r := s.meter m
  putNum r.header ++ put4 r.k ++ putBool r.probe ++ put1 r.state.code ++ littleEndian 6 r.totalizer
    ++ put4 r.unauthorized ++ putSetClear r.unauthorizedFlag ++ put2 r.aCount ++ put2 r.bCount
    ++ putOptional (putSigned 2) r.lastTemp ++ put1 r.probeState.code
    ++ put1 (s.meterRole m).1 ++ putOptional putNum (s.meterRole m).2 ++ putBool (s.boundTo m).isSome

/-- A queue entry: arm, order number, compartment number, entry index, owed count, in service (R139). -/
def QueueEntry.body (e : QueueEntry) : List Byte :=
  putNum e.arm ++ putRef e.ref ++ put1 e.index ++ put1 e.owed ++ putBool e.inService

/-- A current shot: target pulses, pulses counted, phase, outcome (R139, bullet 4). That its owner and entry queued do
not go too, and that pulses counted go in 4 bytes, are the model's choices (log entry 38). -/
def Shot.body (x : Shot) : List Byte := put2 x.target ++ put4 x.counted ++ put1 x.phase.code ++ put1 x.outcome.code

/-- The body of INJECTOR_GET (R139). -/
def Injector.body (i : Injector) : List Byte :=
  put1 i.service.code ++ put2 i.shotVolume ++ put2 i.k ++ put1 i.window ++ putOptional putNum i.follower
    ++ put4 i.stock ++ put4 i.mark ++ put1 i.state.code ++ put4 i.reserved ++ put1 i.failures ++ put4 i.free
    ++ putList QueueEntry.body i.queue ++ putOptional Shot.body i.shot

/-- Stock, reserved figure and free stock (R140). -/
def Injector.stockBody (i : Injector) : List Byte := put4 i.stock ++ put4 i.reserved ++ put4 i.free

/-- The body of PROVE_RESULT: shots requested, total shots, total pulses, old K and the computed K (R147). -/
def Proving.body (p : Proving) (computed : Nat) : List Byte :=
  put1 p.requested ++ put1 p.totalShots ++ put4 p.totalPulses ++ put2 p.oldK ++ put4 computed

/-- A screen cell (Table 11-4). -/
def Cell.body : Cell → List Byte
  | .character g => [1] ++ put1 g.val
  | .attr e => [2] ++ put1 e.code
  | .field c w => [3] ++ put1 c.code ++ put1 w

/-- A line: its format cell, its count and its cells. -/
def Line.body (l : Line) : List Byte := [0] ++ putBool l.hidden ++ putBool l.double ++ put1 l.emphasis.code ++ putList Cell.body l.cells

/-- The body of SCREEN_GET: the four lines, and the bays whose current screen it is (R159). -/
def State.screenBody (s : State) (n : ScreenId) : List Byte :=
  (vget s.screens n).lines.toList.flatMap Line.body
    ++ putList putNum ((List.finRange 4).filter fun b => decide ((s.display b).current = some n))

/-- The body of PROMPT_MAP_PUT: all nine entries (R163), each a screen and a priority; that neither a count nor the
situations go with them is the model's choice (log entry 38). -/
def State.mapBody (s : State) : List Byte :=
  s.promptMap.toList.flatMap fun e => putNum e.screen ++ putBool e.priority

end Sys2Proof.Machine
end

