-- ==== Sys2Proof/Machine/Flags.lean ====
section
/-! DEFINITION. The event flags seen from outside: the attention line and the rack status byte (R171,
Table 11-3). -/

namespace Sys2Proof.Machine

/-- The attention line is asserted: a flag is set whose mask entry is unmasked (R171). -/
def State.attention (s : State) : Bool := s.flags.any fun f => decide (f ∉ s.mask)

/-- Any arm's batch is in a flowing state (Table 11-3, bit 3). -/
def State.anyFlowing (s : State) : Bool := allArms.any fun a => s.flowing a

/-- Any injector is in FAULT (Table 11-3, bit 4). -/
def State.anyInjectorFault (s : State) : Bool := allInjectors.any fun i => decide ((s.injector i).state = .fault)

/-- Any arm is OUT_OF_SERVICE (Table 11-3, bit 5). -/
def State.anyArmOut (s : State) : Bool := allArms.any fun a => decide ((s.arm a).service = .outOfService)

/-- A bit's weight, 0 while the condition does not hold. -/
def weight (b : Bool) (n : Nat) : Nat := if b then 2 ^ n else 0

/-- The rack status byte (Table 11-3); bits 6 and 7 are 0. -/
def State.statusByte (s : State) : Byte :=
  BitVec.ofNat 8 (weight s.attention 0 + weight s.esd.active 1 + weight s.clock.isNone 2 + weight s.anyFlowing 3
    + weight s.anyInjectorFault 4 + weight s.anyArmOut 5)

/-- The driver-enable output: the part drives the line only while it sends a response (section 11.1). -/
def State.driverEnable (s : State) : Bool := decide (s.port.phase = .responding)

/-- The solenoid drive of an injector: open while its current shot is in phase OPEN (R128, R130). -/
def State.solenoid (s : State) (i : InjectorId) : Bool :=
  (s.injector i).shot.any fun x => decide (x.phase = .opened)

/-- The demands sent on the valve line to an arm's main and blend valves: zero in IDLE and while the arm is
OUT_OF_SERVICE (R91). -/
def State.valveDemand (s : State) (a : ArmId) : Nat × Nat :=
  match s.batch a with
  | some b => if (s.arm a).service = .outOfService then (0, 0) else (b.mainDemand, b.blendDemand)
  | none => (0, 0)

/-- Clears the named event flags (R172). -/
def State.acknowledge (s : State) (named : List EventFlag) : State :=
  { s with flags := s.flags.filter fun f => decide (f ∉ named) }

end Sys2Proof.Machine
end

