-- ==== Sys2Proof/Machine/Notes.lean ====
section
/-! DEFINITION. Delivery notes (Chapter 9): the issue of a note, its number, the dose check, the release of
an order at the end of its session (R54), and the recovery of ACTIVE orders at a reset (R56). -/

namespace Sys2Proof.Machine

/-- The note numbers held by NOTED orders (R151). -/
def State.heldNotes (s : State) : List Nat :=
  s.heldOrders.filterMap fun e =>
    match e.2.stage with
    | .noted _ n => some n.number
    | _ => none

/-- The number after a note number: 999 999 is followed by 1 (R151). -/
def nextNumber (n : Nat) : Nat := if n = 999999 then 1 else n + 1

/-- The first candidate held by no NOTED order, skipping held ones (R151). -/
def skipHeld (held : List Nat) : Nat → Nat → Nat
  | 0, c => c
  | fuel + 1, c => if c ∈ held then skipHeld held fuel (nextNumber c) else c

/-- The note number the next issue takes; at most 64 orders are NOTED, so 64 skips suffice (R151). -/
def State.nextNote (s : State) : Nat := skipHeld s.heldNotes 64 s.noteCounter

/-- Expected volume of a result (R141): delivered gross in tenths × rate / 10 000, rounded half up. -/
def expectedDose (gross rate : Nat) : Nat := roundHalfUp (gross * rate) 10000

/-- The difference of two counts, in whichever direction. -/
def distance (a b : Nat) : Nat := (a - b) + (b - a)

/-- The dose check of one result against the compartment's delivered gross (R141, R154). -/
def AdditiveResult.doseChecked (gross : Nat) (r : AdditiveResult) : AdditiveResult :=
  let e := expectedDose gross r.rate
  let r' := { r with expected := e }
  if r.tolerance * e < distance r.delivered e * 100 then r'.addFlag .outOfTolerance else r'

/-- The dose check of a compartment (R154). -/
def Compartment.doseChecked (c : Compartment) : Compartment :=
  { c with results := c.results.map (AdditiveResult.doseChecked c.gross) }

/-- Counts a load against the allowance (R16): above 0 falls by 1, 0 stays 0, absent stays absent. -/
def Permit.countLoad (p : Permit) : Permit := { p with allowance := p.allowance.map (· - 1) }

/-- The session part of an order, present in ACTIVE and NOTED. -/
def Stage.part : Stage → Option SessionPart
  | .opened => none
  | .active p => some p
  | .noted p _ => some p

/-- An order as the issue of its note leaves it (R150, R154): NOTED with its note part, its end time set, every
compartment dose-checked. -/
def Order.noted (o : Order) (part : SessionPart) (now : Option Time) (note : NotePart) : Order :=
  { o with stage := .noted { part with endTime := now } note, comps := o.comps.map Compartment.doseChecked }

/-- A note written into the order of a slot; the note counter takes the number after its number (R151). -/
def State.writeNote (s : State) (t : SlotId) (part : SessionPart) (note : NotePart) : State :=
  { s.modOrder t fun o => o.noted part s.clock note with noteCounter := nextNumber note.number }

/-- The holder name a note carries: the name of the permit of the order's card (R150). -/
def State.holderOf (s : State) (card : Nat) : List Glyph :=
  match s.findPermit card with
  | some p => p.name
  | none => []

/-- The issue of a delivery note for the ACTIVE order of a slot (R150): end time, note number, holder name
and note flags, dose check, allowance, ORDER_NOTED. -/
def State.issueNote (s : State) (t : SlotId) (flags : List NoteFlag) : State :=
  match s.orderIn t with
  | none => s
  | some o =>
    match o.stage with
    | .active part =>
      ((s.writeNote t part { number := s.nextNote, holder := s.holderOf o.card, flags }).modPermit o.card
        Permit.countLoad).raise .orderNoted
    | _ => s

/-- The return of an order to OPEN: its session part is removed, its compartments keep their values (R54). -/
def State.reopen (s : State) (t : SlotId) : State := s.modOrder t fun o => { o with stage := .opened }

/-- The release of an ACTIVE order after loading, at a session's close or at recovery: a note where its
total delivered gross is above 0.0, else back to OPEN (R54, R56). -/
def State.settleOrder (s : State) (t : SlotId) (flags : List NoteFlag) : State :=
  match s.orderIn t with
  | none => s
  | some o => if 0 < o.totalGross then s.issueNote t flags else s.reopen t

/-- The state of a compartment whose batch ended short of its target: FILLED where its delivered gross is
at or above its plan, else PARTIAL (R39). -/
def Compartment.endedShort (c : Compartment) : Compartment :=
  { c with state := if c.planned ≤ c.gross then .filled else .partly }

/-- A compartment at recovery (R56, stage 1). -/
def Compartment.recovered (c : Compartment) : Compartment :=
  if c.state = .loading ∨ c.state = .held then (c.addFlag .powerInterrupted).endedShort else c

/-- The recovery of one ACTIVE order (R56). -/
def State.recoverOrder (s : State) (t : SlotId) : State :=
  (s.modOrder t fun o => { o with comps := o.comps.map Compartment.recovered }).settleOrder t [.powerInterrupted]

/-- The slot holds an ACTIVE order bound at the bay. -/
def State.activeAt (s : State) (b : BayId) (t : SlotId) : Bool :=
  match s.orderIn t with
  | some o =>
    match o.stage with
    | .active p => decide (p.bay = b)
    | _ => false
  | none => false

/-- The slots of the ACTIVE orders, in ascending order of the bay in their session parts (R56). -/
def State.activeSlots (s : State) : List SlotId := (List.finRange 4).flatMap fun b => allSlots.filter (s.activeAt b)

/-- The recovery of the first `n` ACTIVE orders, one after the other (R56). -/
def State.recoverFirst (s : State) (n : Nat) : State := (s.activeSlots.take n).foldl State.recoverOrder s

/-- The recovery of every ACTIVE order, in ascending order of the bay in its session part (R56). -/
def State.recoverOrders (s : State) : State := s.recoverFirst s.activeSlots.length

end Sys2Proof.Machine
end

