-- ==== Sys2Proof/Machine/Flow.lean ====
section
/-! DEFINITION. Flow control (Chapter 5): demands and the flow profile, headers and ceilings, holds and
their causes, resume, and the entry to CLOSING. An operation whose name ends in `Raw` changes drawing sets
without computing ceilings; `settleHeaders` computes them once for every set that an event changed, from
the set it leaves (R97, R99, log entry 11). -/

namespace Sys2Proof.Machine

/-! ### Demands -/

/-- A demand capped by a ceiling; an arm outside every drawing set has none. -/
def capped (ceiling : Option Nat) (d : Nat) : Nat :=
  match ceiling with
  | some c => min d c
  | none => d

/-- The demand of LOW_START: low flow or the ceiling, whichever is smaller (R88). -/
def lowStartDemand (r : Arm) (b : Batch) : Nat := capped b.ceiling r.lowFlow

/-- The demand of TOPPING: topping flow or the ceiling, under a LOW_FLOW verdict also capped by low flow
(R90). -/
def toppingDemand (r : Arm) (b : Batch) : Nat :=
  capped b.ceiling (if b.snapshot.verdict = .lowFlow then min r.toppingFlow r.lowFlow else r.toppingFlow)

/-- One ramp step toward a ceiling, never past it (R89). -/
def rampToward (step ceiling d : Nat) : Nat :=
  if d < ceiling then min (d + step) ceiling else max (d - step) ceiling

/-- A ramp step of a batch (R89): the demand moves, and on reaching the ceiling the batch enters HIGH and
the ramp timer stops; otherwise it is in RAMPING with the timer at the ramp interval. -/
def rampStep (r : Arm) (b : Batch) : Batch :=
  match b.ceiling with
  | none => b
  | some c =>
    let d := rampToward r.rampStep c b.mainDemand
    if d = c then { b with state := .high, mainDemand := d, ramp := none }
    else { b with state := .ramping, mainDemand := d, ramp := seconds r.rampInterval }

/-- The response of a batch to a ceiling computed anew (R98); the same ceiling changes nothing. -/
def respondCeiling (r : Arm) (ceiling : Nat) (b : Batch) : Batch :=
  if b.ceiling = some ceiling then b
  else
    let b' := { b with ceiling := some ceiling }
    match b.state with
    | .lowStart => { b' with mainDemand := lowStartDemand r b' }
    | .ramping => if b.mainDemand = ceiling then { b' with state := .high, ramp := none } else b'
    | .high => rampStep r b'
    | .topping => { b' with mainDemand := toppingDemand r b' }
    | .closing => b'
    | .held => b'

/-! ### Headers -/

/-- The ceiling of an arm drawing from a header: the capacity divided by the set's size, rounded down,
capped by the arm's max flow (R97). -/
def State.ceilingOf (s : State) (h : HeaderId) (a : ArmId) : Nat :=
  min ((s.header h).capacity / (s.header h).drawing.length) (s.arm a).maxFlow

/-- The ceilings of a header's drawing arms computed anew, each arm responding (R97, R98). -/
def State.computeCeilings (s : State) (h : HeaderId) : State :=
  (s.header h).drawing.foldl
    (fun acc a => acc.modArm a fun r => { r with batch := r.batch.map (respondCeiling r (s.ceilingOf h a)) }) s

/-- All headers. -/
def allHeaders : List HeaderId := List.finRange 4

/-- Computes the ceilings of every header whose drawing set differs from the one before the event. -/
def State.settleHeaders (before after : State) : State :=
  allHeaders.foldl
    (fun acc h => if (before.header h).drawing = (after.header h).drawing then acc else acc.computeCeilings h) after

/-- An arm joins a drawing set (R97). -/
def State.joinRaw (s : State) (h : HeaderId) (a : ArmId) : State :=
  s.modHeader h fun r => { r with drawing := addTo allArms a r.drawing }

/-- An arm leaves its drawing set and has no ceiling (R97). -/
def State.leaveRaw (s : State) (h : HeaderId) (a : ArmId) : State :=
  (s.modHeader h fun r => { r with drawing := dropFrom a r.drawing }).modBatch a fun b => { b with ceiling := none }

/-! ### Holds -/

/-- The condition causes of Table 5-6; the others are latching. -/
def HoldCause.isCondition : HoldCause → Bool
  | .permissive => true
  | .esd => true
  | .armDisconnected => true
  | .terminalLost => true
  | .meter => true
  | .additive => true
  | .noFlow => false
  | .blend => false
  | .host => false

/-- The four external trips. -/
def HoldCause.isTrip : HoldCause → Bool
  | .permissive => true
  | .esd => true
  | .armDisconnected => true
  | .terminalLost => true
  | .meter => false
  | .additive => false
  | .noFlow => false
  | .blend => false
  | .host => false

/-- The batch with its demands at 0 and the timers of the flowing states stopped (R91, R115, R117). -/
def Batch.still (b : Batch) : Batch :=
  { b with mainDemand := 0, blendDemand := 0, ramp := none,
           metering := { b.metering with noFlow := none, blendTimer := none } }

/-- A flowing batch enters HELD (R99): demands 0, compartment HELD, drawing set left, queue entries
removed, BATCH_HOLD set. -/
def State.enterHeldRaw (s : State) (a : ArmId) (b : Batch) (c : HoldCause) : State :=
  let s1 := s.modBatch a fun b => { b.still with state := .held, holdSet := [c] }
  let s2 := s1.modComp b.ref fun x => { x with state := .held }
  ((s2.leaveRaw b.snapshot.mainHeader a).removeQueueEntries a).raise .batchHold

/-- A hold cause reaches an arm's batch and acts by its state (R99, R100). -/
def State.handCauseRaw (s : State) (a : ArmId) (c : HoldCause) : State :=
  match s.batch a with
  | none => s
  | some b =>
    match b.state with
    | .held => s.modBatch a fun b => { b with holdSet := addTo HoldCause.all c b.holdSet }
    | .closing => if c.isTrip then s.modComp b.ref fun x => x.addFlag .closedUnderTrip else s
    | .lowStart => s.enterHeldRaw a b c
    | .ramping => s.enterHeldRaw a b c
    | .high => s.enterHeldRaw a b c
    | .topping => s.enterHeldRaw a b c

/-- One event hands a cause to several batches: all are held, then every drawing set it changed is computed
anew (R99). -/
def State.handCauses (s : State) (arms : List ArmId) (c : HoldCause) : State :=
  s.settleHeaders (arms.foldl (fun acc a => acc.handCauseRaw a c) s)

/-- A cause handed to one batch. -/
def State.handCause (s : State) (a : ArmId) (c : HoldCause) : State := s.handCauses [a] c

/-- Every REQUIRED entry's injector of the snapshot is available. -/
def State.requiredAvailable (s : State) (n : Snapshot) : Bool :=
  n.entries.all fun e => decide (e.entry.requirement = .optional) || (s.injector e.entry.injector).available

/-- The condition for removal of a condition cause holds for an arm's batch (Table 5-6); for METER, every
bound meter is OK (log entry 12). A latching cause has none. -/
def State.conditionHolds (s : State) (a : ArmId) (b : Batch) : HoldCause → Bool
  | .permissive => (s.arm a).bay.any fun x => (s.session x).permissivesPresent
  | .esd => !s.esd.active
  | .armDisconnected => (s.arm a).connected
  | .terminalLost => (s.arm a).bay.any fun x => decide ((s.session x).terminal = .present)
  | .meter => (s.boundMeters a).all fun m => decide ((s.meter m).state = .ok)
  | .additive => s.requiredAvailable b.snapshot
  | .noFlow => false
  | .blend => false
  | .host => false

/-- A cause leaves the hold set of an arm's batch, if the batch is HELD and the condition holds; the batch
stays HELD (R101). -/
def State.removeCause (s : State) (c : HoldCause) (a : ArmId) : State :=
  match s.batch a with
  | some b =>
    if b.state = .held ∧ s.conditionHolds a b c then s.modBatch a fun b => { b with holdSet := dropFrom c b.holdSet }
    else s
  | none => s

/-- A cause leaves the hold sets of several arms' batches. -/
def State.removeCauses (s : State) (arms : List ArmId) (c : HoldCause) : State :=
  arms.foldl (fun acc a => acc.removeCause c a) s

/-- The snapshot has a REQUIRED entry on the injector. -/
def Snapshot.requires (n : Snapshot) (i : InjectorId) : Bool :=
  n.entries.any fun e => decide (e.entry.requirement = .required) && decide (e.entry.injector = i)

/-- A change of an injector's state or service state is handed to the Arm Controllers: ADDITIVE leaves the
sets of the HELD batches that require the injector and whose condition now holds (R101, R123). -/
def State.injectorChanged (s : State) (i : InjectorId) : State :=
  s.removeCauses (allArms.filter fun a => (s.batch a).any fun b => b.snapshot.requires i) .additive

/-- An injector's state moves, and the change is handed on (R123). -/
def State.setInjectorState (s : State) (i : InjectorId) (st : InjectorState) : State :=
  let s' := s.modInjector i fun x => { x with state := st }
  if (s.injector i).state = st then s' else s'.injectorChanged i

/-! ### Resume -/

/-- Removes each condition cause whose condition holds at that moment from a HELD batch's set (R102). -/
def State.pruneHoldSet (s : State) (a : ArmId) : State :=
  match s.batch a with
  | some b => s.modBatch a fun x =>
      { x with holdSet := x.holdSet.filter fun c => !(c.isCondition && s.conditionHolds a b c) }
  | none => s

/-- A batch at its entry to LOW_START, before its ceiling is computed (R86, R87, R102): nothing counted since then
and nothing held; the no-flow timer starts, and the blend timer for a blended batch (R115, R117). -/
def Batch.atLowStart (b : Batch) : Batch :=
  { b with state := .lowStart, sinceStart := 0, blendDemand := 0, ceiling := none, holdSet := [],
           metering := { b.metering with
             noFlow := seconds 10, outOfTolerance := 0, secondTenths := 0,
             blendTimer := if b.snapshot.blend.isSome then seconds 1 else none } }

/-- A batch's entry to LOW_START, at its start or at a resume: it joins the drawing set, and its demand
follows its ceiling (R86, R88, R102). -/
def State.enterLowStart (s : State) (a : ArmId) (b : Batch) : State :=
  s.settleHeaders ((s.modBatch a Batch.atLowStart).joinRaw b.snapshot.mainHeader a)

/-- A taken resume (R102): the compartment returns to LOADING and the batch restarts in LOW_START. -/
def State.takeResume (s : State) (a : ArmId) : State :=
  match s.batch a with
  | some b => (s.modComp b.ref fun x => { x with state := .loading }).enterLowStart a b
  | none => s

/-! ### Entry to CLOSING -/

/-- A batch enters CLOSING (R92): demands 0, hold set emptied, drawing set left, queue entries removed,
settle and leak timers started. -/
def State.enterClosingRaw (s : State) (a : ArmId) (kind : CloseKind) : State :=
  match s.batch a with
  | none => s
  | some b =>
    let s1 := s.modBatch a fun b =>
      { b.still with state := .closing, holdSet := [], closeKind := some kind, settle := seconds 2, leak := seconds 30 }
    (s1.leaveRaw b.snapshot.mainHeader a).removeQueueEntries a

/-- One event takes several batches to CLOSING. -/
def State.enterClosings (s : State) (arms : List ArmId) (kind : CloseKind) : State :=
  s.settleHeaders (arms.foldl (fun acc a => acc.enterClosingRaw a kind) s)

/-- One batch enters CLOSING. -/
def State.enterClosing (s : State) (a : ArmId) (kind : CloseKind) : State := s.enterClosings [a] kind

/-! ### The flow profile -/

/-- The remaining volume of a batch is at or below a volume (section 5.2: target less batch gross). -/
def Batch.remainsAtMost (b : Batch) (volume : Nat) : Bool := decide (b.target ≤ b.gross + volume)

/-- The transition that a credit brings about in a flowing state (R87), from the arm record and the batch
as they stand after the credit. -/
def State.profile (s : State) (a : ArmId) : State :=
  match s.batch a with
  | none => s
  | some b =>
    let r := s.arm a
    if !b.state.flowing then s
    else if b.remainsAtMost r.closingAllowance then s.enterClosing a .target
    else if b.state ≠ .topping ∧ b.remainsAtMost r.toppingVolume then
      s.modBatch a fun b => { b with state := .topping, mainDemand := toppingDemand r b, ramp := none }
    else if b.state = .lowStart ∧ b.snapshot.verdict ≠ .lowFlow ∧ r.startupVolume ≤ b.sinceStart then
      s.modBatch a (rampStep r)
    else s

/-- A volume credit of one tenth to an arm's batch (R87, R110): batch gross, in the flowing states volume
since start, then the profile's transition. -/
def State.addTenth (s : State) (a : ArmId) : State :=
  (s.modBatch a fun b =>
    { b with gross := b.gross + 1, sinceStart := if b.state.flowing then b.sinceStart + 1 else b.sinceStart }).profile a

/-- The ramp timer's expiry (R89): one further step in RAMPING. -/
def State.rampExpiry (s : State) (a : ArmId) : State :=
  match s.batch a with
  | some b => if b.state = .ramping then s.modBatch a (rampStep (s.arm a)) else s
  | none => s

end Sys2Proof.Machine
end

