-- ==== Sys2Proof/Machine/Injection.lean ====
section
/-! DEFINITION. Additive injection (Chapter 7) and the shots of a proving run (Chapter 8): postings, shot
starts, credits, failures, the follower cascade. -/

namespace Sys2Proof.Machine

/-! ### Starting shots -/

/-- A shot opened for an owner (R128): pulses counted 0, phase OPEN, window at its full value. A proving
shot has no owner and is not queued (R145). -/
def Injector.openShot (i : Injector) (owner : Option ShotOwner) : Shot :=
  { owner, target := i.targetPulses, counted := 0, phase := .opened, outcome := .none, queued := owner.isSome,
    window := seconds i.window, tail := none }

/-- A queue entry or snapshot entry that cannot be dosed: REQUIRED hands ADDITIVE to the batch, OPTIONAL has
UNDERDOSED set on the result (R127, R129). -/
def State.cannotDose (s : State) (i : InjectorId) (a : ArmId) (r : CompRef) (q : Requirement) : State :=
  match q with
  | .required => s.handCause a .additive
  | .optional => s.doseFlag r i .underdosed

/-- The requirement of an entry index in the snapshot of an arm's batch. -/
def State.requirementOf (s : State) (a : ArmId) (index : Nat) : Requirement :=
  match (s.batch a).bind fun b => b.snapshot.entryAt index with
  | some e => e.entry.requirement
  | none => .optional

/-- The reservation a shot start draws on (R129): as it stands where it covers the shot volume, raised by
the shortfall where the free stock covers that, and `none` where the shot does not go ahead. -/
def Injector.topUp (i : Injector) (r : CompRef) : Option Injector :=
  let held := i.reservation r
  if i.shotVolume ≤ held then some i
  else if i.shotVolume - held ≤ i.free then some (i.setReservation r i.shotVolume)
  else none

/-- The head entry marked in service, its shot opened (R128). -/
def Injector.serve (i : Injector) (e : QueueEntry) (rest : List QueueEntry) : Injector :=
  { i with queue := { e with inService := true } :: rest
           shot := some (i.openShot (some { arm := e.arm, ref := e.ref, index := e.index })) }

/-- Starts the next shot of an IDLE injector (R128): the reservation test of R129 lets the head entry's
shot go ahead, or removes the entry and goes on with the new head. The batches of several REQUIRED heads removed so are
held one after the other, with the ceilings computed after each (the model's choice, log entry 11). Each removal
shortens the queue, so `fuel` above its length suffices. -/
def State.startShots (s : State) (i : InjectorId) : Nat → State
  | 0 => s
  | fuel + 1 =>
    let x := s.injector i
    if s.esd.active ∨ x.state ≠ .idle then s
    else
      match x.queue with
      | [] => s
      | e :: rest =>
        match x.topUp e.ref with
        | some x' => (s.modInjector i fun _ => x'.serve e rest).setInjectorState i .shot
        | none =>
          let s1 := s.modInjector i fun x => { x with queue := rest }
          (s1.cannotDose i e.arm e.ref (s.requirementOf e.arm e.index)).startShots i fuel

/-- Starts the next shot, if the injector is IDLE with a non-empty queue and ESD is inactive (R128). -/
def State.nextShot (s : State) (i : InjectorId) : State := s.startShots i ((s.injector i).queue.length + 1)

/-! ### Postings -/

/-- A shot request taken at an available injector by its queue (R127). -/
def State.enqueue (s : State) (i : InjectorId) (a : ArmId) (r : CompRef) (index : Nat) : State :=
  match (s.injector i).queue.find? fun e => decide (e.arm = a) with
  | none =>
    (s.modInjector i fun x =>
      { x with queue := x.queue ++ [{ arm := a, ref := r, index, owed := 1, inService := false }] }).nextShot i
  | some e =>
    if e.owed < 4 then
      s.modInjector i fun x =>
        { x with queue := x.queue.map fun e => if e.arm = a then { e with owed := e.owed + 1 } else e }
    else s.doseFlag r i .lagged

/-- A shot request posted for an arm's compartment and an entry of its snapshot (R127). -/
def State.post (s : State) (a : ArmId) (r : CompRef) (e : SnapshotEntry) : State :=
  let i := e.entry.injector
  if (s.injector i).available then s.enqueue i a r e.index
  else s.cannotDose i a r e.entry.requirement

/-! ### Crediting shots -/

/-- The delivered volume added to the result of an injector, while the slot holds the order in ACTIVE
(R132). A sum past 2 000 000 mL, for which Table 3-4 has no value, is a free value (log entry 16). -/
def State.creditResult (s : State) (r : CompRef) (i : InjectorId) (amount : Nat) : State :=
  if s.creditable r then
    match (s.compOf r).bind fun c => c.results.find? fun x => decide (x.injector = i) with
    | some x =>
      let v := s.bounded 2000000 (x.delivered + amount)
      v.2.modComp r fun c => c.modResult i fun x => { x with delivered := v.1 }
    | none => s
  else s

/-- Stages 1 to 4 of R131: the measured volume is credited to the compartment, the stock falls, and the
reservation falls. -/
def State.creditShot (s : State) (i : InjectorId) (x : Shot) : State :=
  let amount := (s.injector i).measured x.counted
  match x.owner with
  | some o =>
    ((s.creditResult o.ref i amount).lowerStock i amount).modInjector i fun j => j.lowerReservation o.ref amount
  | none => s.lowerStock i amount

/-- Stage 6 of R131: the entry in service, at the head, is owed one shot less; still owed, it moves to the
tail; owed 0, it is removed. -/
def rotateQueue : List QueueEntry → List QueueEntry
  | [] => []
  | e :: rest => if 1 < e.owed then rest ++ [{ e with owed := e.owed - 1, inService := false }] else rest

/-- Stage 6 of R131 and its counterpart in R134. -/
def State.rotate (s : State) (i : InjectorId) (x : Shot) : State :=
  if x.queued then s.modInjector i fun j => { j with queue := rotateQueue j.queue } else s

/-- The follower cascade of a COMPLETED shot (R133). -/
def State.cascade (s : State) (i : InjectorId) (o : ShotOwner) : State :=
  match (s.injector i).follower, s.batch o.arm with
  | some f, some b =>
    if b.state.flowing ∧ b.ref = o.ref then
      match b.snapshot.usable.find? fun e => decide (e.entry.injector = f) with
      | some e => s.post o.arm o.ref e
      | none => s
    else s
  | _, _ => s

/-- Stage 8 of R131: the current shot becomes absent and the state IDLE, and the next shot starts. -/
def State.endShot (s : State) (i : InjectorId) : State :=
  ((s.modInjector i fun j => { j with shot := none }).setInjectorState i .idle).nextShot i

/-- UNDERDOSED on the result of a shot's owner (R134, R135). -/
def State.ownerUnderdosed (s : State) (i : InjectorId) (x : Shot) : State :=
  match x.owner with
  | some o => s.doseFlag o.ref i .underdosed
  | none => s

/-- The tail's end of a COMPLETED shot (R131). -/
def State.completeShot (s : State) (i : InjectorId) (x : Shot) : State :=
  let s1 := ((s.creditShot i x).modInjector i fun j => { j with failures := 0 }).rotate i x
  let s2 := match x.owner with
    | some o => s1.cascade i o
    | none => s1
  s2.endShot i

/-- The third failure in succession (R135), after stages 1 to 4: the queue is emptied, OPTIONAL entries
removed set UNDERDOSED, REQUIRED batches get ADDITIVE, and the injector goes to FAULT. -/
def State.faultInjector (s : State) (i : InjectorId) (x : Shot) : State :=
  let removed := (s.injector i).queue
  let s1 := (s.ownerUnderdosed i x).modInjector i fun j => { j with queue := [], shot := none }
  let s2 := removed.foldl
    (fun acc e => if acc.requirementOf e.arm e.index = .optional then acc.doseFlag e.ref i .underdosed else acc) s1
  let s3 := s2.handCauses (allArms.filter fun a => (s2.batch a).any fun b => b.snapshot.requires i) .additive
  (s3.setInjectorState i .fault).raise .injectorFault

/-- The tail's end of a FAILED shot (R134, R135). -/
def State.failShot (s : State) (i : InjectorId) (x : Shot) : State :=
  let s1 := (s.creditShot i x).modInjector i fun j => { j with failures := min 3 (j.failures + 1) }
  if (s1.injector i).failures = 3 then s1.faultInjector i x
  else ((s1.ownerUnderdosed i x).rotate i x).endShot i

/-! ### Proving shots -/

/-- A proving shot starts (R145). -/
def State.startProvingShot (s : State) (i : InjectorId) : State :=
  s.modInjector i fun j => { j with shot := some (j.openShot none) }

/-- The tail's end of a COMPLETED proving shot (R145, R146). Total pulses past 2 550 000, for which
Table 8-1 has no value, are a free value (log entry 16). -/
def State.completeProvingShot (s : State) (i : InjectorId) (x : Shot) (p : Proving) : State :=
  let v := s.bounded 2550000 (p.totalPulses + x.counted)
  let p' := { p with totalPulses := v.1, totalShots := p.totalShots + 1, remaining := p.remaining - 1 }
  let s1 := (v.2.creditShot i x).modInjector i fun j => { j with proving := some p', shot := none }
  if 0 < p'.remaining then s1.startProvingShot i
  else (s1.setInjectorState i .proveWait).raise .proveDone

/-- The tail's end of a FAILED proving shot (R146). -/
def State.failProvingShot (s : State) (i : InjectorId) (x : Shot) : State :=
  let s1 := (s.creditShot i x).modInjector i fun j => { j with proving := none, shot := none, failures := 3 }
  (s1.setInjectorState i .fault).raise .injectorFault

/-- The end of a run in PROVING by an abort or by ESD (R148): the solenoid closes, the stock falls by the
pulses counted so far, shot and context are discarded, the injector enters IDLE. -/
def State.abortProving (s : State) (i : InjectorId) : State :=
  let s1 := match (s.injector i).shot with
    | some x => s.creditShot i x
    | none => s
  (s1.modInjector i fun j => { j with shot := none, proving := none }).setInjectorState i .idle

/-! ### The steps of a shot -/

/-- The end of the open phase (R130): the solenoid closes, the window stops and the 1 s tail starts. -/
def Shot.close (x : Shot) (o : ShotOutcome) : Shot :=
  { x with phase := .tail, outcome := o, window := none, tail := seconds 1 }

/-- A pulse counted to the current shot; the pulse that reaches the target completes it (R130). -/
def Shot.pulse (x : Shot) : Shot :=
  let x' := { x with counted := x.counted + 1 }
  if x.phase = .opened ∧ x.target ≤ x'.counted then x'.close .completed else x'

/-- The shot window's expiry (R130). -/
def Shot.expire (x : Shot) : Shot := if x.phase = .opened then x.close .failed else x

/-- ESD reaching an open shot of normal service (R137). -/
def Shot.esdEnd (x : Shot) : Shot := if x.phase = .opened then x.close .ended else x

/-- The end of a shot's tail, by the injector's state and the shot's outcome (R131, R134, R137, R145,
R146). -/
def State.tailEnd (s : State) (i : InjectorId) : State :=
  match (s.injector i).shot with
  | none => s
  | some x =>
    if x.phase = .opened then s
    else
      match (s.injector i).proving, x.outcome with
      | none, .completed => s.completeShot i x
      | none, .failed => s.failShot i x
      | none, .ended => (s.creditShot i x).endShot i
      | none, .none => s
      | some p, .completed => s.completeProvingShot i x p
      | some _, .failed => s.failProvingShot i x
      | some _, .ended => s
      | some _, .none => s

/-- ESD becoming active at one injector (R137, R148): its queue is emptied, an open shot ends ENDED, a run
in PROVING ends; PROVE_WAIT is not touched. -/
def State.esdInjector (s : State) (i : InjectorId) : State :=
  if (s.injector i).state = .proving then s.abortProving i
  else
    s.modInjector i fun j =>
      { j with
        queue := []
        shot := j.shot.map fun x =>
          let y := x.esdEnd
          if j.queue.any (·.inService) then { y with queued := false } else y }

end Sys2Proof.Machine
end

