-- ==== Sys2Proof/Machine/Metering.lean ====
section
/-! DEFINITION. Metering (Chapter 6): pulses to tenths, credits, metering steps, volume correction, blend
and no-flow supervision, shot points, unauthorized flow. -/

namespace Sys2Proof.Machine

/-! ### Volume correction -/

/-- The factor between the points of a correction table that lie above the first one given (R27). -/
def factorFrom (t : Int) (lower : CorrectionPoint) : List CorrectionPoint → Nat
  | [] => lower.factor
  | upper :: rest =>
    if t < upper.temperature then
      let rise := ((upper.factor : Int) - lower.factor) * (t - lower.temperature)
      ((lower.factor : Int) + roundHalfAway rise (upper.temperature - lower.temperature).toNat).toNat
    else factorFrom t upper rest

/-- The volume correction factor for a line temperature (R27). -/
def correctionFactor (points : List CorrectionPoint) (t : Int) : Nat :=
  match points with
  | [] => 10000
  | p :: rest => if t ≤ p.temperature then p.factor else factorFrom t p rest

/-- The line temperature that a meter gives: its last temperature while it has a probe whose state is VALID
(R112). -/
def Meter.lineTemperature (m : Meter) : Option Int :=
  if m.probe ∧ m.probeState = .valid then m.lastTemp else none

/-- A metering credit (R113). -/
structure Credit where
  gross : Nat
  net : Nat
  increment : Int
  substituted : Bool
  deriving DecidableEq, Repr

/-- The credit for a gross volume at a line temperature, or substituted: factor 10000 at 15.0 °C (R112,
R113). -/
def creditFor (points : List CorrectionPoint) (t : Option Int) (gross : Nat) : Credit :=
  match t with
  | some t =>
    { gross, net := roundHalfUp (gross * correctionFactor points t) 10000, increment := t * gross, substituted := false }
  | none => { gross, net := roundHalfUp (gross * 10000) 10000, increment := 150 * gross, substituted := true }

/-- The largest volume a compartment's sums hold: 99 999.9 L (R39). -/
def maxVolume : Nat := 999999

/-- A compartment entry with a metering credit applied (R39, R53). -/
def Compartment.credit (c : Compartment) (k : Credit) : Compartment :=
  let c' := { c with gross := min maxVolume (c.gross + k.gross), net := min maxVolume (c.net + k.net),
                     tempSum := c.tempSum + k.increment }
  if k.substituted then c'.addFlag .tempSubstituted else c'

/-- The credit an arm's batch would make now, from its step gross and its main meter's reading (R113,
R114). -/
def State.creditNow (s : State) (a : ArmId) (b : Batch) : Credit :=
  let t := (s.arm a).mainMeter.bind fun m => (s.meter m).lineTemperature
  creditFor b.snapshot.correction t (b.metering.stepMain + b.metering.stepBlend)

/-- A credit made: applied to the compartment, its net added to the batch, the step gross back to 0. -/
def State.makeCredit (s : State) (a : ArmId) (b : Batch) : State :=
  let k := s.creditNow a b
  (s.modComp b.ref fun c => c.credit k).modBatch a fun b =>
    { b with net := b.net + k.net, metering := { b.metering with stepMain := 0, stepBlend := 0 } }

/-- The end credit (R114): none where the step gross is 0.0. -/
def State.endCredit (s : State) (a : ArmId) : State :=
  match s.batch a with
  | some b => if b.metering.stepMain + b.metering.stepBlend = 0 then s else s.makeCredit a b
  | none => s

/-! ### Blend supervision -/

/-- The step is out of tolerance (R116): the blend gross × 1000 differs from the ratio × batch gross by more
than the tolerance × batch gross. -/
def outOfRatio (p : BlendPart) (blendGross gross : Nat) : Bool :=
  decide (p.tolerance * gross < distance (blendGross * 1000) (p.ratio * gross))

/-- The blend supervision of a metering step (R116). -/
def State.superviseBlend (s : State) (a : ArmId) : State :=
  match s.batch a with
  | none => s
  | some b =>
    match b.snapshot.blend with
    | none => s
    | some p =>
      if b.state.flowing ∧ 2 ≤ b.metering.steps then
        let n := if outOfRatio p b.blendGross b.gross then b.metering.outOfTolerance + 1 else 0
        if 3 ≤ n then
          (s.modBatch a fun b => { b with metering := { b.metering with outOfTolerance := 0 } }).handCause a .blend
        else s.modBatch a fun b => { b with metering := { b.metering with outOfTolerance := n } }
      else s

/-- A metering step (R113): the credit, the count of steps, then the blend supervision. -/
def State.meteringStep (s : State) (a : ArmId) : State :=
  match s.batch a with
  | none => s
  | some b =>
    ((s.makeCredit a b).modBatch a fun b => { b with metering := { b.metering with steps := b.metering.steps + 1 } }).superviseBlend a

/-! ### Shot points -/

/-- The points of an entry that the batch gross has passed (R118): the greatest n with
gross × rate ≥ n × shot volume × 10 000. -/
def pointsPassed (gross rate shotVolume : Nat) : Nat := gross * rate / (shotVolume * 10000)

/-- One more point of an entry counted as passed. -/
def Metering.countPoint (m : Metering) (index : Nat) : Metering :=
  { m with points := m.points.map fun p => if p.index = index then { p with passed := p.passed + 1 } else p }

/-- Counts and posts up to `n` points of one entry, each as one request, while the batch flows (R118, log
entry 10). -/
def State.postPoints (s : State) (a : ArmId) (e : SnapshotEntry) : Nat → State
  | 0 => s
  | n + 1 =>
    match s.batch a with
    | some b =>
      if b.state.flowing then
        ((s.modBatch a fun b => { b with metering := b.metering.countPoint e.index }).post a b.ref e).postPoints a e n
      else s
    | none => s

/-- The shot-point test of one entry (R118). -/
def State.testEntry (a : ArmId) (s : State) (p : ShotPoint) : State :=
  match s.batch a with
  | some b =>
    match b.snapshot.entryAt p.index with
    | some e => s.postPoints a e (pointsPassed b.gross e.entry.rate p.shotVolume - p.passed)
    | none => s
  | none => s

/-- The shot-point test of a volume credit (R118), entry by entry; that the entries are taken in the order of the
snapshot, so that a posting that holds the batch leaves the later ones unposted, is the model's choice (log entry 10). -/
def State.testPoints (s : State) (a : ArmId) : State :=
  match s.batch a with
  | some b => b.metering.points.foldl (State.testEntry a) s
  | none => s

/-! ### Credits of volume -/

/-- A tenth counted in the metering context of a batch by the role of the meter (R110). -/
def Batch.countTenth (b : Batch) : Role → Batch
  | .main => { b with metering := { b.metering with stepMain := b.metering.stepMain + 1,
                                                    secondTenths := b.metering.secondTenths + 1 } }
  | .blend => { b with blendGross := b.blendGross + 1,
                       metering := { b.metering with stepBlend := b.metering.stepBlend + 1 } }

/-- The step of a batch is complete: its step main gross is at 10.0 L (R113). -/
def State.stepComplete (s : State) (a : ArmId) : Bool := (s.batch a).any fun b => decide (100 ≤ b.metering.stepMain)

/-- A volume credit of one tenth (R110): the metering context, the flow profile, the shot points, and the
metering step when the tenth completes one. -/
def State.creditTenth (s : State) (a : ArmId) (role : Role) : State :=
  let s1 := ((s.modBatch a fun b => b.countTenth role).addTenth a).testPoints a
  if s1.stepComplete a then s1.meteringStep a else s1

/-- A tenth on a meter that is not bound (R119). -/
def State.creditUnauthorized (s : State) (m : MeterId) : State :=
  let x := s.meter m
  let v := min 9999999 (x.unauthorized + 1)
  if 50 < v ∧ !x.unauthorizedFlag then
    (s.modMeter m fun x => { x with unauthorized := v, unauthorizedFlag := true }).raise .unauthFlow
  else s.modMeter m fun x => { x with unauthorized := v }

/-- A tenth produced on a meter: the totalizer, then its owner at that moment (R109). -/
def State.produceTenth (s : State) (m : MeterId) : State :=
  let s1 := s.modMeter m fun x => { x with totalizer := min (2 ^ 48 - 1) (x.totalizer + 1) }
  match s1.boundTo m with
  | some (a, role) => s1.creditTenth a role
  | none => s1.creditUnauthorized m

/-- `n` tenths produced one after the other. -/
def State.produceTenths (s : State) (m : MeterId) : Nat → State
  | 0 => s
  | n + 1 => (s.produceTenth m).produceTenths m n

/-! ### Pulses -/

/-- The integrity check, when a count has reached 1000 (R111). -/
def State.checkIntegrity (s : State) (m : MeterId) : State :=
  let x := s.meter m
  if x.aCount < 1000 ∧ x.bCount < 1000 then s
  else
    let s1 := s.modMeter m fun x => { x with aCount := 0, bCount := 0 }
    if 10 < distance x.aCount x.bCount ∧ x.state = .ok then
      let s2 := (s1.modMeter m fun x => { x with state := .fault }).raise .meterFault
      match s2.boundTo m with
      | some (a, _) => s2.handCause a .meter
      | none => s2
    else s1

/-- A pulse on a bound meter restarts the settle of a batch in CLOSING (R93). -/
def Batch.restartSettle (b : Batch) : Batch := if b.state = .closing then { b with settle := seconds 2 } else b

/-- An A pulse on the main meter restarts the no-flow timer while it runs (R117). -/
def Batch.restartNoFlow (b : Batch) : Batch :=
  if b.state.flowing then { b with metering := { b.metering with noFlow := seconds 10 } } else b

/-- A pulse seen by the timers of the batch that has the meter bound; A says that it is an A pulse. -/
def State.restartTimers (s : State) (m : MeterId) (isA : Bool) : State :=
  match s.boundTo m with
  | some (a, .main) => s.modBatch a fun b => if isA then b.restartSettle.restartNoFlow else b.restartSettle
  | some (a, .blend) => s.modBatch a Batch.restartSettle
  | none => s

/-- An A pulse (R109): the residue rises by 10 000, the tenths it holds are produced, the A count rises and
the integrity check follows (log entry 9). -/
def State.pulseA (s : State) (m : MeterId) : State :=
  let x := s.meter m
  let total := x.residue + 10000
  let s1 := (s.restartTimers m true).modMeter m fun x => { x with residue := total % x.k }
  let s2 := s1.produceTenths m (total / x.k)
  (s2.modMeter m fun x => { x with aCount := x.aCount + 1 }).checkIntegrity m

/-- A B pulse (R109): no volume; the B count rises and the integrity check follows. -/
def State.pulseB (s : State) (m : MeterId) : State :=
  ((s.restartTimers m false).modMeter m fun x => { x with bCount := x.bCount + 1 }).checkIntegrity m

/-! ### Timers of a running batch -/

/-- The blend timer's expiry (R115): the blend demand from the main measured flow of the second just ended,
not above 4000 L/min. -/
def Batch.blendExpiry (b : Batch) : Batch :=
  match b.snapshot.blend with
  | some p =>
    if b.state.flowing then
      { b with blendDemand := min 4000 (b.metering.secondTenths * 6 * p.ratio / (1000 - p.ratio)),
               metering := { b.metering with secondTenths := 0, blendTimer := seconds 1 } }
    else b
  | none => b

/-- The no-flow timer's expiry (R117): it runs in a flowing state with the main demand above 0. -/
def State.noFlowExpiry (s : State) (a : ArmId) : State :=
  if (s.batch a).any fun b => b.state.flowing && decide (0 < b.mainDemand) then s.handCause a .noFlow else s

end Sys2Proof.Machine
end

