-- ==== Sys2Proof/Machine/Sessions.lean ====
section
/-! DEFINITION. Bay sessions (Chapter 4) and the ends of batches (sections 5.4, 5.7): admission, permissives,
terminal liveness, compartment start, finishing and closing. -/

namespace Sys2Proof.Machine

/-! ### Closing a session, ending a batch -/

/-- The note flags of a close by its cause (R152). -/
def noteFlagsOf : Option CloseCause → List NoteFlag
  | some .host => [.hostClosed]
  | some .reset => [.bayReset]
  | some .driver => []
  | some .timeout => []
  | none => []

/-- The close of a session (R77): the bound order is released, a note issued becomes the bay's last note
(R165), and the session returns to IDLE. -/
def State.closeSession (s : State) (b : BayId) : State :=
  let x := s.session b
  let s1 := match x.bound.bind s.findOrder with
    | some (t, o) =>
      let s' := s.settleOrder t (noteFlagsOf x.closeCause)
      if 0 < o.totalGross then s'.modDisplay b fun d => { d with lastNote := some s.nextNote } else s'
    | none => s
  s1.returnToIdle b

/-- A session in CLOSING closes when no arm of its bay is out of IDLE (R77). -/
def State.closeIfDone (s : State) (b : BayId) : State :=
  if (s.session b).state = .closing ∧ s.allIdle b then s.closeSession b else s

/-- The LOADING inactivity limit from its full value, while every arm of the bay is IDLE (R75). -/
def State.restartInactivity (s : State) (b : BayId) : State :=
  if (s.session b).state = .loading ∧ s.allIdle b then s.modSession b fun x => { x with timer := seconds 600 } else s

/-- The closing allowance learned from an overrun (R95): the old value plus half the overrun, the half
rounded toward zero, clamped to 0.0 to 50.0 L. -/
def learnedAllowance (old gross target : Nat) : Nat :=
  min 500 ((old : Int) + Int.tdiv ((gross : Int) - target) 2).toNat

/-- The batch reached its target: it ended by its settle with close kind TARGET (R94). -/
def Batch.reachedTarget (b : Batch) (leak : Bool) : Bool := decide (b.closeKind = some .target) && !leak

/-- A compartment as a batch end leaves it (R39, R53, R93). -/
def Compartment.batchEnded (c : Compartment) (reached leak : Bool) : Compartment :=
  let c' := if leak then c.addFlag .valveLeak else c
  if reached then { c' with state := .filled } else c'.endedShort

/-- An arm as the end of its batch leaves it: IDLE; a batch that reached its target teaches the closing
allowance (R95), a leak takes the arm OUT_OF_SERVICE (R93). -/
def Arm.batchEnded (r : Arm) (b : Batch) (leak : Bool) : Arm :=
  { r with batch := none
           closingAllowance :=
             if b.reachedTarget leak then learnedAllowance r.closingAllowance b.gross b.target else r.closingAllowance
           service := if leak then .outOfService else r.service }

/-- Stages 1 to 5 of a batch end (R94): end credit, compartment, reservations, learning, batch IDLE. -/
def State.retireBatch (s : State) (a : ArmId) (b : Batch) (leak : Bool) : State :=
  (((s.endCredit a).modComp b.ref fun c => c.batchEnded (b.reachedTarget leak) leak).releaseReservations b.ref).modArm a
    fun r => r.batchEnded b leak

/-- Stage 6 of a batch end (R94): the session of the arm's bay is told. -/
def State.tellBay (s : State) : Option BayId → State
  | some bay => (s.restartInactivity bay).closeIfDone bay
  | none => s

/-- A batch end by its settle or by the leak timer (R93, R94); a leak sets ARM_FAULT. -/
def State.endBatch (s : State) (a : ArmId) (leak : Bool) : State :=
  match s.batch a with
  | none => s
  | some b =>
    let s' := s.retireBatch a b leak
    (if leak then s'.raise .armFault else s').tellBay (s.arm a).bay

/-- The end of a batch by a bay reset, without settle (R105). -/
def State.endAtOnceRaw (s : State) (a : ArmId) : State :=
  match s.batch a with
  | none => s
  | some b =>
    let s1 := s.endCredit a
    let s2 := s1.modComp b.ref fun c => (c.addFlag .endedByReset).endedShort
    let s3 := ((s2.releaseReservations b.ref).removeQueueEntries a).leaveRaw b.snapshot.mainHeader a
    s3.modArm a fun r => { r with batch := none }

/-- The ends without settle of one event; every drawing set changed is computed anew once. -/
def State.endAtOnce (s : State) (arms : List ArmId) : State :=
  s.settleHeaders (arms.foldl State.endAtOnceRaw s)

/-! ### Admission -/

/-- The card presentation check (Table 1-3): the first failing test's reason, or none. -/
def State.presentation (s : State) (card : Nat) : Option Reason :=
  match s.clock with
  | none => some .clockUnset
  | some now =>
    if s.esd.active then some .esdActive
    else
      match if inRange 1 99999999 card then s.findPermit card else none with
      | none => some .unknownCard
      | some p =>
        if p.sessionBay.isSome then some .inSessionElsewhere
        else if p.persistent ∨ p.dynamic ≠ .none then some .permitHeld
        else if now.day < p.validFrom then some .notYetValid
        else if p.expiry < now.day then some .permitExpired
        else if p.allowance = some 0 then some .allowanceUsed
        else none

/-- A card event (R60). -/
def State.presentCard (s : State) (b : BayId) (card : Nat) : State :=
  if (s.session b).state = .idle then
    match s.presentation card with
    | some r => s.refuse b r
    | none =>
      (((s.modPermit card fun p => { p with sessionBay := some b }).modSession b fun x =>
        { x with state := .codeEntry, card := some card, digits := [], timer := seconds 30 }).modDisplay b fun d =>
        { d with lastNote := none }).raise (sessionFlag b)
  else s

/-- The candidate orders of a card at a bay: the first four in creation order (R50). -/
def State.candidates (s : State) (card : Nat) (b : BayId) : List Nat :=
  ((inCreationOrder (s.heldOrders.filter fun e => e.2.isOpen && decide (e.2.card = card) && e.2.allowsBay b)).take 4).map
    fun e => e.2.number

/-- The session enters LOADING (R66, R75). -/
def State.enterLoading (s : State) (b : BayId) : State :=
  (s.modSession b fun x =>
    { x with state := .loading, focus := 0, armPending := false, selected := none, timer := none }).restartInactivity b

/-- A WAIT_BOND session passes on to LOADING when both permissives are PRESENT (R66). -/
def State.passToLoading (s : State) (b : BayId) : State :=
  if (s.session b).state = .waitBond ∧ (s.session b).permissivesPresent then s.enterLoading b else s

/-- The Order Table takes a bind when the order is OPEN, names the card and allows the bay (R51). -/
def State.bindable (s : State) (n card : Nat) (b : BayId) : Option SlotId :=
  match s.findOrder n with
  | some (t, o) => if o.isOpen ∧ o.card = card ∧ o.allowsBay b then some t else none
  | none => none

/-- A bind taken (R51) and the entry to WAIT_BOND (R66). -/
def State.bindOrder (s : State) (b : BayId) (t : SlotId) (n : Nat) : State :=
  ((s.modOrder t fun o => { o with stage := .active { bay := b, startTime := s.clock, endTime := none } }).modSession b
    fun x => { x with state := .waitBond, bound := some n, timer := seconds 300 }).passToLoading b

/-- What follows a right code (R62), with the candidates found. -/
def State.rightCode (s : State) (b : BayId) (card : Nat) : State :=
  match s.candidates card b with
  | [] => (s.refuse b .noOrder).returnToIdle b
  | [n] =>
    let s' := s.modSession b fun x => { x with candidates := [n] }
    match s'.bindable n card b with
    | some t => s'.bindOrder b t n
    | none => s'
  | l => s.modSession b fun x => { x with state := .orderSelect, candidates := l, timer := seconds 60 }

/-- The code check (R13, R14) and the session's part of it (R61). -/
def State.checkCode (s : State) (b : BayId) (p : Permit) : State :=
  let x := s.session b
  if x.digits = p.code then (s.modPermit p.card fun p => { p with strikes := 0 }).rightCode b p.card
  else if p.strikes < 2 then
    ((s.modPermit p.card fun p => { p with strikes := p.strikes + 1 }).modSession b fun x =>
      { x with digits := [], timer := seconds 30 }).refuse b .wrongCode
  else
    (((s.modPermit p.card fun p => { p with strikes := 3, dynamic := .strike }).raise .strikeout).refuse b
      .struckOut).returnToIdle b

/-- The permit of a session, as the table holds it. -/
def State.sessionPermit (s : State) (b : BayId) : Option Permit := (s.session b).card.bind s.findPermit

/-- ENTER in CODE_ENTRY (R61). -/
def State.enterCode (s : State) (b : BayId) : State :=
  if (s.session b).digits.length < 4 then (s.modSession b fun x => { x with digits := [] }).refuse b .codeIncomplete
  else
    match s.sessionPermit b with
    | some p => s.checkCode b p
    | none => s

/-- A selection answered UNAVAILABLE (R63): the candidates are asked for again. -/
def State.rebuild (s : State) (b : BayId) (card : Nat) : State :=
  match s.candidates card b with
  | [] => (s.refuse b .noOrder).returnToIdle b
  | l => (s.refuse b .orderUnavailable).modSession b fun x => { x with candidates := l, timer := seconds 60 }

/-- A digit in ORDER_SELECT (R63). -/
def State.selectOrder (s : State) (b : BayId) (d : Fin 10) : State :=
  let x := s.session b
  if d = 0 then s
  else
    match x.candidates[d.val - 1]?, x.card with
    | some n, some card =>
      match s.bindable n card b with
      | some t => s.bindOrder b t n
      | none => s.rebuild b card
    | _, _ => s

/-- The order bound at a bay, with its slot. -/
def State.boundOrder (s : State) (b : BayId) : Option (SlotId × Order) := (s.session b).bound.bind s.findOrder

/-- The end of a session in CODE_ENTRY, ORDER_SELECT or WAIT_BOND (R64): a bound order returns to OPEN. -/
def State.endBeforeLoading (s : State) (b : BayId) : State :=
  (match s.boundOrder b with
    | some (t, _) => s.reopen t
    | none => s).returnToIdle b

/-- CODE_ENTRY, ORDER_SELECT, WAIT_BOND. -/
def SessionState.preLoading : SessionState → Bool
  | .codeEntry => true
  | .orderSelect => true
  | .waitBond => true
  | .idle => false
  | .loading => false
  | .closing => false

/-! ### Keys in LOADING -/

/-- A digit in LOADING (R69). A pending digit that names the position which already has the focus counts as a taken
change of focus (the model's choice, log entry 39). -/
def State.loadingDigit (s : State) (b : BayId) (d : Fin 10) : State :=
  if (s.session b).armPending then
    let s' := s.modSession b fun x => { x with armPending := false }
    match numbered 6 d.val, (s.bayArms b)[d.val - 1]? with
    | some position, some a =>
      s'.modSession b fun x => { x with focus := position, selected := (s.batch a).map fun y => y.ref.comp }
    | _, _ => s'.refuse b .noSuchArm
  else
    match numbered 8 d.val with
    | some n => s.modSession b fun x => { x with selected := some n }
    | none => s

/-- STOP on the focus arm (R70, R92). -/
def State.stopKey (s : State) (b : BayId) : State :=
  match s.focusArm b with
  | none => s.refuse b .noSuchArm
  | some a =>
    match s.batch a with
    | none => s
    | some x => if x.state = .closing then s else s.enterClosing a .stopped

/-- RESUME on the focus arm (R70, R92, R102). -/
def State.resumeKey (s : State) (b : BayId) : State :=
  match s.focusArm b with
  | none => s.refuse b .noSuchArm
  | some a =>
    if s.batchIs a .held then
      let s' := s.pruneHoldSet a
      match s'.batch a with
      | some x =>
        if x.holdSet.any HoldCause.isCondition then s'.refuse b .holdCondition
        else if .host ∈ x.holdSet then s'.refuse b .hostHold
        else s'.takeResume a
      | none => s'
    else s.refuse b .notHeld

/-- FINISH, keyed or given by the inactivity limit (R76). -/
def State.finish (s : State) (b : BayId) (cause : CloseCause) : State :=
  if (s.bayArms b).any fun a => s.flowing a || s.batchIs a .closing then s.refuse b .armsFlowing
  else
    let s1 := s.enterClosings ((s.bayArms b).filter fun a => s.batchIs a .held) .stopped
    (s1.modSession b fun x => { x with state := .closing, closeCause := some cause, timer := none }).closeIfDone b

/-! ### Compartment start -/

/-- The entries that R32 selects for a start, with their entry indices: at batch count 0 all of the
record's, later those whose injector names one of the compartment's results. -/
def selectEntries (p : Product) (c : Compartment) : List (AdditiveEntry × Nat) :=
  let all := p.additives.zipIdx.map fun e => (e.1, e.2 + 1)
  if c.batchCount = 0 then all else all.filter fun e => c.results.any fun r => decide (r.injector = e.1.injector)

/-- The snapshot entries of a start: OPTIONAL entries whose injector is unavailable are marked SKIPPED (R72,
check 11). -/
def State.markEntries (s : State) (l : List (AdditiveEntry × Nat)) : List SnapshotEntry :=
  l.map fun e => { entry := e.1, index := e.2,
                   skipped := decide (e.1.requirement = .optional) && !(s.injector e.1.injector).available }

/-- Check 11: every REQUIRED entry's injector is available. -/
def State.requiredReady (s : State) (l : List (AdditiveEntry × Nat)) : Bool :=
  l.all fun e => decide (e.1.requirement = .optional) || (s.injector e.1.injector).available

/-- Check 12 for one entry: shot volume × 1000 / rate is at least 20.0 L. -/
def State.spacingWorkable (s : State) (e : SnapshotEntry) : Bool :=
  decide (20 * e.entry.rate ≤ (s.injector e.entry.injector).shotVolume * 1000)

/-- The need of an entry (check 13): target × rate / 1000 in mL rounded up, plus one shot volume. -/
def State.need (s : State) (target : Nat) (e : SnapshotEntry) : Nat :=
  (target * e.entry.rate + 9999) / 10000 + (s.injector e.entry.injector).shotVolume

/-- The standing check of a permit (R15): the first failing test's reason, or none. -/
def standing (p : Permit) (now : Time) (cls : GroupCode) : Option Reason :=
  if p.persistent ∨ p.dynamic ≠ .none then some .permitHeld
  else if now.day < p.validFrom then some .notYetValid
  else if p.expiry < now.day then some .permitExpired
  else if cls ∈ p.classes then none
  else some .classNotPermitted

/-- The standing of a bay's session for a class; permit and clock are there whenever a session is out of
IDLE (R15), and without them the check refuses. -/
def State.standingAt (s : State) (b : BayId) (cls : GroupCode) : Option Reason :=
  match s.sessionPermit b, s.clock with
  | some p, some now => standing p now cls
  | none, _ => some .permitHeld
  | some _, none => some .clockUnset

/-- The matrix verdict of a start (R29): ALLOW for a clean compartment. -/
def State.verdictFor (s : State) (c : Compartment) (p : Product) : Verdict :=
  match c.prevGroup with
  | none => .allow
  | some g => vget (vget s.matrix g) p.group

/-- Check 6 (R52): PLANNED or PARTIAL with a batch count below 15. -/
def Compartment.loadable (c : Compartment) : Bool :=
  (decide (c.state = .planned) || decide (c.state = .partly)) && decide (c.batchCount < 15)

/-- The selected compartment of the bound order, if it is loadable (R52). -/
def State.loadableComp (s : State) (b : BayId) : Option (CompRef × Compartment) :=
  match s.boundOrder b, (s.session b).selected with
  | some (t, o), some n =>
    match o.comp n with
    | some c => if c.loadable then some ({ slot := t, order := o.number, comp := n }, c) else none
    | none => none
  | _, _ => none

/-- The record behind a compartment's product code (R25). -/
def State.productOf (s : State) (c : Compartment) : Option (ProductId × Product) :=
  c.product.bind fun code => (s.product code).map fun p => (code, p)

/-- Check 7 (R71): the arm serves the product, and the meters' headers are the product's. -/
def State.productOnArm (s : State) (a : ArmId) (code : ProductId) (p : Product) : Bool :=
  let r := s.arm a
  decide (code ∈ r.products) && (r.mainMeter.any fun m => decide ((s.meter m).header = p.mainHeader))
    && (match p.blend with
        | none => true
        | some x => r.blendMeter.any fun m => decide ((s.meter m).header = x.header))

/-- Check 10 (R71): the main meter is OK, and for a blended product the blend meter. -/
def State.metersOk (s : State) (a : ArmId) (p : Product) : Bool :=
  let r := s.arm a
  let ok := fun m => decide ((s.meter m).state = .ok)
  (r.mainMeter.any ok) && (p.blend.isNone || r.blendMeter.any ok)

/-- What a START that passes its checks works with. -/
structure StartPlan where
  arm : ArmId
  ref : CompRef
  target : Nat
  base : Nat
  firstBatch : Bool
  snapshot : Snapshot
  deriving DecidableEq, Repr

/-- The snapshot of a start (R31). -/
def snapshotOf (code : ProductId) (p : Product) (entries : List SnapshotEntry) (v : Verdict) : Snapshot :=
  { code, name := p.name, cls := p.cls, group := p.group, mainHeader := p.mainHeader, blend := p.blend, entries,
    correction := p.correction, verdict := v }

/-- Checks 9 to 13 (R71, R72), for an arm and a loadable compartment whose product stands: the refusal
reason, or the plan of the start. -/
def State.checkRecipe (s : State) (a : ArmId) (ref : CompRef) (c : Compartment) (code : ProductId) (p : Product) :
    Except Reason StartPlan :=
  let v := s.verdictFor c p
  let selected := selectEntries p c
  let entries := s.markEntries selected
  let usable := entries.filter fun e => !e.skipped
  let target := c.planned - c.gross
  if v = .forbid then .error .incompatible
  else if !s.metersOk a p then .error .meterFault
  else if !s.requiredReady selected then .error .injectorUnavailable
  else if !usable.all s.spacingWorkable then .error .doseUnworkable
  else if !usable.all fun e => decide (s.need target e ≤ (s.injector e.entry.injector).free) then .error .additiveShort
  else .ok { arm := a, ref, target, base := c.gross, firstBatch := decide (c.batchCount = 0),
             snapshot := snapshotOf code p entries v }

/-- The ordered start checks (Table 4-3): the first failing check's reason, or the plan of the start. -/
def State.startChecks (s : State) (b : BayId) : Except Reason StartPlan :=
  match s.focusArm b with
  | none => .error .noSuchArm
  | some a =>
    if s.esd.active then .error .esdActive
    else if !(s.session b).permissivesPresent then .error .permissiveMissing
    else if (s.arm a).service ≠ .inService then .error .armOutOfService
    else if (s.batch a).isSome then .error .armBusy
    else if !(s.arm a).connected then .error .armNotConnected
    else
      match s.loadableComp b with
      | none => .error .compNotLoadable
      | some (ref, c) =>
        match s.productOf c with
        | none => .error .productNotOnArm
        | some (code, p) =>
          if !s.productOnArm a code p then .error .productNotOnArm
          else
            match s.standingAt b p.cls with
            | some r => .error r
            | none => s.checkRecipe a ref c code p

/-- The additive result laid down for an entry at a compartment's first start (R40). -/
def SnapshotEntry.result (e : SnapshotEntry) : AdditiveResult :=
  { index := e.index, injector := e.entry.injector, rate := e.entry.rate, requirement := e.entry.requirement,
    tolerance := e.entry.tolerance, expected := 0, delivered := 0, flags := if e.skipped then [.skipped] else [] }

/-- The results of a compartment after a start (R40, R52): laid down at the first, SKIPPED added later. -/
def startResults (p : StartPlan) (c : Compartment) : List AdditiveResult :=
  if p.firstBatch then p.snapshot.entries.map SnapshotEntry.result
  else c.results.map fun r =>
    if p.snapshot.entries.any fun e => e.skipped && decide (e.entry.injector = r.injector) then r.addFlag .skipped else r

/-- A compartment as a successful start leaves it (R52). -/
def Compartment.started (c : Compartment) (p : StartPlan) : Compartment :=
  let c' := { c with state := .loading, batchCount := c.batchCount + 1, lastArm := some p.arm, results := startResults p c }
  if p.snapshot.verdict = .lowFlow then c'.addFlag .lowFlowOnly else c'

/-- The batch of a start, before its entry to LOW_START (R86). -/
def State.newBatch (s : State) (p : StartPlan) : Batch :=
  { state := .lowStart, ref := p.ref, target := p.target, snapshot := p.snapshot, gross := 0, blendGross := 0,
    net := 0, sinceStart := 0, mainDemand := 0, blendDemand := 0, ceiling := none, holdSet := [], closeKind := none,
    ramp := none, settle := none, leak := none,
    metering :=
      { stepMain := 0, stepBlend := 0, steps := 0, outOfTolerance := 0, base := p.base,
        points := p.snapshot.usable.map fun e =>
          { index := e.index, shotVolume := (s.injector e.entry.injector).shotVolume, passed := 0 },
        noFlow := none, blendTimer := none, secondTenths := 0 } }

/-- The reservations of the usable entries (R73, R124). -/
def State.reserveAll (s : State) (p : StartPlan) : State :=
  p.snapshot.usable.foldl
    (fun acc e => acc.modInjector e.entry.injector fun i => i.setReservation p.ref (s.need p.target e)) s

/-- A start taken (R73, R86): compartment, reservations, batch, drawing set; the inactivity limit stops. -/
def State.takeStart (s : State) (b : BayId) (p : StartPlan) : State :=
  let batch := s.newBatch p
  let s1 := (s.modComp p.ref fun c => c.started p).reserveAll p
  let s2 := (s1.modArm p.arm fun r => { r with batch := some batch }).enterLowStart p.arm batch
  s2.modSession b fun x => { x with timer := none }

/-- START in LOADING (R71, R73). -/
def State.startKey (s : State) (b : BayId) : State :=
  match s.startChecks b with
  | .error r => s.refuse b r
  | .ok p => s.takeStart b p

/-! ### Terminal and permissives -/

/-- A well-formed terminal frame is a sign of life (R67): a LOST terminal becomes PRESENT, its TERMINAL_LOST
causes are removed and the restored time starts (R165). -/
def State.signOfLife (s : State) (b : BayId) : State :=
  let s1 := s.modSession b fun x => { x with terminal := .present, silence := seconds 3 }
  if (s.session b).terminal = .lost then
    (s1.removeCauses (s1.bayArms b) .terminalLost).modDisplay b fun d => { d with restored := seconds 5 }
  else s1

/-- The terminal becomes LOST (R67, R68). -/
def State.loseTerminal (s : State) (b : BayId) : State :=
  if (s.session b).terminal = .lost then s
  else
    let s1 := (s.modSession b fun x => { x with terminal := .lost, silence := none }).raise .terminalLost
    match (s.session b).state with
    | .idle => s1
    | .codeEntry => s1.endBeforeLoading b
    | .orderSelect => s1.endBeforeLoading b
    | .waitBond => s1.endBeforeLoading b
    | .loading => s1.handCauses (s1.bayArms b) .terminalLost
    | .closing => s1.handCauses (s1.bayArms b) .terminalLost

/-- One permissive of a session. -/
def Session.permissive (x : Session) : Permissive → PermissiveUnit
  | .bond => x.bond
  | .overfill => x.overfill

/-- Changes one permissive of a session. -/
def Session.modPermissive (x : Session) (w : Permissive) (f : PermissiveUnit → PermissiveUnit) : Session :=
  match w with
  | .bond => { x with bond := f x.bond }
  | .overfill => { x with overfill := f x.overfill }

/-- The input becomes present (R65): while NOT_PRESENT a 2 s debounce starts. -/
def PermissiveUnit.rise (u : PermissiveUnit) : PermissiveUnit :=
  if u.input then u
  else { u with input := true, debounce := if u.present then u.debounce else seconds 2 }

/-- The debounce of a permissive ends (R65). -/
def State.debounceEnd (s : State) (b : BayId) (w : Permissive) : State :=
  let s1 := s.modSession b fun x => x.modPermissive w fun u => { u with present := true, debounce := none }
  (s1.removeCauses (s1.bayArms b) .permissive).passToLoading b

/-- The input becomes absent (R65). -/
def State.permissiveFall (s : State) (b : BayId) (w : Permissive) : State :=
  let u := (s.session b).permissive w
  if u.input then
    let s1 := s.modSession b fun x => x.modPermissive w fun u => { u with input := false, present := false, debounce := none }
    if u.present then s1.handCauses (s1.bayArms b) .permissive else s1
  else s

/-! ### Host requests to a bay -/

/-- BAY_CLOSE in LOADING (R78). -/
def State.hostClose (s : State) (b : BayId) : State :=
  let s1 := s.enterClosings ((s.bayArms b).filter fun a => s.flowing a || s.batchIs a .held) .stopped
  (s1.modSession b fun x => { x with state := .closing, closeCause := some .host, timer := none }).closeIfDone b

/-- The session's part of BAY_RESET (R79). -/
def State.resetSession (s : State) (b : BayId) : State :=
  match (s.session b).state with
  | .idle => s
  | .codeEntry => s.endBeforeLoading b
  | .orderSelect => s.endBeforeLoading b
  | .waitBond => s.endBeforeLoading b
  | .loading => ((s.endAtOnce (s.bayArms b)).modSession b fun x => { x with closeCause := some .reset }).closeSession b
  | .closing => ((s.endAtOnce (s.bayArms b)).modSession b fun x => { x with closeCause := some .reset }).closeSession b

end Sys2Proof.Machine
end

