-- ==== Sys2Proof/Machine/HostLink.lean ====
section
/-! DEFINITION. The Host Link Port (section 11.1): the acceptance of a request, its response, and the rows
of frames that no block sees. -/

namespace Sys2Proof.Machine

/-- What a block answers to a request: the state it leaves, the result code and the response body. -/
structure Reply where
  state : State
  result : ResultCode
  body : List Byte

/-- OK, with a body composed from the state the request leaves. -/
def Reply.ok (s : State) (body : List Byte) : Reply := { state := s, result := .ok, body }

/-- A refused request: nothing changes, and the body is empty (log entry 14). -/
def Reply.refused (s : State) (r : ResultCode) : Reply := { state := s, result := r, body := [] }

/-- The response is composed from the state after the event and is being sent; until its last byte, every
received byte is discarded (R167, R168). -/
def State.respond (s : State) (kind tag : Byte) (request : List Byte) (result : ResultCode) (body : List Byte) : State :=
  { s with port := { s.port with
      phase := .responding
      rx := kind :: tag :: request
      response := some (responseFrame kind tag (BitVec.ofNat 8 result.code) s.statusByte body) } }

/-- A block's reply sent as the response to a request. -/
def Reply.send (r : Reply) (kind tag : Byte) (request : List Byte) : State :=
  r.state.respond kind tag request r.result r.body

/-- A request frame: discarded while a response is under way (R167); answered INVALID with an empty body
where its body does not match the fields of its kind (R168); else taken by its block as one event. -/
def State.request {α : Type} (s : State) (kind tag : Byte) (body : List Byte) (read : List Byte → Option α)
    (act : State → α → Reply) : State :=
  match s.port.phase with
  | .responding => s
  | .hunting =>
    match read body with
    | none => (Reply.refused s .invalid).send kind tag body
    | some f => (act s f).send kind tag body

/-- The hunting port keeps these bytes of a frame under way: no response, no block. While a response is under way every
byte is discarded anyway (R167). -/
def State.keepHunting (s : State) (buffer : List Byte) : State :=
  match s.port.phase with
  | .responding => s
  | .hunting => { s with port := { s.port with rx := buffer } }

/-- HOST_FRAME_DISCARD (R167): a frame of bad length or CRC, from its start byte on, with the bytes received behind it.
Hunting resumes with the byte after its length field or after its CRC, and what it finds there of a further frame is
under way; what stood in the buffer was the beginning of the frame discarded. -/
def execHostFrameDiscard (received : List Byte) (s : State) : Host.Outcome State Fault Refusal :=
  .next (s.keepHunting (hunt [] received).buffer)

/-- HOST_FRAME_TIMEOUT (R167): more than 10 ms between two bytes of a frame, which is discarded; hunting resumes with the
next byte. -/
def execHostFrameTimeout (_received : List Byte) (s : State) : Host.Outcome State Fault Refusal :=
  .next (s.keepHunting [])

/-- Bytes received on the host link, by a port whose host-link commands have all been taken (R167, log entry 1): the
commands that they are join the queue; where they complete no frame the hunting port keeps those of the frame under way,
and until the end of a response every byte is discarded. -/
def State.receive (s : State) (bytes : List Byte) : State :=
  match s.port.phase, hostCommands s.port.rx bytes with
  | .responding, _ => s
  | .hunting, [] => s.keepHunting (hunt s.port.rx bytes).buffer
  | .hunting, c :: rest => { s with pending := s.pending ++ c :: rest }

/-- UNKNOWN_KIND (R168): INVALID with an empty body; no block sees the request. -/
def execUnknownKind (kind tag : Byte) (body : List Byte) (s : State) : Host.Outcome State Fault Refusal :=
  .next (s.request kind tag body (fun b => some b) fun s _ => Reply.refused s .invalid)

/-- RESPONSE_SENT (R167): the last byte of the response has gone out; hunting resumes. -/
def execResponseSent (s : State) : Host.Outcome State Fault Refusal :=
  .next { s with port := { s.port with phase := .hunting, rx := [] } }

end Sys2Proof.Machine
end

