-- ==== Sys2Proof/Machine/ArmRequests.lean ====
section
/-! DEFINITION. The host's requests to the Arm Controllers and the Header Allocator (R83, R84, R96, R103). -/

namespace Sys2Proof.Machine

/-! ### The arm record -/

/-- A meter is the main or blend meter of an arm other than the one given. -/
def State.meterElsewhere (s : State) (a : ArmId) (m : MeterId) : Bool :=
  allArms.any fun x => decide (x ≠ a) && (decide ((s.arm x).mainMeter = some m) || decide ((s.arm x).blendMeter = some m))

/-- Test 2 of R83: no meter named belongs to another arm. -/
def State.metersFree (s : State) (a : ArmId) (r : Arm) : Bool :=
  r.mainMeter.all (fun m => !s.meterElsewhere a m) && r.blendMeter.all fun m => !s.meterElsewhere a m

/-- Test 3 of R83: the bay named has fewer than six assigned arms other than this one. -/
def State.bayHasRoom (s : State) (a : ArmId) (r : Arm) : Bool :=
  r.bay.all fun b => decide (((s.bayArms b).filter fun x => decide (x ≠ a)).length < 6)

/-- The record written: the CONNECTED input keeps its level, and the batch is IDLE. -/
def State.writeArm (s : State) (a : ArmId) (r : Arm) : State := s.modArm a fun old => { r with connected := old.connected }

/-- The tests of R83 in order, for the record to be written. -/
def State.putArm (s : State) (a : ArmId) (r : Arm) : Reply :=
  if (s.batch a).isSome then .refused s .inUse
  else if !s.metersFree a r then .refused s .inUse
  else if !s.bayHasRoom a r then .refused s .full
  else .ok (s.writeArm a r) []

/-- ARM_PUT (R83): UNASSIGNED writes the defaults of Table 5-1, which name no meter and no bay. -/
def State.armPut (s : State) (f : Nat × Option ArmFields) : Reply :=
  match numbered 12 f.1 with
  | none => .refused s .invalid
  | some a =>
    match f.2 with
    | none => s.putArm a Arm.default
    | some g =>
      match g.checked with
      | none => .refused s .invalid
      | some r => s.putArm a r

def execArmPut (tag : Byte) (body : List Byte) (s : State) : Host.Outcome State Fault Refusal :=
  .next (s.request 0x50 tag body readArmPut State.armPut)

/-- ARM_GET (R84). -/
def State.armGet (s : State) (n : Nat) : Reply :=
  match numbered 12 n with
  | none => .refused s .invalid
  | some a => .ok s (s.arm a).body

def execArmGet (tag : Byte) (body : List Byte) (s : State) : Host.Outcome State Fault Refusal :=
  .next (s.request 0x51 tag body readByte State.armGet)

/-- ARM_RETURN (R84). -/
def State.armReturn (s : State) (n : Nat) : Reply :=
  match numbered 12 n with
  | none => .refused s .invalid
  | some a =>
    match (s.arm a).service with
    | .inService => .refused s .wrongState
    | .outOfService => .ok (s.modArm a fun r => { r with service := .inService }) []

def execArmReturn (tag : Byte) (body : List Byte) (s : State) : Host.Outcome State Fault Refusal :=
  .next (s.request 0x52 tag body readByte State.armReturn)

/-! ### Headers -/

/-- The capacity of a header set; where it changes, the drawing arms' ceilings are computed anew (R96). -/
def State.setCapacity (s : State) (h : HeaderId) (capacity : Nat) : State :=
  let s' := s.modHeader h fun r => { r with capacity }
  if (s.header h).capacity = capacity then s' else s'.computeCeilings h

/-- HEADER_PUT (R96). -/
def State.headerPut (s : State) (f : Nat × Nat) : Reply :=
  match numbered 4 f.1 with
  | none => .refused s .invalid
  | some h => if inRange 500 8000 f.2 then .ok (s.setCapacity h f.2) [] else .refused s .invalid

def execHeaderPut (tag : Byte) (body : List Byte) (s : State) : Host.Outcome State Fault Refusal :=
  .next (s.request 0x53 tag body readHeaderPut State.headerPut)

/-- HEADER_GET (R96). -/
def State.headerGet (s : State) (n : Nat) : Reply :=
  match numbered 4 n with
  | none => .refused s .invalid
  | some h => .ok s (s.headerBody h)

def execHeaderGet (tag : Byte) (body : List Byte) (s : State) : Host.Outcome State Fault Refusal :=
  .next (s.request 0x54 tag body readByte State.headerGet)

/-! ### Host hold and resume -/

/-- A reply whose body is the batch state and hold set of the arm after the request (R103). -/
def State.holdReply (s : State) (a : ArmId) (r : ResultCode) : Reply := { state := s, result := r, body := s.holdBody a }

/-- BATCH_HOLD (R103). -/
def State.batchHold (s : State) (n : Nat) : Reply :=
  match numbered 12 n with
  | none => .refused s .invalid
  | some a =>
    if s.flowing a || s.batchIs a .held then (s.handCause a .host).holdReply a .ok else s.holdReply a .wrongState

def execBatchHold (tag : Byte) (body : List Byte) (s : State) : Host.Outcome State Fault Refusal :=
  .next (s.request 0x55 tag body readByte State.batchHold)

/-- A HELD batch's set, once the removal of R102 is made, holds a condition cause. -/
def State.conditionStands (s : State) (a : ArmId) : Bool := (s.batch a).any fun b => b.holdSet.any HoldCause.isCondition

/-- BATCH_RESUME (R103). -/
def State.batchResume (s : State) (n : Nat) : Reply :=
  match numbered 12 n with
  | none => .refused s .invalid
  | some a =>
    if s.batchIs a .held then
      let s' := s.pruneHoldSet a
      if s'.conditionStands a then s'.holdReply a .wrongState else (s'.takeResume a).holdReply a .ok
    else s.holdReply a .wrongState

def execBatchResume (tag : Byte) (body : List Byte) (s : State) : Host.Outcome State Fault Refusal :=
  .next (s.request 0x56 tag body readByte State.batchResume)

end Sys2Proof.Machine
end

