-- ==== Sys2Proof/Machine/BayLine.lean ====
section
/-! DEFINITION. The commands of a bay line and of a session's timers (R58 to R80, R176). -/

namespace Sys2Proof.Machine

/-! ### Terminal frames -/

/-- HEARTBEAT (R67). -/
def execHeartbeat (bay : BayId) (s : State) : Host.Outcome State Fault Refusal := .next (s.signOfLife bay)

/-- BAY_FRAME_DISCARD (R176): neither a sign of life nor an event. -/
def execBayFrameDiscard (_bay : BayId) (_received : List Byte) (s : State) : Host.Outcome State Fault Refusal := .next s

/-- BAY_FRAME_TIMEOUT (R176): neither a sign of life nor an event. -/
def execBayFrameTimeout (_bay : BayId) (_received : List Byte) (s : State) : Host.Outcome State Fault Refusal := .next s

/-- CARD_EVENT (R60): a sign of life, then the presentation. -/
def execCardEvent (bay : BayId) (card : BitVec 32) (s : State) : Host.Outcome State Fault Refusal :=
  .next ((s.signOfLife bay).presentCard bay card.toNat)

/-! ### Keys -/

/-- A key frame received: a sign of life (R67), and in LOADING the inactivity limit afresh where it runs
(R69, R75). -/
def State.keyed (s : State) (b : BayId) : State := (s.signOfLife b).restartInactivity b

/-- Arm selection is no longer pending (R69). -/
def State.dropPending (s : State) (b : BayId) : State := s.modSession b fun x => { x with armPending := false }

/-- A key other than a digit that acts in LOADING alone: pending becomes no, then the key acts (R69). -/
def State.loadingKey (s : State) (b : BayId) (act : State → State) : State :=
  if (s.session b).state = .loading then act (s.dropPending b) else s

/-- A digit in CODE_ENTRY (R61). -/
def State.codeDigit (s : State) (b : BayId) (d : Fin 10) : State :=
  s.modSession b fun x => if x.digits.length < 4 then { x with digits := x.digits ++ [d] } else x

/-- A digit by session state (Table 4-2). -/
def State.digitKey (s : State) (b : BayId) (d : Fin 10) : State :=
  match (s.session b).state with
  | .idle => s
  | .codeEntry => s.codeDigit b d
  | .orderSelect => s.selectOrder b d
  | .waitBond => s
  | .loading => s.loadingDigit b d
  | .closing => s

/-- DIGIT_KEY (R61, R63, R69). -/
def execDigitKey (bay : BayId) (digit : Fin 10) (s : State) : Host.Outcome State Fault Refusal :=
  .next ((s.keyed bay).digitKey bay digit)

/-- ENTER by session state (R61, R69). -/
def State.enterKey (s : State) (b : BayId) : State :=
  if (s.session b).state = .codeEntry then s.enterCode b else s.loadingKey b id

/-- ENTER (R61). -/
def execEnter (bay : BayId) (s : State) : Host.Outcome State Fault Refusal := .next ((s.keyed bay).enterKey bay)

/-- CANCEL by session state (R64, R69, R80). -/
def State.cancelKey (s : State) (b : BayId) : State :=
  match (s.session b).state with
  | .idle => s.clearReason b
  | .codeEntry => s.endBeforeLoading b
  | .orderSelect => s.endBeforeLoading b
  | .waitBond => s.endBeforeLoading b
  | .loading => s.modSession b fun x => { x with armPending := false, selected := none }
  | .closing => s

/-- CANCEL (R64). -/
def execCancel (bay : BayId) (s : State) : Host.Outcome State Fault Refusal := .next ((s.keyed bay).cancelKey bay)

/-- ARM (R69). -/
def execArm (bay : BayId) (s : State) : Host.Outcome State Fault Refusal :=
  .next ((s.keyed bay).loadingKey bay fun s => s.modSession bay fun x => { x with armPending := true })

/-- START (R71, R73). -/
def execStart (bay : BayId) (s : State) : Host.Outcome State Fault Refusal :=
  .next ((s.keyed bay).loadingKey bay fun s => s.startKey bay)

/-- STOP (R70, R92). -/
def execStop (bay : BayId) (s : State) : Host.Outcome State Fault Refusal :=
  .next ((s.keyed bay).loadingKey bay fun s => s.stopKey bay)

/-- RESUME (R70, R102). -/
def execResume (bay : BayId) (s : State) : Host.Outcome State Fault Refusal :=
  .next ((s.keyed bay).loadingKey bay fun s => s.resumeKey bay)

/-- FINISH (R76). -/
def execFinish (bay : BayId) (s : State) : Host.Outcome State Fault Refusal :=
  .next ((s.keyed bay).loadingKey bay fun s => s.finish bay .driver)

/-! ### Timers of a session -/

/-- SESSION_TIMEOUT (R59, R64): the reason is shown, and the session returns to IDLE. -/
def execSessionTimeout (bay : BayId) (s : State) : Host.Outcome State Fault Refusal :=
  .next (s.expire (s.session bay).timer fun s =>
    if (s.session bay).state.preLoading then (s.refuse bay .sessionTimeout).endBeforeLoading bay else s)

/-- INACTIVITY_LIMIT_EXPIRY (R59, R75): as if FINISH had been keyed, with the close cause TIMEOUT. -/
def execInactivityLimitExpiry (bay : BayId) (s : State) : Host.Outcome State Fault Refusal :=
  .next (s.expire (s.session bay).timer fun s =>
    if (s.session bay).state = .loading then s.finish bay .timeout else s)

/-- REFUSAL_DISPLAY_EXPIRY (R80). -/
def execRefusalDisplayExpiry (bay : BayId) (s : State) : Host.Outcome State Fault Refusal :=
  .next (s.expire (s.session bay).reasonTimer fun s => s.clearReason bay)

/-- TERMINAL_LOST (R67, R68). -/
def execTerminalLost (bay : BayId) (s : State) : Host.Outcome State Fault Refusal :=
  .next (s.expire (s.session bay).silence fun s => s.loseTerminal bay)

end Sys2Proof.Machine
end

