-- ==== Sys2Proof/Machine/BayRequests.lean ====
section
/-! DEFINITION. The host's requests to a bay (section 4.8, R164). -/

namespace Sys2Proof.Machine

/-- The session state of a bay, as the response bodies carry it. -/
def State.sessionBody (s : State) (b : BayId) : List Byte := put1 (s.session b).state.code

/-- A reply whose body is the session state of the bay after the request. -/
def State.sessionReply (s : State) (b : BayId) (r : ResultCode) : Reply := { state := s, result := r, body := s.sessionBody b }

/-- BAY_CLOSE by session state (R78). -/
def State.bayClose (s : State) (n : Nat) : Reply :=
  match numbered 4 n with
  | none => .refused s .invalid
  | some b =>
    match (s.session b).state with
    | .idle => s.sessionReply b .wrongState
    | .codeEntry => (s.endBeforeLoading b).sessionReply b .ok
    | .orderSelect => (s.endBeforeLoading b).sessionReply b .ok
    | .waitBond => (s.endBeforeLoading b).sessionReply b .ok
    | .loading => (s.hostClose b).sessionReply b .ok
    | .closing => s.sessionReply b .ok

def execBayClose (tag : Byte) (body : List Byte) (s : State) : Host.Outcome State Fault Refusal :=
  .next (s.request 0x40 tag body readByte State.bayClose)

/-- The effect of a bay reset (R79): the session's part, the refusal reason cleared, the override cancelled
(R164). -/
def State.resetBay (s : State) (b : BayId) : State :=
  ((s.resetSession b).clearReason b).modDisplay b fun d => { d with override := none }

/-- BAY_RESET (R79). -/
def State.bayReset (s : State) (n : Nat) : Reply :=
  match numbered 4 n with
  | none => .refused s .invalid
  | some b => (s.resetBay b).sessionReply b .ok

def execBayReset (tag : Byte) (body : List Byte) (s : State) : Host.Outcome State Fault Refusal :=
  .next (s.request 0x41 tag body readByte State.bayReset)

/-- BAY_MESSAGE: bay, screen, duration (R164). -/
def State.bayMessage (s : State) (f : Nat × Nat × Nat) : Reply :=
  match numbered 4 f.1, numbered 24 f.2.1 with
  | some b, some screen =>
    if inRange 1 255 f.2.2 then
      .ok (s.modDisplay b fun d => { d with override := some { screen, remaining := 1000 * f.2.2 } }) []
    else .refused s .invalid
  | _, _ => .refused s .invalid

def execBayMessage (tag : Byte) (body : List Byte) (s : State) : Host.Outcome State Fault Refusal :=
  .next (s.request 0x42 tag body readMessage State.bayMessage)

end Sys2Proof.Machine
end

