-- ==== Sys2Proof/Machine/FieldInputs.lean ====
section
/-! DEFINITION. The commands of the field inputs of bays and arms, and of the timers of a batch (R65, R89,
R93, R99, R101, R115, R117). -/

namespace Sys2Proof.Machine

/-! ### Permissives and arm connection -/

/-- PERMISSIVE_INPUT_PRESENT (R65). -/
def execPermissiveInputPresent (bay : BayId) (which : Permissive) (s : State) : Host.Outcome State Fault Refusal :=
  .next (s.modSession bay fun x => x.modPermissive which PermissiveUnit.rise)

/-- PERMISSIVE_DEBOUNCE_END (R65, R66, R101). -/
def execPermissiveDebounceEnd (bay : BayId) (which : Permissive) (s : State) : Host.Outcome State Fault Refusal :=
  .next (s.expire ((s.session bay).permissive which).debounce fun s => s.debounceEnd bay which)

/-- PERMISSIVE_INPUT_ABSENT (R65). -/
def execPermissiveInputAbsent (bay : BayId) (which : Permissive) (s : State) : Host.Outcome State Fault Refusal :=
  .next (s.permissiveFall bay which)

/-- The CONNECTED input of an arm at a level. -/
def State.connect (s : State) (a : ArmId) (level : Bool) : State := s.modArm a fun r => { r with connected := level }

/-- CONNECTED_ABSENT (R99): a level that was absent already is no event (log entry 19). -/
def execConnectedAbsent (armId : ArmId) (s : State) : Host.Outcome State Fault Refusal :=
  .next (if (s.arm armId).connected then (s.connect armId false).handCause armId .armDisconnected else s)

/-- CONNECTED_PRESENT (R101). -/
def execConnectedPresent (armId : ArmId) (s : State) : Host.Outcome State Fault Refusal :=
  .next (if (s.arm armId).connected then s else (s.connect armId true).removeCause .armDisconnected armId)

/-! ### Timers of a batch -/

/-- A timer of an arm's batch; an IDLE batch has none. -/
def State.batchTimer (s : State) (a : ArmId) (timer : Batch → Timer) : Timer := (s.batch a).bind timer

/-- BLEND_TIMER_EXPIRY (R115). -/
def execBlendTimerExpiry (armId : ArmId) (s : State) : Host.Outcome State Fault Refusal :=
  .next (s.expire (s.batchTimer armId (·.metering.blendTimer)) fun s => s.modBatch armId Batch.blendExpiry)

/-- NO_FLOW_TIMER_EXPIRY (R117). -/
def execNoFlowTimerExpiry (armId : ArmId) (s : State) : Host.Outcome State Fault Refusal :=
  .next (s.expire (s.batchTimer armId (·.metering.noFlow)) fun s => s.noFlowExpiry armId)

/-- RAMP_TIMER_EXPIRY (R89). -/
def execRampTimerExpiry (armId : ArmId) (s : State) : Host.Outcome State Fault Refusal :=
  .next (s.expire (s.batchTimer armId (·.ramp)) fun s => s.rampExpiry armId)

/-- SETTLE_TIMER_EXPIRY (R93): the batch ends with its close kind. -/
def execSettleTimerExpiry (armId : ArmId) (s : State) : Host.Outcome State Fault Refusal :=
  .next (s.expire (s.batchTimer armId (·.settle)) fun s =>
    if s.batchIs armId .closing then s.endBatch armId false else s)

/-- LEAK_TIMER_EXPIRY (R93): the batch ends by valve leak. -/
def execLeakTimerExpiry (armId : ArmId) (s : State) : Host.Outcome State Fault Refusal :=
  .next (s.expire (s.batchTimer armId (·.leak)) fun s =>
    if s.batchIs armId .closing then s.endBatch armId true else s)

end Sys2Proof.Machine
end

