-- ==== Sys2Proof/Machine/InjectorCommands.lean ====
section
/-! DEFINITION. The commands of the Injection Unit: host requests (sections 7.8 and 8.2 to 8.4) and the
events of a shot (R130, R131). -/

namespace Sys2Proof.Machine

/-! ### Configuration, fault and stock -/

/-- The follower chain from `f` returns to injector `i` within eight links (R138). -/
def State.chainReturns (s : State) (i : InjectorId) : Nat → Option InjectorId → Bool
  | 0, _ => false
  | _, none => false
  | fuel + 1, some f => decide (f = i) || s.chainReturns i fuel (s.injector f).follower

/-- IDLE with an empty queue and a reserved figure of 0 (R138). -/
def Injector.unused (i : Injector) : Bool := decide (i.state = .idle) && i.queue.isEmpty && decide (i.reserved = 0)

/-- The six configuration fields set; a changed service state is handed to the Arm Controllers (R123,
R138). -/
def State.configureInjector (s : State) (i : InjectorId) (f : InjectorFields) (follower : Option InjectorId) : State :=
  let s' := s.modInjector i fun x =>
    { x with service := f.service, shotVolume := f.shotVolume, k := f.k, window := f.window, follower, mark := f.mark }
  if (s.injector i).service = f.service then s' else s'.injectorChanged i

/-- INJECTOR_PUT (R138). -/
def State.injectorPut (s : State) (f : InjectorFields) : Reply :=
  match f.checked with
  | none => .refused s .invalid
  | some (i, follower) =>
    if s.chainReturns i 8 follower then .refused s .invalid
    else if (s.injector i).unused then .ok (s.configureInjector i f follower) []
    else .refused s .inUse

def execInjectorPut (tag : Byte) (body : List Byte) (s : State) : Host.Outcome State Fault Refusal :=
  .next (s.request 0x70 tag body readInjectorPut State.injectorPut)

/-- INJECTOR_GET (R139). -/
def State.injectorGet (s : State) (n : Nat) : Reply :=
  match numbered 8 n with
  | none => .refused s .invalid
  | some i => .ok s (s.injector i).body

def execInjectorGet (tag : Byte) (body : List Byte) (s : State) : Host.Outcome State Fault Refusal :=
  .next (s.request 0x71 tag body readByte State.injectorGet)

/-- The consecutive failures of an injector become 0. -/
def State.clearFailures (s : State) (i : InjectorId) : State := s.modInjector i fun x => { x with failures := 0 }

/-- INJECTOR_CLEAR by state (R139). -/
def State.injectorClear (s : State) (n : Nat) : Reply :=
  match numbered 8 n with
  | none => .refused s .invalid
  | some i =>
    match (s.injector i).state with
    | .fault => .ok ((s.clearFailures i).setInjectorState i .idle) []
    | .idle => .ok (s.clearFailures i) []
    | .shot => .ok (s.clearFailures i) []
    | .proving => .refused s .wrongState
    | .proveWait => .refused s .wrongState

def execInjectorClear (tag : Byte) (body : List Byte) (s : State) : Host.Outcome State Fault Refusal :=
  .next (s.request 0x72 tag body readByte State.injectorClear)

/-- A reply whose body is the stock, the reserved figure and the free stock of an injector after the request (R140);
the model carries it with an INVALID amount too (log entry 14). -/
def State.stockReply (s : State) (i : InjectorId) (r : ResultCode) : Reply :=
  { state := s, result := r, body := (s.injector i).stockBody }

/-- STOCK_ADD: injector, amount (R140). -/
def State.stockAdd (s : State) (f : Nat × Nat) : Reply :=
  match numbered 8 f.1 with
  | none => .refused s .invalid
  | some i =>
    let stock := (s.injector i).stock + f.2
    if inRange 1 2000000 f.2 ∧ stock ≤ 2000000 then (s.putStock i stock).stockReply i .ok else s.stockReply i .invalid

def execStockAdd (tag : Byte) (body : List Byte) (s : State) : Host.Outcome State Fault Refusal :=
  .next (s.request 0x73 tag body readInjectorAmount State.stockAdd)

/-- STOCK_SET: injector, stock (R140). -/
def State.stockSet (s : State) (f : Nat × Nat) : Reply :=
  match numbered 8 f.1 with
  | none => .refused s .invalid
  | some i =>
    if f.2 ≤ 2000000 then (s.putStock i f.2).stockReply i .ok else s.stockReply i .invalid

def execStockSet (tag : Byte) (body : List Byte) (s : State) : Host.Outcome State Fault Refusal :=
  .next (s.request 0x74 tag body readInjectorAmount State.stockSet)

/-! ### Proving -/

/-- A run begun (R144): the context, PROVING, the first proving shot (R145). -/
def State.beginProving (s : State) (i : InjectorId) (shots : Nat) : State :=
  ((s.modInjector i fun x =>
    { x with proving := some { requested := shots, remaining := shots, totalShots := 0, totalPulses := 0, oldK := x.k } }).setInjectorState
    i .proving).startProvingShot i

/-- PROVE_START: injector, number of shots (R144). -/
def State.proveStart (s : State) (f : Nat × Nat) : Reply :=
  match numbered 8 f.1 with
  | none => .refused s .invalid
  | some i =>
    let x := s.injector i
    if !inRange 1 255 f.2 then .refused s .invalid
    else if x.service ≠ .inService ∨ x.state ≠ .idle ∨ s.esd.active then .refused s .wrongState
    else if x.queue.isEmpty ∧ x.reserved = 0 then .ok (s.beginProving i f.2) []
    else .refused s .inUse

def execProveStart (tag : Byte) (body : List Byte) (s : State) : Host.Outcome State Fault Refusal :=
  .next (s.request 0x78 tag body readProveStart State.proveStart)

/-- The new K of a run (R147): total pulses × 1000 / measured volume, rounded half up. -/
def Proving.newK (p : Proving) (measured : Nat) : Nat := roundHalfUp (p.totalPulses * 1000) measured

/-- The new K is accepted: in 10 to 20 000 and within 10 percent of old K (R147). -/
def Proving.accepts (p : Proving) (k : Nat) : Bool := inRange 10 20000 k && decide (distance k p.oldK * 100 ≤ 10 * p.oldK)

/-- The context of an injector in PROVE_WAIT. -/
def Injector.awaiting (i : Injector) : Option Proving :=
  match i.state with
  | .proveWait => i.proving
  | _ => none

/-- An accepted K installed (R147). -/
def State.installK (s : State) (i : InjectorId) (k : Nat) : State :=
  (s.modInjector i fun x => { x with k, proving := none }).setInjectorState i .idle

/-- The computed K of a run as the answer carries it (R147): for a measured volume of 0, for which the rule gives no
figure, a free value (log entry 16). -/
def State.computedK (s : State) (p : Proving) (measured : Nat) : Nat × State :=
  if measured = 0 then (Config.freeValue s.freeCount, { s with freeCount := s.freeCount + 1 })
  else (p.newK measured, s)

/-- PROVE_RESULT: injector, measured volume (R147). In PROVE_WAIT the answer carries the figures whatever its result,
also where the volume lies outside its range (log entry 14). -/
def State.proveResult (s : State) (f : Nat × Nat) : Reply :=
  match numbered 8 f.1 with
  | none => .refused s .invalid
  | some i =>
    match (s.injector i).awaiting with
    | none => .refused s (if inRange 1 2000000 f.2 then .wrongState else .invalid)
    | some p =>
      let v := s.computedK p f.2
      if inRange 1 2000000 f.2 ∧ p.accepts v.1 then .ok (v.2.installK i v.1) (p.body v.1)
      else { state := v.2, result := .invalid, body := p.body v.1 }

def execProveResult (tag : Byte) (body : List Byte) (s : State) : Host.Outcome State Fault Refusal :=
  .next (s.request 0x79 tag body readInjectorAmount State.proveResult)

/-- PROVE_ABORT (R148). -/
def State.proveAbort (s : State) (n : Nat) : Reply :=
  match numbered 8 n with
  | none => .refused s .invalid
  | some i =>
    match (s.injector i).state with
    | .proving => .ok (s.abortProving i) []
    | .proveWait => .ok (s.abortProving i) []
    | .idle => .refused s .wrongState
    | .shot => .refused s .wrongState
    | .fault => .refused s .wrongState

def execProveAbort (tag : Byte) (body : List Byte) (s : State) : Host.Outcome State Fault Refusal :=
  .next (s.request 0x7A tag body readByte State.proveAbort)

/-! ### The events of a shot -/

/-- ADDITIVE_METER_PULSE (R130): without a current shot no field changes. -/
def execAdditiveMeterPulse (injector : InjectorId) (s : State) : Host.Outcome State Fault Refusal :=
  .next (s.modInjector injector fun x => { x with shot := x.shot.map Shot.pulse })

/-- SHOT_WINDOW_EXPIRY (R130). -/
def execShotWindowExpiry (injector : InjectorId) (s : State) : Host.Outcome State Fault Refusal :=
  .next (s.expire ((s.injector injector).shot.bind (·.window)) fun s =>
    s.modInjector injector fun x => { x with shot := x.shot.map Shot.expire })

/-- SHOT_TAIL_END (R131, R134, R145, R146). -/
def execShotTailEnd (injector : InjectorId) (s : State) : Host.Outcome State Fault Refusal :=
  .next (s.expire ((s.injector injector).shot.bind (·.tail)) fun s => s.tailEnd injector)

end Sys2Proof.Machine
end

