-- ==== Sys2Proof/Machine/MeterCommands.lean ====
section
/-! DEFINITION. The commands of the Metering Unit: host requests (section 6.9), pulses (R109) and probe
readings (R112). -/

namespace Sys2Proof.Machine

/-! ### Host requests -/

/-- The three fields of METER_PUT on a record (R120): a changed K factor clears the residue; the counts
become 0. -/
def Meter.configured (m : Meter) (header : HeaderId) (k : Nat) (probe : Bool) : Meter :=
  { m with header, k, probe, residue := if m.k = k then m.residue else 0, aCount := 0, bCount := 0 }

/-- METER_PUT: meter, header, K factor, probe present (R120). -/
def State.meterPut (s : State) (f : Nat × Nat × Nat × Bool) : Reply :=
  match numbered 16 f.1, numbered 4 f.2.1 with
  | some m, some header =>
    if !inRange 1000 1000000 f.2.2.1 then .refused s .invalid
    else if (s.boundTo m).isSome then .refused s .inUse
    else .ok (s.modMeter m fun x => x.configured header f.2.2.1 f.2.2.2) []
  | _, _ => .refused s .invalid

def execMeterPut (tag : Byte) (body : List Byte) (s : State) : Host.Outcome State Fault Refusal :=
  .next (s.request 0x60 tag body readMeterPut State.meterPut)

/-- METER_GET (R121). -/
def State.meterGet (s : State) (n : Nat) : Reply :=
  match numbered 16 n with
  | some m => .ok s (s.meterBody m)
  | none => .refused s .invalid

def execMeterGet (tag : Byte) (body : List Byte) (s : State) : Host.Outcome State Fault Refusal :=
  .next (s.request 0x61 tag body readByte State.meterGet)

/-- A record after METER_CLEAR (R121). -/
def Meter.restored (m : Meter) : Meter :=
  { m with state := .ok, aCount := 0, bCount := 0, unauthorized := 0, unauthorizedFlag := false }

/-- The effect of METER_CLEAR (R121): a return to OK removes the METER cause from the HELD batch that has
the meter bound (R101, log entry 12). -/
def State.clearMeter (s : State) (m : MeterId) : State :=
  let s' := s.modMeter m Meter.restored
  match (s.meter m).state with
  | .ok => s'
  | .fault => s'.removeCauses ((s'.boundTo m).toList.map (·.1)) .meter

/-- METER_CLEAR (R121). -/
def State.meterClear (s : State) (n : Nat) : Reply :=
  match numbered 16 n with
  | some m => .ok (s.clearMeter m) []
  | none => .refused s .invalid

def execMeterClear (tag : Byte) (body : List Byte) (s : State) : Host.Outcome State Fault Refusal :=
  .next (s.request 0x62 tag body readByte State.meterClear)

/-! ### Pulses and readings -/

/-- METER_A_PULSE (R109). -/
def execMeterAPulse (meter : MeterId) (s : State) : Host.Outcome State Fault Refusal := .next (s.pulseA meter)

/-- METER_B_PULSE (R109). -/
def execMeterBPulse (meter : MeterId) (s : State) : Host.Outcome State Fault Refusal := .next (s.pulseB meter)

/-- A record after a reading of its probe (R112); a meter without a probe is not read. -/
def Meter.read (m : Meter) (reading : ProbeReading) : Meter :=
  if m.probe then
    match reading with
    | .temperature t =>
      { m with lastTemp := some t, probeState := if -400 ≤ t ∧ t ≤ 600 then .valid else .outOfRange }
    | .fault => { m with lastTemp := none, probeState := .probeFault }
  else m

/-- PROBE_READING (R112). -/
def execProbeReading (meter : MeterId) (reading : ProbeReading) (s : State) : Host.Outcome State Fault Refusal :=
  .next (s.modMeter meter fun m => m.read reading)

end Sys2Proof.Machine
end

