-- ==== Sys2Proof/Machine/PermitTable.lean ====
section
/-! DEFINITION. The host's requests to the Permit Table (sections 1.2 and 1.3). -/

namespace Sys2Proof.Machine

/-- What a put did: CREATED 0, REPLACED 1 (Table 11-4). -/
def putOutcome (replaced : Bool) : List Byte := put1 (if replaced then 1 else 0)

/-- The fields of a record that a replacement by PERMIT_PUT sets; the others keep their values (R3). -/
def Permit.replaced (p new : Permit) : Permit :=
  { p with name := new.name, code := new.code, classes := new.classes, validFrom := new.validFrom,
           expiry := new.expiry, allowance := new.allowance }

/-- PERMIT_PUT (R2, R3). -/
def State.permitPut (s : State) (f : PermitFields) : Reply :=
  match f.checked with
  | none => .refused s .invalid
  | some new =>
    if (s.findPermit new.card).isSome then .ok (s.modPermit new.card fun p => p.replaced new) (putOutcome true)
    else if s.permits.length < Config.permitCapacity then
      .ok { s with permits := insertPermit new s.permits } (putOutcome false)
    else .refused s .full

def execPermitPut (tag : Byte) (body : List Byte) (s : State) : Host.Outcome State Fault Refusal :=
  .next (s.request 0x10 tag body readPermit State.permitPut)

/-- PERMIT_GET (R5). -/
def State.permitGet (s : State) (card : Nat) : Reply :=
  match s.findPermit card with
  | some p => .ok s p.body
  | none => .refused s .notFound

def execPermitGet (tag : Byte) (body : List Byte) (s : State) : Host.Outcome State Fault Refusal :=
  .next (s.request 0x11 tag body readLong State.permitGet)

/-- PERMIT_LIST (R6). -/
def State.permitList (s : State) (start : Nat) : Reply :=
  if start ≤ 99999999 then .ok s (permitListBody s.permits start) else .refused s .invalid

def execPermitList (tag : Byte) (body : List Byte) (s : State) : Host.Outcome State Fault Refusal :=
  .next (s.request 0x12 tag body readLong State.permitList)

/-- A hold placed on a record (R8). -/
def Permit.hold (p : Permit) : HoldKind → Permit
  | .persistent => { p with persistent := true }
  | .dynamic => { p with dynamic := if p.dynamic = .none then .host else p.dynamic }

/-- A hold released on a record (R9). -/
def Permit.release (p : Permit) : HoldKind → Permit
  | .persistent => { p with persistent := false }
  | .dynamic => { p with dynamic := .none, strikes := 0 }

/-- A request that changes one record, found by its card. -/
def State.permitChange (s : State) (card : Nat) (f : Permit → Permit) : Reply :=
  match s.findPermit card with
  | some _ => .ok (s.modPermit card f) []
  | none => .refused s .notFound

/-- PERMIT_HOLD (R8). -/
def execPermitHold (tag : Byte) (body : List Byte) (s : State) : Host.Outcome State Fault Refusal :=
  .next (s.request 0x13 tag body readHold fun s f => s.permitChange f.1 fun p => p.hold f.2)

/-- PERMIT_RELEASE (R9). -/
def execPermitRelease (tag : Byte) (body : List Byte) (s : State) : Host.Outcome State Fault Refusal :=
  .next (s.request 0x14 tag body readHold fun s f => s.permitChange f.1 fun p => p.release f.2)

/-- PERMIT_RETIRE (R7). -/
def State.permitRetire (s : State) (card : Nat) : Reply :=
  match s.findPermit card with
  | none => .refused s .notFound
  | some p =>
    if p.sessionBay.isSome ∨ s.cardInUse card then .refused s .inUse
    else .ok { s with permits := s.permits.filter fun q => decide (q.card ≠ card) } []

def execPermitRetire (tag : Byte) (body : List Byte) (s : State) : Host.Outcome State Fault Refusal :=
  .next (s.request 0x15 tag body readLong State.permitRetire)

end Sys2Proof.Machine
end

