-- ==== Sys2Proof/Machine/ProductTable.lean ====
section
/-! DEFINITION. The host's requests to the Product Table (sections 2.2 and 2.4). -/

namespace Sys2Proof.Machine

/-- PRODUCT_PUT (R21, R22). -/
def State.productPut (s : State) (f : ProductFields) : Reply :=
  match f.checked with
  | none => .refused s .invalid
  | some (code, p) => .ok { s with products := vset s.products code (some p) } (putOutcome (s.product code).isSome)

def execProductPut (tag : Byte) (body : List Byte) (s : State) : Host.Outcome State Fault Refusal :=
  .next (s.request 0x20 tag body readProduct State.productPut)

/-- PRODUCT_GET (R23). -/
def State.productGet (s : State) (n : Nat) : Reply :=
  match numbered 32 n with
  | none => .refused s .invalid
  | some code =>
    match s.product code with
    | some p => .ok s (p.body (s.productInUse code))
    | none => .refused s .notFound

def execProductGet (tag : Byte) (body : List Byte) (s : State) : Host.Outcome State Fault Refusal :=
  .next (s.request 0x21 tag body readByte State.productGet)

/-- PRODUCT_DELETE (R24). -/
def State.productDelete (s : State) (n : Nat) : Reply :=
  match numbered 32 n with
  | none => .refused s .invalid
  | some code =>
    if (s.product code).isNone then .refused s .notFound
    else if s.productInUse code then .refused s .inUse
    else .ok { s with products := vset s.products code none } []

def execProductDelete (tag : Byte) (body : List Byte) (s : State) : Host.Outcome State Fault Refusal :=
  .next (s.request 0x22 tag body readByte State.productDelete)

/-- The row's entries as MATRIX_PUT leaves them: KEEP, `none`, keeps the verdict (R28). -/
def mergedRow (row : Vector Verdict 8) (entries : List (Option Verdict)) : Vector Verdict 8 :=
  Vector.ofFn fun i => match entries[i.val]? with
    | some (some v) => v
    | _ => vget row i

/-- The row's own column is given as ALLOW or KEEP (R28). -/
def ownColumnAllowed (g : GroupCode) (entries : List (Option Verdict)) : Bool :=
  match entries[g.val]? with
  | some (some v) => decide (v = .allow)
  | _ => true

/-- The body of MATRIX_PUT: the row's eight verdicts. -/
def rowBody (row : Vector Verdict 8) : List Byte := row.toList.flatMap fun v => put1 v.code

/-- MATRIX_PUT (R28). -/
def State.matrixPut (s : State) (f : Nat × List (Option Verdict)) : Reply :=
  match coded 8 f.1 with
  | none => .refused s .invalid
  | some g =>
    if ownColumnAllowed g f.2 then
      let row := mergedRow (vget s.matrix g) f.2
      .ok { s with matrix := vset s.matrix g row } (rowBody row)
    else .refused s .invalid

def execMatrixPut (tag : Byte) (body : List Byte) (s : State) : Host.Outcome State Fault Refusal :=
  .next (s.request 0x23 tag body readMatrixRow State.matrixPut)

end Sys2Proof.Machine
end

