-- ==== Sys2Proof/Machine/OrderTable.lean ====
section
/-! DEFINITION. The host's requests to the Order Table (section 3.3). -/

namespace Sys2Proof.Machine

/-- The number after a creation sequence: 4 294 967 295 is followed by 1 (R37). -/
def nextSequence (n : Nat) : Nat := if n = 4294967295 then 1 else n + 1

/-- The lowest-numbered FREE slot (R43). -/
def State.freeSlot (s : State) : Option SlotId := allSlots.find? fun t => (s.orderIn t).isNone

/-- Every product code carried names a DEFINED slot (R25). -/
def State.productsDefined (s : State) (comps : List Compartment) : Bool :=
  comps.all fun c => c.product.all fun p => (s.product p).isSome

/-- An order written into a slot with the next creation sequence (R37, R43). -/
def State.placeOrder (s : State) (t : SlotId) (o : Order) : State :=
  { s with orders := vset s.orders t (some { o with seq := s.creationCounter })
           creationCounter := nextSequence s.creationCounter }

/-- ORDER_CREATE: the field checks of Table 3-6, then the tests of Table 3-7 (R42, R43). -/
def State.orderCreate (s : State) (f : OrderFields) : Reply :=
  match f.checked with
  | none => .refused s .invalid
  | some o =>
    if (s.findOrder o.number).isSome then .refused s .exists
    else if (s.findPermit o.card).isNone then .refused s .notFound
    else if !s.productsDefined o.comps then .refused s .notFound
    else
      match s.freeSlot with
      | none => .refused s .full
      | some t => .ok (s.placeOrder t o) (put4 s.creationCounter)

def execOrderCreate (tag : Byte) (body : List Byte) (s : State) : Host.Outcome State Fault Refusal :=
  .next (s.request 0x30 tag body readOrder State.orderCreate)

/-- Test 6 of Table 3-8. -/
def Compartment.amendable (c : Compartment) (planned : Nat) (product : Option ProductId) : Bool :=
  match c.state with
  | .unplanned => true
  | .planned => true
  | .partly => decide (c.gross ≤ planned ∧ product = c.product)
  | .loading => false
  | .held => false
  | .filled => false

/-- The state that Table 3-5 gives for a taken amend. -/
def Compartment.amendedState (c : Compartment) (planned : Nat) : CompState :=
  match c.state with
  | .partly => if planned = c.gross then .filled else .partly
  | _ => if planned = 0 then .unplanned else .planned

/-- A compartment as a taken amend leaves it (R44). -/
def Compartment.amended (c : Compartment) (planned : Nat) (product : Option ProductId) : Compartment :=
  { c with planned, product, state := c.amendedState planned }

/-- ORDER_AMEND: the tests of Table 3-8 (R44). -/
def State.orderAmend (s : State) (f : AmendFields) : Reply :=
  match f.checked with
  | none => .refused s .invalid
  | some (n, product) =>
    match s.findOrder f.number with
    | none => .refused s .notFound
    | some (t, o) =>
      match o.comp n with
      | none => .refused s .notFound
      | some c =>
        if !o.inUse then .refused s .wrongState
        else if c.capacity < f.planned then .refused s .invalid
        else if !c.amendable f.planned product then .refused s .wrongState
        else if !product.all fun p => (s.product p).isSome then .refused s .notFound
        else .ok (s.modOrder t fun o => o.modComp n fun c => c.amended f.planned product) []

def execOrderAmend (tag : Byte) (body : List Byte) (s : State) : Host.Outcome State Fault Refusal :=
  .next (s.request 0x31 tag body readAmend State.orderAmend)

/-- The order of a number given by a request: INVALID outside 1 to 999 999, NOT_FOUND where no slot holds
it. -/
def State.namedOrder (s : State) (n : Nat) : Except ResultCode (SlotId × Order) :=
  if inRange 1 999999 n then
    match s.findOrder n with
    | some e => .ok e
    | none => .error .notFound
  else .error .invalid

/-- The slot becomes FREE: the record is discarded. -/
def State.freeOrder (s : State) (t : SlotId) : State := { s with orders := vset s.orders t none }

/-- ORDER_CANCEL (R46). -/
def State.orderCancel (s : State) (n : Nat) : Reply :=
  match s.namedOrder n with
  | .error r => .refused s r
  | .ok (t, o) => if o.isOpen then .ok (s.freeOrder t) [] else .refused s .wrongState

def execOrderCancel (tag : Byte) (body : List Byte) (s : State) : Host.Outcome State Fault Refusal :=
  .next (s.request 0x32 tag body readLong State.orderCancel)

/-- ORDER_GET (R47). -/
def State.orderGet (s : State) (f : Nat × Nat) : Reply :=
  if inRange 1 8 f.2 then
    match s.namedOrder f.1 with
    | .error r => .refused s r
    | .ok (_, o) => .ok s (o.body f.2)
  else .refused s .invalid

def execOrderGet (tag : Byte) (body : List Byte) (s : State) : Host.Outcome State Fault Refusal :=
  .next (s.request 0x33 tag body readOrderGet State.orderGet)

/-- The order passes a state filter (R48). -/
def Order.passes (o : Order) : OrderFilter → Bool
  | .any => true
  | .opened => decide (o.stage.code = 0)
  | .active => decide (o.stage.code = 1)
  | .noted => decide (o.stage.code = 2)

/-- The orders that pass the filter beyond a creation sequence, in creation order (R48). -/
def State.ordersBeyond (s : State) (filter : OrderFilter) (start : Nat) : List (SlotId × Order) :=
  inCreationOrder (s.heldOrders.filter fun e => e.2.passes filter && decide (start < e.2.seq))

/-- An order of the list has a greater creation sequence than the last one that the page returns (R48). -/
def moreBeyond (page listed : List (SlotId × Order)) : Bool :=
  page.getLast?.any fun last => listed.any fun e => decide (last.2.seq < e.2.seq)

/-- The body of ORDER_LIST: up to 32 pairs in ascending creation sequence, and the more indication
(R48). -/
def State.orderListBody (s : State) (filter : OrderFilter) (start : Nat) : List Byte :=
  let listed := s.ordersBeyond filter start
  putList (fun e => put4 e.2.number ++ put4 e.2.seq) (listed.take 32) ++ putBool (moreBeyond (listed.take 32) listed)

/-- ORDER_LIST (R48). -/
def execOrderList (tag : Byte) (body : List Byte) (s : State) : Host.Outcome State Fault Refusal :=
  .next (s.request 0x34 tag body readOrderList fun s f => .ok s (s.orderListBody f.1 f.2))

/-- ORDER_COLLECT (R49). -/
def State.orderCollect (s : State) (f : Nat × Nat) : Reply :=
  if inRange 1 999999 f.2 then
    match s.namedOrder f.1 with
    | .error r => .refused s r
    | .ok (t, o) =>
      match o.stage with
      | .noted _ note => if note.number = f.2 then .ok (s.freeOrder t) [] else .refused s .invalid
      | _ => .refused s .wrongState
  else .refused s .invalid

def execOrderCollect (tag : Byte) (body : List Byte) (s : State) : Host.Outcome State Fault Refusal :=
  .next (s.request 0x35 tag body readCollect State.orderCollect)

end Sys2Proof.Machine
end

