-- ==== Sys2Proof/Machine/Panel.lean ====
section
/-! DEFINITION. The Panel Unit (Chapter 10): situations, the choice of a screen, the filling of its fields,
the panel frame, and the commands that write screens and the prompt map. -/

namespace Sys2Proof.Machine

/-! ### Glyphs and texts -/

/-- The glyph code of a letter, a digit or one of the signs the part itself writes (Table 10-1); any other
character is a space. -/
def glyph (c : Char) : Glyph :=
  if '0' ≤ c ∧ c ≤ '9' then Fin.ofNat 64 (c.toNat - '0'.toNat + 1)
  else if 'A' ≤ c ∧ c ≤ 'Z' then Fin.ofNat 64 (c.toNat - 'A'.toNat + 11)
  else if c = '.' then 37
  else if c = ':' then 39
  else if c = '-' then 41
  else if c = '*' then 44
  else if c = '#' then 45
  else 0

/-- A text the part itself writes. -/
def glyphs (t : String) : List Glyph := t.toList.map glyph

/-- The glyph of a decimal digit. -/
def digitGlyph (d : Nat) : Glyph := Fin.ofNat 64 (d % 10 + 1)

/-- A number in decimal without leading zeros; `fuel` digits suffice for any number shown. -/
def decimal : Nat → Nat → List Glyph
  | 0, _ => []
  | fuel + 1, n => if n < 10 then [digitGlyph n] else decimal fuel (n / 10) ++ [digitGlyph n]

/-- Two decimal digits. -/
def twoDigits (n : Nat) : List Glyph := [digitGlyph (n / 10), digitGlyph n]

/-- The time of day as HH:MM:SS, or "--:--:--" while the clock is UNSET (Table 10-2). -/
def clockText : Option Time → List Glyph
  | some t =>
    twoDigits (t.second / 3600) ++ [39] ++ twoDigits (t.second / 60 % 60) ++ [39] ++ twoDigits (t.second % 60)
  | none => glyphs "--:--:--"

/-- The name of a hold cause as the panel shows it (section 10.2). -/
def HoldCause.text : HoldCause → String
  | .permissive => "PERMISSIVE"
  | .esd => "ESD"
  | .armDisconnected => "ARM DISCONNECTED"
  | .terminalLost => "TERMINAL LOST"
  | .meter => "METER"
  | .additive => "ADDITIVE"
  | .noFlow => "NO FLOW"
  | .blend => "BLEND"
  | .host => "HOST"

/-- A refusal reason as the panel shows it (section 10.2). -/
def Reason.text : Reason → String
  | .clockUnset => "CLOCK UNSET"
  | .esdActive => "ESD ACTIVE"
  | .unknownCard => "UNKNOWN CARD"
  | .inSessionElsewhere => "IN USE ELSEWHERE"
  | .permitHeld => "PERMIT HELD"
  | .notYetValid => "NOT YET VALID"
  | .permitExpired => "PERMIT EXPIRED"
  | .allowanceUsed => "ALLOWANCE USED"
  | .codeIncomplete => "CODE INCOMPLETE"
  | .wrongCode => "WRONG CODE"
  | .struckOut => "STRUCK OUT"
  | .noOrder => "NO ORDER"
  | .orderUnavailable => "ORDER UNAVAIL"
  | .sessionTimeout => "SESSION TIMEOUT"
  | .noSuchArm => "NO SUCH ARM"
  | .permissiveMissing => "NO PERMISSIVE"
  | .armOutOfService => "ARM OUT OF SERV"
  | .armBusy => "ARM BUSY"
  | .armNotConnected => "ARM NOT COUPLED"
  | .compNotLoadable => "COMP NOT READY"
  | .productNotOnArm => "NOT ON THIS ARM"
  | .classNotPermitted => "CLASS NOT PERMIT"
  | .incompatible => "INCOMPATIBLE"
  | .meterFault => "METER FAULT"
  | .injectorUnavailable => "INJECTOR UNAVAIL"
  | .doseUnworkable => "DOSE UNWORKABLE"
  | .additiveShort => "ADDITIVE SHORT"
  | .armsFlowing => "ARMS FLOWING"
  | .hostHold => "HOST HOLD"
  | .notHeld => "NOT HELD"
  | .holdCondition => "HOLD CONDITION"

/-! ### Field values -/

/-- The value of a field: a number or a volume in tenths, written right-aligned, or a text, left-aligned
(R161). -/
inductive FieldValue where
  | number (n : Nat)
  | volume (tenths : Nat)
  | text (t : List Glyph)
  deriving DecidableEq, Repr

/-- The value's glyphs. -/
def FieldValue.glyphs : FieldValue → List Glyph
  | .number n => decimal 20 n
  | .volume v => decimal 20 (v / 10) ++ [37, digitGlyph v]
  | .text t => t

/-- A field of width `w` filled with its value (R161). -/
def fillField (w : Nat) : Option FieldValue → List Glyph
  | none => List.replicate w 0
  | some v =>
    let g := v.glyphs
    if w < g.length then List.replicate w 45
    else
      match v with
      | .text _ => g ++ List.replicate (w - g.length) 0
      | _ => List.replicate (w - g.length) 0 ++ g

/-- The selected compartment of the bound order of a bay (R55). -/
def State.shownComp (s : State) (b : BayId) : Option Compartment :=
  match s.boundOrder b, (s.session b).selected with
  | some (_, o), some n => o.comp n
  | _, _ => none

/-- The batch of the focus arm, if that arm is out of IDLE. -/
def State.focusBatch (s : State) (b : BayId) : Option Batch := (s.focusArm b).bind s.batch

/-- The name shown for PRODUCT_NAME (Table 10-2): absent without a selected compartment of the bound order
or without its product; else the snapshot's name while the focus arm's batch is out of IDLE, and else the
name of the selected compartment's product (log entry 20). -/
def State.shownProduct (s : State) (b : BayId) : Option (List Glyph) :=
  match s.shownComp b with
  | none => none
  | some c =>
    match c.product with
    | none => none
    | some code =>
      match s.focusBatch b with
      | some x => some x.snapshot.name
      | none => (s.product code).map (·.name)

/-- The value of a field at a bay as the owning blocks hold it (Table 10-2). -/
def State.fieldValue (s : State) (b : BayId) (f : FieldCode) : Option FieldValue :=
  let x := s.session b
  match f with
  | .holderName => (s.sessionPermit b).map fun p => .text p.name
  | .cardNo => x.card.map .number
  | .orderNo => x.bound.map .number
  | .tankerId => (s.boundOrder b).map fun e => .text e.2.tanker
  | .candidate1 => x.candidates[0]?.map .number
  | .candidate2 => x.candidates[1]?.map .number
  | .candidate3 => x.candidates[2]?.map .number
  | .candidate4 => x.candidates[3]?.map .number
  | .focusArm =>
    if x.state = .loading ∨ x.state = .closing then (s.focusArm b).map fun a => .number (num a) else none
  | .compNo => x.selected.map fun n => .number (num n)
  | .productName => (s.shownProduct b).map .text
  | .planned => (s.shownComp b).map fun c => .volume c.planned
  | .delivered => (s.shownComp b).map fun c => .volume c.gross
  | .remaining => (s.shownComp b).map fun c => .volume (c.planned - c.gross)
  | .flow => (s.focusArm b).map fun a => .number (s.valveDemand a).1
  | .holdCause =>
    match s.focusBatch b with
    | some y =>
      if y.state = .held then
        (HoldCause.all.find? fun c => decide (c ∈ y.holdSet)).map fun c => .text (Machine.glyphs c.text)
      else none
    | none => none
  | .reason => x.reason.map fun r => .text (Machine.glyphs r.text)
  | .codeMask => if x.digits = [] then none else some (.text (List.replicate x.digits.length 44))
  | .clock => some (.text (clockText s.clock))
  | .noteNo => (s.display b).lastNote.map .number

/-! ### Composing the frame (R160) -/

/-- A panel cell value: emphasis code × 64 + glyph code. -/
def cellValue (e : Emphasis) (g : Glyph) : Nat := e.code * 64 + g.val

/-- The cell values of a line's column cells, from the emphasis in force. -/
def State.fillCells (s : State) (b : BayId) : Emphasis → List Cell → List Nat
  | _, [] => []
  | e, .character g :: rest => cellValue e g :: s.fillCells b e rest
  | _, .attr e' :: rest => cellValue e' 0 :: s.fillCells b e' rest
  | e, .field f w :: rest => (fillField w (s.fieldValue b f)).map (cellValue e) ++ s.fillCells b e rest

/-- A panel row: its height mark (SINGLE 0, DOUBLE_TOP 1, DOUBLE_BOTTOM 2) and its cells. -/
structure Row where
  mark : Nat
  cells : List Nat
  deriving DecidableEq, Repr

/-- A free row: 20 spaces in NORMAL, marked SINGLE. -/
def Row.free : Row := { mark := 0, cells := List.replicate 20 0 }

/-- The rows that the lines take, with `n` rows free (R160). -/
def State.layLines (s : State) (b : BayId) : Nat → List Line → List Row
  | n, [] => List.replicate n Row.free
  | n, l :: rest =>
    if l.hidden then s.layLines b n rest
    else
      let cells := s.fillCells b l.emphasis l.cells
      match n, l.double with
      | 0, _ => []
      | k + 1, false => { mark := 0, cells } :: s.layLines b k rest
      | 1, true => [Row.free]
      | k + 2, true => { mark := 1, cells } :: { mark := 2, cells } :: s.layLines b k rest

/-- The panel frame of a screen at a bay (R160, Table 11-7). -/
def State.composeFrame (s : State) (b : BayId) (n : ScreenId) : List Byte :=
  let rows := s.layLines b 4 (vget s.screens n).lines.toList
  panelFrame (rows.map fun r => BitVec.ofNat 8 r.mark) ((rows.flatMap (·.cells)).map fun v => BitVec.ofNat 8 v)

/-! ### Situation and screen -/

/-- The restored time of a bay is above 0. -/
def Display.restoring (d : Display) : Bool := d.restored.any fun t => decide (0 < t)

/-- The situation named after a session state. -/
def SessionState.situation : SessionState → Situation
  | .idle => .idle
  | .codeEntry => .codeEntry
  | .orderSelect => .orderSelect
  | .waitBond => .waitBond
  | .loading => .loading
  | .closing => .closing

/-- The display situation of a bay (R162). -/
def State.situation (s : State) (b : BayId) : Situation :=
  if (s.display b).restoring then .terminalRestored
  else if (s.session b).reason.isSome then .refusal
  else if (s.session b).state = .loading ∧ (s.focusBatch b).any fun x => decide (x.state = .held) then .armHeld
  else (s.session b).state.situation

/-- The place of a situation in the prompt map (R162). -/
def Situation.index : Situation → Fin 9
  | .terminalRestored => 0
  | .refusal => 1
  | .armHeld => 2
  | .idle => 3
  | .codeEntry => 4
  | .orderSelect => 5
  | .waitBond => 6
  | .loading => 7
  | .closing => 8

/-- The map entry of a bay's situation. -/
def State.mapEntry (s : State) (b : BayId) : MapEntry := vget s.promptMap (s.situation b).index

/-- The screen chosen at a refresh (R164). -/
def State.chosenScreen (s : State) (b : BayId) : ScreenId :=
  match (s.display b).override with
  | some o => if (s.mapEntry b).priority then (s.mapEntry b).screen else o.screen
  | none => (s.mapEntry b).screen

/-! ### Commands -/

/-- PANEL_REFRESH (R165): the frame is sent and the current screen set; the next refresh follows in
200 ms. -/
def execPanelRefresh (bay : BayId) (s : State) : Host.Outcome State Fault Refusal :=
  .next (s.expire (s.display bay).refresh fun s => s.modDisplay bay fun d =>
    { d with current := some (s.chosenScreen bay), frame := some (s.composeFrame bay (s.chosenScreen bay)),
             refresh := some 200 })

/-- OVERRIDE_EXPIRY (R164). -/
def execOverrideExpiry (bay : BayId) (s : State) : Host.Outcome State Fault Refusal :=
  .next (s.expire ((s.display bay).override.map (·.remaining)) fun s =>
    s.modDisplay bay fun d => { d with override := none })

/-- RESTORED_TIME_EXPIRY (R165). -/
def execRestoredTimeExpiry (bay : BayId) (s : State) : Host.Outcome State Fault Refusal :=
  .next (s.expire (s.display bay).restored fun s => s.modDisplay bay fun d => { d with restored := none })

/-- Some bay's current screen is this one (R159). -/
def State.screenShown (s : State) (n : ScreenId) : Bool :=
  (List.finRange 4).any fun b => decide ((s.display b).current = some n)

/-- SCREEN_PUT (R159). -/
def State.screenPut (s : State) (f : Nat × List Line) : Reply :=
  match checkedScreen f with
  | none => .refused s .invalid
  | some (n, screen) =>
    if s.screenShown n then .refused s .inUse else .ok { s with screens := vset s.screens n screen } []

def execScreenPut (tag : Byte) (body : List Byte) (s : State) : Host.Outcome State Fault Refusal :=
  .next (s.request 0x80 tag body readScreenPut State.screenPut)

/-- SCREEN_GET (R159). -/
def State.screenGet (s : State) (n : Nat) : Reply :=
  match numbered 24 n with
  | some n => .ok s (s.screenBody n)
  | none => .refused s .invalid

def execScreenGet (tag : Byte) (body : List Byte) (s : State) : Host.Outcome State Fault Refusal :=
  .next (s.request 0x81 tag body readByte State.screenGet)

/-- The prompt map with changes applied; a situation is named at most once (R163). -/
def State.remap (s : State) (changes : List (Situation × MapEntry)) : State :=
  { s with promptMap := changes.foldl (fun m c => vset m c.1.index c.2) s.promptMap }

/-- PROMPT_MAP_PUT (R163). -/
def State.promptMapPut (s : State) (changes : List (Situation × Nat × Bool)) : Reply :=
  match checkedMap changes with
  | none => .refused s .invalid
  | some l =>
    let s' := s.remap l
    .ok s' s'.mapBody

def execPromptMapPut (tag : Byte) (body : List Byte) (s : State) : Host.Outcome State Fault Refusal :=
  .next (s.request 0x82 tag body readMapPut State.promptMapPut)

end Sys2Proof.Machine
end

