-- ==== Sys2Proof/Machine/RackStatus.lean ====
section
/-! DEFINITION. The Rack Status Unit (sections 11.3 to 11.6): status, event flags, clock, ESD, rack reset,
power-up and CLEAR_ALL. -/

namespace Sys2Proof.Machine

/-! ### Status, flags and clock -/

/-- STATUS_GET (R173). -/
def execStatusGet (tag : Byte) (body : List Byte) (s : State) : Host.Outcome State Fault Refusal :=
  .next (s.request 0x01 tag body noFields fun s _ => .ok s s.statusBody)

/-- EVENTS_ACK (R172). -/
def State.eventsAck (s : State) (named : List EventFlag) : Reply :=
  let s' := s.acknowledge named
  .ok s' s'.flagsBody

def execEventsAck (tag : Byte) (body : List Byte) (s : State) : Host.Outcome State Fault Refusal :=
  .next (s.request 0x02 tag body readFlags State.eventsAck)

/-- EVENTS_MASK (R172): the whole mask is replaced. -/
def State.eventsMask (s : State) (masked : List EventFlag) : Reply :=
  let s' := { s with mask := masked }
  .ok s' s'.flagsBody

def execEventsMask (tag : Byte) (body : List Byte) (s : State) : Host.Outcome State Fault Refusal :=
  .next (s.request 0x03 tag body readFlags State.eventsMask)

/-- A day of 0 to 65535 and a second of 0 to 86399. -/
def Time.valid (t : Time) : Bool := decide (t.day ≤ 65535 ∧ t.second ≤ 86399)

/-- CLOCK_SET (R169): the clock takes the values at once and runs on from them (log entry 22). -/
def State.clockSet (s : State) (t : Time) : Reply :=
  if t.valid then .ok { s with clock := some t, clockPhase := seconds 1 } [] else .refused s .invalid

def execClockSet (tag : Byte) (body : List Byte) (s : State) : Host.Outcome State Fault Refusal :=
  .next (s.request 0x04 tag body readTime State.clockSet)

/-- One second on (R169): day 65535, second 86399 holds. -/
def Time.tick (t : Time) : Time :=
  if t.second < 86399 then { t with second := t.second + 1 }
  else if t.day < 65535 then { day := t.day + 1, second := 0 }
  else t

/-- CLOCK_TICK (R169): the set clock advances one second. -/
def execClockTick (s : State) : Host.Outcome State Fault Refusal :=
  .next (s.expire s.clockPhase fun s =>
    match s.clock with
    | some t => { s with clock := some t.tick, clockPhase := seconds 1 }
    | none => s)

/-! ### ESD -/

/-- The change of the ESD state to active (R104, R137, R148, R170): ESD_CHANGE; every batch is held, marked
or given the cause; the injectors follow. -/
def State.esdActivate (s : State) : State :=
  let s1 := { s with esd := { s.esd with active := true, debounce := none } }.raise .esdChange
  allInjectors.foldl State.esdInjector (s1.handCauses allArms .esd)

/-- ESD_INPUT_ACTIVE (R170). -/
def execEsdInputActive (s : State) : Host.Outcome State Fault Refusal :=
  let s' := { s with esd := { s.esd with input := true } }
  .next (if s.esd.active then { s' with esd := { s'.esd with debounce := none } } else s'.esdActivate)

/-- ESD_INPUT_INACTIVE (R170): in the active state the event that makes the input inactive starts the
release debounce at 2 s. -/
def execEsdInputInactive (s : State) : Host.Outcome State Fault Refusal :=
  .next (if s.esd.input then
    { s with esd := { s.esd with input := false, debounce := if s.esd.active then seconds 2 else none } }
  else s)

/-- The change of the ESD state to inactive (R101, R128, R170). -/
def State.esdRelease (s : State) : State :=
  let s1 := { s with esd := { s.esd with active := false, debounce := none } }.raise .esdChange
  allInjectors.foldl State.nextShot (s1.removeCauses allArms .esd)

/-- ESD_DEBOUNCE_END (R170). -/
def execEsdDebounceEnd (s : State) : Host.Outcome State Fault Refusal :=
  .next (s.expire s.esd.debounce fun s => if s.esd.active then s.esdRelease else s)

/-! ### Resets -/

/-- A permissive after a reset (R81): NOT_PRESENT, a debounce starting where the input is present. -/
def PermissiveUnit.atReset (input : Bool) : PermissiveUnit :=
  { input, present := false, debounce := if input then seconds 2 else none }

/-- A session context after a reset (R81). -/
def Session.reset (x : Session) : Session :=
  { x.toIdle with reason := none, reasonTimer := none, terminal := .present, silence := seconds 3,
                  bond := PermissiveUnit.atReset x.bond.input, overfill := PermissiveUnit.atReset x.overfill.input }

/-- A meter after a reset (R122). -/
def Meter.reset (m : Meter) : Meter := { m with aCount := 0, bCount := 0, lastTemp := none, probeState := .noReading }

/-- An injector after a reset (R142, R149). -/
def Injector.reset (i : Injector) : Injector :=
  { i with state := .idle, reservations := [], failures := 0, queue := [], shot := none, proving := none }

/-- A permit after a reset (R17). -/
def Permit.reset (p : Permit) : Permit := { p with dynamic := .none, sessionBay := none }

/-- A display context after a reset (R166); the panel frame last sent stands as sent. -/
def Display.reset (d : Display) : Display :=
  { current := none, override := none, restored := none, lastNote := none, refresh := some 200, frame := d.frame }

/-- Stages 1 and 2 of R174: flags and mask, batches, drawing sets, meters, injectors. -/
def State.resetFlow (s : State) : State :=
  { s with
    flags := [.restart]
    mask := []
    arms := vmap (fun r => { r with batch := none }) s.arms
    headers := vmap (fun h => { h with drawing := [] }) s.headers
    meters := vmap Meter.reset s.meters
    injectors := vmap Injector.reset s.injectors }

/-- Stage 4 of R174: sessions, permits, displays. -/
def State.resetSessions (s : State) : State :=
  { s with
    bays := vmap Session.reset s.bays
    permits := s.permits.map Permit.reset
    displays := vmap Display.reset s.displays }

/-- The effect of a rack reset (R174), its stages in order. -/
def State.rackReset (s : State) : State := s.resetFlow.recoverOrders.resetSessions

/-- RACK_RESET (R174). -/
def execRackReset (tag : Byte) (body : List Byte) (s : State) : Host.Outcome State Fault Refusal :=
  .next (s.request 0x05 tag body noFields fun s _ => .ok s.rackReset [])

/-- A session context with the levels its inputs have at power-up. -/
def Session.withInputs (x : Session) (bond overfill : Bool) : Session :=
  { x with bond := { x.bond with input := bond }, overfill := { x.overfill with input := overfill } }

/-- The state as the levels found at power-up leave it, clock UNSET and ESD active (R169, R170, log
entry 8). -/
def State.powerOn (s : State) (found : Found) : State :=
  { s with
    clock := none
    clockPhase := none
    esd := { active := true, input := found.esdActive, debounce := if found.esdActive then none else seconds 2 }
    bays := Vector.ofFn fun b => (vget s.bays b).withInputs (vget found.bond b) (vget found.overfill b)
    arms := Vector.ofFn fun a => { vget s.arms a with connected := vget found.connected a }
    displays := vmap (fun d => { d with frame := none }) s.displays
    port := { phase := .hunting, rx := [], response := none, fastBaud := found.strapHigh } }

/-- What a reset that a loss of power has cut leaves retained (R56, R174): the orders that it had recovered, with the
end time of the clock at a rack reset and none at a power-up. What else it did is volatile, and the power-up that follows
does it again. -/
def State.cutReset (s : State) (c : CutReset) : State :=
  (if c.byRackReset then s else { s with clock := none }).recoverFirst c.recovered

/-- POWER_UP (R174): the effect of a rack reset, with the clock UNSET and the ESD state starting active; the orders that
resets cut by a loss of power had not recovered are still ACTIVE, and it recovers those. -/
def execPowerUp (found : Found) (s : State) : Host.Outcome State Fault Refusal :=
  .next ((found.cuts.foldl State.cutReset s).powerOn found).rackReset

/-- A meter record after CLEAR_ALL (R122): the totalizer is kept, the residue too unless the K factor
changes; last temperature and probe state are kept. -/
def Meter.cleared (m : Meter) : Meter :=
  { Meter.default with totalizer := m.totalizer, residue := if m.k = Meter.default.k then m.residue else 0,
                       lastTemp := m.lastTemp, probeState := m.probeState }

/-- CLEAR_ALL is taken (R175): every session in IDLE, no injector in PROVING or PROVE_WAIT. -/
def State.clearable (s : State) : Bool :=
  ((List.finRange 4).all fun b => decide ((s.session b).state = .idle))
    && allInjectors.all fun i => !(decide ((s.injector i).state = .proving) || decide ((s.injector i).state = .proveWait))

/-- The effect of CLEAR_ALL (R175): every retained table at its default. -/
def State.cleared (s : State) : State :=
  { s with
    permits := []
    products := Vector.replicate 32 none
    matrix := Vector.replicate 8 (Vector.replicate 8 .allow)
    orders := Vector.replicate 64 none
    creationCounter := 1
    noteCounter := 1
    arms := vmap (fun r => { Arm.default with connected := r.connected }) s.arms
    headers := vmap (fun _ => Header.default) s.headers
    meters := vmap Meter.cleared s.meters
    injectors := vmap (fun _ => Injector.default) s.injectors
    screens := Vector.replicate 24 Screen.blank
    promptMap := Vector.replicate 9 MapEntry.default
    displays := vmap (fun d => { d with override := none }) s.displays }

/-- CLEAR_ALL (R175). -/
def State.clearAll (s : State) : Reply := if s.clearable then .ok s.cleared [] else .refused s .wrongState

def execClearAll (tag : Byte) (body : List Byte) (s : State) : Host.Outcome State Fault Refusal :=
  .next (s.request 0x06 tag body noFields fun s _ => s.clearAll)

end Sys2Proof.Machine
end

