-- ==== Sys2Proof/Machine/Dispatch.lean ====
section
/-! DEFINITION. The meaning of every command: one arm per row of the opcode table. -/

namespace Sys2Proof.Machine

def exec (i : Instr) (s : State) : Host.Outcome State Fault Refusal :=
  match i with
  | .powerUp found => Sys2Proof.Machine.execPowerUp found s
  | .hostFrameDiscard received => Sys2Proof.Machine.execHostFrameDiscard received s
  | .hostFrameTimeout received => Sys2Proof.Machine.execHostFrameTimeout received s
  | .unknownKind kind tag body => Sys2Proof.Machine.execUnknownKind kind tag body s
  | .responseSent => Sys2Proof.Machine.execResponseSent s
  | .statusGet tag body => Sys2Proof.Machine.execStatusGet tag body s
  | .eventsAck tag body => Sys2Proof.Machine.execEventsAck tag body s
  | .eventsMask tag body => Sys2Proof.Machine.execEventsMask tag body s
  | .clockSet tag body => Sys2Proof.Machine.execClockSet tag body s
  | .rackReset tag body => Sys2Proof.Machine.execRackReset tag body s
  | .clearAll tag body => Sys2Proof.Machine.execClearAll tag body s
  | .permitPut tag body => Sys2Proof.Machine.execPermitPut tag body s
  | .permitGet tag body => Sys2Proof.Machine.execPermitGet tag body s
  | .permitList tag body => Sys2Proof.Machine.execPermitList tag body s
  | .permitHold tag body => Sys2Proof.Machine.execPermitHold tag body s
  | .permitRelease tag body => Sys2Proof.Machine.execPermitRelease tag body s
  | .permitRetire tag body => Sys2Proof.Machine.execPermitRetire tag body s
  | .productPut tag body => Sys2Proof.Machine.execProductPut tag body s
  | .productGet tag body => Sys2Proof.Machine.execProductGet tag body s
  | .productDelete tag body => Sys2Proof.Machine.execProductDelete tag body s
  | .matrixPut tag body => Sys2Proof.Machine.execMatrixPut tag body s
  | .orderCreate tag body => Sys2Proof.Machine.execOrderCreate tag body s
  | .orderAmend tag body => Sys2Proof.Machine.execOrderAmend tag body s
  | .orderCancel tag body => Sys2Proof.Machine.execOrderCancel tag body s
  | .orderGet tag body => Sys2Proof.Machine.execOrderGet tag body s
  | .orderList tag body => Sys2Proof.Machine.execOrderList tag body s
  | .orderCollect tag body => Sys2Proof.Machine.execOrderCollect tag body s
  | .bayClose tag body => Sys2Proof.Machine.execBayClose tag body s
  | .bayReset tag body => Sys2Proof.Machine.execBayReset tag body s
  | .bayMessage tag body => Sys2Proof.Machine.execBayMessage tag body s
  | .armPut tag body => Sys2Proof.Machine.execArmPut tag body s
  | .armGet tag body => Sys2Proof.Machine.execArmGet tag body s
  | .armReturn tag body => Sys2Proof.Machine.execArmReturn tag body s
  | .headerPut tag body => Sys2Proof.Machine.execHeaderPut tag body s
  | .headerGet tag body => Sys2Proof.Machine.execHeaderGet tag body s
  | .batchHold tag body => Sys2Proof.Machine.execBatchHold tag body s
  | .batchResume tag body => Sys2Proof.Machine.execBatchResume tag body s
  | .meterPut tag body => Sys2Proof.Machine.execMeterPut tag body s
  | .meterGet tag body => Sys2Proof.Machine.execMeterGet tag body s
  | .meterClear tag body => Sys2Proof.Machine.execMeterClear tag body s
  | .injectorPut tag body => Sys2Proof.Machine.execInjectorPut tag body s
  | .injectorGet tag body => Sys2Proof.Machine.execInjectorGet tag body s
  | .injectorClear tag body => Sys2Proof.Machine.execInjectorClear tag body s
  | .stockAdd tag body => Sys2Proof.Machine.execStockAdd tag body s
  | .stockSet tag body => Sys2Proof.Machine.execStockSet tag body s
  | .proveStart tag body => Sys2Proof.Machine.execProveStart tag body s
  | .proveResult tag body => Sys2Proof.Machine.execProveResult tag body s
  | .proveAbort tag body => Sys2Proof.Machine.execProveAbort tag body s
  | .screenPut tag body => Sys2Proof.Machine.execScreenPut tag body s
  | .screenGet tag body => Sys2Proof.Machine.execScreenGet tag body s
  | .promptMapPut tag body => Sys2Proof.Machine.execPromptMapPut tag body s
  | .heartbeat bay => Sys2Proof.Machine.execHeartbeat bay s
  | .bayFrameDiscard bay received => Sys2Proof.Machine.execBayFrameDiscard bay received s
  | .bayFrameTimeout bay received => Sys2Proof.Machine.execBayFrameTimeout bay received s
  | .cardEvent bay card => Sys2Proof.Machine.execCardEvent bay card s
  | .digitKey bay digit => Sys2Proof.Machine.execDigitKey bay digit s
  | .enter bay => Sys2Proof.Machine.execEnter bay s
  | .cancel bay => Sys2Proof.Machine.execCancel bay s
  | .arm bay => Sys2Proof.Machine.execArm bay s
  | .start bay => Sys2Proof.Machine.execStart bay s
  | .stop bay => Sys2Proof.Machine.execStop bay s
  | .resume bay => Sys2Proof.Machine.execResume bay s
  | .finish bay => Sys2Proof.Machine.execFinish bay s
  | .sessionTimeout bay => Sys2Proof.Machine.execSessionTimeout bay s
  | .inactivityLimitExpiry bay => Sys2Proof.Machine.execInactivityLimitExpiry bay s
  | .refusalDisplayExpiry bay => Sys2Proof.Machine.execRefusalDisplayExpiry bay s
  | .terminalLost bay => Sys2Proof.Machine.execTerminalLost bay s
  | .permissiveInputPresent bay which => Sys2Proof.Machine.execPermissiveInputPresent bay which s
  | .permissiveDebounceEnd bay which => Sys2Proof.Machine.execPermissiveDebounceEnd bay which s
  | .permissiveInputAbsent bay which => Sys2Proof.Machine.execPermissiveInputAbsent bay which s
  | .connectedAbsent armId => Sys2Proof.Machine.execConnectedAbsent armId s
  | .connectedPresent armId => Sys2Proof.Machine.execConnectedPresent armId s
  | .esdInputActive => Sys2Proof.Machine.execEsdInputActive s
  | .esdInputInactive => Sys2Proof.Machine.execEsdInputInactive s
  | .esdDebounceEnd => Sys2Proof.Machine.execEsdDebounceEnd s
  | .meterAPulse meter => Sys2Proof.Machine.execMeterAPulse meter s
  | .meterBPulse meter => Sys2Proof.Machine.execMeterBPulse meter s
  | .probeReading meter reading => Sys2Proof.Machine.execProbeReading meter reading s
  | .blendTimerExpiry armId => Sys2Proof.Machine.execBlendTimerExpiry armId s
  | .noFlowTimerExpiry armId => Sys2Proof.Machine.execNoFlowTimerExpiry armId s
  | .rampTimerExpiry armId => Sys2Proof.Machine.execRampTimerExpiry armId s
  | .settleTimerExpiry armId => Sys2Proof.Machine.execSettleTimerExpiry armId s
  | .leakTimerExpiry armId => Sys2Proof.Machine.execLeakTimerExpiry armId s
  | .additiveMeterPulse injector => Sys2Proof.Machine.execAdditiveMeterPulse injector s
  | .shotWindowExpiry injector => Sys2Proof.Machine.execShotWindowExpiry injector s
  | .shotTailEnd injector => Sys2Proof.Machine.execShotTailEnd injector s
  | .panelRefresh bay => Sys2Proof.Machine.execPanelRefresh bay s
  | .overrideExpiry bay => Sys2Proof.Machine.execOverrideExpiry bay s
  | .restoredTimeExpiry bay => Sys2Proof.Machine.execRestoredTimeExpiry bay s
  | .clockTick => Sys2Proof.Machine.execClockTick s

end Sys2Proof.Machine
end

