-- ==== Sys2Proof/Machine/Time.lean ====
section
/-! DEFINITION. The passing of time (log entries 2 and 4): one millisecond on every running timer, and the
expiry command that is due. -/

namespace Sys2Proof.Machine

/-- A timer one millisecond later: a stopped one stays stopped, and 0 stays 0. -/
def Timer.tick (t : Timer) : Timer := t.map (· - 1)

/-- A permissive one millisecond later. -/
def PermissiveUnit.later (u : PermissiveUnit) : PermissiveUnit := { u with debounce := Timer.tick u.debounce }

/-- A session context one millisecond later. -/
def Session.later (x : Session) : Session :=
  { x with timer := Timer.tick x.timer, reasonTimer := Timer.tick x.reasonTimer, silence := Timer.tick x.silence,
           bond := x.bond.later, overfill := x.overfill.later }

/-- A batch context one millisecond later. -/
def Batch.later (b : Batch) : Batch :=
  { b with ramp := Timer.tick b.ramp, settle := Timer.tick b.settle, leak := Timer.tick b.leak,
           metering := { b.metering with noFlow := Timer.tick b.metering.noFlow,
                                         blendTimer := Timer.tick b.metering.blendTimer } }

/-- A current shot one millisecond later. -/
def Shot.later (x : Shot) : Shot := { x with window := Timer.tick x.window, tail := Timer.tick x.tail }

/-- A display context one millisecond later. -/
def Display.later (d : Display) : Display :=
  { d with override := d.override.map fun o => { o with remaining := o.remaining - 1 }
           restored := Timer.tick d.restored, refresh := Timer.tick d.refresh }

/-- One millisecond passes. -/
def State.advance (s : State) : State :=
  { s with
    bays := vmap Session.later s.bays
    arms := vmap (fun r => { r with batch := r.batch.map Batch.later }) s.arms
    injectors := vmap (fun i => { i with shot := i.shot.map Shot.later }) s.injectors
    displays := vmap Display.later s.displays
    clockPhase := Timer.tick s.clockPhase
    esd := { s.esd with debounce := Timer.tick s.esd.debounce } }

/-- The timers of one bay's session in a fixed order, each with the command of its expiry (log entry 4). -/
def State.sessionTimers (s : State) (b : BayId) : List (Timer × Instr) :=
  let x := s.session b
  [(x.bond.debounce, .permissiveDebounceEnd b .bond), (x.overfill.debounce, .permissiveDebounceEnd b .overfill),
    (x.silence, .terminalLost b),
    (x.timer, if x.state = .loading then .inactivityLimitExpiry b else .sessionTimeout b),
    (x.reasonTimer, .refusalDisplayExpiry b)]

/-- The timers of one arm's batch in a fixed order, the settle before the leak (the model's choice, log entry 4). -/
def State.batchTimers (s : State) (a : ArmId) : List (Timer × Instr) :=
  (s.batch a).elim [] fun b =>
    [(b.ramp, .rampTimerExpiry a), (b.metering.blendTimer, .blendTimerExpiry a), (b.metering.noFlow, .noFlowTimerExpiry a),
      (b.settle, .settleTimerExpiry a), (b.leak, .leakTimerExpiry a)]

/-- The timers of one injector's shot in a fixed order (log entry 4). -/
def State.shotTimers (s : State) (i : InjectorId) : List (Timer × Instr) :=
  (s.injector i).shot.elim [] fun x => [(x.window, .shotWindowExpiry i), (x.tail, .shotTailEnd i)]

/-- The timers of one bay's display in a fixed order (log entry 4). -/
def State.displayTimers (s : State) (b : BayId) : List (Timer × Instr) :=
  let d := s.display b
  [(d.override.map (·.remaining), .overrideExpiry b), (d.restored, .restoredTimeExpiry b), (d.refresh, .panelRefresh b)]

/-- Every timer of the part, each with the command of its expiry, in a fixed order: clock, ESD, sessions, batches, shots,
displays (log entry 4). -/
def State.timers (s : State) : List (Timer × Instr) :=
  [(s.clockPhase, .clockTick), (s.esd.debounce, .esdDebounceEnd)] ++ (List.finRange 4).flatMap s.sessionTimers
    ++ allArms.flatMap s.batchTimers ++ allInjectors.flatMap s.shotTimers ++ (List.finRange 4).flatMap s.displayTimers

/-- The expiry command that is due: that of the first timer in their order that stands at 0 (log entry 4). -/
def State.dueCommand (s : State) : Option Instr := (s.timers.find? fun e => Timer.due e.1).map (·.2)

end Sys2Proof.Machine
end

