-- ==== Sys2Proof/Safety.lean ====
section
/-! DEFINITION. What the statements speak of: the bytes of Table 11-4, which part of a state only the host's requests
write, what is safe about a batch that does not flow, the laws of the Permit Table and the clock, and which commands are
requests. -/

namespace Sys2Proof.Machine

/-! ### Bytes as Table 11-4 spells them -/

/-- A number in one byte. -/
abbrev byteOf (n : Nat) : Byte := BitVec.ofNat 8 n

/-- A named value: its place in the list of values, counted from 0. -/
abbrev placeByte {α : Type} [DecidableEq α] (values : List α) (x : α) : Byte := byteOf (values.idxOf x)

/-- An optional field: 0, or 1 and the value. -/
abbrev markedBytes {α : Type} (f : α → List Byte) (o : Option α) : List Byte := o.elim [0] fun x => 1 :: f x

/-- A list: its count and its entries. -/
abbrev countedBytes {α : Type} (f : α → List Byte) (l : List α) : List Byte := byteOf l.length :: l.flatMap f

/-- A set in `n` bytes: the bit at the place of each member among all values. -/
abbrev memberBytes {α : Type} [DecidableEq α] (n : Nat) (values set : List α) : List Byte :=
  littleEndian n ((values.map fun x => if x ∈ set then 2 ^ values.idxOf x else 0).sum)

/-- A signed number in `n` bytes, two's complement. -/
abbrev signedBytes (n : Nat) (v : Int) : List Byte := littleEndian n (v % (256 ^ n : Nat)).toNat

/-- A text: its count and its glyph codes. -/
abbrev textBytes (t : List Glyph) : List Byte := byteOf t.length :: t.map fun g => byteOf g.val

/-- A thing numbered from 1. -/
abbrev numberByte {n : Nat} (i : Fin n) : Byte := byteOf (i.val + 1)

/-! ### What only host requests, power-up and the clock write -/

/-- A permit less the fields that a visit writes: allowance, strikes, dynamic hold, session bay. -/
def Permit.fixedPart (p : Permit) : Permit :=
  { p with allowance := none, strikes := 0, dynamic := .none, sessionBay := none }

/-- An arm record less what a batch and the CONNECTED input write. -/
def Arm.fixedPart (r : Arm) : Arm :=
  { r with closingAllowance := 0, service := .inService, connected := false, batch := none }

/-- A meter's configuration (R120). -/
def Meter.fixedPart (m : Meter) : HeaderId × Nat × Bool := (m.header, m.k, m.probe)

/-- An injector's configuration (R138). -/
def Injector.fixedPart (i : Injector) : Service × Nat × Nat × Nat × Option InjectorId × Nat :=
  (i.service, i.shotVolume, i.k, i.window, i.follower, i.mark)

/-- A compartment less what its loading writes: number, capacity, plan, product and previous cargo stay. -/
def Compartment.fixedPart (c : Compartment) : Compartment :=
  { c with state := .unplanned, gross := 0, net := 0, tempSum := 0, batchCount := 0, lastArm := none, results := [],
           flags := [] }

/-- An order less its stage and what the loading of its compartments writes. -/
def Order.fixedPart (o : Order) : Order := { o with stage := .opened, comps := o.comps.map Compartment.fixedPart }

/-- Two states hold the same records of the host: permits (less what a visit writes), products, matrix, orders
(less their stages and what loading writes), creation counter, arm, header, meter and injector configuration,
screens, prompt map, flag mask; and the same clock, port and queue. -/
structure State.SameHostRecords (s t : State) : Prop where
  permits : t.permits.map Permit.fixedPart = s.permits.map Permit.fixedPart
  products : t.products = s.products
  matrix : t.matrix = s.matrix
  orders : ∀ i, (t.orderIn i).map Order.fixedPart = (s.orderIn i).map Order.fixedPart
  creationCounter : t.creationCounter = s.creationCounter
  arms : ∀ a, (t.arm a).fixedPart = (s.arm a).fixedPart
  headers : ∀ h, (t.header h).capacity = (s.header h).capacity
  meters : ∀ m, (t.meter m).fixedPart = (s.meter m).fixedPart
  injectors : ∀ i, (t.injector i).fixedPart = (s.injector i).fixedPart
  screens : t.screens = s.screens
  promptMap : t.promptMap = s.promptMap
  clock : t.clock = s.clock
  clockPhase : t.clockPhase = s.clockPhase
  mask : t.mask = s.mask
  port : t.port = s.port
  pending : t.pending = s.pending

/-! ### What an event at one arm does to the others -/

/-- A batch less what a ceiling computed anew writes: state, main demand, ceiling and ramp timer (R98). -/
def Batch.besidesFlow (b : Batch) : Batch := { b with state := .closing, mainDemand := 0, ceiling := none, ramp := none }

/-- The ceilings of a header's drawing arms are those of its capacity and drawing set (R97). -/
def State.CeilingsAt (s : State) (h : HeaderId) : Prop :=
  ∀ a b, a ∈ (s.header h).drawing → s.batch a = some b →
    b.ceiling = some (min ((s.header h).capacity / (s.header h).drawing.length) (s.arm a).maxFlow)

/-- The batch of an arm in `t` after a change of the drawing set or the capacity of a header, from the state `u` before
it (R97, R98): an arm that drew already responds to its ceiling computed anew, another keeps its batch. -/
def State.CeilingResponse (u t : State) (h : HeaderId) (a : ArmId) : Prop :=
  t.batch a = if a ∈ (u.header h).drawing then (u.batch a).map (respondCeiling (u.arm a) (t.ceilingOf h a)) else u.batch a

/-- The arms other than `a` after it has left the drawing set of a header, from the state `u` before (R97, R98): where
it drew they respond to their ceilings computed anew, and else their batches stay. -/
def State.OthersRespond (u t : State) (h : HeaderId) (a : ArmId) : Prop :=
  ∀ c, c ≠ a → (a ∈ (u.header h).drawing → State.CeilingResponse u t h c) ∧
    (a ∉ (u.header h).drawing → t.batch c = u.batch c)

/-- What an event makes of the batch of an arm that it has not reached, from the state `u` before it (R97, R98): where it
has changed no drawing set that the arm is in, the batch stays; where it has changed the one that the arm is in, the arm
responds once, to the ceiling that the set then left gives it, however many sets and arms the event has changed. -/
def State.RespondsOnce (u t : State) (a : ArmId) : Prop :=
  ((∀ h, a ∈ (t.header h).drawing → (t.header h).drawing = (u.header h).drawing) → t.batch a = u.batch a) ∧
  ∀ h, a ∈ (t.header h).drawing → (t.header h).drawing ≠ (u.header h).drawing →
    (∀ k, k ≠ h → a ∉ (t.header k).drawing) →
    t.batch a = (u.batch a).map (respondCeiling (u.arm a) (t.ceilingOf h a))

/-- The orders of `t` are those of `u` with one compartment changed, while its slot still holds its order. -/
def State.CompChanged (u t : State) (r : CompRef) (f : Compartment → Compartment) : Prop :=
  ∀ k, t.orderIn k = (u.orderIn k).map fun o =>
    if k = r.slot ∧ o.number = r.order then
      { o with comps := o.comps.map fun c => if c.number = r.comp then f c else c } else o

/-- The state `t` is `u` with a dosing flag set on a compartment's result for an injector, while its slot still holds
its order in ACTIVE (R132). -/
def State.DoseFlagged (u t : State) (r : CompRef) (i : InjectorId) (f : ResultFlag) : Prop :=
  t = { u with orders := t.orders } ∧
  ∀ k, t.orderIn k = (u.orderIn k).map fun o =>
    if k = r.slot ∧ o.number = r.order ∧ o.isActive = true then
      { o with comps := o.comps.map fun c => if c.number = r.comp then
          { c with results := c.results.map fun z =>
              if z.injector = i then { z with flags := addTo ResultFlag.all f z.flags } else z } else c } else o

/-- The state `t` is `u` after a flowing batch has been held for one cause (R99, R136): its demands are 0, its
compartment is HELD, its arm has left the drawing set and lost its queue entries, a shot in service for it runs on with
entry queued no, BATCH_HOLD is set, and nothing else changes but for the response of the other drawing arms. -/
structure State.HeldFrom (t u : State) (a : ArmId) (b : Batch) (c : HoldCause) : Prop where
  batch : t.batch a = some { b with
    state := .held, mainDemand := 0, blendDemand := 0, ceiling := none, holdSet := [c], ramp := none
    metering := { b.metering with noFlow := none, blendTimer := none } }
  comp : State.CompChanged u t b.ref fun x => { x with state := .held }
  drawing : ∀ h, (t.header h).drawing
    = if h = b.snapshot.mainHeader then dropFrom a (u.header h).drawing else (u.header h).drawing
  others : State.OthersRespond u t b.snapshot.mainHeader a
  injectors : ∀ i, t.injector i = { u.injector i with
    queue := (u.injector i).queue.filter fun e => decide (e.arm ≠ a)
    shot := if (u.injector i).queue.any (fun e => decide (e.arm = a) && e.inService)
      then (u.injector i).shot.map fun x => { x with queued := false } else (u.injector i).shot }
  flags : t.flags = addTo EventFlag.all .batchHold u.flags
  arms : ∀ x, t.arm x = { u.arm x with batch := t.batch x }
  capacities : ∀ h, (t.header h).capacity = (u.header h).capacity
  rest : t = { u with
    arms := t.arms, orders := t.orders, headers := t.headers, injectors := t.injectors, flags := t.flags }

/-- The state `t` is `u` after a cause that is no external trip has reached an arm's batch (R99, R100): in a flowing
state it is held, a HELD batch adds the cause, a batch in CLOSING is left to settle. -/
def State.TakesCause (u t : State) (a : ArmId) (c : HoldCause) : Prop :=
  (u.batch a = none → t = u) ∧
  ∀ b, u.batch a = some b →
    (b.state = .closing → t = u) ∧
    (b.state = .held → t = { u with
      arms := vset u.arms a { u.arm a with batch := some { b with holdSet := addTo HoldCause.all c b.holdSet } } }) ∧
    (b.state.flowing = true → t.HeldFrom u a b c)

/-- The state `t` is `u`, in which the state of an injector has just changed, after that change has been handed on (R101,
R123): ADDITIVE has left the hold sets of the HELD batches that require the injector and whose REQUIRED injectors are
now all available. -/
def State.AdditiveRemoved (u t : State) (i : InjectorId) : Prop :=
  t = { u with arms := t.arms } ∧
  ∀ a, t.arm a = { u.arm a with batch := (u.batch a).map fun b =>
    if b.state = .held ∧ b.snapshot.requires i = true ∧ u.requiredAvailable b.snapshot = true then
      { b with holdSet := dropFrom .additive b.holdSet } else b }

/-- The orders of `u` are those of `s` with a volume added to what a compartment's result for an injector has delivered,
while its slot still holds its order in ACTIVE (R132); a sum past 2 000 000 mL is a free value (log entry 16). -/
def State.Delivered (s u : State) (r : CompRef) (i : InjectorId) (amount : Nat) : Prop :=
  ∃ d, d ≤ 2000000 ∧
    (∀ k, u.orderIn k = (s.orderIn k).map fun o =>
      if k = r.slot ∧ o.number = r.order ∧ o.isActive = true ∧
          (o.comp r.comp).any (fun c => c.results.any fun z => decide (z.injector = i)) = true then
        { o with comps := o.comps.map fun c => if c.number = r.comp then
            { c with results := c.results.map fun z => if z.injector = i then { z with delivered := d } else z } else c }
      else o) ∧
    ∀ o c z, s.orderOf r = some o → o.comp r.comp = some c →
      c.results.find? (fun z => decide (z.injector = i)) = some z → z.delivered + amount ≤ 2000000 →
      d = z.delivered + amount

/-- The state `u` is `s` after stages 1 to 4 of a shot's credit to a compartment (R125, R131, R132): stock and
reservation are lower, STOCK_LOW is set where the stock passed its mark, and the compartment's result for the injector
has the volume added while its order is ACTIVE, nothing else of any order changing; a sum past 2 000 000 mL is a free
value (log entry 16). -/
structure State.ShotCredited (s u : State) (i : InjectorId) (r : CompRef) (amount : Nat) : Prop where
  rest : u = { s with
    orders := u.orders, freeCount := u.freeCount
    injectors := vset s.injectors i { s.injector i with
      stock := (s.injector i).stock - amount
      reservations := (s.injector i).reservations.map fun x =>
        if x.ref = r then { x with amount := x.amount - amount } else x }
    flags := if (s.injector i).mark ≤ (s.injector i).stock ∧ (s.injector i).stock - amount < (s.injector i).mark
      then addTo EventFlag.all .stockLow s.flags else s.flags }
  credited : State.Delivered s u r i amount

/-- The state `t` is `u` after the resume of an arm's batch (R102): the batch is in LOW_START under its new
ceiling with nothing held and nothing counted since its start, the arm draws again, the compartment is LOADING;
the other batches respond to their ceilings computed anew, and injectors, meters, permits and flags stay. -/
structure State.ResumedFrom (t u : State) (a : ArmId) (b : Batch) : Prop where
  batch : ∃ c, c = min ((u.header b.snapshot.mainHeader).capacity
      / (addTo allArms a (u.header b.snapshot.mainHeader).drawing).length) (u.arm a).maxFlow ∧
    t.batch a = some { b with
      state := .lowStart, holdSet := [], sinceStart := 0, ceiling := some c, blendDemand := 0
      mainDemand := min (u.arm a).lowFlow c
      metering := { b.metering with
        noFlow := some 10000, outOfTolerance := 0, secondTenths := 0
        blendTimer := if b.snapshot.blend.isSome then some 1000 else none } }
  drawing : ∀ h, (t.header h).drawing
    = if h = b.snapshot.mainHeader then addTo allArms a (u.header h).drawing else (u.header h).drawing
  ceilings : t.CeilingsAt b.snapshot.mainHeader
  comp : ∀ o c, u.orderOf b.ref = some o → o.comp b.ref.comp = some c → ∃ o', t.orderOf b.ref = some o' ∧
    o'.comp b.ref.comp = some { c with state := .loading }
  others : ∀ c, c ≠ a → State.CeilingResponse u t b.snapshot.mainHeader c
  injectors : t.injectors = u.injectors
  meters : t.meters = u.meters
  permits : t.permits = u.permits
  flags : t.flags = u.flags

/-- The state `t` is what a reset makes of the records of `s` (R17, R81, R106, R122, R142, R149, R166, R172,
R174); the 3 s of each terminal (R67) and the 200 ms of each panel (R165) count from it. -/
structure State.ResetTo (s t : State) : Prop where
  restart : EventFlag.restart ∈ t.flags
  flags : ∀ f ∈ t.flags, f = .restart ∨ f = .orderNoted
  mask : t.mask = []
  arms : ∀ a, t.arm a = { s.arm a with batch := none, connected := (t.arm a).connected }
  headers : ∀ h, t.header h = { capacity := (s.header h).capacity, drawing := [] }
  meters : ∀ m, t.meter m = { s.meter m with aCount := 0, bCount := 0, lastTemp := none, probeState := .noReading }
  injectors : ∀ i, t.injector i = { s.injector i with
    state := .idle, reservations := [], failures := 0, queue := [], shot := none, proving := none }
  orders : ∀ i o, t.orderIn i = some o → o.isActive = false
  permits : t.permits.map (fun p => (p.fixedPart, p.strikes)) = s.permits.map fun p => (p.fixedPart, p.strikes)
  permitsFree : ∀ p ∈ t.permits, p.dynamic = .none ∧ p.sessionBay = none
  sessions : ∀ b, (t.session b).state = .idle ∧ (t.session b).card = none ∧ (t.session b).digits = [] ∧
    (t.session b).candidates = [] ∧ (t.session b).bound = none ∧ (t.session b).focus = 0 ∧
    (t.session b).armPending = false ∧ (t.session b).selected = none ∧ (t.session b).closeCause = none ∧
    (t.session b).timer = none ∧ (t.session b).reason = none ∧ (t.session b).reasonTimer = none ∧
    (t.session b).terminal = .present ∧ (t.session b).silence = some 3000
  permissives : ∀ b, (t.session b).bond.present = false ∧ (t.session b).overfill.present = false ∧
    (t.session b).bond.debounce = (if (t.session b).bond.input then some 2000 else none) ∧
    (t.session b).overfill.debounce = (if (t.session b).overfill.input then some 2000 else none)
  displays : ∀ b, (t.display b).current = none ∧ (t.display b).override = none ∧ (t.display b).restored = none ∧
    (t.display b).lastNote = none ∧ (t.display b).refresh = some 200
  products : t.products = s.products
  matrix : t.matrix = s.matrix
  screens : t.screens = s.screens
  promptMap : t.promptMap = s.promptMap
  creationCounter : t.creationCounter = s.creationCounter
  pending : t.pending = s.pending

/-- The order of a slot, if it is ACTIVE in `s`, stands recovered in `t` (R56), `now` being the end time of a note issued:
with nothing delivered it is OPEN, with a delivery NOTED with the flag POWER_INTERRUPTED; compartments that were LOADING
or HELD are marked POWER_INTERRUPTED and FILLED or PARTIAL by their plan. -/
def State.OrderRecovered (s t : State) (i : SlotId) (now : Option Time) : Prop :=
  ∀ o part, s.orderIn i = some o → o.stage = .active part → ∃ o', t.orderIn i = some o' ∧
    o'.totalGross = o.totalGross ∧ o'.totalNet = o.totalNet ∧ (o.totalGross = 0 → o'.stage = .opened) ∧
    (0 < o.totalGross → ∃ note, o'.stage = .noted { part with endTime := now } note ∧
      note.flags = [.powerInterrupted] ∧ EventFlag.orderNoted ∈ t.flags) ∧
    ∀ n c, o.comp n = some c → ∃ c', o'.comp n = some c' ∧ c'.gross = c.gross ∧ c'.net = c.net ∧
      c'.planned = c.planned ∧ c'.product = c.product ∧
      ((c.state = .loading ∨ c.state = .held) →
        CompFlag.powerInterrupted ∈ c'.flags ∧ c'.state = (if c.planned ≤ c.gross then .filled else .partly)) ∧
      (c.state ≠ .loading → c.state ≠ .held → c'.state = c.state ∧ c'.flags = c.flags)

/-- The orders of `t` are those of `s` recovered at a reset (R56): every ACTIVE one is, and the others stay. -/
def State.OrdersRecovered (s t : State) (now : Option Time) : Prop :=
  ∀ i : SlotId, (∀ o, s.orderIn i = some o → o.isActive = false → t.orderIn i = some o) ∧
    (s.orderIn i = none → t.orderIn i = none) ∧ s.OrderRecovered t i now

/-- The state `u` is what a loss of power leaves retained of a reset of `s` that it cut after some recoveries (R56, R174):
so many of the ACTIVE orders as the reset had taken, those of the lowest bays first, stand recovered, and the others are
ACTIVE still. -/
structure State.CutTo (s u : State) (c : CutReset) (first : List SlotId) : Prop where
  distinct : first.Nodup
  count : first.length = min c.recovered
    ((List.finRange 64).filter fun i => (s.orderIn i).any fun o => o.isActive).length
  inOrder : ∀ i ∈ first, ∃ o part, s.orderIn i = some o ∧ o.stage = .active part ∧
    ∀ j o' part', j ∉ first → s.orderIn j = some o' → o'.stage = .active part' → part.bay ≤ part'.bay
  recovered : ∀ i ∈ first, s.OrderRecovered u i (if c.byRackReset then s.clock else none)
  waiting : ∀ i, i ∉ first → u.orderIn i = s.orderIn i
  permits : u.permits.map Permit.fixedPart = s.permits.map Permit.fixedPart
  rest : u = { s with
    orders := u.orders, permits := u.permits, noteCounter := u.noteCounter, flags := u.flags, clock := u.clock }

/-! ### Invariants -/

/-- A batch that is not in a flowing state demands no flow (R91). -/
def Batch.Quiet (b : Batch) : Prop := b.state.flowing = false → b.mainDemand = 0 ∧ b.blendDemand = 0

/-- Every batch out of the flowing states demands no flow (R91). -/
def State.StoppedDemandsZero (s : State) : Prop := ∀ a b, s.batch a = some b → b.Quiet

/-- The Permit Table is in ascending order of card number, no two records share one, and it holds at most
512 records (R1). -/
def State.PermitsOrdered (s : State) : Prop :=
  (s.permits.map (·.card)).Pairwise (· < ·) ∧ s.permits.length ≤ Config.permitCapacity

/-- The clock is UNSET or holds a day of 0 to 65535 and a second of 0 to 86399 (R169). -/
def State.ClockInRange (s : State) : Prop := ∀ t, s.clock = some t → t.day ≤ 65535 ∧ t.second ≤ 86399

/-- Every meter's residue lies below its K factor (Table 6-1, R109). -/
def State.ResiduesBelowK (s : State) : Prop := ∀ m, (s.meter m).residue < (s.meter m).k

/-- The note number of an order, which a NOTED order has. -/
def Order.noteNumber (o : Order) : Option Nat :=
  match o.stage with
  | .noted _ n => some n.number
  | _ => none

/-- The note number held in a slot. -/
def State.noteAt (s : State) (i : SlotId) : Option Nat := (s.orderIn i).bind Order.noteNumber

/-- No two NOTED orders share a note number (R151), and the note counter lies in 1 to 999 999 (R37). -/
def State.NotesDistinct (s : State) : Prop :=
  (1 ≤ s.noteCounter ∧ s.noteCounter ≤ 999999) ∧ ∀ i j n, s.noteAt i = some n → s.noteAt j = some n → i = j

/-- No two orders out of FREE share an order number (R35). -/
def State.OrdersDistinct (s : State) : Prop :=
  ∀ i j o p, s.orderIn i = some o → s.orderIn j = some p → o.number = p.number → i = j

/-- A header's drawing set holds exactly the arms whose batch is in a flowing state on a product drawing from
that header (R97). -/
def State.DrawingExact (s : State) : Prop :=
  ∀ h a, a ∈ (s.header h).drawing ↔ ∃ b, s.batch a = some b ∧ b.state.flowing = true ∧ b.snapshot.mainHeader = h

/-- The state `t` is `s` after an external trip has reached the batch of an arm (R99, R100, R136): a flowing one is HELD
with that one cause, its demands 0 and its compartment HELD, its arm has left the drawing set and lost its queue entries,
and BATCH_HOLD is set; one in CLOSING goes on as it was, its compartment marked CLOSED_UNDER_TRIP. Its ceiling is absent
where drawing sets are exact. -/
structure State.TripReached (s t : State) (a : ArmId) (c : HoldCause) : Prop where
  flowing : ∀ b, s.batch a = some b → b.state.flowing = true →
    (∃ ceiling, (s.DrawingExact → ceiling = none) ∧ t.batch a = some { b with
      state := .held, mainDemand := 0, blendDemand := 0, ceiling := ceiling, holdSet := [c], ramp := none
      metering := { b.metering with noFlow := none, blendTimer := none } }) ∧
    (∀ o k, s.orderOf b.ref = some o → o.comp b.ref.comp = some k → ∃ o' k', t.orderOf b.ref = some o' ∧
      o'.comp b.ref.comp = some k' ∧ k'.state = .held) ∧
    a ∉ (t.header b.snapshot.mainHeader).drawing ∧ (∀ i, ∀ e ∈ (t.injector i).queue, e.arm ≠ a) ∧
    EventFlag.batchHold ∈ t.flags
  closing : ∀ b, s.batch a = some b → b.state = .closing →
    (∃ ceiling, (s.DrawingExact → ceiling = b.ceiling) ∧ t.batch a = some { b with ceiling := ceiling }) ∧
    ∀ o k, s.orderOf b.ref = some o → o.comp b.ref.comp = some k → ∃ o' k', t.orderOf b.ref = some o' ∧
      o'.comp b.ref.comp = some k' ∧ CompFlag.closedUnderTrip ∈ k'.flags

/-- A batch that ESD holds back: in CLOSING, or HELD with ESD among its causes (R104). -/
def Batch.EsdStopped (b : Batch) : Prop := b.state = .closing ∨ (b.state = .held ∧ .esd ∈ b.holdSet)

/-- While ESD is active every batch is in CLOSING, or HELD with the cause ESD (R104). -/
def State.EsdStopsFlow (s : State) : Prop := s.esd.active = true → ∀ a b, s.batch a = some b → b.EsdStopped

/-! ### Requests -/

end Sys2Proof.Machine

namespace Sys2Proof

open Sys2Proof.Machine

/-- The kind, tag and body of a host request (Table 11-6); none for the other commands. -/
def Instr.request : Instr → Option (Byte × Byte × List Byte)
  | .unknownKind kind tag body => some (kind, tag, body)
  | .statusGet tag body => some (0x01, tag, body)
  | .eventsAck tag body => some (0x02, tag, body)
  | .eventsMask tag body => some (0x03, tag, body)
  | .clockSet tag body => some (0x04, tag, body)
  | .rackReset tag body => some (0x05, tag, body)
  | .clearAll tag body => some (0x06, tag, body)
  | .permitPut tag body => some (0x10, tag, body)
  | .permitGet tag body => some (0x11, tag, body)
  | .permitList tag body => some (0x12, tag, body)
  | .permitHold tag body => some (0x13, tag, body)
  | .permitRelease tag body => some (0x14, tag, body)
  | .permitRetire tag body => some (0x15, tag, body)
  | .productPut tag body => some (0x20, tag, body)
  | .productGet tag body => some (0x21, tag, body)
  | .productDelete tag body => some (0x22, tag, body)
  | .matrixPut tag body => some (0x23, tag, body)
  | .orderCreate tag body => some (0x30, tag, body)
  | .orderAmend tag body => some (0x31, tag, body)
  | .orderCancel tag body => some (0x32, tag, body)
  | .orderGet tag body => some (0x33, tag, body)
  | .orderList tag body => some (0x34, tag, body)
  | .orderCollect tag body => some (0x35, tag, body)
  | .bayClose tag body => some (0x40, tag, body)
  | .bayReset tag body => some (0x41, tag, body)
  | .bayMessage tag body => some (0x42, tag, body)
  | .armPut tag body => some (0x50, tag, body)
  | .armGet tag body => some (0x51, tag, body)
  | .armReturn tag body => some (0x52, tag, body)
  | .headerPut tag body => some (0x53, tag, body)
  | .headerGet tag body => some (0x54, tag, body)
  | .batchHold tag body => some (0x55, tag, body)
  | .batchResume tag body => some (0x56, tag, body)
  | .meterPut tag body => some (0x60, tag, body)
  | .meterGet tag body => some (0x61, tag, body)
  | .meterClear tag body => some (0x62, tag, body)
  | .injectorPut tag body => some (0x70, tag, body)
  | .injectorGet tag body => some (0x71, tag, body)
  | .injectorClear tag body => some (0x72, tag, body)
  | .stockAdd tag body => some (0x73, tag, body)
  | .stockSet tag body => some (0x74, tag, body)
  | .proveStart tag body => some (0x78, tag, body)
  | .proveResult tag body => some (0x79, tag, body)
  | .proveAbort tag body => some (0x7A, tag, body)
  | .screenPut tag body => some (0x80, tag, body)
  | .screenGet tag body => some (0x81, tag, body)
  | .promptMapPut tag body => some (0x82, tag, body)
  | _ => none

/-- The body of a host request matches the fields of its kind (R168); the other commands have no body. -/
def Instr.bodyMatches : Instr → Bool
  | .statusGet _ body => (noFields body).isSome
  | .eventsAck _ body => (readFlags body).isSome
  | .eventsMask _ body => (readFlags body).isSome
  | .clockSet _ body => (readTime body).isSome
  | .rackReset _ body => (noFields body).isSome
  | .clearAll _ body => (noFields body).isSome
  | .permitPut _ body => (readPermit body).isSome
  | .permitGet _ body => (readLong body).isSome
  | .permitList _ body => (readLong body).isSome
  | .permitHold _ body => (readHold body).isSome
  | .permitRelease _ body => (readHold body).isSome
  | .permitRetire _ body => (readLong body).isSome
  | .productPut _ body => (readProduct body).isSome
  | .productGet _ body => (readByte body).isSome
  | .productDelete _ body => (readByte body).isSome
  | .matrixPut _ body => (readMatrixRow body).isSome
  | .orderCreate _ body => (readOrder body).isSome
  | .orderAmend _ body => (readAmend body).isSome
  | .orderCancel _ body => (readLong body).isSome
  | .orderGet _ body => (readOrderGet body).isSome
  | .orderList _ body => (readOrderList body).isSome
  | .orderCollect _ body => (readCollect body).isSome
  | .bayClose _ body => (readByte body).isSome
  | .bayReset _ body => (readByte body).isSome
  | .bayMessage _ body => (readMessage body).isSome
  | .armPut _ body => (readArmPut body).isSome
  | .armGet _ body => (readByte body).isSome
  | .armReturn _ body => (readByte body).isSome
  | .headerPut _ body => (readHeaderPut body).isSome
  | .headerGet _ body => (readByte body).isSome
  | .batchHold _ body => (readByte body).isSome
  | .batchResume _ body => (readByte body).isSome
  | .meterPut _ body => (readMeterPut body).isSome
  | .meterGet _ body => (readByte body).isSome
  | .meterClear _ body => (readByte body).isSome
  | .injectorPut _ body => (readInjectorPut body).isSome
  | .injectorGet _ body => (readByte body).isSome
  | .injectorClear _ body => (readByte body).isSome
  | .stockAdd _ body => (readInjectorAmount body).isSome
  | .stockSet _ body => (readInjectorAmount body).isSome
  | .proveStart _ body => (readProveStart body).isSome
  | .proveResult _ body => (readInjectorAmount body).isSome
  | .proveAbort _ body => (readByte body).isSome
  | .screenPut _ body => (readScreenPut body).isSome
  | .screenGet _ body => (readByte body).isSome
  | .promptMapPut _ body => (readMapPut body).isSome
  | _ => true

end Sys2Proof
end

