-- ==== Sys2Proof/Certificates/Slice0/Obligations.lean ====
section
/-! DEFINITION. The statements for the provers. Each is named for what it says; its rules are in
OBLIGATIONS.json. A request is a command with the tag and body of an accepted frame; the statements about one
request take the port to be hunting, the rest of R167 being `PortAndResponses`. Bodies are written out as bytes (Table
11-4, spelled at the head of Safety.lean); bodies of requests with whole records are taken as what their readers give,
which `RequestBodiesAsBytes` spells.
The order of the fields of a response body and the forms that Table 11-4 leaves open are the model's (log entries 13, 15
and 38), and so is that an answer for which the rule names no body carries none (log entry 14). An expiry is stated at
the moment its timer stands at 0, and at every other moment as changing nothing (R59, log entry 3). -/

open Sys2Proof Sys2Proof.Machine

/-! ### The queue, the port and the frames -/

/-- The step of a state with a command at the front of its queue is that command on the queue's rest. -/
def Obligations.StepRunsFrontCommand : Prop :=
  ∀ (c : Instr) (rest : List Instr) (s : State),
    step { s with pending := c :: rest } = exec c { s with pending := rest }

/-- With nothing queued a step takes the expiry of the first timer that stands at 0, in the order of log entry 4, and
where no timer stands at 0 it lets one millisecond pass: every running timer has one millisecond less, and nothing else
changes (the model's choice, log entries 2 and 4). -/
def Obligations.IdleStepLetsTimePass : Prop :=
  ∀ (s : State) (timers : List (Timer × Instr)), s.pending = [] →
    timers = [(s.clockPhase, .clockTick), (s.esd.debounce, .esdDebounceEnd)]
      ++ (List.finRange 4).flatMap (fun b =>
        [((s.session b).bond.debounce, .permissiveDebounceEnd b .bond),
          ((s.session b).overfill.debounce, .permissiveDebounceEnd b .overfill),
          ((s.session b).silence, .terminalLost b),
          ((s.session b).timer, if (s.session b).state = .loading then .inactivityLimitExpiry b else .sessionTimeout b),
          ((s.session b).reasonTimer, .refusalDisplayExpiry b)])
      ++ (List.finRange 12).flatMap (fun a => (s.batch a).elim [] fun x =>
        [(x.ramp, .rampTimerExpiry a), (x.metering.blendTimer, .blendTimerExpiry a),
          (x.metering.noFlow, .noFlowTimerExpiry a), (x.settle, .settleTimerExpiry a), (x.leak, .leakTimerExpiry a)])
      ++ (List.finRange 8).flatMap (fun i => (s.injector i).shot.elim [] fun x =>
        [(x.window, .shotWindowExpiry i), (x.tail, .shotTailEnd i)])
      ++ (List.finRange 4).flatMap (fun b =>
        [((s.display b).override.map (·.remaining), .overrideExpiry b), ((s.display b).restored, .restoredTimeExpiry b),
          ((s.display b).refresh, .panelRefresh b)]) →
    (∀ before timer c after, timers = before ++ (timer, c) :: after → timer = some 0 → (∀ e ∈ before, e.1 ≠ some 0) →
      step s = exec c s) ∧
    ((∀ e ∈ timers, e.1 ≠ some 0) → ∃ t : State, step s = .next t ∧
      t = { s with bays := t.bays, arms := t.arms, injectors := t.injectors, displays := t.displays,
                   clockPhase := s.clockPhase.map (· - 1), esd := { s.esd with debounce := s.esd.debounce.map (· - 1) } } ∧
      (∀ b, t.session b = { s.session b with
        timer := (s.session b).timer.map (· - 1)
        reasonTimer := (s.session b).reasonTimer.map (· - 1)
        silence := (s.session b).silence.map (· - 1)
        bond := { (s.session b).bond with debounce := (s.session b).bond.debounce.map (· - 1) }
        overfill := { (s.session b).overfill with debounce := (s.session b).overfill.debounce.map (· - 1) } }) ∧
      (∀ a, t.arm a = { s.arm a with batch := (s.batch a).map fun x => { x with
        ramp := x.ramp.map (· - 1), settle := x.settle.map (· - 1), leak := x.leak.map (· - 1)
        metering := { x.metering with
          noFlow := x.metering.noFlow.map (· - 1), blendTimer := x.metering.blendTimer.map (· - 1) } } }) ∧
      (∀ i, t.injector i = { s.injector i with shot := (s.injector i).shot.map fun x =>
        { x with window := x.window.map (· - 1), tail := x.tail.map (· - 1) } }) ∧
      (∀ b, t.display b = { s.display b with
        override := (s.display b).override.map fun o => { o with remaining := o.remaining - 1 }
        restored := (s.display b).restored.map (· - 1), refresh := (s.display b).refresh.map (· - 1) }))

/-- The Host Link Port (R167, R168): while a response is under way every frame is lost, request or not; else a request
whose body does not match the fields of its kind, or whose kind the catalogue does not list, is answered INVALID with
an empty body, nothing else changing; a discarded frame, whose bytes are the command's operand with those of the frame
then under way behind them (log entry 1), changes nothing but the port's buffer, which keeps what the hunt over them
leaves, and a gap of more than 10 ms empties it; the end of a response returns the port to hunting. Bytes received by a
hunting port are the commands of the hunt over them, behind the buffer (`FramesOfBothLinks`), and where they are none
the buffer keeps the frame under way; until the end of a response they are lost. A response changes the port alone; its
frame is start, length of kind through body, kind, tag, result, rack status, body, CRC over length through body (Table
11-2), and the rack status byte has the bits of Table 11-3 (R171). -/
def Obligations.PortAndResponses : Prop :=
  (∀ (c : Instr) (s : State), c.request.isSome → s.port.phase = .responding → exec c s = .next s) ∧
  (∀ (c : Instr) (kind tag : Byte) (body : List Byte) (s : State), c.request = some (kind, tag, body) →
    c.bodyMatches = false → s.port.phase = .hunting → exec c s = .next (s.respond kind tag body .invalid [])) ∧
  (∀ (kind tag : Byte) (body : List Byte) (s : State), s.port.phase = .hunting →
    exec (.unknownKind kind tag body) s = .next (s.respond kind tag body .invalid [])) ∧
  (∀ (received : List Byte) (s : State),
    (s.port.phase = .hunting →
      exec (.hostFrameDiscard received) s
        = .next { s with port := { s.port with rx := (hunt [] received).buffer } } ∧
      exec (.hostFrameTimeout received) s = .next { s with port := { s.port with rx := [] } } ∧
      (hostCommands s.port.rx received = [] →
        s.receive received = { s with port := { s.port with rx := (hunt s.port.rx received).buffer } }) ∧
      (hostCommands s.port.rx received ≠ [] →
        s.receive received = { s with pending := s.pending ++ hostCommands s.port.rx received })) ∧
    (s.port.phase = .responding → exec (.hostFrameDiscard received) s = .next s ∧
      exec (.hostFrameTimeout received) s = .next s ∧ s.receive received = s)) ∧
  (∀ s : State, exec .responseSent s = .next { s with port := { s.port with phase := .hunting, rx := [] } }) ∧
  (∀ (s : State) (kind tag : Byte) (request : List Byte) (r : ResultCode) (body : List Byte), ∃ frame covered,
    s.respond kind tag request r body
      = { s with port := { s.port with phase := .responding, rx := kind :: tag :: request, response := some frame } } ∧
    covered = littleEndian 2 (4 + body.length) ++ [kind, tag,
      placeByte [ResultCode.ok, .notFound, .exists, .full, .invalid, .inUse, .wrongState] r, s.statusByte] ++ body ∧
    frame = 0xA5#8 :: covered ++ littleEndian 2 (crc16 covered).toNat) ∧
  (∀ s : State,
    (s.statusByte.getLsbD 0 = true ↔ ∃ f ∈ s.flags, f ∉ s.mask) ∧
    s.statusByte.getLsbD 1 = s.esd.active ∧
    (s.statusByte.getLsbD 2 = true ↔ s.clock = none) ∧
    (s.statusByte.getLsbD 3 = true ↔ ∃ a b, s.batch a = some b ∧ b.state.flowing = true) ∧
    (s.statusByte.getLsbD 4 = true ↔ ∃ i, (s.injector i).state = .fault) ∧
    (s.statusByte.getLsbD 5 = true ↔ ∃ a, (s.arm a).service = .outOfService) ∧
    s.statusByte.getLsbD 6 = false ∧ s.statusByte.getLsbD 7 = false)

/-- The frames of both serial lines. The host link accepts exactly the frames that Table 11-1 lays out (start, length
of kind through body, kind, tag, a body of at most 500 bytes, CRC over length through body), and hunts for them in the
bytes received (R167): a byte other than 0xA5 between frames is skipped; a length below 2 or above 502 discards the
three bytes and hunting goes on behind them; a frame whose CRC does not match is discarded and hunting goes on behind
it; an accepted frame ends the hunt; a frame not yet complete is kept and goes on with the bytes that follow, wherever
the bytes are cut. Each discarded frame is a discard, the last with the bytes of the frame then under way behind its
own, so that the hunt over its operand leaves them under way (log entry 1); each accepted frame is the request of its
kind (Table 11-6): each well-formed request is the command that its own frame spells, whatever follows. The well-formed
terminal frames are those of Table 11-7: heartbeats, cards of four bytes, keys of codes 0 to 16; digit keys have codes
0 to 9 and the seven others 10 to 16 in the table's order; each spells its command, and any other frame a discard
(R176). -/
def Obligations.FramesOfBothLinks : Prop :=
  (∀ (frame : List Byte) (kind tag : Byte) (body : List Byte),
    acceptedContent frame = some (kind, tag, body) ↔
      body.length ≤ 500 ∧ ∃ covered, covered = littleEndian 2 (2 + body.length) ++ kind :: tag :: body ∧
        frame = 0xA5#8 :: covered ++ littleEndian 2 (crc16 covered).toNat) ∧
  (∀ buffer : List Byte, hunt buffer [] = { buffer := buffer, discarded := [], accepted := none }) ∧
  (∀ (b : Byte) (rest : List Byte), b ≠ 0xA5 → hunt [] (b :: rest) = hunt [] rest) ∧
  (∀ (l0 l1 : Byte) (rest : List Byte) (len : Nat), len = l0.toNat + 256 * l1.toNat →
    (len < 2 ∨ 502 < len → hunt [] (0xA5 :: l0 :: l1 :: rest)
      = { hunt [] rest with discarded := [0xA5, l0, l1] :: (hunt [] rest).discarded }) ∧
    (2 ≤ len → len ≤ 502 → ∀ content crc : List Byte, content.length = len → crc.length = 2 →
      (crc ≠ littleEndian 2 (crc16 (l0 :: l1 :: content)).toNat →
        hunt [] (0xA5 :: l0 :: l1 :: content ++ crc ++ rest) = { hunt [] rest with
          discarded := (0xA5 :: l0 :: l1 :: content ++ crc) :: (hunt [] rest).discarded }) ∧
      (crc = littleEndian 2 (crc16 (l0 :: l1 :: content)).toNat → ∀ kind tag body, content = kind :: tag :: body →
        hunt [] (0xA5 :: l0 :: l1 :: content ++ crc ++ rest)
          = { buffer := [], discarded := [], accepted := some (kind, tag, body) })) ∧
    (2 ≤ len → len ≤ 502 → ∀ part : List Byte, part.length < len + 2 →
      hunt (0xA5 :: l0 :: l1 :: part) rest = hunt [] (0xA5 :: l0 :: l1 :: part ++ rest)) ∧
    hunt [0xA5, l0] rest = hunt [] (0xA5 :: l0 :: rest) ∧ hunt [0xA5] rest = hunt [] (0xA5 :: rest)) ∧
  (∀ buffer x y : List Byte, (hunt buffer x).accepted = none →
    hunt buffer (x ++ y) = { hunt (hunt buffer x).buffer y with
      discarded := (hunt buffer x).discarded ++ (hunt (hunt buffer x).buffer y).discarded }) ∧
  (∀ (buffer received : List Byte) (h : Hunt), h = hunt buffer received →
    (∀ kind tag body, h.accepted = some (kind, tag, body) →
      hostCommands buffer received = h.discarded.map .hostFrameDiscard ++ [requestOf kind tag body]) ∧
    (h.accepted = none → (h.discarded = [] → hostCommands buffer received = []) ∧
      ∀ frames last, h.discarded = frames ++ [last] →
        hostCommands buffer received = frames.map .hostFrameDiscard ++ [.hostFrameDiscard (last ++ h.buffer)] ∧
        (hunt [] buffer = { buffer := buffer, discarded := [], accepted := none } →
          hunt [] (last ++ h.buffer) = { buffer := h.buffer, discarded := [last], accepted := none }))) ∧
  (∀ (c : Instr) (kind tag : Byte) (body rest : List Byte), c.request = some (kind, tag, body) → c.wellFormed = true →
    requestOf kind tag body = c ∧ hostCommands [] (hostFrame (kind :: tag :: body) ++ rest) = [c]) ∧
  ∀ (bay : BayId) (frame : List Byte),
    (terminalContent frame = some .heartbeat ↔ frame = 0x5A#8 :: 0x01#8 :: crcBytes [0x01#8]) ∧
    (∀ n : BitVec 32, terminalContent frame = some (.card n) ↔
      frame = 0x5A#8 :: (0x02#8 :: littleEndian 4 n.toNat) ++ crcBytes (0x02#8 :: littleEndian 4 n.toNat)) ∧
    (∀ k : Fin 17, terminalContent frame = some (.key k) ↔
      frame = 0x5A#8 :: [0x03#8, BitVec.ofNat 8 k.val] ++ crcBytes [0x03#8, BitVec.ofNat 8 k.val]) ∧
    (terminalContent frame = some .heartbeat → terminalCommand bay frame = .heartbeat bay) ∧
    (∀ n : BitVec 32, terminalContent frame = some (.card n) → terminalCommand bay frame = .cardEvent bay n) ∧
    (∀ (k : Fin 17) (d : Fin 10), terminalContent frame = some (.key k) → k.val = d.val →
      terminalCommand bay frame = .digitKey bay d) ∧
    (∀ k : Fin 17, terminalContent frame = some (.key k) → 10 ≤ k.val →
      [Instr.enter bay, .cancel bay, .arm bay, .start bay, .stop bay, .resume bay, .finish bay][k.val - 10]?
        = some (terminalCommand bay frame)) ∧
    (terminalContent frame = none → terminalCommand bay frame = .bayFrameDiscard bay frame)

/-- The bodies of the requests that carry whole records, as bytes (Tables 11-4 and 11-6): each is read as exactly the
fields whose bytes it is, whole numbers in the width of their range, an absent field as 0, a list or text behind its
count, a personal code digit by digit, a set with the bit of each member at its place, its members in order, a named
value by its place, and any other body does not match (R168): PERMIT_PUT (R2), PRODUCT_PUT (R21), ORDER_CREATE (R42),
ORDER_AMEND (R44), ARM_PUT with its fields where ASSIGNED (R83), INJECTOR_PUT (R138), SCREEN_PUT with its four lines
(R159), PROMPT_MAP_PUT with its changes (R163). Texts and codes are read as numbers of one byte here, and the rules of
their requests check them. The order of the fields is the model's (log entry 13). -/
def Obligations.RequestBodiesAsBytes : Prop :=
  ∀ body : List Byte,
    (∀ f : PermitFields, readPermit body = some f ↔
      (f.card < 256 ^ 4 ∧ (f.name.length < 256 ∧ ∀ g ∈ f.name, g < 256) ∧ (f.code.length = 4 ∧ ∀ d ∈ f.code, d < 256) ∧
        (List.finRange 8).filter (fun c => decide (c ∈ f.classes)) = f.classes ∧ f.validFrom < 256 ^ 2 ∧
        f.expiry < 256 ^ 2 ∧ ∀ a ∈ f.allowance, a < 256 ^ 2) ∧
      body = littleEndian 4 f.card ++ countedBytes (fun g => [byteOf g]) f.name ++ f.code.map byteOf
        ++ memberBytes 1 (List.finRange 8) f.classes ++ littleEndian 2 f.validFrom ++ littleEndian 2 f.expiry
        ++ markedBytes (littleEndian 2) f.allowance) ∧
    (∀ f : ProductFields, readProduct body = some f ↔
      (f.code < 256 ∧ (f.name.length < 256 ∧ ∀ g ∈ f.name, g < 256) ∧ f.cls < 256 ∧ f.group < 256 ∧
        f.mainHeader < 256 ∧ (∀ b ∈ f.blend, b.1 < 256 ∧ b.2.1 < 256 ^ 2 ∧ b.2.2 < 256) ∧
        (f.additives.length < 256 ∧ ∀ e ∈ f.additives, e.injector < 256 ∧ e.rate < 256 ^ 2 ∧ e.tolerance < 256) ∧
        (f.correction.length < 256 ∧ ∀ p ∈ f.correction,
          (-32768 ≤ p.temperature ∧ p.temperature < 32768) ∧ p.factor < 256 ^ 2)) ∧
      body = byteOf f.code :: countedBytes (fun g => [byteOf g]) f.name
        ++ [byteOf f.cls, byteOf f.group, byteOf f.mainHeader]
        ++ markedBytes (fun b => byteOf b.1 :: littleEndian 2 b.2.1 ++ [byteOf b.2.2]) f.blend
        ++ countedBytes (fun e => byteOf e.injector :: littleEndian 2 e.rate
          ++ [placeByte [Requirement.required, .optional] e.requirement, byteOf e.tolerance]) f.additives
        ++ countedBytes (fun p => signedBytes 2 p.temperature ++ littleEndian 2 p.factor) f.correction) ∧
    (∀ f : OrderFields, readOrder body = some f ↔
      (f.number < 256 ^ 4 ∧ f.card < 256 ^ 4 ∧ (∀ x ∈ f.bay, x < 256) ∧
        (f.tanker.length < 256 ∧ ∀ g ∈ f.tanker, g < 256) ∧
        (f.comps.length < 256 ∧ ∀ c ∈ f.comps, c.number < 256 ∧ c.capacity < 256 ^ 4 ∧ c.planned < 256 ^ 4 ∧
          (∀ x ∈ c.product, x < 256) ∧ ∀ x ∈ c.prevGroup, x < 256)) ∧
      body = littleEndian 4 f.number ++ littleEndian 4 f.card ++ markedBytes (fun x => [byteOf x]) f.bay
        ++ countedBytes (fun g => [byteOf g]) f.tanker
        ++ countedBytes (fun c => byteOf c.number :: littleEndian 4 c.capacity ++ littleEndian 4 c.planned
          ++ markedBytes (fun x => [byteOf x]) c.product ++ markedBytes (fun x => [byteOf x]) c.prevGroup) f.comps) ∧
    (∀ f : AmendFields, readAmend body = some f ↔
      (f.number < 256 ^ 4 ∧ f.comp < 256 ∧ f.planned < 256 ^ 4 ∧ ∀ x ∈ f.product, x < 256) ∧
      body = littleEndian 4 f.number ++ byteOf f.comp :: littleEndian 4 f.planned
        ++ markedBytes (fun x => [byteOf x]) f.product) ∧
    (∀ (arm : Nat) (assigned : Option ArmFields), readArmPut body = some (arm, assigned) ↔
      (arm < 256 ∧ ∀ f ∈ assigned, f.bay < 256 ∧ f.mainMeter < 256 ∧ (∀ x ∈ f.blendMeter, x < 256) ∧
        (List.finRange 32).filter (fun p => decide (p ∈ f.products)) = f.products ∧ f.maxFlow < 256 ^ 2 ∧
        f.lowFlow < 256 ^ 2 ∧ f.startupVolume < 256 ^ 4 ∧ f.rampStep < 256 ^ 2 ∧ f.rampInterval < 256 ∧
        f.toppingFlow < 256 ^ 2 ∧ f.toppingVolume < 256 ^ 4 ∧ f.closingAllowance < 256 ^ 4) ∧
      body = byteOf arm :: assigned.elim [1] fun f => 0 :: byteOf f.bay :: byteOf f.mainMeter
        :: markedBytes (fun m => [byteOf m]) f.blendMeter ++ memberBytes 4 (List.finRange 32) f.products
        ++ littleEndian 2 f.maxFlow ++ littleEndian 2 f.lowFlow ++ littleEndian 4 f.startupVolume
        ++ littleEndian 2 f.rampStep ++ [byteOf f.rampInterval] ++ littleEndian 2 f.toppingFlow
        ++ littleEndian 4 f.toppingVolume ++ littleEndian 4 f.closingAllowance
        ++ [placeByte [Service.inService, .outOfService] f.service]) ∧
    (∀ f : InjectorFields, readInjectorPut body = some f ↔
      (f.injector < 256 ∧ f.shotVolume < 256 ^ 2 ∧ f.k < 256 ^ 2 ∧ f.window < 256 ∧ (∀ x ∈ f.follower, x < 256) ∧
        f.mark < 256 ^ 4) ∧
      body = byteOf f.injector :: placeByte [Service.inService, .outOfService] f.service
        :: littleEndian 2 f.shotVolume ++ littleEndian 2 f.k ++ byteOf f.window
        :: markedBytes (fun x => [byteOf x]) f.follower ++ littleEndian 4 f.mark) ∧
    (∀ (screen : Nat) (lines : List Line), readScreenPut body = some (screen, lines) ↔
      (screen < 256 ∧ lines.length = 4 ∧ ∀ l ∈ lines, l.cells.length < 256 ∧ ∀ f w, .field f w ∈ l.cells →
        1 ≤ w ∧ w ≤ 16) ∧
      body = byteOf screen :: lines.flatMap fun l => [0, if l.hidden then 1 else 0, if l.double then 1 else 0,
            placeByte [Emphasis.normal, .inverse, .flashing] l.emphasis]
          ++ countedBytes (fun c => match c with
            | .character g => [1, byteOf g.val]
            | .attr e => [2, placeByte [Emphasis.normal, .inverse, .flashing] e]
            | .field f w => [3, placeByte FieldCode.all f, byteOf w]) l.cells) ∧
    (∀ changes : List (Situation × Nat × Bool), readMapPut body = some changes ↔
      (changes.length < 256 ∧ ∀ c ∈ changes, c.2.1 < 256) ∧
      body = countedBytes (fun c => [placeByte Situation.all c.1, byteOf c.2.1, if c.2.2 then 1 else 0]) changes)

/-- Signs of life and their loss (R67, R68, R100, R101, R165, R176): a frame that is not well-formed, or whose bytes
come too far apart, is none. A heartbeat makes the terminal PRESENT with 3 s until it is LOST; where it was LOST, the
bay's TERMINAL_LOST causes go and the restored time starts at 5 s. When those 3 s have run out the terminal is LOST and
the flag set: before LOADING the session returns to IDLE and a bound order to OPEN; in LOADING and CLOSING each flowing
batch of the bay is held (demands 0, hold set of that one cause, compartment HELD, drawing set and queues left,
BATCH_HOLD set), each HELD one has TERMINAL_LOST added, and the compartment of each CLOSING one is marked
CLOSED_UNDER_TRIP. Before they have run out nothing happens. -/
def Obligations.TerminalLiveness : Prop :=
  ∀ (bay : BayId) (s v : State) (x : Session), x = { s.session bay with terminal := .lost, silence := none } →
    v = { s with bays := vset s.bays bay x, flags := addTo EventFlag.all .terminalLost s.flags } →
    (∀ received, exec (.bayFrameDiscard bay received) s = .next s ∧ exec (.bayFrameTimeout bay received) s = .next s) ∧
    ((s.session bay).terminal = .present → exec (.heartbeat bay) s
      = .next { s with bays := vset s.bays bay { s.session bay with silence := some 3000 } }) ∧
    ((s.session bay).terminal = .lost → ∃ t : State, exec (.heartbeat bay) s = .next t ∧
      t = { s with arms := t.arms
                   bays := vset s.bays bay { s.session bay with terminal := .present, silence := some 3000 }
                   displays := vset s.displays bay { s.display bay with restored := some 5000 } } ∧
      ∀ a, t.arm a = { s.arm a with batch := (s.batch a).map fun b =>
                         if (s.arm a).bay = some bay ∧ b.state = .held
                         then { b with holdSet := dropFrom .terminalLost b.holdSet } else b }) ∧
    ((s.session bay).terminal = .lost ∨ (s.session bay).silence ≠ some 0 → exec (.terminalLost bay) s = .next s) ∧
    ((s.session bay).terminal = .present → (s.session bay).silence = some 0 →
      (x.state = .idle → exec (.terminalLost bay) s = .next v) ∧
      (x.state = .codeEntry ∨ x.state = .orderSelect ∨ x.state = .waitBond →
        (x.bound = none → exec (.terminalLost bay) s = .next (v.returnToIdle bay)) ∧
        (∀ n i o, x.bound = some n → s.findOrder n = some (i, o) → exec (.terminalLost bay) s
          = .next (({ v with orders := vset s.orders i (some { o with stage := .opened }) } : State).returnToIdle bay))) ∧
      (x.state = .loading ∨ x.state = .closing →
        ∃ t : State, exec (.terminalLost bay) s = .next t ∧ t.bays = v.bays ∧ EventFlag.terminalLost ∈ t.flags ∧
          (∀ a, (s.arm a).bay = some bay → v.TripReached t a .terminalLost) ∧
          (∀ a b, (s.arm a).bay = some bay → s.batch a = some b → b.state = .held → ∃ ceiling,
            (s.DrawingExact → ceiling = b.ceiling) ∧ t.batch a = some { b with
              holdSet := addTo HoldCause.all .terminalLost b.holdSet, ceiling := ceiling }) ∧
          (∀ a, (s.arm a).bay ≠ some bay → (t.batch a).map (·.besidesFlow) = (s.batch a).map (·.besidesFlow)) ∧
          t.permits = s.permits ∧ t.meters = s.meters ∧ t.displays = s.displays ∧ s.SameHostRecords t))

/-! ### Rack status, clock, resets -/

/-- STATUS_GET changes no record and answers the clock, the ESD state, the flags and the mask, and by bay, arm and
injector what R173 names; a set of flags is two bytes with the bits of Table 11-5; EVENTS_ACK clears each flag named
and keeps the others; EVENTS_MASK masks each flag named and unmasks the others (R172, R173). CLOCK_SET: day and second
in range are taken at once, others are INVALID; a tick, due each second, carries the set clock one second on, over
midnight to the next day, holds it at its last second, and does nothing to an UNSET clock (R169). That the second under
way begins anew at CLOCK_SET, and that the body carries no present mark, are the model's choices (log entries 22 and
38). -/
def Obligations.StatusEventFlagsAndClock : Prop :=
  (∀ (s : State) (tag : Byte), s.port.phase = .hunting →
    exec (.statusGet tag []) s = .next (s.respond 0x01 tag [] .ok
      (markedBytes (fun c => littleEndian 2 c.day ++ littleEndian 4 c.second) s.clock
        ++ [if s.esd.active then 0 else 1] ++ memberBytes 2 EventFlag.all s.flags ++ memberBytes 2 EventFlag.all s.mask
        ++ (List.finRange 4).flatMap (fun b =>
          placeByte [SessionState.idle, .codeEntry, .orderSelect, .waitBond, .loading, .closing] (s.session b).state
            :: markedBytes (littleEndian 4) (s.session b).bound
            ++ [placeByte [Terminal.present, .lost] (s.session b).terminal, if (s.session b).bond.present then 1 else 0,
                if (s.session b).overfill.present then 1 else 0])
        ++ (List.finRange 12).flatMap (fun a =>
          [placeByte [none, some BatchState.lowStart, some .ramping, some .high, some .topping, some .closing, some .held]
              ((s.batch a).map (·.state)), placeByte [Service.inService, .outOfService] (s.arm a).service])
        ++ (List.finRange 8).flatMap (fun i =>
          [placeByte [InjectorState.idle, .shot, .fault, .proving, .proveWait] (s.injector i).state,
            placeByte [Service.inService, .outOfService] (s.injector i).service]))) ∧
    (∀ (w : Nat) (named : List EventFlag), w < 65536 →
      named = EventFlag.all.filter (fun f => w.testBit (EventFlag.all.idxOf f)) →
      (∃ t : State, exec (.eventsAck tag (littleEndian 2 w)) s = .next (t.respond 0x02 tag (littleEndian 2 w) .ok
          (memberBytes 2 EventFlag.all t.flags ++ memberBytes 2 EventFlag.all s.mask)) ∧
        t = { s with flags := t.flags } ∧ ∀ f, f ∈ t.flags ↔ f ∈ s.flags ∧ f ∉ named) ∧
      exec (.eventsMask tag (littleEndian 2 w)) s = .next (({ s with mask := named } : State).respond 0x03 tag
        (littleEndian 2 w) .ok (memberBytes 2 EventFlag.all s.flags ++ littleEndian 2 w)))) ∧
  (EventFlag.all = [.restart, .session1, .session2, .session3, .session4, .orderNoted, .strikeout, .batchHold, .armFault,
    .meterFault, .unauthFlow, .injectorFault, .stockLow, .proveDone, .esdChange, .terminalLost] ∧
    ∀ f, f ∈ EventFlag.all) ∧
  (∀ (s : State) (tag : Byte) (day second : Nat), s.port.phase = .hunting → day < 65536 → second < 4294967296 →
    exec (.clockSet tag (littleEndian 2 day ++ littleEndian 4 second)) s
      = .next (if second ≤ 86399 then
          ({ s with clock := some { day, second }, clockPhase := some 1000 } : State).respond 0x04 tag
            (littleEndian 2 day ++ littleEndian 4 second) .ok []
        else s.respond 0x04 tag (littleEndian 2 day ++ littleEndian 4 second) .invalid [])) ∧
  (∀ s : State, (s.clock = none ∨ s.clockPhase ≠ some 0) → exec .clockTick s = .next s) ∧
  (∀ (s : State) (day second : Nat), s.clockPhase = some 0 → s.clock = some { day, second } → second < 86399 →
    exec .clockTick s = .next { s with clock := some { day, second := second + 1 }, clockPhase := some 1000 }) ∧
  (∀ (s : State) (day : Nat), s.clockPhase = some 0 → s.clock = some { day, second := 86399 } → day < 65535 →
    exec .clockTick s = .next { s with clock := some { day := day + 1, second := 0 }, clockPhase := some 1000 }) ∧
  (∀ s : State, s.clockPhase = some 0 → s.clock = some { day := 65535, second := 86399 } →
    exec .clockTick s = .next { s with clockPhase := some 1000 })

/-- What a rack reset leaves (R174): RESTART set, nothing masked, every batch IDLE, drawing sets empty, injectors IDLE
with nothing queued, reserved or in flight, no ACTIVE order, sessions IDLE, dynamic holds and session bays cleared; the
3 s of each terminal's silence (R67) and the 200 ms of each panel (R165) count from it; the clock, the ESD record and
the host's tables keep their values. Power-up does the same with the clock UNSET and ESD active, from the levels found
at its inputs. Orders are recovered (R56): an ACTIVE one with nothing delivered returns to OPEN, one with a delivery is
NOTED with the flag POWER_INTERRUPTED and its end time, the clock at a rack reset and absent at a power-up; compartments
that were LOADING or HELD are marked POWER_INTERRUPTED and end FILLED or PARTIAL by their plan; other orders stay. Each
recovery is an event of its own: a loss of power that cuts a reset leaves the orders of the lowest bays recovered and
the others ACTIVE, and the next power-up recovers those (that the operand of POWER_UP says what was cut is log entry
30). That a rack reset keeps the port's response last sent and that a power-up leaves none is the model's choice (log
entry 32). -/
def Obligations.ResetsLeaveTheRackIdleAndRecoverOrders : Prop :=
  (∀ (s : State) (tag : Byte), s.port.phase = .hunting →
    ∃ t : State, exec (.rackReset tag []) s = .next (t.respond 0x05 tag [] .ok []) ∧ s.ResetTo t ∧
      s.OrdersRecovered t s.clock ∧
      t.clock = s.clock ∧ t.clockPhase = s.clockPhase ∧ t.esd = s.esd ∧ t.port = s.port ∧
      (∀ a, (t.arm a).connected = (s.arm a).connected) ∧
      (∀ b, (t.session b).bond.input = (s.session b).bond.input ∧
        (t.session b).overfill.input = (s.session b).overfill.input)) ∧
  (∀ (s : State) (found : Found),
    ∃ t : State, exec (.powerUp found) s = .next t ∧ s.ResetTo t ∧ (found.cuts = [] → s.OrdersRecovered t none) ∧
      t.clock = none ∧ t.clockPhase = none ∧ t.esd.active = true ∧ t.esd.input = found.esdActive ∧
      t.esd.debounce = (if found.esdActive then none else some 2000) ∧
      t.port = { phase := .hunting, rx := [], response := none, fastBaud := found.strapHigh } ∧
      (∀ a, (t.arm a).connected = vget found.connected a) ∧
      (∀ b, (t.session b).bond.input = vget found.bond b ∧ (t.session b).overfill.input = vget found.overfill b)) ∧
  ∀ (s : State) (found : Found) (c : CutReset) (later : List CutReset), found.cuts = c :: later →
    ∃ (u : State) (first : List SlotId), s.CutTo u c first ∧
      exec (.powerUp found) s = exec (.powerUp { found with cuts := later }) u

/-- CLEAR_ALL: WRONG_STATE with nothing changed while a session is out of IDLE or an injector is in PROVING or
PROVE_WAIT; else every retained table is at its default, meters keep their totalizers, last temperatures and probe
states and have their counts at 0, overrides are cancelled, and sessions, clock, ESD, flags and mask keep their values
(R122, R164, R175). -/
def Obligations.ClearAllReturnsTablesToDefaults : Prop :=
  ∀ (s : State) (tag : Byte), s.port.phase = .hunting →
    (((∃ b, (s.session b).state ≠ .idle) ∨ (∃ i, (s.injector i).state = .proving ∨ (s.injector i).state = .proveWait)) →
      exec (.clearAll tag []) s = .next (s.respond 0x06 tag [] .wrongState [])) ∧
    ((∀ b, (s.session b).state = .idle) → (∀ i, (s.injector i).state ≠ .proving ∧ (s.injector i).state ≠ .proveWait) →
      ∃ t : State, exec (.clearAll tag []) s = .next (t.respond 0x06 tag [] .ok []) ∧
        t.permits = [] ∧ (∀ p, t.product p = none) ∧ (∀ g h, vget (vget t.matrix g) h = .allow) ∧
        (∀ i, t.orderIn i = none) ∧ t.creationCounter = 1 ∧ t.noteCounter = 1 ∧
        (∀ a, t.arm a = { Arm.default with connected := (s.arm a).connected }) ∧
        (∀ h, t.header h = { capacity := 2000, drawing := [] }) ∧
        (∀ m, t.meter m = { s.meter m with
          header := 0, k := 100000, probe := false, state := .ok, unauthorized := 0, unauthorizedFlag := false
          aCount := 0, bCount := 0, residue := if (s.meter m).k = 100000 then (s.meter m).residue else 0 }) ∧
        (∀ i, t.injector i = Injector.default) ∧
        (∀ n, vget t.screens n = Screen.blank) ∧ (∀ i, vget t.promptMap i = { screen := 0, priority := false }) ∧
        (∀ b, t.display b = { s.display b with override := none }) ∧
        t.bays = s.bays ∧ t.clock = s.clock ∧ t.clockPhase = s.clockPhase ∧ t.esd = s.esd ∧ t.flags = s.flags ∧
        t.mask = s.mask ∧ t.port = s.port ∧ t.pending = s.pending)

/-- The state right after reset, as far as the spec gives it: clock UNSET (R169), ESD active (R170), RESTART alone set
and nothing masked (R172, R174), sessions IDLE with terminals PRESENT and permissives NOT_PRESENT (R81) and 3 s until
they are LOST (R67), batches IDLE and drawing sets empty (R106), injectors IDLE and empty (R142, R149), probes not read
and counts 0 (R122), display contexts cleared (R166) and 200 ms until their refresh (R165), the port hunting, no
command waiting. The retained tables are at the defaults that CLEAR_ALL gives (the model's choice, log entry 5), and
the contacts of permissives and couplings open (log entry 6). The invariants below hold in it. -/
def Obligations.ResetState : Prop :=
  State.reset.clock = none ∧ State.reset.esd.active = true ∧ State.reset.flags = [.restart] ∧ State.reset.mask = [] ∧
  (∀ b, State.reset.session b = {
    state := .idle, card := none, digits := [], candidates := [], bound := none, focus := 0, armPending := false
    selected := none, closeCause := none, timer := none, reason := none, reasonTimer := none, terminal := .present
    silence := some 3000
    bond := { input := false, present := false, debounce := none }
    overfill := { input := false, present := false, debounce := none } }) ∧
  (∀ a, State.reset.batch a = none) ∧ (∀ h, (State.reset.header h).drawing = []) ∧
  (∀ i, (State.reset.injector i).state = .idle ∧ (State.reset.injector i).queue = [] ∧
    (State.reset.injector i).reserved = 0 ∧ (State.reset.injector i).failures = 0 ∧
    (State.reset.injector i).shot = none ∧ (State.reset.injector i).proving = none) ∧
  (∀ m, (State.reset.meter m).aCount = 0 ∧ (State.reset.meter m).bCount = 0 ∧ (State.reset.meter m).lastTemp = none ∧
    (State.reset.meter m).probeState = .noReading) ∧
  (∀ b, (State.reset.display b).current = none ∧ (State.reset.display b).override = none ∧
    (State.reset.display b).restored = none ∧ (State.reset.display b).lastNote = none ∧
    (State.reset.display b).refresh = some 200) ∧
  (State.reset.permits = [] ∧ (∀ p, State.reset.product p = none) ∧
    (∀ g h, vget (vget State.reset.matrix g) h = .allow) ∧ (∀ i, State.reset.orderIn i = none) ∧
    State.reset.creationCounter = 1 ∧ State.reset.noteCounter = 1 ∧
    (∀ a, State.reset.arm a = { Arm.default with connected := false }) ∧
    (∀ h, State.reset.header h = { capacity := 2000, drawing := [] }) ∧
    (∀ m, (State.reset.meter m).fixedPart = (0, 100000, false) ∧ (State.reset.meter m).state = .ok ∧
      (State.reset.meter m).totalizer = 0 ∧ (State.reset.meter m).residue = 0 ∧
      (State.reset.meter m).unauthorized = 0 ∧ (State.reset.meter m).unauthorizedFlag = false) ∧
    (∀ i, State.reset.injector i = Injector.default) ∧ (∀ n, vget State.reset.screens n = Screen.blank) ∧
    (∀ i, vget State.reset.promptMap i = { screen := 0, priority := false })) ∧
  State.reset.port.phase = .hunting ∧ State.reset.pending = [] ∧
  State.reset.PermitsOrdered ∧ State.reset.OrdersDistinct ∧ State.reset.NotesDistinct ∧
  State.reset.StoppedDemandsZero ∧ State.reset.DrawingExact ∧ State.reset.EsdStopsFlow ∧
  State.reset.ResiduesBelowK ∧ State.reset.ClockInRange

/-- The ESD input (R104, R137, R148, R170): becoming active while ESD is active abandons the release debounce; while
ESD is inactive it makes ESD active at once, sets ESD_CHANGE, holds every flowing batch (R99), adds ESD to every HELD
one, marks the compartment of each CLOSING one CLOSED_UNDER_TRIP (R100), empties the queues, closes the solenoids, ends
every open shot ENDED with its tail of 1 s, and ends the runs in PROVING with the stock lowered by what the shot under
way has measured; becoming inactive while ESD is active starts the debounce at 2 s; the end of the debounce makes ESD
inactive, sets ESD_CHANGE and takes ESD out of every HELD batch's hold set, which stays HELD (R101), changing nothing
else, but that an IDLE injector with a queue starts its next shot (R128; `ShotStart` says what that is). The host's
records stay. An edge to a level the input already has is no event (the model's reading, log entry 19). -/
def Obligations.EsdInput : Prop :=
  ∀ s : State,
    (s.esd.active = true → exec .esdInputActive s
      = .next { s with esd := { active := true, input := true, debounce := none } }) ∧
    (s.esd.active = false → ∃ t : State, exec .esdInputActive s = .next t ∧
      t.esd = { active := true, input := true, debounce := none } ∧ EventFlag.esdChange ∈ t.flags ∧
      (∀ a b, t.batch a = some b → b.EsdStopped) ∧
      (∀ a, s.TripReached t a .esd) ∧
      (∀ a, (t.batch a).isSome = (s.batch a).isSome) ∧
      (∀ i, (t.injector i).state ≠ .proving ∧ t.solenoid i = false) ∧
      (∀ i, (s.injector i).state ≠ .proving → (t.injector i).queue = [] ∧ (t.injector i).state = (s.injector i).state) ∧
      (∀ i, (s.injector i).state = .proving →
        (t.injector i).state = .idle ∧ (t.injector i).shot = none ∧ (t.injector i).proving = none) ∧
      (∀ i x, x = s.injector i → x.state ≠ .proving → t.injector i = { x with
        queue := []
        shot := x.shot.map fun y => { y with
          phase := .tail, queued := y.queued && !x.queue.any (·.inService)
          outcome := if y.phase = .opened then .ended else y.outcome
          window := if y.phase = .opened then none else y.window
          tail := if y.phase = .opened then some 1000 else y.tail } }) ∧
      (∀ i x q stock, x = s.injector i → x.state = .proving → x.shot.all (fun y => y.owner.isNone) = true →
        q = x.shot.elim 0 (·.counted) → stock = x.stock - (2 * (q * 1000) + x.k) / (2 * x.k) →
        t.injector i = { x with
          state := .idle, shot := none, proving := none, stock := stock, queue := (t.injector i).queue } ∧
        (∀ e ∈ (t.injector i).queue, e ∈ x.queue) ∧
        (x.mark ≤ x.stock → stock < x.mark → EventFlag.stockLow ∈ t.flags)) ∧
      t.bays = s.bays ∧ t.displays = s.displays ∧ s.SameHostRecords t) ∧
    (s.esd.input = false → exec .esdInputInactive s = .next s) ∧
    (s.esd.input = true → exec .esdInputInactive s = .next { s with esd :=
      { s.esd with input := false, debounce := if s.esd.active then some 2000 else none } }) ∧
    ((s.esd.active = false ∨ s.esd.debounce ≠ some 0) → exec .esdDebounceEnd s = .next s) ∧
    (s.esd.active = true → s.esd.debounce = some 0 → ∃ t : State, exec .esdDebounceEnd s = .next t ∧
      t.esd = { s.esd with active := false, debounce := none } ∧ EventFlag.esdChange ∈ t.flags ∧
      (∀ a b, s.batch a = some b → b.state = .held →
        ∃ b', t.batch a = some b' ∧ b'.state = .held ∧ HoldCause.esd ∉ b'.holdSet) ∧
      (∃ u : State, u = { s with
          esd := { s.esd with active := false, debounce := none }, flags := addTo EventFlag.all .esdChange s.flags
          arms := u.arms } ∧
        (∀ a, u.arm a = { s.arm a with batch := (s.batch a).map fun b =>
          if b.state = .held then { b with holdSet := dropFrom .esd b.holdSet } else b }) ∧
        t = (List.finRange 8).foldl State.nextShot u ∧
        ((∀ i, (s.injector i).queue = [] ∨ (s.injector i).state ≠ .idle) → t = u)) ∧
      t.bays = s.bays ∧ t.displays = s.displays ∧ s.SameHostRecords t)

/-! ### The Permit Table -/

/-- PERMIT_PUT (R1, R2, R3): fields that fail a check of R2 are INVALID and change nothing; fields that pass give the
record of a card held its six fields, keeping strikes, holds, session bay and place, or else a new record at its card's
place with strikes 0 and no holds; with 512 records held a new card is FULL. -/
def Obligations.PermitPut : Prop :=
  ∀ (s : State) (tag : Byte) (body : List Byte) (f : PermitFields), s.port.phase = .hunting → readPermit body = some f →
    (f.checked.isSome = true ↔
      (1 ≤ f.card ∧ f.card ≤ 99999999) ∧ (1 ≤ f.name.length ∧ f.name.length ≤ 24 ∧ ∀ g ∈ f.name, g < 64) ∧
      (∀ d ∈ f.code, d < 10) ∧ f.validFrom ≤ f.expiry ∧ (∀ a, f.allowance = some a → a ≤ 9999)) ∧
    (f.checked = none → exec (.permitPut tag body) s = .next (s.respond 0x10 tag body .invalid [])) ∧
    (∀ new : Permit, f.checked = some new →
      (new.card = f.card ∧ new.name.map (·.val) = f.name ∧ new.code.map (·.val) = f.code ∧ new.classes = f.classes ∧
        new.validFrom = f.validFrom ∧ new.expiry = f.expiry ∧ new.allowance = f.allowance ∧ new.strikes = 0 ∧
        new.persistent = false ∧ new.dynamic = .none ∧ new.sessionBay = none) ∧
      ((s.findPermit new.card).isSome → exec (.permitPut tag body) s
        = .next (({ s with permits := s.permits.map fun p =>
                      if p.card = new.card
                      then { p with name := new.name, code := new.code, classes := new.classes,
                                    validFrom := new.validFrom, expiry := new.expiry, allowance := new.allowance }
                      else p } : State).respond 0x10 tag body .ok [1])) ∧
      (s.findPermit new.card = none → s.permits.length < 512 → ∃ before after,
        s.permits = before ++ after ∧ (∀ p ∈ before, p.card ≤ new.card) ∧ (∀ p ∈ after.head?, new.card < p.card) ∧
        exec (.permitPut tag body) s
          = .next (({ s with permits := before ++ new :: after } : State).respond 0x10 tag body .ok [0])) ∧
      (s.findPermit new.card = none → 512 ≤ s.permits.length →
        exec (.permitPut tag body) s = .next (s.respond 0x10 tag body .full [])))

/-- PERMIT_LIST (R6): INVALID for a starting card number above 99 999 999; else OK with a count of 0 to 16 and the card
numbers of the records held that are greater than the starting one, in table order, which is the smallest first where
the table is in order (R1), up to sixteen, and the more indication, set when a further record holds a number greater
than the last one returned. Nothing changes. -/
def Obligations.PermitList : Prop :=
  ∀ (s : State) (tag : Byte) (n : Nat), s.port.phase = .hunting → n < 4294967296 →
    (99999999 < n →
      exec (.permitList tag (littleEndian 4 n)) s = .next (s.respond 0x12 tag (littleEndian 4 n) .invalid [])) ∧
    (n ≤ 99999999 → ∃ (listed : List Nat) (more : Bool),
      exec (.permitList tag (littleEndian 4 n)) s = .next (s.respond 0x12 tag (littleEndian 4 n) .ok
        (countedBytes (littleEndian 4) listed ++ [if more then 1 else 0])) ∧
      listed = ((s.permits.map (·.card)).filter fun c => decide (n < c)).take 16 ∧ listed.length ≤ 16 ∧
      (s.PermitsOrdered →
        listed.Pairwise (· < ·) ∧ (∀ c ∈ listed, n < c ∧ ∃ p ∈ s.permits, p.card = c) ∧
        (∀ p ∈ s.permits, n < p.card → p.card ∉ listed → listed.length = 16 ∧ ∀ c ∈ listed, c < p.card) ∧
        (more = true ↔ ∃ last ∈ listed.getLast?, ∃ p ∈ s.permits, last < p.card)))

/-- PERMIT_GET, PERMIT_HOLD, PERMIT_RELEASE and PERMIT_RETIRE (R5, R7, R8, R9). For a card not held each answers
NOT_FOUND. A get answers the record without its personal code and changes nothing. A hold and a release with kind
PERSISTENT (0) or DYNAMIC (1) change the one record in the hold named (and strikes, by a DYNAMIC release), and are
INVALID with another kind. A retire is IN_USE while a session holds the permit or an OPEN or ACTIVE order names the
card, and else removes the record, the others keeping their places. -/
def Obligations.PermitGetHoldReleaseRetire : Prop :=
  ∀ (s : State) (tag : Byte) (n : Nat), s.port.phase = .hunting → n < 4294967296 →
    (s.findPermit n = none →
      exec (.permitGet tag (littleEndian 4 n)) s = .next (s.respond 0x11 tag (littleEndian 4 n) .notFound [])) ∧
    (∀ p, s.findPermit n = some p → exec (.permitGet tag (littleEndian 4 n)) s
      = .next (s.respond 0x11 tag (littleEndian 4 n) .ok
          (littleEndian 4 p.card ++ textBytes p.name ++ memberBytes 1 (List.finRange 8) p.classes
            ++ littleEndian 2 p.validFrom ++ littleEndian 2 p.expiry ++ markedBytes (littleEndian 2) p.allowance
            ++ [byteOf p.strikes, if p.persistent then 0 else 1, placeByte [DynamicHold.none, .host, .strike] p.dynamic]
            ++ markedBytes (fun b => [numberByte b]) p.sessionBay))) ∧
    (s.findPermit n = none → ∀ k : Byte, (k = 0 ∨ k = 1) →
      exec (.permitHold tag (littleEndian 4 n ++ [k])) s
        = .next (s.respond 0x13 tag (littleEndian 4 n ++ [k]) .notFound []) ∧
      exec (.permitRelease tag (littleEndian 4 n ++ [k])) s
        = .next (s.respond 0x14 tag (littleEndian 4 n ++ [k]) .notFound [])) ∧
    (∀ k : Byte, k ≠ 0 → k ≠ 1 →
      exec (.permitHold tag (littleEndian 4 n ++ [k])) s
        = .next (s.respond 0x13 tag (littleEndian 4 n ++ [k]) .invalid []) ∧
      exec (.permitRelease tag (littleEndian 4 n ++ [k])) s
        = .next (s.respond 0x14 tag (littleEndian 4 n ++ [k]) .invalid [])) ∧
    ((s.findPermit n).isSome →
      exec (.permitHold tag (littleEndian 4 n ++ [0])) s
        = .next (({ s with permits := s.permits.map fun p =>
                      if p.card = n then { p with persistent := true } else p } : State).respond 0x13 tag
            (littleEndian 4 n ++ [0]) .ok []) ∧
      exec (.permitHold tag (littleEndian 4 n ++ [1])) s
        = .next (({ s with permits := s.permits.map fun p =>
                      if p.card = n then { p with dynamic := if p.dynamic = .none then .host else p.dynamic } else p
                  } : State).respond 0x13 tag (littleEndian 4 n ++ [1]) .ok []) ∧
      exec (.permitRelease tag (littleEndian 4 n ++ [0])) s
        = .next (({ s with permits := s.permits.map fun p =>
                      if p.card = n then { p with persistent := false } else p } : State).respond 0x14 tag
            (littleEndian 4 n ++ [0]) .ok []) ∧
      exec (.permitRelease tag (littleEndian 4 n ++ [1])) s
        = .next (({ s with permits := s.permits.map fun p =>
                      if p.card = n then { p with dynamic := .none, strikes := 0 } else p } : State).respond 0x14 tag
            (littleEndian 4 n ++ [1]) .ok [])) ∧
    (s.findPermit n = none →
      exec (.permitRetire tag (littleEndian 4 n)) s = .next (s.respond 0x15 tag (littleEndian 4 n) .notFound [])) ∧
    (∀ p, s.findPermit n = some p →
      (p.sessionBay.isSome ∨ ∃ i o, s.orderIn i = some o ∧ o.card = n ∧ (∀ part note, o.stage ≠ .noted part note)) →
      exec (.permitRetire tag (littleEndian 4 n)) s = .next (s.respond 0x15 tag (littleEndian 4 n) .inUse [])) ∧
    (∀ p, s.findPermit n = some p → p.sessionBay = none →
      (∀ i o, s.orderIn i = some o → o.card = n → ∃ part note, o.stage = .noted part note) →
      exec (.permitRetire tag (littleEndian 4 n)) s
        = .next (({ s with permits := s.permits.filter fun q => decide (q.card ≠ n) } : State).respond 0x15 tag
            (littleEndian 4 n) .ok []))

/-- A card event (R10, R60): a sign of life, which leaves the state `u`; then in IDLE the tests of Table 1-3 in order,
the first that fails shown for 5 s as the refusal reason; with none failing, the session enters CODE_ENTRY with the
card and 30 s, the permit's session bay is the bay, the bay's last note is none and SESSION_n is set. Out of IDLE the
card is ignored. -/
def Obligations.CardPresentation : Prop :=
  ∀ (s u : State) (bay : BayId) (card : BitVec 32) (x : Session) (p : Option Permit) (day : Nat)
    (failed : Option (Bool × Reason)),
    exec (.heartbeat bay) s = .next u → x = u.session bay →
    p = (if 1 ≤ card.toNat ∧ card.toNat ≤ 99999999 then s.findPermit card.toNat else none) →
    day = (s.clock.map (·.day)).getD 0 →
    failed = ([(s.clock.isNone, Reason.clockUnset), (s.esd.active, .esdActive), (p.isNone, .unknownCard),
      (p.any (·.sessionBay.isSome), .inSessionElsewhere),
      (p.any (fun p => p.persistent || decide (p.dynamic ≠ .none)), .permitHeld),
      (p.any (fun p => decide (day < p.validFrom)), .notYetValid),
      (p.any (fun p => decide (p.expiry < day)), .permitExpired),
      (p.any (fun p => decide (p.allowance = some 0)), .allowanceUsed)].find? (·.1)) →
    (x.state ≠ .idle → exec (.cardEvent bay card) s = .next u) ∧
    (∀ b r, x.state = .idle → failed = some (b, r) → exec (.cardEvent bay card) s
      = .next { u with bays := vset u.bays bay { x with reason := some r, reasonTimer := some 5000 } }) ∧
    (x.state = .idle → failed = none → exec (.cardEvent bay card) s
      = .next { u with
          permits := s.permits.map (fun q => if q.card = card.toNat then { q with sessionBay := some bay } else q)
          bays := vset u.bays bay { x with state := .codeEntry, card := some card.toNat, digits := [], timer := some 30000 }
          displays := vset u.displays bay { u.display bay with lastNote := none }
          flags := addTo EventFlag.all (sessionFlag bay) s.flags })

/-! ### Products, matrix, correction -/

/-- PRODUCT_PUT (R21, R22): fields that fail a check of R21 are INVALID; fields that pass are taken whole into the slot
of their code, answered CREATED (0) for an UNDEFINED slot and REPLACED (1) for a DEFINED one. MATRIX_PUT (R28): entries
ALLOW 0, LOW_FLOW 1, FORBID 2 set the row's verdicts and KEEP 3 keeps them, all together; a row outside 0 to 7, an
entry value past 3, or an entry other than ALLOW and KEEP in the row's own column is INVALID; the answer carries the
row. -/
def Obligations.ProductAndMatrixPut : Prop :=
  (∀ (s : State) (tag : Byte) (body : List Byte) (f : ProductFields), s.port.phase = .hunting → readProduct body = some f →
    (f.checked.isSome = true ↔
      (1 ≤ f.code ∧ f.code ≤ 32) ∧ (1 ≤ f.name.length ∧ f.name.length ≤ 12 ∧ ∀ g ∈ f.name, g < 64) ∧
      f.cls ≤ 7 ∧ f.group ≤ 7 ∧ (1 ≤ f.mainHeader ∧ f.mainHeader ≤ 4) ∧
      (∀ h ratio tol, f.blend = some (h, ratio, tol) →
        (1 ≤ h ∧ h ≤ 4) ∧ h ≠ f.mainHeader ∧ (10 ≤ ratio ∧ ratio ≤ 500) ∧ (1 ≤ tol ∧ tol ≤ 50)) ∧
      f.additives.length ≤ 3 ∧ (∀ e ∈ f.additives, (1 ≤ e.injector ∧ e.injector ≤ 8) ∧ (1 ≤ e.rate ∧ e.rate ≤ 5000) ∧
        (1 ≤ e.tolerance ∧ e.tolerance ≤ 20)) ∧ (f.additives.map (·.injector)).Nodup ∧
      (2 ≤ f.correction.length ∧ f.correction.length ≤ 8) ∧
      (∀ p ∈ f.correction, (-400 ≤ p.temperature ∧ p.temperature ≤ 600) ∧ (9000 ≤ p.factor ∧ p.factor ≤ 11000)) ∧
      (f.correction.map (·.temperature)).Pairwise (· < ·)) ∧
    (f.checked = none → exec (.productPut tag body) s = .next (s.respond 0x20 tag body .invalid [])) ∧
    (∀ code p, f.checked = some (code, p) →
      f.code = code.val + 1 ∧ p.name.map (·.val) = f.name ∧ p.cls.val = f.cls ∧ p.group.val = f.group ∧
      p.mainHeader.val + 1 = f.mainHeader ∧ p.correction = f.correction ∧
      p.additives.map (fun e => (⟨e.injector.val + 1, e.rate, e.requirement, e.tolerance⟩ : AdditiveFields)) = f.additives ∧
      p.blend.map (fun b => (b.header.val + 1, b.ratio, b.tolerance)) = f.blend ∧
      exec (.productPut tag body) s
        = .next (({ s with products := vset s.products code (some p) } : State).respond 0x20 tag body .ok
            [if (s.product code).isSome then 1 else 0]))) ∧
  ∀ (s : State) (tag row : Byte) (e : Vector Byte 8), s.port.phase = .hunting →
    ((7 < row.toNat ∨ (∃ i, 3 < (vget e i).toNat) ∨
        (∃ i : Fin 8, i.val = row.toNat ∧ vget e i ≠ 0 ∧ vget e i ≠ 3)) →
      exec (.matrixPut tag (row :: e.toList)) s = .next (s.respond 0x23 tag (row :: e.toList) .invalid [])) ∧
    (∀ g : GroupCode, row.toNat = g.val → (∀ i, (vget e i).toNat ≤ 3) → (vget e g = 0 ∨ vget e g = 3) →
      ∃ t : State, exec (.matrixPut tag (row :: e.toList)) s
          = .next (t.respond 0x23 tag (row :: e.toList) .ok
              ((vget t.matrix g).toList.map fun v => placeByte [Verdict.allow, .lowFlow, .forbid] v)) ∧
        t = { s with matrix := t.matrix } ∧ (∀ h, h ≠ g → vget t.matrix h = vget s.matrix h) ∧
        (∀ i, vget (vget t.matrix g) i = if vget e i = 0 then .allow else if vget e i = 1 then .lowFlow
          else if vget e i = 2 then .forbid else vget (vget s.matrix g) i))

/-- PRODUCT_GET and PRODUCT_DELETE (R23, R24): INVALID for a code outside 1 to 32, NOT_FOUND for an UNDEFINED slot; a
get answers every field of the record with its in-use indication; a delete is IN_USE while an OPEN or ACTIVE order
names the code, and else empties the slot alone. -/
def Obligations.ProductGetAndDelete : Prop :=
  ∀ (s : State) (tag n : Byte), s.port.phase = .hunting →
    ((n = 0 ∨ 32 < n.toNat) →
      exec (.productGet tag [n]) s = .next (s.respond 0x21 tag [n] .invalid []) ∧
      exec (.productDelete tag [n]) s = .next (s.respond 0x22 tag [n] .invalid [])) ∧
    (∀ code : ProductId, n.toNat = code.val + 1 →
      (s.product code = none →
        exec (.productGet tag [n]) s = .next (s.respond 0x21 tag [n] .notFound []) ∧
        exec (.productDelete tag [n]) s = .next (s.respond 0x22 tag [n] .notFound [])) ∧
      (∀ p, s.product code = some p → ∃ used : Bool,
        (used = true ↔ ∃ i o, s.orderIn i = some o ∧ (∀ part note, o.stage ≠ .noted part note) ∧
          ∃ c ∈ o.comps, c.product = some code) ∧
        exec (.productGet tag [n]) s = .next (s.respond 0x21 tag [n] .ok
          (textBytes p.name ++ [byteOf p.cls.val, byteOf p.group.val, numberByte p.mainHeader]
            ++ markedBytes (fun q => numberByte q.header :: littleEndian 2 q.ratio ++ [byteOf q.tolerance]) p.blend
            ++ countedBytes (fun e => numberByte e.injector :: littleEndian 2 e.rate
                ++ [placeByte [Requirement.required, .optional] e.requirement, byteOf e.tolerance]) p.additives
            ++ countedBytes (fun q => signedBytes 2 q.temperature ++ littleEndian 2 q.factor) p.correction
            ++ [if used then 1 else 0])) ∧
        exec (.productDelete tag [n]) s = .next (if used then s.respond 0x22 tag [n] .inUse []
          else ({ s with products := vset s.products code none } : State).respond 0x22 tag [n] .ok [])))

/-- The volume correction factor (R27): that of the first point at or below it, of the last at or above it, and between
two adjacent points the lower factor plus the rise, rounded to the nearest with a half away from zero; it lies between
the two factors. The factor of a metering credit is that of the table of the batch's snapshot at the main meter's
reading, and 10000 where there is no valid one (the rounding of the net is R113). -/
def Obligations.CorrectionFactor : Prop :=
  (∀ (s : State) (a : ArmId) (b : Batch) (m : MeterId) (g : Nat), (s.arm a).mainMeter = some m →
    g = b.metering.stepMain + b.metering.stepBlend →
    (∀ t, (s.meter m).probe = true → (s.meter m).probeState = .valid → (s.meter m).lastTemp = some t →
      (s.creditNow a b).net = (2 * (g * correctionFactor b.snapshot.correction t) + 10000) / 20000) ∧
    ((s.meter m).probe = false ∨ (s.meter m).probeState ≠ .valid →
      (s.creditNow a b).net = (2 * (g * 10000) + 10000) / 20000)) ∧
  ∀ (points : List CorrectionPoint) (t : Int), (points.map (·.temperature)).Pairwise (· < ·) →
    (∀ p ∈ points, 9000 ≤ p.factor ∧ p.factor ≤ 11000) →
    (∀ p ∈ points.head?, t ≤ p.temperature → correctionFactor points t = p.factor) ∧
    (∀ p ∈ points.getLast?, p.temperature ≤ t → correctionFactor points t = p.factor) ∧
    (∀ p ∈ points, correctionFactor points p.temperature = p.factor) ∧
    (points ≠ [] → 9000 ≤ correctionFactor points t ∧ correctionFactor points t ≤ 11000) ∧
    (∀ before lower upper after, points = before ++ lower :: upper :: after →
      lower.temperature ≤ t → t < upper.temperature → ∀ (d : Nat) (n : Int),
      (d : Int) = upper.temperature - lower.temperature →
      n = ((upper.factor : Int) - lower.factor) * (t - lower.temperature) → ∃ rise : Int,
        (correctionFactor points t : Int) = lower.factor + rise ∧
        2 * (rise * d - n).natAbs ≤ d ∧ (2 * (rise * d - n).natAbs = d → n.natAbs < (rise * d).natAbs) ∧
        min lower.factor upper.factor ≤ correctionFactor points t ∧
        correctionFactor points t ≤ max lower.factor upper.factor)

/-! ### Orders -/

/-- ORDER_CREATE (R37, R42, R43): fields that fail a check of Table 3-6 are INVALID; then the tests of Table 3-7 in
order, and then the lowest FREE slot holds the OPEN order with the counter's value as its creation sequence, which the
answer carries, and the counter goes to the next. -/
def Obligations.OrderCreate : Prop :=
  ∀ (s : State) (tag : Byte) (body : List Byte) (f : OrderFields), s.port.phase = .hunting → readOrder body = some f →
    (f.checked.isSome = true ↔
      (1 ≤ f.number ∧ f.number ≤ 999999) ∧ (1 ≤ f.card ∧ f.card ≤ 99999999) ∧
      (∀ b, f.bay = some b → 1 ≤ b ∧ b ≤ 4) ∧
      (1 ≤ f.tanker.length ∧ f.tanker.length ≤ 12 ∧ ∀ g ∈ f.tanker, g < 64) ∧
      (1 ≤ f.comps.length ∧ f.comps.length ≤ 8) ∧ (f.comps.map (·.number)).Nodup ∧
      ∀ c ∈ f.comps, (1 ≤ c.number ∧ c.number ≤ 8) ∧ (1000 ≤ c.capacity ∧ c.capacity ≤ 200000) ∧
        (c.planned = 0 ∨ (500 ≤ c.planned ∧ c.planned ≤ c.capacity)) ∧
        (c.product.isSome = true ↔ 0 < c.planned) ∧ (∀ p, c.product = some p → 1 ≤ p ∧ p ≤ 32) ∧
        (∀ g, c.prevGroup = some g → g ≤ 7)) ∧
    (f.checked = none → exec (.orderCreate tag body) s = .next (s.respond 0x30 tag body .invalid [])) ∧
    (∀ o : Order, f.checked = some o →
      o.stage = .opened ∧ o.number = f.number ∧ o.card = f.card ∧ o.bay.map (·.val + 1) = f.bay ∧
      o.tanker.map (·.val) = f.tanker ∧
      o.comps.map (fun c => (c.number.val + 1, c.capacity, c.planned, c.product.map (·.val + 1), c.prevGroup.map (·.val)))
        = f.comps.map (fun c => (c.number, c.capacity, c.planned, c.product, c.prevGroup)) ∧
      (∀ c ∈ o.comps, c.gross = 0 ∧ c.net = 0 ∧ c.tempSum = 0 ∧ c.batchCount = 0 ∧ c.lastArm = none ∧ c.results = [] ∧
        c.flags = [] ∧ c.state = if c.planned = 0 then .unplanned else .planned) ∧
      ((∃ i p, s.orderIn i = some p ∧ p.number = o.number) →
        exec (.orderCreate tag body) s = .next (s.respond 0x30 tag body .exists [])) ∧
      ((∀ i p, s.orderIn i = some p → p.number ≠ o.number) →
        ((s.findPermit o.card = none ∨ ∃ c ∈ o.comps, ∃ p, c.product = some p ∧ s.product p = none) →
          exec (.orderCreate tag body) s = .next (s.respond 0x30 tag body .notFound [])) ∧
        ((s.findPermit o.card).isSome → (∀ c ∈ o.comps, ∀ p, c.product = some p → (s.product p).isSome) →
          ((∀ i, (s.orderIn i).isSome) → exec (.orderCreate tag body) s = .next (s.respond 0x30 tag body .full [])) ∧
          (∀ i : SlotId, s.orderIn i = none → (∀ j : SlotId, j < i → (s.orderIn j).isSome) →
            exec (.orderCreate tag body) s
              = .next (({ s with
                  orders := vset s.orders i (some { o with seq := s.creationCounter })
                  creationCounter := if s.creationCounter = 4294967295 then 1 else s.creationCounter + 1
                } : State).respond 0x30 tag body .ok (littleEndian 4 s.creationCounter))))))

/-- ORDER_AMEND (R44): the tests of Table 3-8 in order, and a taken amend changes plan, product and state of that
compartment alone, a PARTIAL one becoming FILLED where the plan equals its delivered gross. -/
def Obligations.OrderAmend : Prop :=
  ∀ (s : State) (tag : Byte) (body : List Byte) (f : AmendFields), s.port.phase = .hunting → readAmend body = some f →
    (f.checked.isSome = true ↔ (1 ≤ f.number ∧ f.number ≤ 999999) ∧ (1 ≤ f.comp ∧ f.comp ≤ 8) ∧
      (f.planned = 0 ∨ (500 ≤ f.planned ∧ f.planned ≤ 999999)) ∧ (f.product.isSome = true ↔ 0 < f.planned) ∧
      (∀ p, f.product = some p → 1 ≤ p ∧ p ≤ 32)) ∧
    (f.checked = none → exec (.orderAmend tag body) s = .next (s.respond 0x31 tag body .invalid [])) ∧
    (∀ n product, f.checked = some (n, product) →
      n.val + 1 = f.comp ∧ product.map (·.val + 1) = f.product ∧
      (s.findOrder f.number = none → exec (.orderAmend tag body) s = .next (s.respond 0x31 tag body .notFound [])) ∧
      (∀ i o, s.findOrder f.number = some (i, o) →
        (o.comp n = none → exec (.orderAmend tag body) s = .next (s.respond 0x31 tag body .notFound [])) ∧
        (∀ c, o.comp n = some c →
          exec (.orderAmend tag body) s = .next
            (if o.noteNumber.isSome then s.respond 0x31 tag body .wrongState []
            else if c.capacity < f.planned then s.respond 0x31 tag body .invalid []
            else if ¬ (c.state = .unplanned ∨ c.state = .planned ∨
                (c.state = .partly ∧ c.gross ≤ f.planned ∧ product = c.product)) then
              s.respond 0x31 tag body .wrongState []
            else if product.any fun p => (s.product p).isNone then s.respond 0x31 tag body .notFound []
            else ({ s with orders := vset s.orders i (some { o with comps := o.comps.map fun x =>
                        if x.number = n then
                          { x with planned := f.planned, product := product,
                                   state := if x.state = .partly then (if f.planned = x.gross then .filled else .partly)
                                     else if f.planned = 0 then .unplanned else .planned }
                        else x }) } : State).respond 0x31 tag body .ok []))))

/-- ORDER_CANCEL, ORDER_GET, ORDER_LIST and ORDER_COLLECT (R46 to R49): what is refused and what is taken; a taken
cancel or collect frees the one slot, the reads change nothing. A get answers every field of the order with its totals,
and from the starting position up to four compartments with their results and averages (R153); a list answers up to 32
pairs of order number and creation sequence, in ascending creation sequence, and whether an order of a greater sequence
than the last one returned is left. -/
def Obligations.OrderCancelGetListCollect : Prop :=
  ∀ (s : State) (tag k : Byte) (n note : Nat) (b bk bn kb : List Byte), s.port.phase = .hunting →
    n < 4294967296 → note < 4294967296 →
    b = littleEndian 4 n → bk = littleEndian 4 n ++ [k] → bn = littleEndian 4 n ++ littleEndian 4 note →
    kb = k :: littleEndian 4 n →
    ((n < 1 ∨ 999999 < n) →
      exec (.orderCancel tag b) s = .next (s.respond 0x32 tag b .invalid []) ∧
      exec (.orderGet tag bk) s = .next (s.respond 0x33 tag bk .invalid []) ∧
      exec (.orderCollect tag bn) s = .next (s.respond 0x35 tag bn .invalid [])) ∧
    ((k.toNat < 1 ∨ 8 < k.toNat) → exec (.orderGet tag bk) s = .next (s.respond 0x33 tag bk .invalid [])) ∧
    ((note < 1 ∨ 999999 < note) → exec (.orderCollect tag bn) s = .next (s.respond 0x35 tag bn .invalid [])) ∧
    (1 ≤ n → n ≤ 999999 → s.findOrder n = none →
      exec (.orderCancel tag b) s = .next (s.respond 0x32 tag b .notFound []) ∧
      (1 ≤ k.toNat → k.toNat ≤ 8 → exec (.orderGet tag bk) s = .next (s.respond 0x33 tag bk .notFound [])) ∧
      (1 ≤ note → note ≤ 999999 → exec (.orderCollect tag bn) s = .next (s.respond 0x35 tag bn .notFound []))) ∧
    (∀ i o, 1 ≤ n → n ≤ 999999 → s.findOrder n = some (i, o) →
      (o.stage = .opened → exec (.orderCancel tag b) s
        = .next (({ s with orders := vset s.orders i none } : State).respond 0x32 tag b .ok [])) ∧
      (o.stage ≠ .opened → exec (.orderCancel tag b) s = .next (s.respond 0x32 tag b .wrongState [])) ∧
      (1 ≤ k.toNat → k.toNat ≤ 8 → ∀ (rest : List Compartment) (time : Option Time → List Byte),
        rest = o.comps.drop (k.toNat - 1) →
        time = markedBytes (fun x => littleEndian 2 x.day ++ littleEndian 4 x.second) →
        exec (.orderGet tag bk) s = .next (s.respond 0x33 tag bk .ok
          (littleEndian 4 o.number ++ littleEndian 4 o.seq
            ++ (match o.stage with
                | .opened => [(0 : Byte)]
                | .active _ => [1]
                | .noted _ _ => [2])
            ++ littleEndian 4 o.card ++ markedBytes (fun b => [numberByte b]) o.bay ++ textBytes o.tanker
            ++ (match o.stage with
                | .opened => [0, 0]
                | .active part => 1 :: numberByte part.bay :: time part.startTime ++ time part.endTime ++ [0]
                | .noted part x => 1 :: numberByte part.bay :: time part.startTime ++ time part.endTime
                    ++ 1 :: littleEndian 4 x.number ++ textBytes x.holder
                    ++ memberBytes 2 [NoteFlag.powerInterrupted, .bayReset, .hostClosed] x.flags)
            ++ littleEndian 4 (o.comps.map (·.gross)).sum ++ littleEndian 4 (o.comps.map (·.net)).sum
            ++ countedBytes (fun c => numberByte c.number :: littleEndian 4 c.capacity ++ littleEndian 4 c.planned
                ++ markedBytes (fun p => [numberByte p]) c.product ++ markedBytes (fun g => [byteOf g.val]) c.prevGroup
                ++ [placeByte [CompState.unplanned, .planned, .loading, .held, .partly, .filled] c.state]
                ++ littleEndian 4 c.gross ++ littleEndian 4 c.net ++ signedBytes 6 c.tempSum ++ [byteOf c.batchCount]
                ++ markedBytes (fun a => [numberByte a]) c.lastArm
                ++ countedBytes (fun r => byteOf r.index :: numberByte r.injector :: littleEndian 2 r.rate
                    ++ [placeByte [Requirement.required, .optional] r.requirement, byteOf r.tolerance]
                    ++ littleEndian 4 r.expected ++ littleEndian 4 r.delivered
                    ++ memberBytes 2 [ResultFlag.underdosed, .lagged, .outOfTolerance, .skipped] r.flags) c.results
                ++ memberBytes 2 [CompFlag.tempSubstituted, .lowFlowOnly, .closedUnderTrip, .endedByReset, .valveLeak,
                    .powerInterrupted] c.flags
                ++ (if c.gross = 0 then [0] else 1 :: signedBytes 2 (c.tempSum.sign
                    * ((2 * c.tempSum.natAbs + c.gross) / (2 * c.gross) : Nat)))) (rest.take 4)
            ++ [if 4 < rest.length then 1 else 0]))) ∧
      (1 ≤ note → note ≤ 999999 →
        ((∀ part x, o.stage ≠ .noted part x) →
          exec (.orderCollect tag bn) s = .next (s.respond 0x35 tag bn .wrongState [])) ∧
        (∀ part x, o.stage = .noted part x → exec (.orderCollect tag bn) s
          = .next (if x.number = note then ({ s with orders := vset s.orders i none } : State).respond 0x35 tag bn .ok []
            else s.respond 0x35 tag bn .invalid [])))) ∧
    (3 < k.toNat → exec (.orderList tag kb) s = .next (s.respond 0x34 tag kb .invalid [])) ∧
    (k.toNat ≤ 3 → ∃ listed : List (SlotId × Order),
      (∀ i o, (i, o) ∈ listed ↔ s.orderIn i = some o ∧ n < o.seq ∧ (k = 3 ∨ (k = 0 ∧ o.stage = .opened) ∨
        (k = 1 ∧ ∃ part, o.stage = .active part) ∨ (k = 2 ∧ ∃ part note, o.stage = .noted part note))) ∧
      listed.Nodup ∧ (listed.map (·.2.seq)).Pairwise (· ≤ ·) ∧
      exec (.orderList tag kb) s = .next (s.respond 0x34 tag kb .ok
        (countedBytes (fun e => littleEndian 4 e.2.number ++ littleEndian 4 e.2.seq) (listed.take 32)
          ++ [if (listed.take 32).getLast?.any (fun last => listed.any fun e => decide (last.2.seq < e.2.seq)) then 1
            else 0])))

/-! ### Bay sessions -/

/-- What every key does first, and the keys that a state ignores, which do no more (R67, R75, Table 4-2): a sign of
life, which leaves the state `u`, and in LOADING with every arm of the bay IDLE the inactivity limit from 600 s. A
digit in CODE_ENTRY and in LOADING (R61, R69): collected while fewer than four are held; without pending a compartment
of 1 to 8 is selected; while pending a position of the bay's arms takes the focus with the compartment of that arm's
batch, and any other digit is refused with NO_SUCH_ARM. The bay's arms are those whose record names the bay, in
ascending number, and the focus arm is the one of them at the focus position (section 4.1). That the digit of the
position already in focus selects anew too is the model's choice (log entry 39). -/
def Obligations.KeysFirstEffectAndDigits : Prop :=
  (∀ (s : State) (bay : BayId), (∀ a, a ∈ s.bayArms bay ↔ (s.arm a).bay = some bay) ∧
    (s.bayArms bay).Pairwise (· < ·) ∧ s.focusArm bay = (s.bayArms bay)[(s.session bay).focus.val]?) ∧
  (∀ (s u : State) (bay : BayId), exec (.heartbeat bay) s = .next u →
    ((s.session bay).state = .loading → (∀ a, (s.arm a).bay = some bay → s.batch a = none) →
      s.keyed bay = { u with bays := vset u.bays bay { u.session bay with timer := some 600000 } }) ∧
    (((s.session bay).state ≠ .loading ∨ ∃ a, (s.arm a).bay = some bay ∧ (s.batch a).isSome) → s.keyed bay = u) ∧
    ((s.session bay).state ≠ .loading →
      exec (.arm bay) s = .next u ∧ exec (.start bay) s = .next u ∧ exec (.stop bay) s = .next u ∧
      exec (.resume bay) s = .next u ∧ exec (.finish bay) s = .next u) ∧
    ((s.session bay).state ≠ .loading → (s.session bay).state ≠ .codeEntry → exec (.enter bay) s = .next u) ∧
    ((s.session bay).state = .idle ∨ (s.session bay).state = .waitBond ∨ (s.session bay).state = .closing →
      ∀ d, exec (.digitKey bay d) s = .next u) ∧
    ((s.session bay).state = .closing → exec (.cancel bay) s = .next u)) ∧
  ∀ (s u : State) (bay : BayId) (d : Fin 10) (x : Session), u = s.keyed bay → x = u.session bay →
    (x.state = .codeEntry → exec (.digitKey bay d) s
      = .next { u with
          bays := vset u.bays bay
            { x with digits := if x.digits.length < 4 then x.digits ++ [d] else x.digits } }) ∧
    (x.state = .loading → x.armPending = false →
      (∀ n : CompNo, d.val = n.val + 1 → exec (.digitKey bay d) s
        = .next { u with bays := vset u.bays bay { x with selected := some n } }) ∧
      ((d.val = 0 ∨ d.val = 9) → exec (.digitKey bay d) s = .next u)) ∧
    (x.state = .loading → x.armPending = true →
      (∀ (f : Fin 6) (a : ArmId), d.val = f.val + 1 → (s.bayArms bay)[f.val]? = some a →
        exec (.digitKey bay d) s = .next { u with
          bays := vset u.bays bay
            { x with armPending := false, focus := f, selected := (s.batch a).map (·.ref.comp) } }) ∧
      ((d.val = 0 ∨ 6 < d.val ∨ (s.bayArms bay).length < d.val) → exec (.digitKey bay d) s
        = .next { u with
            bays := vset u.bays bay
              { x with armPending := false, reason := some .noSuchArm, reasonTimer := some 5000 } }))

/-- The candidates of a card at a bay (R50) are the OPEN orders that name the card and allow the bay, in creation
order, at most the first four. A selection in ORDER_SELECT (R51, R63, R66): a digit past the list is ignored; an order
still OPEN for the card and the bay becomes ACTIVE with its session part and the session goes to WAIT_BOND for 300 s,
or to LOADING at once with both permissives PRESENT; an order that is not is shown as ORDER_UNAVAILABLE with the
candidates asked for anew, or NO_ORDER and IDLE where none is left. -/
def Obligations.OrderSelection : Prop :=
  (∀ (s : State) (card : Nat) (bay : BayId), ∃ listed : List (SlotId × Order),
    (∀ i o, (i, o) ∈ listed ↔
      s.orderIn i = some o ∧ o.stage = .opened ∧ o.card = card ∧ (o.bay = none ∨ o.bay = some bay)) ∧
    listed.Nodup ∧ (listed.map (·.2.seq)).Pairwise (· ≤ ·) ∧
    s.candidates card bay = (listed.take 4).map (·.2.number)) ∧
  ∀ (s u : State) (bay : BayId) (d : Fin 10) (x : Session) (card : Nat), u = s.keyed bay → x = u.session bay →
    x.state = .orderSelect → x.card = some card →
    ((d.val = 0 ∨ x.candidates.length < d.val) → exec (.digitKey bay d) s = .next u) ∧
    (∀ n, 1 ≤ d.val → x.candidates[d.val - 1]? = some n →
      (∀ i o, s.findOrder n = some (i, o) → o.stage = .opened → o.card = card → (o.bay = none ∨ o.bay = some bay) →
        exec (.digitKey bay d) s = .next { u with
          orders := vset s.orders i
            (some { o with stage := .active { bay := bay, startTime := s.clock, endTime := none } })
          bays := vset u.bays bay
            (if x.bond.present && x.overfill.present then
              { x with state := .loading, bound := some n, focus := 0, armPending := false, selected := none,
                       timer := if s.allIdle bay then some 600000 else none }
            else { x with state := .waitBond, bound := some n, timer := some 300000 }) }) ∧
      ((∀ i o, s.findOrder n = some (i, o) → ¬ (o.stage = .opened ∧ o.card = card ∧ (o.bay = none ∨ o.bay = some bay))) →
        (s.candidates card bay = [] → exec (.digitKey bay d) s
          = .next (({ u with bays := vset u.bays bay { x with reason := some .noOrder, reasonTimer := some 5000 }
              } : State).returnToIdle bay)) ∧
        (s.candidates card bay ≠ [] → exec (.digitKey bay d) s
          = .next { u with
              bays := vset u.bays bay
                { x with reason := some .orderUnavailable, reasonTimer := some 5000,
                         candidates := s.candidates card bay, timer := some 60000 } })))

/-- ENTER in CODE_ENTRY (R13, R14, R61, R62): fewer than four digits are CODE_INCOMPLETE; a wrong code with strikes 0
or 1 counts a strike and keeps the session for another 30 s, with strikes 2 or 3 it is a strike-out (strikes 3, dynamic
hold STRIKE, STRIKEOUT set, the session back in IDLE); the right code clears the strikes, and then without candidates
the session is refused NO_ORDER and returns to IDLE, with one that order is bound and the session waits for bonding or
loads at once, with more it asks for a selection for 60 s. In LOADING ENTER only ends a pending arm selection (R69).
That the digits keyed stay in the context after the right code is the model's reading (log entry 37). -/
def Obligations.EnterKey : Prop :=
  ∀ (s u : State) (bay : BayId) (x : Session), u = s.keyed bay → x = u.session bay →
    (x.state = .codeEntry → x.digits.length < 4 → exec (.enter bay) s
      = .next { u with
          bays := vset u.bays bay
            { x with digits := [], reason := some .codeIncomplete, reasonTimer := some 5000 } }) ∧
    (x.state = .loading → exec (.enter bay) s = .next { u with bays := vset u.bays bay { x with armPending := false } }) ∧
    (∀ card p, x.state = .codeEntry → 4 ≤ x.digits.length → x.card = some card → s.findPermit card = some p →
      (x.digits ≠ p.code →
        (p.strikes < 2 → exec (.enter bay) s = .next { u with
          permits := s.permits.map fun q => if q.card = card then { q with strikes := q.strikes + 1 } else q
          bays := vset u.bays bay
            { x with digits := [], timer := some 30000, reason := some .wrongCode, reasonTimer := some 5000 } }) ∧
        (2 ≤ p.strikes → exec (.enter bay) s = .next (({ u with
          permits := s.permits.map fun q => if q.card = card then { q with strikes := 3, dynamic := .strike } else q
          bays := vset u.bays bay { x with reason := some .struckOut, reasonTimer := some 5000 }
          flags := addTo EventFlag.all .strikeout s.flags } : State).returnToIdle bay))) ∧
      (x.digits = p.code → ∀ v : State,
        v = { u with permits := s.permits.map fun q => if q.card = card then { q with strikes := 0 } else q } →
        (s.candidates card bay = [] → exec (.enter bay) s
          = .next (({ v with bays := vset u.bays bay { x with reason := some .noOrder, reasonTimer := some 5000 }
              } : State).returnToIdle bay)) ∧
        (∀ n i o, s.candidates card bay = [n] → s.findOrder n = some (i, o) → o.stage = .opened → o.card = card →
          (o.bay = none ∨ o.bay = some bay) → exec (.enter bay) s = .next { v with
            orders := vset s.orders i
              (some { o with stage := .active { bay := bay, startTime := s.clock, endTime := none } })
            bays := vset u.bays bay
              (if x.bond.present && x.overfill.present then
                { x with state := .loading, candidates := [n], bound := some n, focus := 0, armPending := false,
                         selected := none, timer := if s.allIdle bay then some 600000 else none }
              else { x with state := .waitBond, candidates := [n], bound := some n, timer := some 300000 }) }) ∧
        (2 ≤ (s.candidates card bay).length → exec (.enter bay) s
          = .next { v with
              bays := vset u.bays bay
                { x with state := .orderSelect, candidates := s.candidates card bay, timer := some 60000 } })))

/-- CANCEL (R64, R69, R80): in IDLE the refusal goes; before LOADING the bound order, if any, returns to OPEN and the
session to IDLE; in LOADING pending and selection go. ARM in LOADING sets arm selection pending. And what a return to
IDLE is (R11, R58): the permit of the session has no session bay, the context is reset but for refusal reason, terminal
and permissives, SESSION_n is set; nothing else changes. -/
def Obligations.CancelAndArmKeysAndReturnToIdle : Prop :=
  (∀ (s : State) (bay : BayId), s.returnToIdle bay = { s with
    permits := s.permits.map (fun p => if (s.session bay).card = some p.card then { p with sessionBay := none } else p)
    bays := vset s.bays bay { s.session bay with
      state := .idle, card := none, digits := [], candidates := [], bound := none, focus := 0, armPending := false,
      selected := none, closeCause := none, timer := none }
    flags := addTo EventFlag.all (match bay with
      | 0 => .session1
      | 1 => .session2
      | 2 => .session3
      | 3 => .session4) s.flags }) ∧
  ∀ (s u : State) (bay : BayId) (x : Session), u = s.keyed bay → x = u.session bay →
    (x.state = .idle → exec (.cancel bay) s
      = .next { u with bays := vset u.bays bay { x with reason := none, reasonTimer := none } }) ∧
    (x.state = .codeEntry ∨ x.state = .orderSelect ∨ x.state = .waitBond →
      (x.bound = none → exec (.cancel bay) s = .next (u.returnToIdle bay)) ∧
      (∀ n i o, x.bound = some n → s.findOrder n = some (i, o) → exec (.cancel bay) s
        = .next (({ u with orders := vset s.orders i (some { o with stage := .opened }) } : State).returnToIdle bay))) ∧
    (x.state = .loading →
      exec (.cancel bay) s = .next { u with bays := vset u.bays bay { x with armPending := false, selected := none } } ∧
      exec (.arm bay) s = .next { u with bays := vset u.bays bay { x with armPending := true } })

/-- START refused (R15, R29, R52, R71, R72): without a focus arm NO_SUCH_ARM, and else the reason of the first of the
thirteen checks that fails, in their order, check 6 asking for a compartment of the bound order in PLANNED or PARTIAL
with a batch count below 15; only the key's own effects and the refusal happen. With no check failing the start has its
plan: arm, compartment, target, recipe and verdict. That a product without a record gives PRODUCT_NOT_ON_ARM is the
model's choice (log entry 37; R25 says the record is always found). -/
def Obligations.StartChecks : Prop :=
  ∀ (s u : State) (bay : BayId) (x : Session) (loadable : Option (CompRef × Compartment)), u = s.keyed bay →
    x = u.session bay → x.state = .loading →
    loadable = (match x.bound.bind s.findOrder, x.selected with
      | some (i, o), some n => ((o.comps.find? fun c => decide (c.number = n)).filter fun c =>
          (decide (c.state = .planned) || decide (c.state = .partly)) && decide (c.batchCount < 15)).map fun c =>
          ({ slot := i, order := o.number, comp := n }, c)
      | _, _ => none) →
    (s.focusArm bay = none → u.startChecks bay = .error .noSuchArm) ∧
    (∀ r, u.startChecks bay = .error r → exec (.start bay) s = .next { u with
      bays := vset u.bays bay
        { x with armPending := false, reason := some r, reasonTimer := some 5000 } }) ∧
    (∀ a b r, s.focusArm bay = some a →
      ([(s.esd.active, Reason.esdActive), (!(x.bond.present && x.overfill.present), .permissiveMissing),
        (decide ((s.arm a).service ≠ .inService), .armOutOfService), ((s.batch a).isSome, .armBusy),
        (!(s.arm a).connected, .armNotConnected),
        (loadable.isNone, .compNotLoadable)].find? (·.1)) = some (b, r) → u.startChecks bay = .error r) ∧
    (∀ a ref c, s.focusArm bay = some a → s.esd.active = false → x.permissivesPresent = true →
      (s.arm a).service = .inService → s.batch a = none → (s.arm a).connected = true →
      loadable = some (ref, c) →
      ((∀ code, c.product = some code → s.product code = none) → u.startChecks bay = .error .productNotOnArm) ∧
      (∀ code p permit now entries usable failed, c.product = some code → s.product code = some p →
        x.card.bind s.findPermit = some permit → s.clock = some now →
        entries = (p.additives.zipIdx.map fun e => (e.1, e.2 + 1)).filter (fun e =>
          c.batchCount == 0 || c.results.any fun r => decide (r.injector = e.1.injector)) →
        usable = (entries.map (·.1)).filter (fun e =>
          decide (e.requirement = .required) || (s.injector e.injector).available) →
        failed = ([(decide (code ∉ (s.arm a).products), Reason.productNotOnArm),
          (!(s.arm a).mainMeter.any (fun m => decide ((s.meter m).header = p.mainHeader)), .productNotOnArm),
          (p.blend.any (fun q => !(s.arm a).blendMeter.any fun m => decide ((s.meter m).header = q.header)),
            .productNotOnArm),
          (permit.persistent || decide (permit.dynamic ≠ .none), .permitHeld),
          (decide (now.day < permit.validFrom), .notYetValid), (decide (permit.expiry < now.day), .permitExpired),
          (decide (p.cls ∉ permit.classes), .classNotPermitted),
          (c.prevGroup.any (fun g => decide (vget (vget s.matrix g) p.group = .forbid)), .incompatible),
          (!(s.arm a).mainMeter.any (fun m => decide ((s.meter m).state = .ok)), .meterFault),
          (p.blend.isSome && !(s.arm a).blendMeter.any (fun m => decide ((s.meter m).state = .ok)), .meterFault),
          (entries.any (fun e => decide (e.1.requirement = .required) && !(s.injector e.1.injector).available),
            .injectorUnavailable),
          (usable.any (fun e => decide ((s.injector e.injector).shotVolume * 1000 < 20 * e.rate)), .doseUnworkable),
          (usable.any (fun e => decide ((s.injector e.injector).stock - (s.injector e.injector).reserved
              < ((c.planned - c.gross) * e.rate + 9999) / 10000 + (s.injector e.injector).shotVolume)), .additiveShort)
          ].find? (·.1)) →
        (∀ b r, failed = some (b, r) → u.startChecks bay = .error r) ∧
        (failed = none → ∃ plan, u.startChecks bay = .ok plan ∧ plan.arm = a ∧ plan.ref = ref ∧
          plan.target = c.planned - c.gross ∧ plan.base = c.gross ∧ (plan.firstBatch = true ↔ c.batchCount = 0) ∧
          plan.snapshot.code = code ∧ plan.snapshot.name = p.name ∧ plan.snapshot.cls = p.cls ∧
          plan.snapshot.group = p.group ∧ plan.snapshot.mainHeader = p.mainHeader ∧ plan.snapshot.blend = p.blend ∧
          plan.snapshot.correction = p.correction ∧
          plan.snapshot.entries.map (fun e => (e.entry, e.index)) = entries ∧
          plan.snapshot.usable.map (·.entry) = usable ∧
          plan.snapshot.verdict = (match c.prevGroup with
            | none => .allow
            | some g => vget (vget s.matrix g) p.group))))

/-- START taken (R30, R31, R32, R40, R52, R73, R86, R88, R97, R98, R118, R124), where drawing sets are exact: the
compartment is LOADING with one batch more, LOW_FLOW_ONLY under a LOW_FLOW verdict, and with its additive results laid
down at its first start, SKIPPED being added at a later one; the arm's batch is in LOW_START with its target, its
recipe, nothing delivered and the shot points of its usable entries; the arm draws from the recipe's header under its
ceiling, and the other arms that draw there respond to theirs; each usable entry's injector reserves its need; the
inactivity limit stops; the host's records, meters, permits and the sessions of other bays stay. -/
def Obligations.StartTaken : Prop :=
  ∀ (s u : State) (bay : BayId) (plan : StartPlan), u = s.keyed bay → (s.session bay).state = .loading →
    s.DrawingExact → u.startChecks bay = .ok plan → ∃ (t : State) (b : Batch) (ceiling : Nat),
      exec (.start bay) s = .next t ∧ t.batch plan.arm = some b ∧
      b = { state := .lowStart, ref := plan.ref, target := plan.target, snapshot := plan.snapshot, gross := 0
            blendGross := 0, net := 0, sinceStart := 0, mainDemand := min (s.arm plan.arm).lowFlow ceiling
            blendDemand := 0, ceiling := some ceiling, holdSet := [], closeKind := none, ramp := none, settle := none
            leak := none
            metering := { stepMain := 0, stepBlend := 0, steps := 0, outOfTolerance := 0, base := plan.base
                          points := (plan.snapshot.entries.filter fun e => !e.skipped).map fun e =>
                            { index := e.index, shotVolume := (s.injector e.entry.injector).shotVolume, passed := 0 }
                          noFlow := some 10000, secondTenths := 0
                          blendTimer := if plan.snapshot.blend.isSome then some 1000 else none } } ∧
      (∀ h, (t.header h).drawing = if h = plan.snapshot.mainHeader
        then addTo allArms plan.arm (s.header h).drawing else (s.header h).drawing) ∧
      ceiling = min ((s.header plan.snapshot.mainHeader).capacity
        / (t.header plan.snapshot.mainHeader).drawing.length) (s.arm plan.arm).maxFlow ∧
      t.CeilingsAt plan.snapshot.mainHeader ∧
      (∀ o c, s.orderOf plan.ref = some o → o.comp plan.ref.comp = some c → ∃ o', t.orderOf plan.ref = some o' ∧
        o'.comp plan.ref.comp = some { c with
          state := .loading, batchCount := c.batchCount + 1, lastArm := some plan.arm
          results :=
            if plan.firstBatch then plan.snapshot.entries.map fun e =>
              { index := e.index, injector := e.entry.injector, rate := e.entry.rate, requirement := e.entry.requirement
                tolerance := e.entry.tolerance, expected := 0, delivered := 0
                flags := if e.skipped then [.skipped] else [] }
            else c.results.map fun r =>
              if plan.snapshot.entries.any (fun e => e.skipped && decide (e.entry.injector = r.injector))
              then { r with flags := addTo ResultFlag.all .skipped r.flags } else r
          flags := if plan.snapshot.verdict = .lowFlow then addTo CompFlag.all .lowFlowOnly c.flags else c.flags }) ∧
      (∀ i, (t.injector i).stock = (s.injector i).stock ∧ (t.injector i).queue = (s.injector i).queue ∧
        (t.injector i).shot = (s.injector i).shot ∧ (t.injector i).state = (s.injector i).state ∧
        ((plan.snapshot.usable.map (·.entry.injector)).Nodup → (t.injector i).reservation plan.ref
          = match plan.snapshot.usable.find? (fun e => decide (e.entry.injector = i)) with
            | some e => (plan.target * e.entry.rate + 9999) / 10000 + (s.injector i).shotVolume
            | none => (s.injector i).reservation plan.ref)) ∧
      t.bays = vset u.bays bay { u.session bay with armPending := false, timer := none } ∧
      t.meters = s.meters ∧ t.permits = s.permits ∧ t.flags = s.flags ∧
      (∀ a, a ≠ plan.arm → State.CeilingResponse u t plan.snapshot.mainHeader a) ∧ u.SameHostRecords t

/-- STOP (R70, R92, R97, R136): without a focus arm NO_SUCH_ARM; ignored for an arm in IDLE or CLOSING; a flowing or
HELD batch enters CLOSING with close kind STOPPED, demands 0, hold set empty, settle 2 s and leak 30 s, leaves its
drawing set and loses its queue entries; the other drawing arms respond to their ceilings computed anew (R98). -/
def Obligations.StopKey : Prop :=
  ∀ (s u : State) (bay : BayId) (x : Session), u = s.keyed bay → x = { u.session bay with armPending := false } →
    x.state = .loading →
    (s.focusArm bay = none → exec (.stop bay) s = .next { u with
      bays := vset u.bays bay { x with reason := some .noSuchArm, reasonTimer := some 5000 } }) ∧
    (∀ a, s.focusArm bay = some a →
      ((s.batch a = none ∨ s.batchIs a .closing = true) →
        exec (.stop bay) s = .next { u with bays := vset u.bays bay x }) ∧
      (∀ b, u.batch a = some b → b.state ≠ .closing → ∃ t : State, exec (.stop bay) s = .next t ∧
        t.batch a = some { b with
          state := .closing, mainDemand := 0, blendDemand := 0, ceiling := none, holdSet := [], ramp := none,
          closeKind := some .stopped, settle := some 2000, leak := some 30000,
          metering := { b.metering with noFlow := none, blendTimer := none } } ∧
        (∀ h, (t.header h).drawing = if h = b.snapshot.mainHeader then dropFrom a (s.header h).drawing
          else (s.header h).drawing) ∧
        (a ∈ (s.header b.snapshot.mainHeader).drawing → t.CeilingsAt b.snapshot.mainHeader) ∧
        (∀ i, (t.injector i).queue = (s.injector i).queue.filter fun e => decide (e.arm ≠ a)) ∧
        State.OthersRespond u t b.snapshot.mainHeader a ∧
        t.bays = vset u.bays bay x ∧ t.orders = s.orders ∧ t.permits = s.permits ∧ t.meters = s.meters ∧
        t.flags = s.flags ∧ u.SameHostRecords t))

/-- RESUME by the driver (R70, R92, R102), where drawing sets are exact: NO_SUCH_ARM without a focus arm, NOT_HELD out
of HELD; in HELD each condition cause whose condition holds (Table 5-6) is removed first, and then a condition cause
left refuses HOLD_CONDITION, HOST refuses HOST_HOLD, and otherwise the batch restarts in LOW_START, drawing again, with
its compartment LOADING, its no-flow and blend timers and its blend count begun anew (R115, R116, R117). That METER
asks for every bound meter is log entry 12, that the tenths of the second under way begin anew log entry 34. -/
def Obligations.ResumeKey : Prop :=
  ∀ (s u : State) (bay : BayId) (x : Session), u = s.keyed bay → x = { u.session bay with armPending := false } →
    x.state = .loading → s.DrawingExact →
    (s.focusArm bay = none → exec (.resume bay) s = .next { u with
      bays := vset u.bays bay { x with reason := some .noSuchArm, reasonTimer := some 5000 } }) ∧
    (∀ a, s.focusArm bay = some a →
      (s.batchIs a .held = false → exec (.resume bay) s = .next { u with
        bays := vset u.bays bay { x with reason := some .notHeld, reasonTimer := some 5000 } }) ∧
      (∀ b left, u.batch a = some b → b.state = .held →
        left = b.holdSet.filter (fun cause => !(match cause with
          | .permissive => (u.arm a).bay.any fun y => (u.session y).bond.present && (u.session y).overfill.present
          | .esd => !u.esd.active
          | .armDisconnected => (u.arm a).connected
          | .terminalLost => (u.arm a).bay.any fun y => decide ((u.session y).terminal = .present)
          | .meter => ((u.arm a).mainMeter.toList ++ if b.snapshot.blend.isSome then (u.arm a).blendMeter.toList else []).all
              fun m => decide ((u.meter m).state = .ok)
          | .additive => b.snapshot.entries.all fun e => decide (e.entry.requirement = .optional) ||
              (decide ((u.injector e.entry.injector).service = .inService) &&
                (decide ((u.injector e.entry.injector).state = .idle) || decide ((u.injector e.entry.injector).state = .shot)))
          | .noFlow => false
          | .blend => false
          | .host => false)) →
        ((∃ c ∈ left, c ≠ .noFlow ∧ c ≠ .blend ∧ c ≠ .host) → exec (.resume bay) s = .next { u with
          arms := vset u.arms a { u.arm a with batch := some { b with holdSet := left } }
          bays := vset u.bays bay { x with reason := some .holdCondition, reasonTimer := some 5000 } }) ∧
        ((∀ c ∈ left, c = .noFlow ∨ c = .blend ∨ c = .host) → HoldCause.host ∈ left → exec (.resume bay) s = .next { u with
          arms := vset u.arms a { u.arm a with batch := some { b with holdSet := left } }
          bays := vset u.bays bay { x with reason := some .hostHold, reasonTimer := some 5000 } }) ∧
        ((∀ c ∈ left, c = .noFlow ∨ c = .blend ∨ c = .host) → HoldCause.host ∉ left →
          ∃ t : State, exec (.resume bay) s = .next t ∧
          t.ResumedFrom u a b ∧ t.bays = vset u.bays bay x ∧ u.SameHostRecords t)))

/-- FINISH (R54, R76, R77): refused ARMS_FLOWING while an arm of the bay flows or is CLOSING; with every arm IDLE the
session closes at once: its order is OPEN where nothing was delivered, and where something was it is NOTED with the
next note number, the holder's name, no flag, its end time, and every result of every compartment dose-checked (R141,
R150 to R152, R154), the permit's allowance counted down (R16); the permit is free, the session IDLE; with HELD arms
their batches enter CLOSING and the session waits in CLOSING with the cause DRIVER. The next note number is, from the
counter on, wrapping from 999 999 to 1, the first that no NOTED order holds (R151). -/
def Obligations.FinishKey : Prop :=
  (∀ s : State, 1 ≤ s.noteCounter → s.noteCounter ≤ 999999 → ∃ k,
    s.nextNote = (s.noteCounter - 1 + k) % 999999 + 1 ∧ k ≤ 64 ∧ (∀ i, s.noteAt i ≠ some s.nextNote) ∧
    ∀ j, j < k → ∃ i, s.noteAt i = some ((s.noteCounter - 1 + j) % 999999 + 1)) ∧
  ∀ (s u : State) (bay : BayId) (x : Session), u = s.keyed bay → x = { u.session bay with armPending := false } →
    x.state = .loading →
    ((∃ a b, (s.arm a).bay = some bay ∧ s.batch a = some b ∧ b.state ≠ .held) → exec (.finish bay) s = .next { u with
      bays := vset u.bays bay { x with reason := some .armsFlowing, reasonTimer := some 5000 } }) ∧
    ((∀ a, (s.arm a).bay = some bay → s.batch a = none) → ∃ t : State, exec (.finish bay) s = .next t ∧
      (t.session bay).state = .idle ∧ (t.session bay).card = none ∧ (t.session bay).bound = none ∧
      sessionFlag bay ∈ t.flags ∧ (∀ p ∈ t.permits, x.card = some p.card → p.sessionBay = none) ∧
      (∀ n i o, x.bound = some n → s.findOrder n = some (i, o) →
        ((o.comps.map (·.gross)).sum = 0 → t.orderIn i = some { o with stage := .opened } ∧
          t.permits = s.permits.map fun p =>
            { p with sessionBay := if x.card = some p.card then none else p.sessionBay }) ∧
        (∀ part, o.stage = .active part → 0 < (o.comps.map (·.gross)).sum →
          t.orderIn i = some { o with
            stage := .noted { part with endTime := s.clock }
              { number := s.nextNote, holder := ((s.findPermit o.card).map (·.name)).getD [], flags := [] }
            comps := o.comps.map fun c => { c with results := c.results.map fun r => { r with
              expected := (2 * (c.gross * r.rate) + 10000) / 20000
              flags :=
                if r.tolerance * ((2 * (c.gross * r.rate) + 10000) / 20000)
                    < (r.delivered - (2 * (c.gross * r.rate) + 10000) / 20000) * 100 ∨
                  r.tolerance * ((2 * (c.gross * r.rate) + 10000) / 20000)
                    < ((2 * (c.gross * r.rate) + 10000) / 20000 - r.delivered) * 100
                then addTo ResultFlag.all .outOfTolerance r.flags else r.flags } } } ∧
          t.noteCounter = (if s.nextNote = 999999 then 1 else s.nextNote + 1) ∧
          (t.display bay).lastNote = some s.nextNote ∧ EventFlag.orderNoted ∈ t.flags ∧
          t.permits = s.permits.map fun p =>
            { p with sessionBay := if x.card = some p.card then none else p.sessionBay
                     allowance := if p.card = o.card then p.allowance.map (· - 1) else p.allowance }) ∧
        (∀ j, j ≠ i → t.orderIn j = s.orderIn j)) ∧
      (∀ c, c ≠ bay → t.session c = s.session c) ∧ t.arms = u.arms ∧ t.headers = s.headers ∧ t.meters = s.meters ∧
      t.injectors = u.injectors ∧ u.SameHostRecords t) ∧
    ((∀ a b, (s.arm a).bay = some bay → s.batch a = some b → b.state = .held) →
      (∃ a, (s.arm a).bay = some bay ∧ (s.batch a).isSome) → ∃ t : State, exec (.finish bay) s = .next t ∧
      t.bays = vset u.bays bay { x with state := .closing, closeCause := some .driver, timer := none } ∧
      (∀ a b, (s.arm a).bay = some bay → t.batch a = some b →
        b.state = .closing ∧ b.closeKind = some .stopped ∧ b.settle = some 2000 ∧ b.leak = some 30000) ∧
      (∀ a, (t.batch a).isSome = (s.batch a).isSome) ∧ t.orders = s.orders ∧ t.permits = s.permits ∧
      t.meters = s.meters ∧ u.SameHostRecords t)

/-- The time limits of a session (R59, R64, R75, R80): before LOADING an expiry shows SESSION_TIMEOUT and returns the
session to IDLE, a bound order to OPEN; in LOADING with every arm IDLE it closes the session, as if FINISH had been
keyed (R76, R77): the order is OPEN where nothing was delivered, and where something was it is NOTED with the next
note number (`FinishKey`), the holder's name, no flag, its end time, and every result dose-checked (R141, R150 to
R152, R154), the permit's allowance counted down (R16), the permit free; the refusal display's expiry takes the reason
away. An expiry that no longer applies, its limit having been stopped or restarted, is not taken. -/
def Obligations.SessionTimers : Prop :=
  ∀ (s : State) (bay : BayId) (x : Session), x = s.session bay →
    (x.state = .codeEntry ∨ x.state = .orderSelect ∨ x.state = .waitBond → x.timer = some 0 →
      (x.bound = none → exec (.sessionTimeout bay) s = .next (({ s with
        bays := vset s.bays bay { x with reason := some .sessionTimeout, reasonTimer := some 5000 }
          } : State).returnToIdle bay)) ∧
      (∀ n i o, x.bound = some n → s.findOrder n = some (i, o) → exec (.sessionTimeout bay) s = .next (({ s with
        bays := vset s.bays bay { x with reason := some .sessionTimeout, reasonTimer := some 5000 }
        orders := vset s.orders i (some { o with stage := .opened }) } : State).returnToIdle bay))) ∧
    (x.state = .idle ∨ x.state = .loading ∨ x.state = .closing ∨ x.timer ≠ some 0 →
      exec (.sessionTimeout bay) s = .next s) ∧
    (x.state = .loading → x.timer = some 0 → (∀ a, (s.arm a).bay = some bay → s.batch a = none) →
      ∃ t : State, exec (.inactivityLimitExpiry bay) s = .next t ∧ (t.session bay).state = .idle ∧
        (t.session bay).card = none ∧ (t.session bay).bound = none ∧ sessionFlag bay ∈ t.flags ∧
        (∀ p ∈ t.permits, x.card = some p.card → p.sessionBay = none) ∧
        (∀ n i o, x.bound = some n → s.findOrder n = some (i, o) →
          ((o.comps.map (·.gross)).sum = 0 → t.orderIn i = some { o with stage := .opened } ∧
            t.permits = s.permits.map fun p =>
              { p with sessionBay := if x.card = some p.card then none else p.sessionBay }) ∧
          (∀ part, o.stage = .active part → 0 < (o.comps.map (·.gross)).sum →
            t.orderIn i = some { o with
              stage := .noted { part with endTime := s.clock }
                { number := s.nextNote, holder := ((s.findPermit o.card).map (·.name)).getD [], flags := [] }
              comps := o.comps.map fun c => { c with results := c.results.map fun r => { r with
                expected := (2 * (c.gross * r.rate) + 10000) / 20000
                flags :=
                  if r.tolerance * ((2 * (c.gross * r.rate) + 10000) / 20000)
                      < (r.delivered - (2 * (c.gross * r.rate) + 10000) / 20000) * 100 ∨
                    r.tolerance * ((2 * (c.gross * r.rate) + 10000) / 20000)
                      < ((2 * (c.gross * r.rate) + 10000) / 20000 - r.delivered) * 100
                  then addTo ResultFlag.all .outOfTolerance r.flags else r.flags } } } ∧
            t.noteCounter = (if s.nextNote = 999999 then 1 else s.nextNote + 1) ∧
            (t.display bay).lastNote = some s.nextNote ∧ EventFlag.orderNoted ∈ t.flags ∧
            t.permits = s.permits.map fun p =>
              { p with sessionBay := if x.card = some p.card then none else p.sessionBay
                       allowance := if p.card = o.card then p.allowance.map (· - 1) else p.allowance }) ∧
          (∀ j, j ≠ i → t.orderIn j = s.orderIn j)) ∧
        (∀ c, c ≠ bay → t.session c = s.session c) ∧ t.arms = s.arms ∧ t.headers = s.headers ∧ t.meters = s.meters ∧
        t.injectors = s.injectors ∧ s.SameHostRecords t) ∧
    (x.state ≠ .loading ∨ x.timer ≠ some 0 → exec (.inactivityLimitExpiry bay) s = .next s) ∧
    (x.reasonTimer = some 0 → exec (.refusalDisplayExpiry bay) s
      = .next { s with bays := vset s.bays bay { x with reason := none, reasonTimer := none } }) ∧
    (x.reasonTimer ≠ some 0 → exec (.refusalDisplayExpiry bay) s = .next s)

/-- The permissive inputs (R65, R66, R101): an input becoming present while NOT_PRESENT starts its 2 s debounce; its
end makes the permissive PRESENT, and with both PRESENT takes PERMISSIVE out of the bay's HELD batches and a waiting
session on to LOADING; an input becoming absent makes it NOT_PRESENT at once and, where it was PRESENT, hands
PERMISSIVE to the bay's batches: flowing ones are held (demands 0, hold set of that one cause, compartment HELD,
drawing set and queues left, BATCH_HOLD set), HELD ones have it added, the compartments of CLOSING ones are marked
CLOSED_UNDER_TRIP (R99, R100). A level the input already has is no event (log entry 19). -/
def Obligations.Permissives : Prop :=
  ∀ (s : State) (bay : BayId) (w : Permissive) (x : Session), x = s.session bay →
    ((x.permissive w).input = true → exec (.permissiveInputPresent bay w) s = .next s) ∧
    ((x.permissive w).input = false → exec (.permissiveInputPresent bay w) s = .next { s with
      bays := vset s.bays bay (x.modPermissive w fun p =>
        { p with input := true, debounce := if p.present then p.debounce else some 2000 }) }) ∧
    ((x.permissive w).debounce ≠ some 0 → exec (.permissiveDebounceEnd bay w) s = .next s) ∧
    (∀ y : Session, (x.permissive w).debounce = some 0 →
      y = x.modPermissive w (fun p => { p with present := true, debounce := none }) →
      ∃ t : State, exec (.permissiveDebounceEnd bay w) s = .next t ∧
        t = { s with bays := t.bays, arms := t.arms } ∧
        t.bays = vset s.bays bay (if x.state = .waitBond ∧ y.bond.present = true ∧ y.overfill.present = true then
          { y with state := .loading, focus := 0, armPending := false, selected := none,
                   timer := if s.allIdle bay then some 600000 else none } else y) ∧
        (∀ a, t.arm a = { s.arm a with batch := (s.batch a).map fun b =>
                           if (s.arm a).bay = some bay ∧ b.state = .held ∧ y.bond.present ∧ y.overfill.present
                           then { b with holdSet := dropFrom .permissive b.holdSet } else b })) ∧
    ((x.permissive w).input = false → exec (.permissiveInputAbsent bay w) s = .next s) ∧
    ((x.permissive w).input = true → ∃ t : State, exec (.permissiveInputAbsent bay w) s = .next t ∧
      t.bays = vset s.bays bay (x.modPermissive w fun p => { p with input := false, present := false, debounce := none }) ∧
      ((x.permissive w).present = true →
        (∀ a, (s.arm a).bay = some bay → s.TripReached t a .permissive) ∧
        ∀ a b, (s.arm a).bay = some bay → s.batch a = some b → b.state = .held → ∃ ceiling,
          (s.DrawingExact → ceiling = b.ceiling) ∧ t.batch a = some { b with
            holdSet := addTo HoldCause.all .permissive b.holdSet, ceiling := ceiling }) ∧
      ((x.permissive w).present = false → t = { s with bays := t.bays }) ∧
      (∀ a, (s.arm a).bay ≠ some bay → (t.batch a).map (·.besidesFlow) = (s.batch a).map (·.besidesFlow)) ∧
      t.permits = s.permits ∧ t.meters = s.meters ∧ s.SameHostRecords t)

/-- The CONNECTED input of an arm (R99, R100, R101): becoming absent it holds a flowing batch (demands 0, hold set of
that one cause, compartment HELD, drawing set and queues left, BATCH_HOLD set), adds ARM_DISCONNECTED to a HELD one and
marks the compartment of a CLOSING one; becoming present it takes the cause out of a HELD batch. A level the input
already has is no event (log entry 19). -/
def Obligations.ConnectedInput : Prop :=
  ∀ (s : State) (a : ArmId),
    ((s.arm a).connected = false → exec (.connectedAbsent a) s = .next s) ∧
    ((s.arm a).connected = true → exec (.connectedPresent a) s = .next s) ∧
    ((s.arm a).connected = true → ∃ t u : State, exec (.connectedAbsent a) s = .next t ∧ (t.arm a).connected = false ∧
      u = { s with arms := vset s.arms a { s.arm a with connected := false } } ∧
      (∀ b, s.batch a = some b →
        (b.state.flowing = true → t.HeldFrom u a b .armDisconnected) ∧
        (b.state = .held → t = { s with arms := vset s.arms a { s.arm a with
          connected := false, batch := some { b with holdSet := addTo HoldCause.all .armDisconnected b.holdSet } } }) ∧
        (b.state = .closing → t = { u with orders := t.orders } ∧ State.CompChanged s t b.ref fun x =>
          { x with flags := addTo CompFlag.all .closedUnderTrip x.flags })) ∧
      (s.batch a = none → t = u) ∧
      (∀ c, c ≠ a → (t.batch c).map (·.besidesFlow) = (s.batch c).map (·.besidesFlow)) ∧
      t.bays = s.bays ∧ t.permits = s.permits ∧ t.meters = s.meters ∧ s.SameHostRecords t) ∧
    ((s.arm a).connected = false → exec (.connectedPresent a) s = .next { s with
      arms := vset s.arms a { s.arm a with
        connected := true
        batch := (s.batch a).map fun b =>
          if b.state = .held then { b with holdSet := dropFrom .armDisconnected b.holdSet } else b } })

/-- BATCH_HOLD and BATCH_RESUME (R99, R100, R102, R103). A hold: WRONG_STATE in IDLE and CLOSING; in HELD the cause
HOST is added; a flowing batch is HELD with the one cause, demands 0, compartment HELD, drawing set left, queue entries
removed, BATCH_HOLD set, the other drawing arms responding to their ceilings computed anew (R98). A resume: WRONG_STATE
out of HELD or with a condition cause left standing whose condition does not hold (Table 5-6), and else, where drawing
sets are exact, the batch restarts in LOW_START even from the host's own hold (R115, R116, R117). Either answer carries
the batch state and the hold set. That METER asks for every bound meter is log entry 12, that the tenths of the second
under way begin anew log entry 34. -/
def Obligations.BatchHoldAndResume : Prop :=
  ∀ (s : State) (tag n : Byte), s.port.phase = .hunting →
    ((n = 0 ∨ 12 < n.toNat) → exec (.batchHold tag [n]) s = .next (s.respond 0x55 tag [n] .invalid []) ∧
      exec (.batchResume tag [n]) s = .next (s.respond 0x56 tag [n] .invalid [])) ∧
    (∀ a : ArmId, n.toNat = a.val + 1 →
      ((s.batch a = none ∨ s.batchIs a .closing = true) →
        exec (.batchHold tag [n]) s = .next (s.respond 0x55 tag [n] .wrongState
          (placeByte [none, some BatchState.lowStart, some .ramping, some .high, some .topping, some .closing, some .held]
              ((s.batch a).map (·.state)) :: memberBytes 2 HoldCause.all ((s.batch a).elim [] (·.holdSet))))) ∧
      (∀ b, s.batch a = some b → b.state = .held →
        exec (.batchHold tag [n]) s = .next (({ s with
          arms := vset s.arms a { s.arm a with batch := some { b with holdSet := addTo HoldCause.all .host b.holdSet } }
            } : State).respond 0x55 tag [n] .ok (6 :: memberBytes 2 HoldCause.all (addTo HoldCause.all .host b.holdSet)))) ∧
      (∀ b, s.batch a = some b → b.state.flowing = true → ∃ t : State,
        exec (.batchHold tag [n]) s
          = .next (t.respond 0x55 tag [n] .ok (6 :: memberBytes 2 HoldCause.all [HoldCause.host])) ∧
        t.batch a = some { b with
          state := .held, mainDemand := 0, blendDemand := 0, ceiling := none, holdSet := [.host], ramp := none,
          metering := { b.metering with noFlow := none, blendTimer := none } } ∧
        (∀ o c, s.orderOf b.ref = some o → o.comp b.ref.comp = some c → ∃ o', t.orderOf b.ref = some o' ∧
          o'.comp b.ref.comp = some { c with state := .held }) ∧
        (∀ h, (t.header h).drawing = if h = b.snapshot.mainHeader then dropFrom a (s.header h).drawing
          else (s.header h).drawing) ∧
        (a ∈ (s.header b.snapshot.mainHeader).drawing → t.CeilingsAt b.snapshot.mainHeader) ∧
        (∀ i, (t.injector i).queue = (s.injector i).queue.filter fun e => decide (e.arm ≠ a)) ∧
        t.flags = addTo EventFlag.all .batchHold s.flags ∧
        State.OthersRespond s t b.snapshot.mainHeader a ∧
        t.bays = s.bays ∧ t.permits = s.permits ∧ t.meters = s.meters ∧ s.SameHostRecords t) ∧
      (s.batchIs a .held = false →
        exec (.batchResume tag [n]) s = .next (s.respond 0x56 tag [n] .wrongState
          (placeByte [none, some BatchState.lowStart, some .ramping, some .high, some .topping, some .closing, some .held]
              ((s.batch a).map (·.state)) :: memberBytes 2 HoldCause.all ((s.batch a).elim [] (·.holdSet))))) ∧
      (∀ b left, s.batch a = some b → b.state = .held →
        left = b.holdSet.filter (fun cause => !(match cause with
          | .permissive => (s.arm a).bay.any fun y => (s.session y).bond.present && (s.session y).overfill.present
          | .esd => !s.esd.active
          | .armDisconnected => (s.arm a).connected
          | .terminalLost => (s.arm a).bay.any fun y => decide ((s.session y).terminal = .present)
          | .meter => ((s.arm a).mainMeter.toList ++ if b.snapshot.blend.isSome then (s.arm a).blendMeter.toList else []).all
              fun m => decide ((s.meter m).state = .ok)
          | .additive => b.snapshot.entries.all fun e => decide (e.entry.requirement = .optional) ||
              (decide ((s.injector e.entry.injector).service = .inService) &&
                (decide ((s.injector e.entry.injector).state = .idle) || decide ((s.injector e.entry.injector).state = .shot)))
          | .noFlow => false
          | .blend => false
          | .host => false)) →
        ((∃ c ∈ left, c ≠ .noFlow ∧ c ≠ .blend ∧ c ≠ .host) →
          exec (.batchResume tag [n]) s = .next (({ s with
            arms := vset s.arms a { s.arm a with batch := some { b with holdSet := left } }
              } : State).respond 0x56 tag [n] .wrongState (6 :: memberBytes 2 HoldCause.all left))) ∧
        (s.DrawingExact → (∀ c ∈ left, c = .noFlow ∨ c = .blend ∨ c = .host) → ∃ t : State,
          exec (.batchResume tag [n]) s = .next (t.respond 0x56 tag [n] .ok [1, 0, 0]) ∧
          t.ResumedFrom s a b ∧ t.bays = s.bays ∧ s.SameHostRecords t)))

/-- BAY_CLOSE (R78): WRONG_STATE in IDLE; before LOADING the session returns to IDLE and a bound order to OPEN; in
LOADING flowing and HELD arms go to CLOSING and the session to CLOSING with the cause HOST, or closes at once with
every arm IDLE: the session is IDLE, its permit free, its order OPEN where nothing was delivered and else NOTED with
the flag HOST_CLOSED; in CLOSING nothing changes. The answer carries the session state. -/
def Obligations.BayClose : Prop :=
  ∀ (s : State) (tag n : Byte), s.port.phase = .hunting →
    ((n = 0 ∨ 4 < n.toNat) → exec (.bayClose tag [n]) s = .next (s.respond 0x40 tag [n] .invalid [])) ∧
    (∀ (bay : BayId) (x : Session), n.toNat = bay.val + 1 → x = s.session bay →
      (x.state = .idle → exec (.bayClose tag [n]) s = .next (s.respond 0x40 tag [n] .wrongState [0])) ∧
      (x.state = .codeEntry ∨ x.state = .orderSelect ∨ x.state = .waitBond →
        (x.bound = none → exec (.bayClose tag [n]) s = .next ((s.returnToIdle bay).respond 0x40 tag [n] .ok [0])) ∧
        (∀ m i o, x.bound = some m → s.findOrder m = some (i, o) → exec (.bayClose tag [n]) s
          = .next ((({ s with orders := vset s.orders i (some { o with stage := .opened }) } : State).returnToIdle
              bay).respond 0x40 tag [n] .ok [0]))) ∧
      (x.state = .closing → exec (.bayClose tag [n]) s = .next (s.respond 0x40 tag [n] .ok [5])) ∧
      (x.state = .loading → (∃ a, (s.arm a).bay = some bay ∧ (s.batch a).isSome) → ∃ t : State,
        exec (.bayClose tag [n]) s = .next (t.respond 0x40 tag [n] .ok [5]) ∧
        t.bays = vset s.bays bay { x with state := .closing, closeCause := some .host, timer := none } ∧
        (∀ a b, (s.arm a).bay = some bay → s.batch a = some b → ∃ b', t.batch a = some b' ∧ b'.state = .closing ∧
          (b.state ≠ .closing → b'.closeKind = some .stopped ∧ b'.mainDemand = 0 ∧ b'.blendDemand = 0 ∧
            b'.settle = some 2000 ∧ b'.leak = some 30000)) ∧
        (∀ a, (s.arm a).bay ≠ some bay → (t.batch a).map (·.besidesFlow) = (s.batch a).map (·.besidesFlow)) ∧
        t.orders = s.orders ∧ t.permits = s.permits ∧ t.meters = s.meters ∧ s.SameHostRecords t) ∧
      (x.state = .loading → (∀ a, (s.arm a).bay = some bay → s.batch a = none) → ∃ t : State,
        exec (.bayClose tag [n]) s = .next (t.respond 0x40 tag [n] .ok [0]) ∧ (t.session bay).state = .idle ∧
        (t.session bay).card = none ∧ (t.session bay).bound = none ∧ sessionFlag bay ∈ t.flags ∧
        t.permits.map (fun p => (p.card, p.sessionBay))
          = s.permits.map (fun p => (p.card, if x.card = some p.card then none else p.sessionBay)) ∧
        (∀ m i o part, x.bound = some m → s.findOrder m = some (i, o) → o.stage = .active part →
          (o.totalGross = 0 → t.orderIn i = some { o with stage := .opened }) ∧
          (0 < o.totalGross → ∃ o' note, t.orderIn i = some o' ∧
            o'.stage = .noted { part with endTime := s.clock } note ∧ note.flags = [.hostClosed] ∧
            EventFlag.orderNoted ∈ t.flags ∧ (t.display bay).lastNote = some note.number)) ∧
        (∀ c, c ≠ bay → t.session c = s.session c) ∧ t.arms = s.arms ∧ t.meters = s.meters ∧ s.SameHostRecords t))

/-- BAY_RESET and BAY_MESSAGE (R18, R39, R64, R79, R105, R114, R164): a reset is OK in every state and leaves the
session IDLE without a refusal reason and without an override. In IDLE that is all; before LOADING the session returns
to IDLE and a bound order to OPEN; in LOADING and CLOSING every batch of the bay ends at once, its last step credited
to its compartment, which is FILLED or PARTIAL by its plan and marked ENDED_BY_RESET, the arms' queue entries and the
compartments' reservations are released, the arms leave their drawing sets, and the order is OPEN or, with something
delivered, NOTED with the flag BAY_RESET. The permit of the session is free. A message sets the override alone. -/
def Obligations.BayResetAndMessage : Prop :=
  ∀ (s : State) (tag n : Byte), s.port.phase = .hunting →
    ((n = 0 ∨ 4 < n.toNat) → exec (.bayReset tag [n]) s = .next (s.respond 0x41 tag [n] .invalid [])) ∧
    (∀ (bay : BayId) (x : Session), n.toNat = bay.val + 1 → x = s.session bay →
      (∀ u : State, (x.state = .idle ∧ u = s) ∨ ((x.state = .codeEntry ∨ x.state = .orderSelect ∨ x.state = .waitBond) ∧
          ((x.bound = none ∧ u = s.returnToIdle bay) ∨ ∃ m i o, x.bound = some m ∧ s.findOrder m = some (i, o) ∧
            u = ({ s with orders := vset s.orders i (some { o with stage := .opened }) } : State).returnToIdle bay)) →
        exec (.bayReset tag [n]) s = .next (({ u with
          bays := vset u.bays bay { u.session bay with reason := none, reasonTimer := none }
          displays := vset u.displays bay { u.display bay with override := none } } : State).respond 0x41 tag [n] .ok
          [0])) ∧
      ∃ t : State, exec (.bayReset tag [n]) s = .next (t.respond 0x41 tag [n] .ok [0]) ∧
        (t.session bay).state = .idle ∧ (t.session bay).reason = none ∧ (t.session bay).reasonTimer = none ∧
        (x.state ≠ .idle → (t.session bay).bound = none ∧ (t.session bay).card = none ∧
          sessionFlag bay ∈ t.flags ∧ t.permits.map (fun p => (p.card, p.sessionBay))
            = s.permits.map (fun p => (p.card, if x.card = some p.card then none else p.sessionBay))) ∧
        (t.session bay).terminal = x.terminal ∧ (t.session bay).bond = x.bond ∧
        (t.session bay).overfill = x.overfill ∧ (t.display bay).override = none ∧
        (x.state = .loading ∨ x.state = .closing →
          (∀ a, (s.arm a).bay = some bay → t.batch a = none ∧ (∀ i e, e ∈ (t.injector i).queue → e.arm = a →
            s.batch a = none)) ∧
          (∀ a b o c, (s.arm a).bay = some bay → s.batch a = some b → s.orderOf b.ref = some o →
            o.comp b.ref.comp = some c → ∃ o' c', t.orderOf b.ref = some o' ∧ o'.comp b.ref.comp = some c' ∧
              CompFlag.endedByReset ∈ c'.flags ∧ c'.state = (if c'.planned ≤ c'.gross then .filled else .partly) ∧
              ∀ (g : Nat) (temp : Option Int),
                (∀ d y, d ≠ a → (s.arm d).bay = some bay → s.batch d = some y → y.ref ≠ b.ref) →
                g = b.metering.stepMain + b.metering.stepBlend →
                temp = ((s.arm a).mainMeter.bind fun m =>
                  if (s.meter m).probe = true ∧ (s.meter m).probeState = .valid then (s.meter m).lastTemp else none) →
                c'.planned = c.planned ∧ (g = 0 → c'.gross = c.gross ∧ c'.net = c.net) ∧
                (0 < g → c'.gross = min 999999 (c.gross + g) ∧ c'.net = min 999999 (c.net + (match temp with
                  | some y => (2 * (g * correctionFactor b.snapshot.correction y) + 10000) / 20000
                  | none => g))) ∧
                c'.tempSum = c.tempSum + temp.getD 150 * g ∧
                (CompFlag.tempSubstituted ∈ c'.flags ↔
                  CompFlag.tempSubstituted ∈ c.flags ∨ (0 < g ∧ temp = none))) ∧
          (∀ a b, (s.arm a).bay = some bay → s.batch a = some b →
            (∀ i, ∀ r ∈ (t.injector i).reservations, r.ref ≠ b.ref) ∧ a ∉ (t.header b.snapshot.mainHeader).drawing) ∧
          (∀ m i o part, x.bound = some m → s.findOrder m = some (i, o) → o.stage = .active part →
            ∃ o', t.orderIn i = some o' ∧ ((o'.totalGross = 0 ∧ o'.stage = .opened) ∨
              (0 < o'.totalGross ∧ ∃ note, o'.stage = .noted { part with endTime := s.clock } note ∧
                note.flags = [.bayReset] ∧ (t.display bay).lastNote = some note.number ∧
                EventFlag.orderNoted ∈ t.flags)))) ∧
        (∀ a, (s.arm a).bay ≠ some bay → (t.batch a).map (·.besidesFlow) = (s.batch a).map (·.besidesFlow)) ∧
        (∀ c, c ≠ bay → t.session c = s.session c) ∧ t.meters = s.meters ∧ s.SameHostRecords t) ∧
    (∀ (screen duration : Byte) (body : List Byte), body = [n, screen, duration] →
      ((n = 0 ∨ 4 < n.toNat ∨ screen = 0 ∨ 24 < screen.toNat ∨ duration = 0) →
        exec (.bayMessage tag body) s = .next (s.respond 0x42 tag body .invalid [])) ∧
      (∀ (bay : BayId) (m : ScreenId), n.toNat = bay.val + 1 → screen.toNat = m.val + 1 → duration ≠ 0 →
        exec (.bayMessage tag body) s = .next (({ s with
          displays := vset s.displays bay { s.display bay with
            override := some { screen := m, remaining := 1000 * duration.toNat } } } : State).respond 0x42 tag body
          .ok [])))

/-! ### Arms, headers and the run of a batch -/

/-- ARM_PUT, ARM_GET and ARM_RETURN (R83, R84): fields outside Table 5-1 are INVALID; a batch out of IDLE or a meter of
another arm is IN_USE; a bay with six other arms is FULL; else the record takes the fields, or the defaults when
UNASSIGNED. A get answers every field of the record and the batch figures, which are 0 and absent in IDLE (log entry
24); a return puts an OUT_OF_SERVICE arm IN_SERVICE. HEADER_PUT and HEADER_GET (R96, R97, R98): a capacity out of range
is INVALID; a taken put sets the capacity alone and, where it changes, the drawing arms respond to their ceilings
computed anew; the get answers capacity, drawing set and ceilings. -/
def Obligations.ArmAndHeaderRequests : Prop :=
  (∀ (s : State) (tag : Byte), s.port.phase = .hunting →
    (∀ g : ArmFields, (g.checked.isSome = true ↔
        (1 ≤ g.bay ∧ g.bay ≤ 4) ∧ (1 ≤ g.mainMeter ∧ g.mainMeter ≤ 16) ∧
        (∀ m, g.blendMeter = some m → (1 ≤ m ∧ m ≤ 16) ∧ m ≠ g.mainMeter) ∧ (100 ≤ g.maxFlow ∧ g.maxFlow ≤ 4000) ∧
        (50 ≤ g.lowFlow ∧ g.lowFlow ≤ 1000 ∧ g.lowFlow ≤ g.maxFlow) ∧ g.startupVolume ≤ 5000 ∧
        (25 ≤ g.rampStep ∧ g.rampStep ≤ 1000) ∧ (1 ≤ g.rampInterval ∧ g.rampInterval ≤ 10) ∧
        (50 ≤ g.toppingFlow ∧ g.toppingFlow ≤ 1000 ∧ g.toppingFlow ≤ g.maxFlow) ∧
        (50 ≤ g.toppingVolume ∧ g.toppingVolume ≤ 5000) ∧ g.closingAllowance ≤ 500) ∧
      ∀ r : Arm, g.checked = some r → r.bay.map (·.val + 1) = some g.bay ∧ r.mainMeter.map (·.val + 1) = some g.mainMeter ∧
        r.blendMeter.map (·.val + 1) = g.blendMeter ∧ r.products = g.products ∧ r.maxFlow = g.maxFlow ∧
        r.lowFlow = g.lowFlow ∧ r.startupVolume = g.startupVolume ∧ r.rampStep = g.rampStep ∧
        r.rampInterval = g.rampInterval ∧ r.toppingFlow = g.toppingFlow ∧ r.toppingVolume = g.toppingVolume ∧
        r.closingAllowance = g.closingAllowance ∧ r.service = g.service ∧ r.batch = none) ∧
    (∀ (body : List Byte) (n : Nat) (fields : Option ArmFields) (new : Option Arm), readArmPut body = some (n, fields) →
      new = (match fields with
        | none => some Arm.default
        | some g => g.checked) →
      ((n = 0 ∨ 12 < n ∨ new = none) → exec (.armPut tag body) s = .next (s.respond 0x50 tag body .invalid [])) ∧
      (∀ (a : ArmId) (r : Arm), n = a.val + 1 → new = some r →
        ((s.batch a).isSome → exec (.armPut tag body) s = .next (s.respond 0x50 tag body .inUse [])) ∧
        (s.batch a = none → ∀ taken : Bool,
          (taken = true ↔ ∃ x m, x ≠ a ∧ (r.mainMeter = some m ∨ r.blendMeter = some m) ∧
            ((s.arm x).mainMeter = some m ∨ (s.arm x).blendMeter = some m)) →
          exec (.armPut tag body) s = .next
            (if taken then s.respond 0x50 tag body .inUse []
            else if r.bay.any (fun b => decide (6 ≤ ((s.bayArms b).filter fun x => decide (x ≠ a)).length)) then
              s.respond 0x50 tag body .full []
            else ({ s with arms := vset s.arms a { r with connected := (s.arm a).connected } } : State).respond 0x50 tag
              body .ok [])))) ∧
    (∀ n : Byte, (n = 0 ∨ 12 < n.toNat) →
      exec (.armGet tag [n]) s = .next (s.respond 0x51 tag [n] .invalid []) ∧
      exec (.armReturn tag [n]) s = .next (s.respond 0x52 tag [n] .invalid [])) ∧
    (∀ (n : Byte) (a : ArmId), n.toNat = a.val + 1 →
      exec (.armGet tag [n]) s = .next (s.respond 0x51 tag [n] .ok
        (markedBytes (fun b => [numberByte b]) (s.arm a).bay ++ markedBytes (fun m => [numberByte m]) (s.arm a).mainMeter
          ++ markedBytes (fun m => [numberByte m]) (s.arm a).blendMeter
          ++ memberBytes 4 (List.finRange 32) (s.arm a).products ++ littleEndian 2 (s.arm a).maxFlow
          ++ littleEndian 2 (s.arm a).lowFlow ++ littleEndian 4 (s.arm a).startupVolume
          ++ littleEndian 2 (s.arm a).rampStep ++ [byteOf (s.arm a).rampInterval]
          ++ littleEndian 2 (s.arm a).toppingFlow ++ littleEndian 4 (s.arm a).toppingVolume
          ++ littleEndian 4 (s.arm a).closingAllowance ++ [placeByte [Service.inService, .outOfService] (s.arm a).service]
          ++ (match s.batch a with
            | none => List.replicate 22 0
            | some b => (placeByte [BatchState.lowStart, .ramping, .high, .topping, .closing, .held] b.state + 1)
              :: 1 :: littleEndian 4 b.ref.order ++ [1, numberByte b.ref.comp] ++ littleEndian 4 b.target
              ++ littleEndian 4 b.gross ++ littleEndian 4 b.net ++ littleEndian 2 b.mainDemand
              ++ littleEndian 2 b.blendDemand ++ markedBytes (littleEndian 2) b.ceiling
              ++ memberBytes 2 HoldCause.all b.holdSet))) ∧
      ((s.arm a).service = .inService → exec (.armReturn tag [n]) s = .next (s.respond 0x52 tag [n] .wrongState [])) ∧
      ((s.arm a).service = .outOfService → exec (.armReturn tag [n]) s = .next (({ s with
        arms := vset s.arms a { s.arm a with service := .inService } } : State).respond 0x52 tag [n] .ok [])))) ∧
  ∀ (s : State) (tag n : Byte) (capacity : Nat) (body : List Byte), s.port.phase = .hunting → capacity < 65536 →
    body = n :: littleEndian 2 capacity →
    ((n = 0 ∨ 4 < n.toNat) → exec (.headerGet tag [n]) s = .next (s.respond 0x54 tag [n] .invalid [])) ∧
    ((n = 0 ∨ 4 < n.toNat ∨ capacity < 500 ∨ 8000 < capacity) →
      exec (.headerPut tag body) s = .next (s.respond 0x53 tag body .invalid [])) ∧
    (∀ h : HeaderId, n.toNat = h.val + 1 →
      exec (.headerGet tag [n]) s = .next (s.respond 0x54 tag [n] .ok
        (littleEndian 2 (s.header h).capacity ++ memberBytes 2 (List.finRange 12) (s.header h).drawing
          ++ countedBytes (fun a => littleEndian 2 (((s.batch a).bind (·.ceiling)).getD 0))
            ((List.finRange 12).filter fun a => decide (a ∈ (s.header h).drawing)))) ∧
      (500 ≤ capacity → capacity ≤ 8000 → ∃ t : State,
        exec (.headerPut tag body) s = .next (t.respond 0x53 tag body .ok []) ∧
        t = { s with headers := vset s.headers h { s.header h with capacity := capacity }, arms := t.arms } ∧
        (capacity ≠ (s.header h).capacity → t.CeilingsAt h ∧ ∀ a, State.CeilingResponse s t h a) ∧
        (capacity = (s.header h).capacity → t.arms = s.arms) ∧
        (∀ a, a ∉ (s.header h).drawing → t.arm a = s.arm a) ∧
        (∀ a, t.arm a = { s.arm a with batch := t.batch a } ∧
          (t.batch a).map (·.besidesFlow) = (s.batch a).map (·.besidesFlow))))

/-- Ceilings computed anew, and the demands on the valve line (R91, R97, R98). An arm's ceiling is the header's
capacity divided by its drawing set's size, capped by its max flow. A ceiling that differs changes the batch by its
state: LOW_START takes the low flow or the ceiling, RAMPING keeps its demand and is in HIGH at once where it equals
the ceiling, HIGH takes one ramp step, TOPPING takes its flow anew; the same ceiling changes nothing. Computing a
header's ceilings makes every drawing arm respond and changes nothing else, and an event computes those of the headers
whose drawing set it changed, once each, whether it changed one set or several (log entry 11): where the terminal, a
permissive, a FINISH, a close or a reset of a bay takes several of its arms out of their sets, and where one cause is
handed to several batches, each arm out of their reach responds once. The demands sent are zero in IDLE, while the arm
is OUT_OF_SERVICE, and, with the stopped batches' demands at zero, out of the flowing states; else they are the
batch's. -/
def Obligations.CeilingResponseAndValveDemands : Prop :=
  (∀ (s : State) (h : HeaderId) (a : ArmId),
    s.ceilingOf h a = min ((s.header h).capacity / (s.header h).drawing.length) (s.arm a).maxFlow) ∧
  (∀ (r : Arm) (c : Nat) (b : Batch),
    (b.ceiling = some c → respondCeiling r c b = b) ∧
    (b.ceiling ≠ some c →
      (b.state = .lowStart → respondCeiling r c b = { b with ceiling := some c, mainDemand := min r.lowFlow c }) ∧
      (b.state = .ramping → respondCeiling r c b = { b with
        ceiling := some c, state := if b.mainDemand = c then .high else .ramping
        ramp := if b.mainDemand = c then none else b.ramp }) ∧
      (b.state = .high → ∀ d, d = (if b.mainDemand < c then min (b.mainDemand + r.rampStep) c
          else max (b.mainDemand - r.rampStep) c) → respondCeiling r c b = { b with
        ceiling := some c, mainDemand := d, state := if d = c then .high else .ramping
        ramp := if d = c then none else some (1000 * r.rampInterval) }) ∧
      (b.state = .topping → respondCeiling r c b = { b with
        ceiling := some c
        mainDemand := min (if b.snapshot.verdict = .lowFlow then min r.toppingFlow r.lowFlow else r.toppingFlow) c }) ∧
      (b.state = .closing ∨ b.state = .held → respondCeiling r c b = { b with ceiling := some c }))) ∧
  (∀ (s t : State) (h : HeaderId), t = s.computeCeilings h →
    t = { s with arms := t.arms } ∧
    ∀ a, t.arm a = { s.arm a with batch := t.batch a } ∧ State.CeilingResponse s t h a) ∧
  (∀ before after : State,
    ((∀ h, (before.header h).drawing = (after.header h).drawing) → State.settleHeaders before after = after) ∧
    (∀ h, (before.header h).drawing ≠ (after.header h).drawing →
      (∀ k, k ≠ h → (before.header k).drawing = (after.header k).drawing) →
      State.settleHeaders before after = after.computeCeilings h) ∧
    ∃ changed : List HeaderId, changed.Nodup ∧
      (∀ h, h ∈ changed ↔ (before.header h).drawing ≠ (after.header h).drawing) ∧
      State.settleHeaders before after = changed.foldl State.computeCeilings after) ∧
  (∀ (s t : State) (c : Instr) (bay : BayId) (w : Permissive) (tag n : Byte), n.toNat = bay.val + 1 →
    c ∈ [Instr.terminalLost bay, .permissiveInputAbsent bay w, .finish bay, .bayClose tag [n], .bayReset tag [n]] →
    exec c s = .next t → ∀ a, (s.arm a).bay ≠ some bay → s.RespondsOnce t a) ∧
  (∀ (s : State) (arms : List ArmId) (cause : HoldCause) (a : ArmId), a ∉ arms →
    s.RespondsOnce (s.handCauses arms cause) a) ∧
  ∀ (s : State) (a : ArmId),
    (s.batch a = none ∨ (s.arm a).service = .outOfService → s.valveDemand a = (0, 0)) ∧
    (∀ b, s.batch a = some b →
      ((s.arm a).service = .inService → s.valveDemand a = (b.mainDemand, b.blendDemand)) ∧
      (s.StoppedDemandsZero → b.state = .closing ∨ b.state = .held → s.valveDemand a = (0, 0)))

/-- A tenth credited to an arm's batch (R87 to R92, R98, R110): the batch gross rises, in the flowing states the volume
since start too; a flowing batch then enters CLOSING (kind TARGET) with the closing allowance left, TOPPING with the
topping volume left, and leaves LOW_START by its first ramp step once the startup volume has passed, unless its verdict
is LOW_FLOW; else nothing more happens. -/
def Obligations.VolumeCredit : Prop :=
  ∀ (s : State) (a : ArmId) (b c : Batch) (r : Arm), s.batch a = some b → r = s.arm a →
    c = { b with gross := b.gross + 1, sinceStart := if b.state.flowing then b.sinceStart + 1 else b.sinceStart } →
    (b.state.flowing = false → s.addTenth a = { s with arms := vset s.arms a { r with batch := some c } }) ∧
    (b.state.flowing = true → c.target ≤ c.gross + r.closingAllowance → ∀ t : State, t = s.addTenth a →
      t.batch a = some { c with
        state := .closing, mainDemand := 0, blendDemand := 0, ceiling := none, holdSet := [], ramp := none,
        closeKind := some .target, settle := some 2000, leak := some 30000,
        metering := { c.metering with noFlow := none, blendTimer := none } } ∧
      (∀ h, (t.header h).drawing = if h = b.snapshot.mainHeader then dropFrom a (s.header h).drawing
        else (s.header h).drawing) ∧
      (∀ i, (t.injector i).queue = (s.injector i).queue.filter fun e => decide (e.arm ≠ a)) ∧
      State.OthersRespond s t b.snapshot.mainHeader a ∧ s.SameHostRecords t) ∧
    (b.state.flowing = true → c.gross + r.closingAllowance < c.target →
      (b.state ≠ .topping → c.target ≤ c.gross + r.toppingVolume → ∃ flow,
        flow = (if c.snapshot.verdict = .lowFlow then min r.toppingFlow r.lowFlow else r.toppingFlow) ∧
        s.addTenth a = { s with arms := vset s.arms a { r with batch := some { c with
          state := .topping, ramp := none, mainDemand := c.ceiling.elim flow (min flow) } } }) ∧
      ((b.state = .topping ∨ (c.gross + r.toppingVolume < c.target ∧
          (b.state ≠ .lowStart ∨ c.snapshot.verdict = .lowFlow ∨ c.sinceStart < r.startupVolume))) →
        s.addTenth a = { s with arms := vset s.arms a { r with batch := some c } }) ∧
      (c.gross + r.toppingVolume < c.target → b.state = .lowStart → c.snapshot.verdict ≠ .lowFlow →
        r.startupVolume ≤ c.sinceStart → ∀ ceiling d, c.ceiling = some ceiling →
        d = (if c.mainDemand < ceiling then min (c.mainDemand + r.rampStep) ceiling
          else max (c.mainDemand - r.rampStep) ceiling) →
        s.addTenth a = { s with arms := vset s.arms a { r with batch := some { c with
          mainDemand := d
          state := if d = ceiling then .high else .ramping
          ramp := if d = ceiling then none else some (1000 * r.rampInterval) } } }))

/-- The timers of a running batch (R89, R99, R115, R117): a ramp expiry takes one further step in RAMPING; a blend
expiry sets the blend demand from the second's main flow and the ratio, at most 4000 L/min; a no-flow expiry in a
flowing state with demand holds the batch with NO_FLOW. Elsewhere, and before their timers have run out, they do
nothing. -/
def Obligations.BatchTimers : Prop :=
  ∀ (s : State) (a : ArmId),
    (∀ timer : Batch → Timer, (s.batch a).bind timer ≠ some 0 →
      (timer = (·.ramp) → exec (.rampTimerExpiry a) s = .next s) ∧
      (timer = (·.metering.blendTimer) → exec (.blendTimerExpiry a) s = .next s) ∧
      (timer = (·.metering.noFlow) → exec (.noFlowTimerExpiry a) s = .next s)) ∧
    (s.batchIs a .ramping = false → exec (.rampTimerExpiry a) s = .next s) ∧
    (∀ b ceiling d, s.batch a = some b → b.ramp = some 0 → b.state = .ramping → b.ceiling = some ceiling →
      d = (if b.mainDemand < ceiling then min (b.mainDemand + (s.arm a).rampStep) ceiling
        else max (b.mainDemand - (s.arm a).rampStep) ceiling) →
      exec (.rampTimerExpiry a) s = .next { s with arms := vset s.arms a { s.arm a with batch := some { b with
        mainDemand := d
        state := if d = ceiling then .high else .ramping
        ramp := if d = ceiling then none else some (1000 * (s.arm a).rampInterval) } } }) ∧
    (s.flowing a = false → exec (.blendTimerExpiry a) s = .next s) ∧
    (∀ b, s.batch a = some b → b.snapshot.blend = none → exec (.blendTimerExpiry a) s = .next s) ∧
    (∀ b p, s.batch a = some b → b.metering.blendTimer = some 0 → b.state.flowing = true → b.snapshot.blend = some p →
      exec (.blendTimerExpiry a) s = .next { s with arms := vset s.arms a { s.arm a with batch := some { b with
        blendDemand := min 4000 (b.metering.secondTenths * 6 * p.ratio / (1000 - p.ratio))
        metering := { b.metering with secondTenths := 0, blendTimer := some 1000 } } } }) ∧
    ((s.flowing a = false ∨ ∀ b, s.batch a = some b → b.mainDemand = 0) → exec (.noFlowTimerExpiry a) s = .next s) ∧
    (∀ b, s.batch a = some b → b.metering.noFlow = some 0 → b.state.flowing = true → 0 < b.mainDemand → ∃ t : State,
      exec (.noFlowTimerExpiry a) s = .next t ∧ t.HeldFrom s a b .noFlow ∧ s.SameHostRecords t)

/-- The end of a batch by its settle or by the leak timer (R39, R53, R75, R77, R93, R94, R95, R114): when its timer has
run out a batch in CLOSING ends; its arm is IDLE, OUT_OF_SERVICE with ARM_FAULT after a leak, and having reached its
target it learns its closing allowance (half the overrun, rounded toward zero, added and clamped to 0.0 to 50.0 L); the
step's gross, net and temperature increment are credited to its compartment, substituted without a line temperature;
the compartment is FILLED where the batch reached its target or its plan and else PARTIAL, with VALVE_LEAK after a
leak; no injector keeps a reservation for it; meters stay. The bay is told: with no other of its arms out of IDLE, a
session in LOADING has its inactivity limit from 600 s and one in CLOSING closes, its order OPEN or NOTED by what was
delivered. Out of CLOSING, and before they have run out, the timers do nothing. -/
def Obligations.BatchEnd : Prop :=
  ∀ (s : State) (a : ArmId),
    (s.batchIs a .closing = false →
      exec (.settleTimerExpiry a) s = .next s ∧ exec (.leakTimerExpiry a) s = .next s) ∧
    (∀ b, s.batch a = some b → (b.settle ≠ some 0 → exec (.settleTimerExpiry a) s = .next s) ∧
      (b.leak ≠ some 0 → exec (.leakTimerExpiry a) s = .next s)) ∧
    (∀ (b : Batch) (leak reached : Bool) (g : Nat) (temp : Option Int), s.batch a = some b → b.state = .closing →
      (if leak then b.leak else b.settle) = some 0 → (reached = true ↔ b.closeKind = some .target ∧ leak = false) →
      g = b.metering.stepMain + b.metering.stepBlend →
      temp = ((s.arm a).mainMeter.bind fun m =>
        if (s.meter m).probe = true ∧ (s.meter m).probeState = .valid then (s.meter m).lastTemp else none) → ∃ t : State,
      exec (if leak then .leakTimerExpiry a else .settleTimerExpiry a) s = .next t ∧
      (∃ allowance, t.arm a = { s.arm a with
          batch := none, service := if leak then .outOfService else (s.arm a).service, closingAllowance := allowance } ∧
        (reached = false → allowance = (s.arm a).closingAllowance) ∧
        (reached = true → ∀ half : Int, 2 * half.natAbs ≤ ((b.gross : Int) - b.target).natAbs →
          ((b.gross : Int) - b.target).natAbs < 2 * half.natAbs + 2 → (0 < half → b.target < b.gross) →
          (half < 0 → b.gross < b.target) →
          (allowance : Int) = max 0 (min 500 (((s.arm a).closingAllowance : Int) + half)))) ∧
      (leak = true → EventFlag.armFault ∈ t.flags) ∧
      (∀ o c, s.orderOf b.ref = some o → o.comp b.ref.comp = some c → ∃ o' c', t.orderOf b.ref = some o' ∧
        o'.comp b.ref.comp = some c' ∧
        (g = 0 → c'.gross = c.gross ∧ c'.net = c.net) ∧
        (0 < g → c'.gross = min 999999 (c.gross + g) ∧ c'.net = min 999999 (c.net + (match temp with
          | some x => (2 * (g * correctionFactor b.snapshot.correction x) + 10000) / 20000
          | none => g))) ∧
        c'.tempSum = c.tempSum + temp.getD 150 * g ∧
        (CompFlag.tempSubstituted ∈ c'.flags ↔ CompFlag.tempSubstituted ∈ c.flags ∨ (0 < g ∧ temp = none)) ∧
        c'.state = (if reached = true ∨ c.planned ≤ c'.gross then .filled else .partly) ∧
        (leak = true → CompFlag.valveLeak ∈ c'.flags)) ∧
      (∀ i, ∀ r ∈ (t.injector i).reservations, r.ref ≠ b.ref) ∧
      (∀ bay x, (s.arm a).bay = some bay → x = s.session bay →
        ((∃ y, y ≠ a ∧ (s.arm y).bay = some bay ∧ (s.batch y).isSome = true) ∨ (x.state ≠ .loading ∧ x.state ≠ .closing) →
          t.session bay = x) ∧
        ((∀ y, y ≠ a → (s.arm y).bay = some bay → s.batch y = none) →
          (x.state = .loading → t.session bay = { x with timer := some 600000 }) ∧
          (x.state = .closing →
            t.session bay = { x with state := .idle, card := none, digits := [], candidates := [], bound := none,
                                     focus := 0, armPending := false, selected := none, closeCause := none,
                                     timer := none } ∧
            sessionFlag bay ∈ t.flags ∧ (∀ p ∈ t.permits, x.card = some p.card → p.sessionBay = none) ∧
            ∀ n i o part, x.bound = some n → s.findOrder n = some (i, o) → o.stage = .active part →
              ∃ o', t.orderIn i = some o' ∧ ((o'.totalGross = 0 ∧ o'.stage = .opened) ∨
                (0 < o'.totalGross ∧ ∃ note, o'.stage = .noted { part with endTime := s.clock } note ∧
                  note.flags = (match x.closeCause with
                    | some .host => [.hostClosed]
                    | some .reset => [.bayReset]
                    | _ => []) ∧
                  (t.display bay).lastNote = some note.number ∧ EventFlag.orderNoted ∈ t.flags))))) ∧
      (∀ c, (s.arm a).bay ≠ some c → t.session c = s.session c) ∧
      (∀ x, x ≠ a → t.arm x = s.arm x) ∧ t.headers = s.headers ∧ t.meters = s.meters ∧ s.SameHostRecords t)

/-! ### Meters -/

/-- METER_PUT, METER_GET, METER_CLEAR and the probe readings (R112, R120, R121): what a put refuses and sets (the
residue only falls away with a changed K factor); a get answers every field but the residue, the meter's role with its
arm, and whether it is bound; a clear restores the meter and, from FAULT, takes METER out of the HELD batch that has
it bound once all that batch's meters are OK (log entry 12), every other batch staying as it is; a reading sets
temperature and probe state of a meter that has a probe. -/
def Obligations.MeterRequestsAndReadings : Prop :=
  ∀ (s : State) (tag n : Byte), s.port.phase = .hunting →
    (∀ (h p : Byte) (k : Nat) (body : List Byte), k < 4294967296 → body = n :: h :: littleEndian 4 k ++ [p] →
      ((n = 0 ∨ 16 < n.toNat ∨ h = 0 ∨ 4 < h.toNat ∨ k < 1000 ∨ 1000000 < k ∨ 1 < p.toNat) →
        exec (.meterPut tag body) s = .next (s.respond 0x60 tag body .invalid [])) ∧
      (∀ (m : MeterId) (header : HeaderId), n.toNat = m.val + 1 → h.toNat = header.val + 1 → 1000 ≤ k → k ≤ 1000000 →
        p.toNat ≤ 1 →
        ((s.boundTo m).isSome → exec (.meterPut tag body) s = .next (s.respond 0x60 tag body .inUse [])) ∧
        (s.boundTo m = none → exec (.meterPut tag body) s = .next (({ s with
          meters := vset s.meters m { s.meter m with
            header := header, k := k, probe := p == 1, aCount := 0, bCount := 0
            residue := if (s.meter m).k = k then (s.meter m).residue else 0 } } : State).respond 0x60 tag body .ok [])))) ∧
    ((n = 0 ∨ 16 < n.toNat) → exec (.meterGet tag [n]) s = .next (s.respond 0x61 tag [n] .invalid []) ∧
      exec (.meterClear tag [n]) s = .next (s.respond 0x62 tag [n] .invalid [])) ∧
    (∀ m : MeterId, n.toNat = m.val + 1 →
      exec (.meterGet tag [n]) s = .next (s.respond 0x61 tag [n] .ok
        (numberByte (s.meter m).header :: littleEndian 4 (s.meter m).k
          ++ [if (s.meter m).probe then 1 else 0, placeByte [MeterState.ok, .fault] (s.meter m).state]
          ++ littleEndian 6 (s.meter m).totalizer ++ littleEndian 4 (s.meter m).unauthorized
          ++ [if (s.meter m).unauthorizedFlag then 0 else 1] ++ littleEndian 2 (s.meter m).aCount
          ++ littleEndian 2 (s.meter m).bCount ++ markedBytes (signedBytes 2) (s.meter m).lastTemp
          ++ [placeByte [ProbeState.noReading, .valid, .outOfRange, .probeFault] (s.meter m).probeState]
          ++ (match (List.finRange 12).find? fun a => decide ((s.arm a).mainMeter = some m),
                (List.finRange 12).find? fun a => decide ((s.arm a).blendMeter = some m) with
              | some a, _ => [0, 1, numberByte a]
              | none, some a => [1, 1, numberByte a]
              | none, none => [2, 0])
          ++ [if (List.finRange 12).any (fun a => (s.batch a).any fun b => decide ((s.arm a).mainMeter = some m) ||
                (decide ((s.arm a).blendMeter = some m) && b.snapshot.blend.isSome)) then 1 else 0])) ∧
      ∃ t : State, exec (.meterClear tag [n]) s = .next (t.respond 0x62 tag [n] .ok []) ∧
        t = { s with
          arms := t.arms
          meters := vset s.meters m { s.meter m with
            state := .ok, aCount := 0, bCount := 0, unauthorized := 0, unauthorizedFlag := false } } ∧
        ∀ a, t.arm a = { s.arm a with batch := (s.batch a).map fun b =>
          if (s.meter m).state = .fault ∧ (s.boundTo m).map (·.1) = some a ∧ b.state = .held ∧
              (∀ x ∈ s.boundMeters a, x ≠ m → (s.meter x).state = .ok) then
            { b with holdSet := dropFrom .meter b.holdSet }
          else b }) ∧
    (∀ (m : MeterId) (reading : ProbeReading),
      ((s.meter m).probe = false → exec (.probeReading m reading) s = .next s) ∧
      ((s.meter m).probe = true →
        (∀ t, reading = .temperature t → exec (.probeReading m reading) s = .next { s with
          meters := vset s.meters m { s.meter m with
            lastTemp := some t, probeState := if -400 ≤ t ∧ t ≤ 600 then .valid else .outOfRange } }) ∧
        (reading = .fault → exec (.probeReading m reading) s = .next { s with
          meters := vset s.meters m { s.meter m with lastTemp := none, probeState := .probeFault } })))

/-- A pulse on a meter (R93, R99, R100, R109, R111, R117, R119). It restarts the settle of the batch in CLOSING that
has the meter bound, and an A pulse on the main meter of a flowing batch its no-flow timer; an A pulse adds 10 000 to
the residue and produces as many tenths as it holds K factors, one after the other, to the bound batch or else to the
unauthorized volume; either pulse counts, and a count of 1000 compares the two and returns both to 0. A difference
above 10 puts an OK meter into FAULT with METER_FAULT and hands METER to the batch that has it bound. The order of the
parts is log entry 9. Other meters and the host's records stay. -/
def Obligations.MeterPulses : Prop :=
  ∀ (s : State) (m : MeterId) (isA : Bool) (x : Meter) (tenths a b : Nat), x = s.meter m → 0 < x.k →
    tenths = (if isA then (x.residue + 10000) / x.k else 0) →
    a = (if isA then x.aCount + 1 else x.aCount) → b = (if isA then x.bCount else x.bCount + 1) →
    ∃ t u v : State, exec (if isA then .meterAPulse m else .meterBPulse m) s = .next t ∧
      u = { s with
        arms := u.arms
        meters := vset s.meters m { x with residue := if isA then (x.residue + 10000) % x.k else x.residue } } ∧
      (∀ y, u.arm y = { s.arm y with
        batch := (s.batch y).map fun z =>
          if (s.boundTo m).map (·.1) = some y ∧ z.state = .closing then { z with settle := some 2000 }
          else if isA = true ∧ s.boundTo m = some (y, .main) ∧ z.state.flowing = true then
            { z with metering := { z.metering with noFlow := some 10000 } }
          else z }) ∧
      v = u.produceTenths m tenths ∧
      (v.meter m).residue = (if isA then (x.residue + 10000) % x.k else x.residue) ∧
      (v.meter m).totalizer = (if tenths = 0 then x.totalizer else min (2 ^ 48 - 1) (x.totalizer + tenths)) ∧
      (∀ y, y ≠ m → v.meter y = s.meter y) ∧
      (a < 1000 ∧ b < 1000 →
        t = { v with meters := vset v.meters m { v.meter m with aCount := a, bCount := b } }) ∧
      ((1000 ≤ a ∨ 1000 ≤ b) → x.state = .fault ∨ (a ≤ b + 10 ∧ b ≤ a + 10) →
        t = { v with meters := vset v.meters m { v.meter m with aCount := 0, bCount := 0 } }) ∧
      ((1000 ≤ a ∨ 1000 ≤ b) → x.state = .ok → a + 10 < b ∨ b + 10 < a → ∃ w : State, w = { v with
          meters := vset v.meters m { v.meter m with aCount := 0, bCount := 0, state := .fault }
          flags := addTo EventFlag.all .meterFault v.flags } ∧
        (s.boundTo m = none → t = w) ∧ ∀ arm role, s.boundTo m = some (arm, role) → State.TakesCause w t arm .meter) ∧
      (s.boundTo m = none →
        (t.meter m).unauthorized = (if tenths = 0 then x.unauthorized else min 9999999 (x.unauthorized + tenths)) ∧
        (0 < tenths → 50 < min 9999999 (x.unauthorized + tenths) → (t.meter m).unauthorizedFlag = true ∧
          (x.unauthorizedFlag = false → EventFlag.unauthFlow ∈ t.flags)) ∧
        (t = { s with meters := t.meters, flags := t.flags })) ∧
      (∀ arm role, s.boundTo m = some (arm, role) →
        (t.meter m).unauthorized = x.unauthorized ∧ (t.meter m).unauthorizedFlag = x.unauthorizedFlag ∧
        (∀ y, s.batch arm = some y → ∃ z, t.batch arm = some z ∧ z.gross = y.gross + tenths ∧
          z.blendGross = (if role = .blend then y.blendGross + tenths else y.blendGross) ∧
          z.ref = y.ref ∧ z.target = y.target ∧ z.snapshot = y.snapshot)) ∧
      t.bays = s.bays ∧ t.permits = s.permits ∧ s.SameHostRecords t

/-- The tenths of a pulse are produced one after the other. A tenth adds 1 to the totalizer and goes to the
unauthorized volume, whose flag and UNAUTH_FLOW are set past 5.0 L, or to the batch that has the meter bound: its step
main or step blend gross and blend gross rise, its arm takes the tenth (`VolumeCredit`), its shot points are tested
(`ShotPointsAndPendingQueue`), and at 100 tenths of step main gross a metering step is taken (R109, R110, R113, R119).
The step's gross, net and temperature increment (R112, R113) are credited to the compartment, substituted at factor
10000 and 15.0 °C without a valid line temperature; the net joins the batch net and the step begins anew. From the
second step on, a blended batch that flows is then supervised: a step out of tolerance counts, one within it clears the
count, and the third in a row holds the batch with BLEND (R116). -/
def Obligations.TenthsAndMeteringSteps : Prop :=
  (∀ (s : State) (a : ArmId) (b : Batch) (m : MeterId) (g : Nat), (s.arm a).mainMeter = some m →
    g = b.metering.stepMain + b.metering.stepBlend →
    (∀ t, (s.meter m).probe = true → (s.meter m).probeState = .valid → (s.meter m).lastTemp = some t →
      s.creditNow a b = { gross := g, increment := t * g, substituted := false
                          net := (2 * (g * correctionFactor b.snapshot.correction t) + 10000) / 20000 }) ∧
    ((s.meter m).probe = false ∨ (s.meter m).probeState ≠ .valid →
      s.creditNow a b = { gross := g, net := g, increment := 150 * g, substituted := true })) ∧
  (∀ (s : State) (m : MeterId), s.produceTenths m 0 = s ∧
    ∀ n, s.produceTenths m (n + 1) = (s.produceTenth m).produceTenths m n) ∧
  (∀ (s u : State) (m : MeterId) (x y : Meter), x = s.meter m →
    y = { x with totalizer := min (2 ^ 48 - 1) (x.totalizer + 1) } → u = { s with meters := vset s.meters m y } →
    (s.boundTo m = none → ∀ volume, volume = min 9999999 (x.unauthorized + 1) → s.produceTenth m = { s with
      meters := vset s.meters m { y with
        unauthorized := volume, unauthorizedFlag := x.unauthorizedFlag || decide (50 < volume) }
      flags := if 50 < volume ∧ x.unauthorizedFlag = false then addTo EventFlag.all .unauthFlow s.flags else s.flags }) ∧
    (∀ a role b, s.boundTo m = some (a, role) → s.batch a = some b → ∃ (c : Batch) (v : State) (b' : Batch),
      (role = .main → c = { b with metering := { b.metering with
        stepMain := b.metering.stepMain + 1, secondTenths := b.metering.secondTenths + 1 } }) ∧
      (role = .blend → c = { b with
        blendGross := b.blendGross + 1, metering := { b.metering with stepBlend := b.metering.stepBlend + 1 } }) ∧
      v = (({ u with arms := vset s.arms a { s.arm a with batch := some c } } : State).addTenth a).testPoints a ∧
      v.batch a = some b' ∧
      (b'.metering.stepMain < 100 → s.produceTenth m = v) ∧
      (100 ≤ b'.metering.stepMain → s.produceTenth m = v.meteringStep a))) ∧
  ∀ (s : State) (a : ArmId) (b : Batch) (g net : Nat) (temp : Option Int), s.batch a = some b →
    g = b.metering.stepMain + b.metering.stepBlend →
    temp = ((s.arm a).mainMeter.bind fun m =>
      if (s.meter m).probe = true ∧ (s.meter m).probeState = .valid then (s.meter m).lastTemp else none) →
    net = (match temp with
      | some x => (2 * (g * correctionFactor b.snapshot.correction x) + 10000) / 20000
      | none => g) → ∃ (u : State) (after : Nat → Batch),
    (∀ n, after n = { b with net := b.net + net, metering := { b.metering with
      stepMain := 0, stepBlend := 0, steps := b.metering.steps + 1, outOfTolerance := n } }) ∧
    u = { s with
      orders := u.orders
      arms := vset s.arms a { s.arm a with batch := some (after b.metering.outOfTolerance) } } ∧
    State.CompChanged s u b.ref (fun c => { c with
      gross := min 999999 (c.gross + g), net := min 999999 (c.net + net), tempSum := c.tempSum + temp.getD 150 * g
      flags := if temp = none then addTo CompFlag.all .tempSubstituted c.flags else c.flags }) ∧
    (b.snapshot.blend = none ∨ b.state.flowing = false ∨ b.metering.steps = 0 → s.meteringStep a = u) ∧
    (∀ p, b.snapshot.blend = some p → b.state.flowing = true → 1 ≤ b.metering.steps →
      (b.blendGross * 1000 ≤ p.ratio * b.gross + p.tolerance * b.gross →
        p.ratio * b.gross ≤ b.blendGross * 1000 + p.tolerance * b.gross →
        s.meteringStep a = { u with arms := vset s.arms a { s.arm a with batch := some (after 0) } }) ∧
      (p.ratio * b.gross + p.tolerance * b.gross < b.blendGross * 1000 ∨
          b.blendGross * 1000 + p.tolerance * b.gross < p.ratio * b.gross →
        (b.metering.outOfTolerance < 2 → s.meteringStep a = { u with
          arms := vset s.arms a { s.arm a with batch := some (after (b.metering.outOfTolerance + 1)) } }) ∧
        (2 ≤ b.metering.outOfTolerance → (s.meteringStep a).HeldFrom
          { u with arms := vset s.arms a { s.arm a with batch := some (after 0) } } a (after 0) .blend)))

/-! ### Injectors -/

/-- INJECTOR_PUT, INJECTOR_GET and INJECTOR_CLEAR (R123, R138, R139): fields outside Table 7-1 or a follower chain that
returns to the injector, after however many links, are INVALID, an injector not idle, queued or reserved is IN_USE,
else the six fields are taken; a get answers the record but for its proving context, the free stock, the queue and the
shot; a clear takes FAULT to IDLE and the failures to 0, and is WRONG_STATE in a proving run. A put that changes the
service and a clear from FAULT are handed on (R101, log entry 26): ADDITIVE leaves the hold sets of exactly those HELD
batches that require the injector and whose REQUIRED injectors are then all available, and nothing else changes. -/
def Obligations.InjectorRequests : Prop :=
  ∀ (s : State) (tag n : Byte) (body : List Byte), s.port.phase = .hunting →
    (∀ f : InjectorFields, readInjectorPut body = some f →
      (∀ i follower, f.checked = some (i, follower) ↔
        (i.val + 1 = f.injector ∧ follower.map (·.val + 1) = f.follower ∧ (1 ≤ f.shotVolume ∧ f.shotVolume ≤ 500) ∧
          (10 ≤ f.k ∧ f.k ≤ 20000) ∧ (1 ≤ f.window ∧ f.window ≤ 10) ∧ f.mark ≤ 2000000)) ∧
      (f.checked = none → exec (.injectorPut tag body) s = .next (s.respond 0x70 tag body .invalid [])) ∧
      (∀ (i : InjectorId) (follower : Option InjectorId) (chain : Nat → Option InjectorId),
        f.checked = some (i, follower) → chain 0 = follower →
        (∀ k, chain (k + 1) = (chain k).bind fun j => (s.injector j).follower) → (∃ k, chain k = some i) →
        exec (.injectorPut tag body) s = .next (s.respond 0x70 tag body .invalid [])) ∧
      (∀ (i : InjectorId) (follower : Option InjectorId) (chain : Nat → Option InjectorId),
        f.checked = some (i, follower) → chain 0 = follower →
        (∀ k, chain (k + 1) = (chain k).bind fun j => (s.injector j).follower) → (∀ k, chain k ≠ some i) →
        ((s.injector i).state ≠ .idle ∨ (s.injector i).queue ≠ [] ∨ 0 < (s.injector i).reserved →
          exec (.injectorPut tag body) s = .next (s.respond 0x70 tag body .inUse [])) ∧
        ((s.injector i).state = .idle → (s.injector i).queue = [] → (s.injector i).reserved = 0 → ∃ t : State,
          exec (.injectorPut tag body) s = .next (t.respond 0x70 tag body .ok []) ∧
          ∀ u : State, u = { s with injectors := vset s.injectors i { s.injector i with
              service := f.service, shotVolume := f.shotVolume, k := f.k, window := f.window
              follower := follower, mark := f.mark } } →
            (f.service = (s.injector i).service → t = u) ∧
            (f.service ≠ (s.injector i).service → State.AdditiveRemoved u t i)))) ∧
    ((n = 0 ∨ 8 < n.toNat) → exec (.injectorGet tag [n]) s = .next (s.respond 0x71 tag [n] .invalid []) ∧
      exec (.injectorClear tag [n]) s = .next (s.respond 0x72 tag [n] .invalid [])) ∧
    (∀ i : InjectorId, n.toNat = i.val + 1 →
      exec (.injectorGet tag [n]) s = .next (s.respond 0x71 tag [n] .ok
        (placeByte [Service.inService, .outOfService] (s.injector i).service :: littleEndian 2 (s.injector i).shotVolume
          ++ littleEndian 2 (s.injector i).k ++ [byteOf (s.injector i).window]
          ++ markedBytes (fun j => [numberByte j]) (s.injector i).follower ++ littleEndian 4 (s.injector i).stock
          ++ littleEndian 4 (s.injector i).mark
          ++ [placeByte [InjectorState.idle, .shot, .fault, .proving, .proveWait] (s.injector i).state]
          ++ littleEndian 4 ((s.injector i).reservations.map (·.amount)).sum ++ [byteOf (s.injector i).failures]
          ++ littleEndian 4 ((s.injector i).stock - ((s.injector i).reservations.map (·.amount)).sum)
          ++ countedBytes (fun e => numberByte e.arm :: littleEndian 4 e.ref.order
              ++ [numberByte e.ref.comp, byteOf e.index, byteOf e.owed, if e.inService then 1 else 0]) (s.injector i).queue
          ++ markedBytes (fun y => littleEndian 2 y.target ++ littleEndian 4 y.counted
              ++ [placeByte [ShotPhase.opened, .tail] y.phase,
                  placeByte [ShotOutcome.none, .completed, .failed, .ended] y.outcome]) (s.injector i).shot)) ∧
      ((s.injector i).state = .proving ∨ (s.injector i).state = .proveWait →
        exec (.injectorClear tag [n]) s = .next (s.respond 0x72 tag [n] .wrongState [])) ∧
      ((s.injector i).state = .idle ∨ (s.injector i).state = .shot → exec (.injectorClear tag [n]) s
        = .next (({ s with injectors := vset s.injectors i { s.injector i with failures := 0 } } : State).respond 0x72
            tag [n] .ok [])) ∧
      ((s.injector i).state = .fault → ∃ t : State,
        exec (.injectorClear tag [n]) s = .next (t.respond 0x72 tag [n] .ok []) ∧
        State.AdditiveRemoved
          { s with injectors := vset s.injectors i { s.injector i with failures := 0, state := .idle } } t i))

/-- STOCK_ADD and STOCK_SET (R125, R140): in every state of the injector, an amount of 1 to 2 000 000 mL that does not
take the stock past 2 000 000 mL is added, a stock of 0 to 2 000 000 mL is set, anything else is INVALID; STOCK_LOW is
set when the stock falls from at or above the mark to below it; no reservation changes; the answer carries stock,
reserved figure and free stock, an INVALID one for an injector in range too (the model's reading, log entry 14). -/
def Obligations.StockRequests : Prop :=
  ∀ (s : State) (tag n : Byte) (amount : Nat) (body : List Byte), s.port.phase = .hunting → amount < 4294967296 →
    body = n :: littleEndian 4 amount →
    ((n = 0 ∨ 8 < n.toNat) → exec (.stockAdd tag body) s = .next (s.respond 0x73 tag body .invalid []) ∧
      exec (.stockSet tag body) s = .next (s.respond 0x74 tag body .invalid [])) ∧
    (∀ (i : InjectorId) (x : Injector), n.toNat = i.val + 1 → x = s.injector i →
      ((amount < 1 ∨ 2000000 < amount ∨ 2000000 < x.stock + amount) → exec (.stockAdd tag body) s
        = .next (s.respond 0x73 tag body .invalid (littleEndian 4 x.stock ++ littleEndian 4 x.reserved
            ++ littleEndian 4 (x.stock - x.reserved)))) ∧
      (1 ≤ amount → amount ≤ 2000000 → x.stock + amount ≤ 2000000 → exec (.stockAdd tag body) s
        = .next (({ s with injectors := vset s.injectors i { x with stock := x.stock + amount } } : State).respond 0x73
            tag body .ok (littleEndian 4 (x.stock + amount) ++ littleEndian 4 x.reserved
              ++ littleEndian 4 (x.stock + amount - x.reserved)))) ∧
      (2000000 < amount → exec (.stockSet tag body) s
        = .next (s.respond 0x74 tag body .invalid (littleEndian 4 x.stock ++ littleEndian 4 x.reserved
            ++ littleEndian 4 (x.stock - x.reserved)))) ∧
      (amount ≤ 2000000 → exec (.stockSet tag body) s
        = .next (({ s with
            injectors := vset s.injectors i { x with stock := amount }
            flags := if x.mark ≤ x.stock ∧ amount < x.mark then addTo EventFlag.all .stockLow s.flags else s.flags
              } : State).respond 0x74 tag body .ok (littleEndian 4 amount ++ littleEndian 4 x.reserved
                ++ littleEndian 4 (amount - x.reserved)))))

/-- PROVE_START, PROVE_RESULT and PROVE_ABORT (R144, R145, R147, R148): the refusals in their order; a start opens the
context and the first proving shot; a result within 10 percent of the old K and 10 to 20 000 installs the new K and
ends the run, another, or a volume out of range, is INVALID with the run unchanged, and in PROVE_WAIT every answer
carries the figures (for a volume of 0 the computed K is a free value, log entries 14 and 16); an abort in PROVING
lowers the stock by what the shot under way has measured, and in either state of a run ends it with the K kept. A run
that ends in IDLE takes ADDITIVE out of the hold sets of the HELD batches that require the injector and whose REQUIRED
injectors are then all available (R101, R149, log entry 26). -/
def Obligations.ProvingRequests : Prop :=
  ∀ (s : State) (tag n shots : Byte) (measured : Nat) (body : List Byte), s.port.phase = .hunting →
    measured < 4294967296 → body = n :: littleEndian 4 measured →
    ((n = 0 ∨ 8 < n.toNat) →
      exec (.proveStart tag [n, shots]) s = .next (s.respond 0x78 tag [n, shots] .invalid []) ∧
      exec (.proveResult tag body) s = .next (s.respond 0x79 tag body .invalid []) ∧
      exec (.proveAbort tag [n]) s = .next (s.respond 0x7A tag [n] .invalid [])) ∧
    (∀ (i : InjectorId) (x : Injector), n.toNat = i.val + 1 → x = s.injector i →
      (shots = 0 → exec (.proveStart tag [n, shots]) s = .next (s.respond 0x78 tag [n, shots] .invalid [])) ∧
      (shots ≠ 0 → (x.service = .outOfService ∨ x.state ≠ .idle ∨ s.esd.active = true) →
        exec (.proveStart tag [n, shots]) s = .next (s.respond 0x78 tag [n, shots] .wrongState [])) ∧
      (shots ≠ 0 → x.service = .inService → x.state = .idle → s.esd.active = false →
        (x.queue ≠ [] ∨ 0 < x.reserved →
          exec (.proveStart tag [n, shots]) s = .next (s.respond 0x78 tag [n, shots] .inUse [])) ∧
        (x.queue = [] → x.reserved = 0 → ∃ t : State,
          exec (.proveStart tag [n, shots]) s = .next (t.respond 0x78 tag [n, shots] .ok []) ∧
          t.injector i = { x with
            state := .proving
            proving := some { requested := shots.toNat, remaining := shots.toNat, totalShots := 0, totalPulses := 0, oldK := x.k }
            shot := some { owner := none, target := max 1 ((2 * (x.shotVolume * x.k) + 1000) / 2000), counted := 0,
                           phase := .opened, outcome := .none, queued := false, window := some (1000 * x.window), tail := none } } ∧
          (∀ j, j ≠ i → t.injector j = s.injector j) ∧ t.solenoid i = true ∧ t.flags = s.flags ∧ t.bays = s.bays ∧
          s.SameHostRecords t)) ∧
      (measured = 0 ∨ 2000000 < measured → x.state ≠ .proveWait →
        exec (.proveResult tag body) s = .next (s.respond 0x79 tag body .invalid [])) ∧
      (∀ p, measured = 0 ∨ 2000000 < measured → x.state = .proveWait → x.proving = some p → ∃ k count : Nat,
        (0 < measured → k = (2 * (p.totalPulses * 1000) + measured) / (2 * measured) ∧ count = s.freeCount) ∧
        exec (.proveResult tag body) s = .next (({ s with freeCount := count } : State).respond 0x79 tag body .invalid
          (littleEndian 1 p.requested ++ littleEndian 1 p.totalShots ++ littleEndian 4 p.totalPulses
            ++ littleEndian 2 p.oldK ++ littleEndian 4 k))) ∧
      (1 ≤ measured → measured ≤ 2000000 → x.state ≠ .proveWait →
        exec (.proveResult tag body) s = .next (s.respond 0x79 tag body .wrongState [])) ∧
      (∀ p k answer, 1 ≤ measured → measured ≤ 2000000 → x.state = .proveWait → x.proving = some p →
        k = (2 * (p.totalPulses * 1000) + measured) / (2 * measured) →
        answer = littleEndian 1 p.requested ++ littleEndian 1 p.totalShots ++ littleEndian 4 p.totalPulses
          ++ littleEndian 2 p.oldK ++ littleEndian 4 k →
        ((10 ≤ k ∧ k ≤ 20000 ∧ k * 100 ≤ 110 * p.oldK ∧ 90 * p.oldK ≤ k * 100) → ∃ t : State,
          exec (.proveResult tag body) s = .next (t.respond 0x79 tag body .ok answer) ∧
          State.AdditiveRemoved
            { s with injectors := vset s.injectors i { x with k := k, proving := none, state := .idle } } t i) ∧
        ((k < 10 ∨ 20000 < k ∨ 110 * p.oldK < k * 100 ∨ k * 100 < 90 * p.oldK) →
          exec (.proveResult tag body) s = .next (s.respond 0x79 tag body .invalid answer))) ∧
      (x.state ≠ .proving → x.state ≠ .proveWait →
        exec (.proveAbort tag [n]) s = .next (s.respond 0x7A tag [n] .wrongState [])) ∧
      (∀ q stock, x.state = .proving ∨ x.state = .proveWait → x.shot.all (fun y => y.owner.isNone) = true →
        q = x.shot.elim 0 (·.counted) → stock = x.stock - (2 * (q * 1000) + x.k) / (2 * x.k) → ∃ t : State,
        exec (.proveAbort tag [n]) s = .next (t.respond 0x7A tag [n] .ok []) ∧
        State.AdditiveRemoved { s with
          injectors := vset s.injectors i { x with state := .idle, shot := none, proving := none, stock := stock }
          flags := if x.mark ≤ x.stock ∧ stock < x.mark then addTo EventFlag.all .stockLow s.flags else s.flags } t i ∧
        t.solenoid i = false ∧ s.SameHostRecords t))

/-- Shot points and the requests they post (R118, R126, R127). While the batch flows each usable entry is tested in
turn: with the batch gross × the rate at or above n × the shot volume × 10 000 for n and no further point, the points
beyond the entry's count are taken one by one, each adding 1 to the count and posting one request, as long as the batch
flows (that a hold brought about by a posting ends the test of that credit, and that the entries are tested in the
order of the snapshot, are log entry 10); out of the flowing states nothing is posted. At an unavailable injector a
request is not queued: a REQUIRED entry hands ADDITIVE to the batch, an OPTIONAL one has UNDERDOSED set on the result.
At an available one it joins the tail with owed count 1, and an IDLE injector starts its next shot (`ShotStart`); an
arm owed 1 to 3 shots is owed one more in its place; at 4 it stays, with LAGGED set. -/
def Obligations.ShotPointsAndPendingQueue : Prop :=
  (∀ (s : State) (a : ArmId), (s.flowing a = false → s.testPoints a = s) ∧
    ∀ b, s.batch a = some b → s.testPoints a = b.metering.points.foldl (State.testEntry a) s) ∧
  (∀ (s : State) (a : ArmId) (b : Batch) (p : ShotPoint) (e : SnapshotEntry) (n : Nat), s.batch a = some b →
    b.snapshot.entryAt p.index = some e → n * (p.shotVolume * 10000) ≤ b.gross * e.entry.rate →
    b.gross * e.entry.rate < (n + 1) * (p.shotVolume * 10000) →
    State.testEntry a s p = s.postPoints a e (n - p.passed)) ∧
  (∀ (s : State) (a : ArmId) (e : SnapshotEntry), s.postPoints a e 0 = s ∧ ∀ n,
    (s.flowing a = false → s.postPoints a e (n + 1) = s) ∧
    (∀ b, s.batch a = some b → b.state.flowing = true → s.postPoints a e (n + 1) =
      (State.post { s with arms := vset s.arms a { s.arm a with batch := some { b with
        metering := { b.metering with points := b.metering.points.map fun p =>
          if p.index = e.index then { p with passed := p.passed + 1 } else p } } } } a b.ref e).postPoints a e n)) ∧
  ∀ (s : State) (a : ArmId) (r : CompRef) (e : SnapshotEntry) (i : InjectorId) (x : Injector), i = e.entry.injector →
    x = s.injector i →
    (x.service = .outOfService ∨ (x.state ≠ .idle ∧ x.state ≠ .shot) →
      (e.entry.requirement = .required → State.TakesCause s (s.post a r e) a .additive) ∧
      (e.entry.requirement = .optional → State.DoseFlagged s (s.post a r e) r i .underdosed)) ∧
    (x.service = .inService → x.state = .idle ∨ x.state = .shot →
      ((∀ y ∈ x.queue, y.arm ≠ a) → ∃ u : State, u = { s with injectors := vset s.injectors i { x with
          queue := x.queue ++ [{ arm := a, ref := r, index := e.index, owed := 1, inService := false }] } } ∧
        s.post a r e = u.nextShot i ∧ (x.state = .shot → s.post a r e = u)) ∧
      (∀ y, x.queue.find? (fun y => decide (y.arm = a)) = some y →
        (y.owed < 4 → s.post a r e = { s with injectors := vset s.injectors i { x with
          queue := x.queue.map fun z => if z.arm = a then { z with owed := z.owed + 1 } else z } }) ∧
        (4 ≤ y.owed → State.DoseFlagged s (s.post a r e) r i .lagged)))

/-- The start of an injector's next shot (R128, R129): none while ESD is active, out of IDLE or with an empty queue.
Where the head's reservation covers the shot volume, or the free stock the shortfall, which then joins the reservation,
the head is in service and its shot is open: target shot volume × K / 1000 rounded half up and at least 1, nothing
counted, the window at its full value. Else the head is removed, a REQUIRED entry hands ADDITIVE to its batch, an
OPTIONAL one has UNDERDOSED set, and the new head is tried; that the batches of several such heads are held one by one
is log entry 11. The injector's passage from IDLE to SHOT is handed on (R123): a HELD batch that requires it and whose
REQUIRED injectors are all available loses ADDITIVE (R101, log entry 26). -/
def Obligations.ShotStart : Prop :=
  ∀ (s : State) (i : InjectorId) (x : Injector), x = s.injector i →
    (s.esd.active = true ∨ x.state ≠ .idle ∨ x.queue = [] → s.nextShot i = s) ∧
    (s.esd.active = false → x.state = .idle → ∀ e rest held free, x.queue = e :: rest →
      held = x.reservation e.ref → free = x.stock - (x.reservations.map (·.amount)).sum →
      (x.shotVolume ≤ held ∨ x.shotVolume - held ≤ free → ∃ (u : State) (reservations : List Reservation),
        u = { s with injectors := vset s.injectors i { x with
          state := .shot, reservations := reservations, queue := { e with inService := true } :: rest
          shot := some {
            owner := some { arm := e.arm, ref := e.ref, index := e.index }
            target := max 1 ((2 * (x.shotVolume * x.k) + 1000) / 2000), counted := 0, phase := .opened
            outcome := .none, queued := true, window := some (1000 * x.window), tail := none } } } ∧
        (∀ r, (u.injector i).reservation r = if r = e.ref then max held x.shotVolume else x.reservation r) ∧
        (x.shotVolume ≤ held → reservations = x.reservations) ∧
        ((x.reservations.map (·.ref)).Nodup →
          (reservations.map (·.amount)).sum = (x.reservations.map (·.amount)).sum + (x.shotVolume - held)) ∧
        u.solenoid i = true ∧ State.AdditiveRemoved u (s.nextShot i) i) ∧
      (held + free < x.shotVolume → ∀ b y, s.batch e.arm = some b → b.snapshot.entryAt e.index = some y →
        ∃ u v : State, u = { s with injectors := vset s.injectors i { x with queue := rest } } ∧
          (y.entry.requirement = .required → State.TakesCause u v e.arm .additive) ∧
          (y.entry.requirement = .optional → State.DoseFlagged u v e.ref i .underdosed) ∧ s.nextShot i = v.nextShot i))

/-- The pulses and the window of a shot, and the tail's end of a COMPLETED or ENDED one (R128, R130 to R133, R137).
Without a current shot nothing happens; an open shot counts, closes COMPLETED at its target and FAILED when its window
has run out, and counts on in its tail of 1 s. At the tail's end the measured volume is credited (stages 1 to 4 of
R131). A COMPLETED shot then clears the failures; its entry, still queued, is owed one less and moves to the tail, or
is removed at 0; the follower is posted where the arm's batch still flows into the shot's compartment and has a usable
entry on it; and the injector is IDLE without a shot and starts its next one; its return to IDLE is handed on (R123): a
HELD batch that requires it and whose REQUIRED injectors are all available loses ADDITIVE (R101, log entry 26). An
ENDED shot only is credited and ends. A delivered volume past 2 000 000 mL is a free value (log entry 16). -/
def Obligations.ShotPulsesAndCompletedShots : Prop :=
  ∀ (s : State) (i : InjectorId) (x : Injector), x = s.injector i →
    (x.shot = none → exec (.additiveMeterPulse i) s = .next s ∧ exec (.shotWindowExpiry i) s = .next s ∧
      exec (.shotTailEnd i) s = .next s) ∧
    (∀ y, x.shot = some y →
      ((y.phase = .tail ∨ y.counted + 1 < y.target) → exec (.additiveMeterPulse i) s = .next { s with
        injectors := vset s.injectors i { x with shot := some { y with counted := y.counted + 1 } } }) ∧
      (y.phase = .opened → y.target ≤ y.counted + 1 → exec (.additiveMeterPulse i) s = .next { s with
        injectors := vset s.injectors i { x with shot := some { y with
          counted := y.counted + 1, phase := .tail, outcome := .completed, window := none, tail := some 1000 } } }) ∧
      (y.phase = .opened → y.window = some 0 → exec (.shotWindowExpiry i) s = .next { s with
        injectors := vset s.injectors i { x with shot := some { y with
          phase := .tail, outcome := .failed, window := none, tail := some 1000 } } }) ∧
      (y.phase = .tail ∨ y.window ≠ some 0 → exec (.shotWindowExpiry i) s = .next s) ∧
      (y.phase = .opened ∨ y.tail ≠ some 0 → exec (.shotTailEnd i) s = .next s) ∧
      (∀ amount o, y.phase = .tail → y.tail = some 0 → amount = (2 * (y.counted * 1000) + x.k) / (2 * x.k) →
        x.state = .shot → x.proving = none → y.owner = some o →
        (y.outcome = .completed → ∃ c u w z : State, State.ShotCredited s c i o.ref amount ∧
          u = { c with injectors := vset c.injectors i { c.injector i with
            failures := 0
            queue := match x.queue, y.queued with
              | e :: rest, true =>
                if 1 < e.owed then rest ++ [{ e with owed := e.owed - 1, inService := false }] else rest
              | queue, _ => queue } } ∧
          (∀ f b e, x.follower = some f → s.batch o.arm = some b → b.state.flowing = true → b.ref = o.ref →
            b.snapshot.entries.find? (fun e => !e.skipped && decide (e.entry.injector = f)) = some e →
            w = u.post o.arm o.ref e) ∧
          (x.follower = none ∨ s.flowing o.arm = false ∨ (∀ b, s.batch o.arm = some b → b.ref ≠ o.ref ∨
            ∀ f e, x.follower = some f → e ∈ b.snapshot.entries → e.skipped = true ∨ e.entry.injector ≠ f) → w = u) ∧
          State.AdditiveRemoved
            { w with injectors := vset w.injectors i { w.injector i with shot := none, state := .idle } } z i ∧
          exec (.shotTailEnd i) s = .next (z.nextShot i)) ∧
        (y.outcome = .ended → ∃ c z : State, State.ShotCredited s c i o.ref amount ∧
          State.AdditiveRemoved
            { c with injectors := vset c.injectors i { c.injector i with shot := none, state := .idle } } z i ∧
          exec (.shotTailEnd i) s = .next (z.nextShot i)) ∧
        (y.outcome = .completed ∨ y.outcome = .ended → ∃ t : State, exec (.shotTailEnd i) s = .next t ∧
          t.bays = s.bays ∧ t.permits = s.permits ∧ t.meters = s.meters ∧ s.SameHostRecords t)))

/-- The tail's end of a FAILED shot (R134, R135): the measured part is credited (stages 1 to 4 of R131), the failures
rise by 1 and UNDERDOSED is set on the owner's result. Below the third the entry, still queued, is owed one less and
moves to the tail, or is removed at 0, and the injector is IDLE and starts its next shot; no follower is posted. At
the third the queue is emptied, every removed entry that is OPTIONAL has UNDERDOSED set on its result, ADDITIVE
reaches every batch with a REQUIRED entry on the injector, where drawing sets are exact, the other arms respond once
each to the drawing sets that this changes (R97, R98), and the injector is in FAULT without a shot, with
INJECTOR_FAULT set. A return to IDLE is handed on (R123): a HELD batch that requires the injector and whose REQUIRED
injectors are all available loses ADDITIVE (R101, log entry 26). A delivered volume past 2 000 000 mL is a free value
(log entry 16). -/
def Obligations.FailedShots : Prop :=
  ∀ (s : State) (i : InjectorId) (x : Injector) (y : Shot) (o : ShotOwner) (amount : Nat), x = s.injector i →
    x.shot = some y → y.phase = .tail → y.tail = some 0 → y.outcome = .failed → y.owner = some o → x.state = .shot →
    x.proving = none → amount = (2 * (y.counted * 1000) + x.k) / (2 * x.k) → ∃ c u t : State,
    State.ShotCredited s c i o.ref amount ∧
    State.DoseFlagged { c with injectors := vset c.injectors i { c.injector i with failures := min 3 (x.failures + 1) } }
      u o.ref i .underdosed ∧
    exec (.shotTailEnd i) s = .next t ∧
    (x.failures < 2 → ∃ w z : State,
      w = { u with injectors := vset u.injectors i { u.injector i with
        shot := none, state := .idle
        queue := match x.queue, y.queued with
          | e :: rest, true =>
            if 1 < e.owed then rest ++ [{ e with owed := e.owed - 1, inService := false }] else rest
          | queue, _ => queue } } ∧ State.AdditiveRemoved w z i ∧ t = z.nextShot i) ∧
    (2 ≤ x.failures →
      t.injector i = { u.injector i with queue := [], shot := none, state := .fault, failures := 3 } ∧
      EventFlag.injectorFault ∈ t.flags ∧
      (∀ e ∈ x.queue, ∀ b v, s.batch e.arm = some b → b.snapshot.entryAt e.index = some v →
        v.entry.requirement = .optional → ∀ ord cp z, u.orderOf e.ref = some ord → ord.isActive = true →
        ord.comp e.ref.comp = some cp → z ∈ cp.results → z.injector = i → ∃ ord' cp', t.orderOf e.ref = some ord' ∧
        ord'.comp e.ref.comp = some cp' ∧
        { z with flags := addTo ResultFlag.all .underdosed z.flags } ∈ cp'.results) ∧
      (s.DrawingExact → ∀ a b, s.batch a = some b → b.snapshot.requires i = true →
        (b.state.flowing = true → t.batch a = some { b with
          state := .held, mainDemand := 0, blendDemand := 0, ceiling := none, holdSet := [.additive], ramp := none
          metering := { b.metering with noFlow := none, blendTimer := none } } ∧ EventFlag.batchHold ∈ t.flags) ∧
        (b.state = .held → t.batch a = some { b with holdSet := addTo HoldCause.all .additive b.holdSet }) ∧
        (b.state = .closing → t.batch a = some b)) ∧
      (∀ a b, s.batch a = some b → b.snapshot.requires i = false →
        (t.batch a).map (·.besidesFlow) = some b.besidesFlow) ∧
      (∀ a, (∀ b, s.batch a = some b → b.snapshot.requires i = false) → s.RespondsOnce t a)) ∧
    t.bays = s.bays ∧ t.permits = s.permits ∧ t.meters = s.meters ∧ s.SameHostRecords t

/-- The tail's end of a proving shot (R145, R146). A COMPLETED one adds its pulses and itself to the run's totals and
lowers the stock by the measured volume; with shots remaining the next opens, and after the last the run is in
PROVE_WAIT with PROVE_DONE set. A FAILED one lowers the stock too and ends the run: the injector is in FAULT with its K
kept and three failures, INJECTOR_FAULT set. No compartment is credited. A total past 2 550 000 pulses, for which Table
8-1 has no value, is a free value (log entry 16). -/
def Obligations.ProvingShots : Prop :=
  ∀ (s : State) (i : InjectorId) (x : Injector) (y : Shot) (p : Proving) (stock : Nat) (flags : List EventFlag),
    x = s.injector i → x.shot = some y → y.phase = .tail → y.tail = some 0 → y.owner = none → x.proving = some p →
    x.state = .proving → stock = x.stock - (2 * (y.counted * 1000) + x.k) / (2 * x.k) →
    flags = (if x.mark ≤ x.stock ∧ stock < x.mark then addTo EventFlag.all .stockLow s.flags else s.flags) →
    (y.outcome = .completed → ∃ (t : State) (total : Nat) (p' : Proving), exec (.shotTailEnd i) s = .next t ∧
      total ≤ 2550000 ∧ (p.totalPulses + y.counted ≤ 2550000 → total = p.totalPulses + y.counted) ∧
      p' = { p with remaining := p.remaining - 1, totalShots := p.totalShots + 1, totalPulses := total } ∧
      (1 < p.remaining → t = { s with
        freeCount := t.freeCount, flags := flags
        injectors := vset s.injectors i { x with
          stock := stock, proving := some p'
          shot := some { owner := none, target := max 1 ((2 * (x.shotVolume * x.k) + 1000) / 2000), counted := 0,
                         phase := .opened, outcome := .none, queued := false, window := some (1000 * x.window),
                         tail := none } } }) ∧
      (p.remaining ≤ 1 → t = { s with
        freeCount := t.freeCount, flags := addTo EventFlag.all .proveDone flags
        injectors := vset s.injectors i { x with
          stock := stock, proving := some p', shot := none, state := .proveWait } })) ∧
    (y.outcome = .failed → exec (.shotTailEnd i) s = .next { s with
      flags := addTo EventFlag.all .injectorFault flags
      injectors := vset s.injectors i { x with
        stock := stock, proving := none, shot := none, failures := 3, state := .fault } })

/-- The dose check of a compartment (R141): for each additive result the expected volume is the delivered gross × the
result's rate / 10 000 in whole mL, a half rounded up, and the result is out of tolerance when the difference between
delivered and expected, in whichever direction, times 100 exceeds its tolerance times the expected volume; with an
expected volume of 0, whenever anything was delivered. Nothing else of the compartment changes. -/
def Obligations.DoseFigures : Prop :=
  (∀ c : Compartment, c.doseChecked = { c with results := c.results.map (AdditiveResult.doseChecked c.gross) }) ∧
  ∀ (gross : Nat) (r : AdditiveResult), ∃ expected flags,
    20000 * expected ≤ 2 * (gross * r.rate) + 10000 ∧ 2 * (gross * r.rate) + 10000 < 20000 * (expected + 1) ∧
    r.doseChecked gross = { r with expected := expected, flags := flags } ∧
    (∀ f, f ∈ flags ↔ f ∈ r.flags ∨ (f = .outOfTolerance ∧ (r.tolerance * expected < (r.delivered - expected) * 100 ∨
      r.tolerance * expected < (expected - r.delivered) * 100))) ∧
    (expected = 0 → 0 < r.delivered → ResultFlag.outOfTolerance ∈ flags)

/-! ### The panels -/

/-- SCREEN_PUT, SCREEN_GET and PROMPT_MAP_PUT (R159, R163): a screen number past 24 or a line of other than 20 columns
is INVALID, a screen that some bay shows is IN_USE, else the screen takes the four lines; a get answers the four lines
and the bays that show them; the map takes each change named and answers its nine entries (log entry 38), with a list
of more than nine changes, a situation named twice or a screen past 24 INVALID. -/
def Obligations.ScreensAndPromptMap : Prop :=
  ∀ (s : State) (tag : Byte) (body : List Byte), s.port.phase = .hunting →
    (∀ (n : Nat) (lines : List Line), readScreenPut body = some (n, lines) → lines.length = 4 ∧
      ((n = 0 ∨ 24 < n ∨ ∃ l ∈ lines, l.columns ≠ 20) →
        exec (.screenPut tag body) s = .next (s.respond 0x80 tag body .invalid [])) ∧
      (∀ m : ScreenId, n = m.val + 1 → (∀ l ∈ lines, l.columns = 20) →
        ((∃ b, (s.display b).current = some m) →
          exec (.screenPut tag body) s = .next (s.respond 0x80 tag body .inUse [])) ∧
        ((∀ b, (s.display b).current ≠ some m) → ∃ screen : Screen, screen.lines.toList = lines ∧
          exec (.screenPut tag body) s
            = .next (({ s with screens := vset s.screens m screen } : State).respond 0x80 tag body .ok [])))) ∧
    (∀ n : Byte, (n = 0 ∨ 24 < n.toNat) → exec (.screenGet tag [n]) s = .next (s.respond 0x81 tag [n] .invalid [])) ∧
    (∀ (n : Byte) (m : ScreenId), n.toNat = m.val + 1 →
      exec (.screenGet tag [n]) s = .next (s.respond 0x81 tag [n] .ok
        ((vget s.screens m).lines.toList.flatMap (fun l =>
            [0, if l.hidden then 1 else 0, if l.double then 1 else 0,
              placeByte [Emphasis.normal, .inverse, .flashing] l.emphasis]
            ++ countedBytes (fun c => match c with
              | .character g => [1, byteOf g.val]
              | .attr e => [2, placeByte [Emphasis.normal, .inverse, .flashing] e]
              | .field f w => [3, placeByte FieldCode.all f, byteOf w]) l.cells)
          ++ countedBytes (fun b => [numberByte b])
            ((List.finRange 4).filter fun b => decide ((s.display b).current = some m))))) ∧
    (∀ changes : List (Situation × Nat × Bool), readMapPut body = some changes →
      ((9 < changes.length ∨ ¬ (changes.map (·.1)).Nodup ∨ ∃ c ∈ changes, c.2.1 < 1 ∨ 24 < c.2.1) →
        exec (.promptMapPut tag body) s = .next (s.respond 0x82 tag body .invalid [])) ∧
      (changes.length ≤ 9 → (changes.map (·.1)).Nodup → (∀ c ∈ changes, 1 ≤ c.2.1 ∧ c.2.1 ≤ 24) → ∃ t : State,
        exec (.promptMapPut tag body) s = .next (t.respond 0x82 tag body .ok
          (t.promptMap.toList.flatMap fun e => [BitVec.ofNat 8 (e.screen.val + 1), if e.priority then 1 else 0])) ∧
        t = { s with promptMap := t.promptMap } ∧
        (∀ c ∈ changes, ((vget t.promptMap c.1.index).screen.val + 1, (vget t.promptMap c.1.index).priority) = c.2) ∧
        (∀ j, (∀ c ∈ changes, c.1.index ≠ j) → vget t.promptMap j = vget s.promptMap j)))

/-- A panel refresh, when its 200 ms have passed (R160, R162, R164, R165): the situation is TERMINAL_RESTORED, REFUSAL,
ARM_HELD or the session's, in that order; the mapped screen is chosen unless an override without a priority entry
stands; the bay's current screen becomes it and a frame is sent (Table 11-7): start, type, the four height marks, the
eighty cells row by row, CRC over type through cells, its low byte first (log entry 21; `PanelLayoutAndFields` states
the rows of its lines). An override and a restored time that have run out are taken away; before they are due the three
do nothing. -/
def Obligations.PanelRefresh : Prop :=
  ∀ (s : State) (bay : BayId) (d : Display) (x : Session) (e : MapEntry) (chosen : ScreenId) (rows : List Row),
    d = s.display bay → x = s.session bay →
    e = vget s.promptMap (if d.restored.any (fun t => decide (0 < t)) then 0 else if x.reason.isSome then 1
      else if x.state = .loading ∧ ((s.focusArm bay).bind s.batch).any (fun b => decide (b.state = .held)) then 2
      else match x.state with
        | .idle => 3
        | .codeEntry => 4
        | .orderSelect => 5
        | .waitBond => 6
        | .loading => 7
        | .closing => 8) →
    chosen = (match d.override with
      | some o => if e.priority then e.screen else o.screen
      | none => e.screen) →
    rows = s.layLines bay 4 (vget s.screens chosen).lines.toList →
    (d.refresh = some 0 → ∃ marks cells : List Byte, marks = rows.map (fun r => BitVec.ofNat 8 r.mark) ∧
      cells = (rows.flatMap (·.cells)).map (fun v => BitVec.ofNat 8 v) ∧
      ((∀ l ∈ (vget s.screens chosen).lines.toList, l.columns = 20) → marks.length = 4 ∧ cells.length = 80) ∧
      exec (.panelRefresh bay) s = .next { s with displays := vset s.displays bay { d with
        current := some chosen, refresh := some 200
        frame := some (0x5A#8 :: (0x10#8 :: marks ++ cells)
          ++ littleEndian 2 (crc16 (0x10#8 :: marks ++ cells)).toNat) } }) ∧
    (d.override.map (·.remaining) = some 0 →
      exec (.overrideExpiry bay) s = .next { s with displays := vset s.displays bay { d with override := none } }) ∧
    (d.restored = some 0 →
      exec (.restoredTimeExpiry bay) s = .next { s with displays := vset s.displays bay { d with restored := none } }) ∧
    (d.refresh ≠ some 0 → exec (.panelRefresh bay) s = .next s) ∧
    (d.override.map (·.remaining) ≠ some 0 → exec (.overrideExpiry bay) s = .next s) ∧
    (d.restored ≠ some 0 → exec (.restoredTimeExpiry bay) s = .next s)

/-- The rows, cells and fields of a panel (R160, R161, Table 10-2). A hidden line takes no row, a single line one
marked SINGLE, a double line two marked DOUBLE_TOP and DOUBLE_BOTTOM with the same cells; a double line that finds one
free row ends the panel, a row left over is blank. A cell is its emphasis × 64 + its glyph, an attribute changing the
emphasis from itself on. A field is its value in its width: texts left-aligned, numbers in decimal without leading
zeros and volumes with one digit after a full stop right-aligned, spaces where absent, "#" where too wide. The hold
cause shown is the first of the set in the order of Table 5-6. Each field code has its value, absent as Table 10-2
says; that PRODUCT_NAME is absent without a selection whatever the focus arm's batch is log entry 20. -/
def Obligations.PanelLayoutAndFields : Prop :=
  (∀ (s : State) (bay : BayId) (n : Nat) (l : Line) (rest : List Line) (cells : List Nat),
    cells = s.fillCells bay l.emphasis l.cells →
    s.layLines bay n [] = List.replicate n { mark := 0, cells := List.replicate 20 0 } ∧
    (l.hidden = true → s.layLines bay n (l :: rest) = s.layLines bay n rest) ∧
    (l.hidden = false → s.layLines bay 0 (l :: rest) = [] ∧
      (l.double = false →
        s.layLines bay (n + 1) (l :: rest) = { mark := 0, cells := cells } :: s.layLines bay n rest) ∧
      (l.double = true → s.layLines bay 1 (l :: rest) = [{ mark := 0, cells := List.replicate 20 0 }] ∧
        s.layLines bay (n + 2) (l :: rest)
          = { mark := 1, cells := cells } :: { mark := 2, cells := cells } :: s.layLines bay n rest))) ∧
  (∀ (s : State) (bay : BayId) (m e : Emphasis) (g : Glyph) (f : FieldCode) (w : Nat) (rest : List Cell)
      (shown : Emphasis → Glyph → Nat),
    (∀ g, shown .normal g = g.val ∧ shown .inverse g = 64 + g.val ∧ shown .flashing g = 128 + g.val) →
    s.fillCells bay m [] = [] ∧
    s.fillCells bay m (.character g :: rest) = shown m g :: s.fillCells bay m rest ∧
    s.fillCells bay m (.attr e :: rest) = shown e 0 :: s.fillCells bay e rest ∧
    s.fillCells bay m (.field f w :: rest)
      = (fillField w (s.fieldValue bay f)).map (shown m) ++ s.fillCells bay m rest) ∧
  (∀ w : Nat, fillField w none = List.replicate w 0 ∧ ∀ v : FieldValue,
    (w < v.glyphs.length → fillField w (some v) = List.replicate w 45) ∧
    (v.glyphs.length ≤ w →
      (∀ t, v = .text t → fillField w (some v) = t ++ List.replicate (w - t.length) 0) ∧
      ((∀ t, v ≠ .text t) → fillField w (some v) = List.replicate (w - v.glyphs.length) 0 ++ v.glyphs))) ∧
  (∀ t : List Glyph, (FieldValue.text t).glyphs = t) ∧
  (∀ n : Nat, n < 10 ^ 20 → ∃ digits : List (Fin 10),
    (FieldValue.number n).glyphs = digits.map (fun d => Fin.ofNat 64 (d.val + 1)) ∧ digits ≠ [] ∧
    digits.foldl (fun sum d => 10 * sum + d.val) 0 = n ∧ (digits.head? = some 0 → digits = [0]) ∧
    ∀ k : Fin 10, (FieldValue.volume (10 * n + k.val)).glyphs
      = (FieldValue.number n).glyphs ++ [37, Fin.ofNat 64 (k.val + 1)]) ∧
  (∀ k : Nat, (k < 10 → glyph (Char.ofNat (48 + k)) = Fin.ofNat 64 (k + 1)) ∧
    (k < 26 → glyph (Char.ofNat (65 + k)) = Fin.ofNat 64 (k + 11))) ∧
  (∀ t : String, glyphs t = t.toList.map glyph) ∧ glyph ' ' = 0 ∧
  HoldCause.all = [.permissive, .esd, .armDisconnected, .terminalLost, .meter, .additive, .noFlow, .blend, .host] ∧
  (∀ e ∈ [(HoldCause.permissive, "PERMISSIVE"), (.esd, "ESD"), (.armDisconnected, "ARM DISCONNECTED"),
      (.terminalLost, "TERMINAL LOST"), (.meter, "METER"), (.additive, "ADDITIVE"), (.noFlow, "NO FLOW"),
      (.blend, "BLEND"), (.host, "HOST")], e.1.text = e.2) ∧
  (∀ e ∈ [(Reason.clockUnset, "CLOCK UNSET"), (.esdActive, "ESD ACTIVE"), (.unknownCard, "UNKNOWN CARD"),
      (.inSessionElsewhere, "IN USE ELSEWHERE"), (.permitHeld, "PERMIT HELD"), (.notYetValid, "NOT YET VALID"),
      (.permitExpired, "PERMIT EXPIRED"), (.allowanceUsed, "ALLOWANCE USED"), (.codeIncomplete, "CODE INCOMPLETE"),
      (.wrongCode, "WRONG CODE"), (.struckOut, "STRUCK OUT"), (.noOrder, "NO ORDER"),
      (.orderUnavailable, "ORDER UNAVAIL"), (.sessionTimeout, "SESSION TIMEOUT"), (.noSuchArm, "NO SUCH ARM"),
      (.permissiveMissing, "NO PERMISSIVE"), (.armOutOfService, "ARM OUT OF SERV"), (.armBusy, "ARM BUSY"),
      (.armNotConnected, "ARM NOT COUPLED"), (.compNotLoadable, "COMP NOT READY"),
      (.productNotOnArm, "NOT ON THIS ARM"), (.classNotPermitted, "CLASS NOT PERMIT"), (.incompatible, "INCOMPATIBLE"),
      (.meterFault, "METER FAULT"), (.injectorUnavailable, "INJECTOR UNAVAIL"), (.doseUnworkable, "DOSE UNWORKABLE"),
      (.additiveShort, "ADDITIVE SHORT"), (.armsFlowing, "ARMS FLOWING"), (.hostHold, "HOST HOLD"),
      (.notHeld, "NOT HELD"), (.holdCondition, "HOLD CONDITION")], e.1.text = e.2) ∧
  ∀ (s : State) (bay : BayId) (x : Session) (order : Option Order) (comp : Option Compartment) (focus : Option Batch),
    x = s.session bay → order = (x.bound.bind s.findOrder).map (·.2) →
    comp = (order.bind fun o => x.selected.bind o.comp) → focus = (s.focusArm bay).bind s.batch →
    s.fieldValue bay .holderName = (x.card.bind s.findPermit).map (fun p : Permit => .text p.name) ∧
    s.fieldValue bay .cardNo = x.card.map .number ∧
    s.fieldValue bay .orderNo = x.bound.map .number ∧
    s.fieldValue bay .tankerId = order.map (fun o => .text o.tanker) ∧
    s.fieldValue bay .candidate1 = x.candidates[0]?.map .number ∧
    s.fieldValue bay .candidate2 = x.candidates[1]?.map .number ∧
    s.fieldValue bay .candidate3 = x.candidates[2]?.map .number ∧
    s.fieldValue bay .candidate4 = x.candidates[3]?.map .number ∧
    s.fieldValue bay .focusArm = (if x.state = .loading ∨ x.state = .closing then
      (s.focusArm bay).map (fun a => .number (a.val + 1)) else none) ∧
    s.fieldValue bay .compNo = x.selected.map (fun n => .number (n.val + 1)) ∧
    s.fieldValue bay .productName = (comp.bind fun c => c.product.bind fun code =>
      (focus.elim ((s.product code).map (·.name)) fun b => some b.snapshot.name).map .text) ∧
    s.fieldValue bay .planned = comp.map (fun c => .volume c.planned) ∧
    s.fieldValue bay .delivered = comp.map (fun c => .volume c.gross) ∧
    s.fieldValue bay .remaining = comp.map (fun c => .volume (c.planned - c.gross)) ∧
    s.fieldValue bay .flow = (s.focusArm bay).map (fun a => .number (s.valveDemand a).1) ∧
    (∀ b, focus = some b → b.state = .held → ∀ before c after, HoldCause.all = before ++ c :: after → c ∈ b.holdSet →
      (∀ d ∈ before, d ∉ b.holdSet) → s.fieldValue bay .holdCause = some (.text (glyphs c.text))) ∧
    ((∀ b, focus = some b → b.state ≠ .held ∨ b.holdSet = []) → s.fieldValue bay .holdCause = none) ∧
    s.fieldValue bay .reason = x.reason.map (fun r => .text (glyphs r.text)) ∧
    s.fieldValue bay .codeMask
      = (if x.digits = [] then none else some (.text (List.replicate x.digits.length 44))) ∧
    (s.clock = none → s.fieldValue bay .clock = some (.text [41, 41, 39, 41, 41, 39, 41, 41])) ∧
    (∀ t h m k : Nat, ∀ d : Time, s.clock = some d → d.second = t → t = 3600 * h + 60 * m + k → h < 24 → m < 60 →
      k < 60 → ∃ two : Nat → List Glyph, (∀ n, two n = [Fin.ofNat 64 (n / 10 + 1), Fin.ofNat 64 (n % 10 + 1)]) ∧
        s.fieldValue bay .clock = some (.text (two h ++ [39] ++ two m ++ [39] ++ two k))) ∧
    s.fieldValue bay .noteNo = (s.display bay).lastNote.map .number

/-! ### Over all commands and all steps -/

/-- A command that is neither a request, a power-up, a clock tick nor an event of the host link always answers a next
state, and leaves the host's records, the clock, the port and the queue as they are: keys, cards, field inputs, pulses
and timers change the progress of visits and batches only. -/
def Obligations.FieldCommandsKeepHostRecords : Prop :=
  ∀ (c : Instr) (s : State), c.request = none → (∀ found, c ≠ .powerUp found) → c ≠ .clockTick → c ≠ .responseSent →
    (∀ l, c ≠ .hostFrameDiscard l) → (∀ l, c ≠ .hostFrameTimeout l) →
    ∃ t : State, exec c s = .next t ∧ s.SameHostRecords t

/-- Every step keeps the Permit Table in ascending order of card number with at most 512 records (R1), order numbers
distinct (R35), and the note numbers of NOTED orders distinct with the note counter in range (R37, R151). -/
def Obligations.StepKeepsTablesInOrder : Prop :=
  ∀ s t : State, step s = .next t →
    (s.PermitsOrdered → t.PermitsOrdered) ∧ (s.OrdersDistinct → t.OrdersDistinct) ∧
    (s.NotesDistinct → t.NotesDistinct)

/-- Every step keeps the valves of stopped batches at zero demand (R91), the drawing sets exactly the flowing arms of
their headers (R97), and the rule of the shutdown: while ESD is active every batch is in CLOSING, or HELD with the
cause ESD, so that none flows (R104). -/
def Obligations.StepKeepsFlowLaws : Prop :=
  ∀ s t : State, step s = .next t →
    (s.StoppedDemandsZero → t.StoppedDemandsZero) ∧ (s.DrawingExact → t.DrawingExact) ∧
    (s.EsdStopsFlow → t.EsdStopsFlow)

/-- Every step keeps the meters' residues below their K factors (R109) and the clock within its range (R169). -/
def Obligations.StepKeepsCountersInRange : Prop :=
  ∀ s t : State, step s = .next t →
    (s.ResiduesBelowK → t.ResiduesBelowK) ∧ (s.ClockInRange → t.ClockInRange)
end

