-- ==== Sys2Proof/Laws/State.lean ====
section
/-! SUPPORT. What each update of the state leaves in each field, all true by rfl: the field an update writes,
and every field it leaves alone. -/

namespace Sys2Proof.Machine

/-! ### modSession -/

@[simp] theorem State.modSession_permits (s : State) (b : BayId) (f : Session → Session) :
    (s.modSession b f).permits = s.permits := rfl
@[simp] theorem State.modSession_products (s : State) (b : BayId) (f : Session → Session) :
    (s.modSession b f).products = s.products := rfl
@[simp] theorem State.modSession_matrix (s : State) (b : BayId) (f : Session → Session) :
    (s.modSession b f).matrix = s.matrix := rfl
@[simp] theorem State.modSession_orders (s : State) (b : BayId) (f : Session → Session) :
    (s.modSession b f).orders = s.orders := rfl
@[simp] theorem State.modSession_creationCounter (s : State) (b : BayId) (f : Session → Session) :
    (s.modSession b f).creationCounter = s.creationCounter := rfl
@[simp] theorem State.modSession_noteCounter (s : State) (b : BayId) (f : Session → Session) :
    (s.modSession b f).noteCounter = s.noteCounter := rfl
@[simp] theorem State.modSession_bays (s : State) (b : BayId) (f : Session → Session) :
    (s.modSession b f).bays = vset s.bays b (f (s.session b)) := rfl
@[simp] theorem State.modSession_arms (s : State) (b : BayId) (f : Session → Session) : (s.modSession b f).arms = s.arms := rfl
@[simp] theorem State.modSession_headers (s : State) (b : BayId) (f : Session → Session) :
    (s.modSession b f).headers = s.headers := rfl
@[simp] theorem State.modSession_meters (s : State) (b : BayId) (f : Session → Session) :
    (s.modSession b f).meters = s.meters := rfl
@[simp] theorem State.modSession_injectors (s : State) (b : BayId) (f : Session → Session) :
    (s.modSession b f).injectors = s.injectors := rfl
@[simp] theorem State.modSession_screens (s : State) (b : BayId) (f : Session → Session) :
    (s.modSession b f).screens = s.screens := rfl
@[simp] theorem State.modSession_promptMap (s : State) (b : BayId) (f : Session → Session) :
    (s.modSession b f).promptMap = s.promptMap := rfl
@[simp] theorem State.modSession_displays (s : State) (b : BayId) (f : Session → Session) :
    (s.modSession b f).displays = s.displays := rfl
@[simp] theorem State.modSession_clock (s : State) (b : BayId) (f : Session → Session) :
    (s.modSession b f).clock = s.clock := rfl
@[simp] theorem State.modSession_clockPhase (s : State) (b : BayId) (f : Session → Session) :
    (s.modSession b f).clockPhase = s.clockPhase := rfl
@[simp] theorem State.modSession_esd (s : State) (b : BayId) (f : Session → Session) : (s.modSession b f).esd = s.esd := rfl
@[simp] theorem State.modSession_flags (s : State) (b : BayId) (f : Session → Session) :
    (s.modSession b f).flags = s.flags := rfl
@[simp] theorem State.modSession_mask (s : State) (b : BayId) (f : Session → Session) : (s.modSession b f).mask = s.mask := rfl
@[simp] theorem State.modSession_port (s : State) (b : BayId) (f : Session → Session) : (s.modSession b f).port = s.port := rfl
@[simp] theorem State.modSession_freeCount (s : State) (b : BayId) (f : Session → Session) :
    (s.modSession b f).freeCount = s.freeCount := rfl
@[simp] theorem State.modSession_pending (s : State) (b : BayId) (f : Session → Session) :
    (s.modSession b f).pending = s.pending := rfl

/-! ### modArm -/

@[simp] theorem State.modArm_permits (s : State) (a : ArmId) (f : Arm → Arm) : (s.modArm a f).permits = s.permits := rfl
@[simp] theorem State.modArm_products (s : State) (a : ArmId) (f : Arm → Arm) : (s.modArm a f).products = s.products := rfl
@[simp] theorem State.modArm_matrix (s : State) (a : ArmId) (f : Arm → Arm) : (s.modArm a f).matrix = s.matrix := rfl
@[simp] theorem State.modArm_orders (s : State) (a : ArmId) (f : Arm → Arm) : (s.modArm a f).orders = s.orders := rfl
@[simp] theorem State.modArm_creationCounter (s : State) (a : ArmId) (f : Arm → Arm) :
    (s.modArm a f).creationCounter = s.creationCounter := rfl
@[simp] theorem State.modArm_noteCounter (s : State) (a : ArmId) (f : Arm → Arm) :
    (s.modArm a f).noteCounter = s.noteCounter := rfl
@[simp] theorem State.modArm_bays (s : State) (a : ArmId) (f : Arm → Arm) : (s.modArm a f).bays = s.bays := rfl
@[simp] theorem State.modArm_arms (s : State) (a : ArmId) (f : Arm → Arm) :
    (s.modArm a f).arms = vset s.arms a (f (s.arm a)) := rfl
@[simp] theorem State.modArm_headers (s : State) (a : ArmId) (f : Arm → Arm) : (s.modArm a f).headers = s.headers := rfl
@[simp] theorem State.modArm_meters (s : State) (a : ArmId) (f : Arm → Arm) : (s.modArm a f).meters = s.meters := rfl
@[simp] theorem State.modArm_injectors (s : State) (a : ArmId) (f : Arm → Arm) : (s.modArm a f).injectors = s.injectors := rfl
@[simp] theorem State.modArm_screens (s : State) (a : ArmId) (f : Arm → Arm) : (s.modArm a f).screens = s.screens := rfl
@[simp] theorem State.modArm_promptMap (s : State) (a : ArmId) (f : Arm → Arm) : (s.modArm a f).promptMap = s.promptMap := rfl
@[simp] theorem State.modArm_displays (s : State) (a : ArmId) (f : Arm → Arm) : (s.modArm a f).displays = s.displays := rfl
@[simp] theorem State.modArm_clock (s : State) (a : ArmId) (f : Arm → Arm) : (s.modArm a f).clock = s.clock := rfl
@[simp] theorem State.modArm_clockPhase (s : State) (a : ArmId) (f : Arm → Arm) : (s.modArm a f).clockPhase = s.clockPhase := rfl
@[simp] theorem State.modArm_esd (s : State) (a : ArmId) (f : Arm → Arm) : (s.modArm a f).esd = s.esd := rfl
@[simp] theorem State.modArm_flags (s : State) (a : ArmId) (f : Arm → Arm) : (s.modArm a f).flags = s.flags := rfl
@[simp] theorem State.modArm_mask (s : State) (a : ArmId) (f : Arm → Arm) : (s.modArm a f).mask = s.mask := rfl
@[simp] theorem State.modArm_port (s : State) (a : ArmId) (f : Arm → Arm) : (s.modArm a f).port = s.port := rfl
@[simp] theorem State.modArm_freeCount (s : State) (a : ArmId) (f : Arm → Arm) : (s.modArm a f).freeCount = s.freeCount := rfl
@[simp] theorem State.modArm_pending (s : State) (a : ArmId) (f : Arm → Arm) : (s.modArm a f).pending = s.pending := rfl

/-! ### modHeader -/

@[simp] theorem State.modHeader_permits (s : State) (h : HeaderId) (f : Header → Header) :
    (s.modHeader h f).permits = s.permits := rfl
@[simp] theorem State.modHeader_products (s : State) (h : HeaderId) (f : Header → Header) :
    (s.modHeader h f).products = s.products := rfl
@[simp] theorem State.modHeader_matrix (s : State) (h : HeaderId) (f : Header → Header) :
    (s.modHeader h f).matrix = s.matrix := rfl
@[simp] theorem State.modHeader_orders (s : State) (h : HeaderId) (f : Header → Header) :
    (s.modHeader h f).orders = s.orders := rfl
@[simp] theorem State.modHeader_creationCounter (s : State) (h : HeaderId) (f : Header → Header) :
    (s.modHeader h f).creationCounter = s.creationCounter := rfl
@[simp] theorem State.modHeader_noteCounter (s : State) (h : HeaderId) (f : Header → Header) :
    (s.modHeader h f).noteCounter = s.noteCounter := rfl
@[simp] theorem State.modHeader_bays (s : State) (h : HeaderId) (f : Header → Header) : (s.modHeader h f).bays = s.bays := rfl
@[simp] theorem State.modHeader_arms (s : State) (h : HeaderId) (f : Header → Header) : (s.modHeader h f).arms = s.arms := rfl
@[simp] theorem State.modHeader_headers (s : State) (h : HeaderId) (f : Header → Header) :
    (s.modHeader h f).headers = vset s.headers h (f (s.header h)) := rfl
@[simp] theorem State.modHeader_meters (s : State) (h : HeaderId) (f : Header → Header) :
    (s.modHeader h f).meters = s.meters := rfl
@[simp] theorem State.modHeader_injectors (s : State) (h : HeaderId) (f : Header → Header) :
    (s.modHeader h f).injectors = s.injectors := rfl
@[simp] theorem State.modHeader_screens (s : State) (h : HeaderId) (f : Header → Header) :
    (s.modHeader h f).screens = s.screens := rfl
@[simp] theorem State.modHeader_promptMap (s : State) (h : HeaderId) (f : Header → Header) :
    (s.modHeader h f).promptMap = s.promptMap := rfl
@[simp] theorem State.modHeader_displays (s : State) (h : HeaderId) (f : Header → Header) :
    (s.modHeader h f).displays = s.displays := rfl
@[simp] theorem State.modHeader_clock (s : State) (h : HeaderId) (f : Header → Header) : (s.modHeader h f).clock = s.clock := rfl
@[simp] theorem State.modHeader_clockPhase (s : State) (h : HeaderId) (f : Header → Header) :
    (s.modHeader h f).clockPhase = s.clockPhase := rfl
@[simp] theorem State.modHeader_esd (s : State) (h : HeaderId) (f : Header → Header) : (s.modHeader h f).esd = s.esd := rfl
@[simp] theorem State.modHeader_flags (s : State) (h : HeaderId) (f : Header → Header) : (s.modHeader h f).flags = s.flags := rfl
@[simp] theorem State.modHeader_mask (s : State) (h : HeaderId) (f : Header → Header) : (s.modHeader h f).mask = s.mask := rfl
@[simp] theorem State.modHeader_port (s : State) (h : HeaderId) (f : Header → Header) : (s.modHeader h f).port = s.port := rfl
@[simp] theorem State.modHeader_freeCount (s : State) (h : HeaderId) (f : Header → Header) :
    (s.modHeader h f).freeCount = s.freeCount := rfl
@[simp] theorem State.modHeader_pending (s : State) (h : HeaderId) (f : Header → Header) :
    (s.modHeader h f).pending = s.pending := rfl

/-! ### modMeter -/

@[simp] theorem State.modMeter_permits (s : State) (m : MeterId) (f : Meter → Meter) :
    (s.modMeter m f).permits = s.permits := rfl
@[simp] theorem State.modMeter_products (s : State) (m : MeterId) (f : Meter → Meter) :
    (s.modMeter m f).products = s.products := rfl
@[simp] theorem State.modMeter_matrix (s : State) (m : MeterId) (f : Meter → Meter) : (s.modMeter m f).matrix = s.matrix := rfl
@[simp] theorem State.modMeter_orders (s : State) (m : MeterId) (f : Meter → Meter) : (s.modMeter m f).orders = s.orders := rfl
@[simp] theorem State.modMeter_creationCounter (s : State) (m : MeterId) (f : Meter → Meter) :
    (s.modMeter m f).creationCounter = s.creationCounter := rfl
@[simp] theorem State.modMeter_noteCounter (s : State) (m : MeterId) (f : Meter → Meter) :
    (s.modMeter m f).noteCounter = s.noteCounter := rfl
@[simp] theorem State.modMeter_bays (s : State) (m : MeterId) (f : Meter → Meter) : (s.modMeter m f).bays = s.bays := rfl
@[simp] theorem State.modMeter_arms (s : State) (m : MeterId) (f : Meter → Meter) : (s.modMeter m f).arms = s.arms := rfl
@[simp] theorem State.modMeter_headers (s : State) (m : MeterId) (f : Meter → Meter) :
    (s.modMeter m f).headers = s.headers := rfl
@[simp] theorem State.modMeter_meters (s : State) (m : MeterId) (f : Meter → Meter) :
    (s.modMeter m f).meters = vset s.meters m (f (s.meter m)) := rfl
@[simp] theorem State.modMeter_injectors (s : State) (m : MeterId) (f : Meter → Meter) :
    (s.modMeter m f).injectors = s.injectors := rfl
@[simp] theorem State.modMeter_screens (s : State) (m : MeterId) (f : Meter → Meter) :
    (s.modMeter m f).screens = s.screens := rfl
@[simp] theorem State.modMeter_promptMap (s : State) (m : MeterId) (f : Meter → Meter) :
    (s.modMeter m f).promptMap = s.promptMap := rfl
@[simp] theorem State.modMeter_displays (s : State) (m : MeterId) (f : Meter → Meter) :
    (s.modMeter m f).displays = s.displays := rfl
@[simp] theorem State.modMeter_clock (s : State) (m : MeterId) (f : Meter → Meter) : (s.modMeter m f).clock = s.clock := rfl
@[simp] theorem State.modMeter_clockPhase (s : State) (m : MeterId) (f : Meter → Meter) :
    (s.modMeter m f).clockPhase = s.clockPhase := rfl
@[simp] theorem State.modMeter_esd (s : State) (m : MeterId) (f : Meter → Meter) : (s.modMeter m f).esd = s.esd := rfl
@[simp] theorem State.modMeter_flags (s : State) (m : MeterId) (f : Meter → Meter) : (s.modMeter m f).flags = s.flags := rfl
@[simp] theorem State.modMeter_mask (s : State) (m : MeterId) (f : Meter → Meter) : (s.modMeter m f).mask = s.mask := rfl
@[simp] theorem State.modMeter_port (s : State) (m : MeterId) (f : Meter → Meter) : (s.modMeter m f).port = s.port := rfl
@[simp] theorem State.modMeter_freeCount (s : State) (m : MeterId) (f : Meter → Meter) :
    (s.modMeter m f).freeCount = s.freeCount := rfl
@[simp] theorem State.modMeter_pending (s : State) (m : MeterId) (f : Meter → Meter) :
    (s.modMeter m f).pending = s.pending := rfl

/-! ### modInjector -/

@[simp] theorem State.modInjector_permits (s : State) (i : InjectorId) (f : Injector → Injector) :
    (s.modInjector i f).permits = s.permits := rfl
@[simp] theorem State.modInjector_products (s : State) (i : InjectorId) (f : Injector → Injector) :
    (s.modInjector i f).products = s.products := rfl
@[simp] theorem State.modInjector_matrix (s : State) (i : InjectorId) (f : Injector → Injector) :
    (s.modInjector i f).matrix = s.matrix := rfl
@[simp] theorem State.modInjector_orders (s : State) (i : InjectorId) (f : Injector → Injector) :
    (s.modInjector i f).orders = s.orders := rfl
@[simp] theorem State.modInjector_creationCounter (s : State) (i : InjectorId) (f : Injector → Injector) :
    (s.modInjector i f).creationCounter = s.creationCounter := rfl
@[simp] theorem State.modInjector_noteCounter (s : State) (i : InjectorId) (f : Injector → Injector) :
    (s.modInjector i f).noteCounter = s.noteCounter := rfl
@[simp] theorem State.modInjector_bays (s : State) (i : InjectorId) (f : Injector → Injector) :
    (s.modInjector i f).bays = s.bays := rfl
@[simp] theorem State.modInjector_arms (s : State) (i : InjectorId) (f : Injector → Injector) :
    (s.modInjector i f).arms = s.arms := rfl
@[simp] theorem State.modInjector_headers (s : State) (i : InjectorId) (f : Injector → Injector) :
    (s.modInjector i f).headers = s.headers := rfl
@[simp] theorem State.modInjector_meters (s : State) (i : InjectorId) (f : Injector → Injector) :
    (s.modInjector i f).meters = s.meters := rfl
@[simp] theorem State.modInjector_injectors (s : State) (i : InjectorId) (f : Injector → Injector) :
    (s.modInjector i f).injectors = vset s.injectors i (f (s.injector i)) := rfl
@[simp] theorem State.modInjector_screens (s : State) (i : InjectorId) (f : Injector → Injector) :
    (s.modInjector i f).screens = s.screens := rfl
@[simp] theorem State.modInjector_promptMap (s : State) (i : InjectorId) (f : Injector → Injector) :
    (s.modInjector i f).promptMap = s.promptMap := rfl
@[simp] theorem State.modInjector_displays (s : State) (i : InjectorId) (f : Injector → Injector) :
    (s.modInjector i f).displays = s.displays := rfl
@[simp] theorem State.modInjector_clock (s : State) (i : InjectorId) (f : Injector → Injector) :
    (s.modInjector i f).clock = s.clock := rfl
@[simp] theorem State.modInjector_clockPhase (s : State) (i : InjectorId) (f : Injector → Injector) :
    (s.modInjector i f).clockPhase = s.clockPhase := rfl
@[simp] theorem State.modInjector_esd (s : State) (i : InjectorId) (f : Injector → Injector) :
    (s.modInjector i f).esd = s.esd := rfl
@[simp] theorem State.modInjector_flags (s : State) (i : InjectorId) (f : Injector → Injector) :
    (s.modInjector i f).flags = s.flags := rfl
@[simp] theorem State.modInjector_mask (s : State) (i : InjectorId) (f : Injector → Injector) :
    (s.modInjector i f).mask = s.mask := rfl
@[simp] theorem State.modInjector_port (s : State) (i : InjectorId) (f : Injector → Injector) :
    (s.modInjector i f).port = s.port := rfl
@[simp] theorem State.modInjector_freeCount (s : State) (i : InjectorId) (f : Injector → Injector) :
    (s.modInjector i f).freeCount = s.freeCount := rfl
@[simp] theorem State.modInjector_pending (s : State) (i : InjectorId) (f : Injector → Injector) :
    (s.modInjector i f).pending = s.pending := rfl

/-! ### modDisplay -/

@[simp] theorem State.modDisplay_permits (s : State) (b : BayId) (f : Display → Display) :
    (s.modDisplay b f).permits = s.permits := rfl
@[simp] theorem State.modDisplay_products (s : State) (b : BayId) (f : Display → Display) :
    (s.modDisplay b f).products = s.products := rfl
@[simp] theorem State.modDisplay_matrix (s : State) (b : BayId) (f : Display → Display) :
    (s.modDisplay b f).matrix = s.matrix := rfl
@[simp] theorem State.modDisplay_orders (s : State) (b : BayId) (f : Display → Display) :
    (s.modDisplay b f).orders = s.orders := rfl
@[simp] theorem State.modDisplay_creationCounter (s : State) (b : BayId) (f : Display → Display) :
    (s.modDisplay b f).creationCounter = s.creationCounter := rfl
@[simp] theorem State.modDisplay_noteCounter (s : State) (b : BayId) (f : Display → Display) :
    (s.modDisplay b f).noteCounter = s.noteCounter := rfl
@[simp] theorem State.modDisplay_bays (s : State) (b : BayId) (f : Display → Display) : (s.modDisplay b f).bays = s.bays := rfl
@[simp] theorem State.modDisplay_arms (s : State) (b : BayId) (f : Display → Display) : (s.modDisplay b f).arms = s.arms := rfl
@[simp] theorem State.modDisplay_headers (s : State) (b : BayId) (f : Display → Display) :
    (s.modDisplay b f).headers = s.headers := rfl
@[simp] theorem State.modDisplay_meters (s : State) (b : BayId) (f : Display → Display) :
    (s.modDisplay b f).meters = s.meters := rfl
@[simp] theorem State.modDisplay_injectors (s : State) (b : BayId) (f : Display → Display) :
    (s.modDisplay b f).injectors = s.injectors := rfl
@[simp] theorem State.modDisplay_screens (s : State) (b : BayId) (f : Display → Display) :
    (s.modDisplay b f).screens = s.screens := rfl
@[simp] theorem State.modDisplay_promptMap (s : State) (b : BayId) (f : Display → Display) :
    (s.modDisplay b f).promptMap = s.promptMap := rfl
@[simp] theorem State.modDisplay_displays (s : State) (b : BayId) (f : Display → Display) :
    (s.modDisplay b f).displays = vset s.displays b (f (s.display b)) := rfl
@[simp] theorem State.modDisplay_clock (s : State) (b : BayId) (f : Display → Display) :
    (s.modDisplay b f).clock = s.clock := rfl
@[simp] theorem State.modDisplay_clockPhase (s : State) (b : BayId) (f : Display → Display) :
    (s.modDisplay b f).clockPhase = s.clockPhase := rfl
@[simp] theorem State.modDisplay_esd (s : State) (b : BayId) (f : Display → Display) : (s.modDisplay b f).esd = s.esd := rfl
@[simp] theorem State.modDisplay_flags (s : State) (b : BayId) (f : Display → Display) :
    (s.modDisplay b f).flags = s.flags := rfl
@[simp] theorem State.modDisplay_mask (s : State) (b : BayId) (f : Display → Display) : (s.modDisplay b f).mask = s.mask := rfl
@[simp] theorem State.modDisplay_port (s : State) (b : BayId) (f : Display → Display) : (s.modDisplay b f).port = s.port := rfl
@[simp] theorem State.modDisplay_freeCount (s : State) (b : BayId) (f : Display → Display) :
    (s.modDisplay b f).freeCount = s.freeCount := rfl
@[simp] theorem State.modDisplay_pending (s : State) (b : BayId) (f : Display → Display) :
    (s.modDisplay b f).pending = s.pending := rfl

/-! ### modOrder -/

@[simp] theorem State.modOrder_permits (s : State) (t : SlotId) (f : Order → Order) : (s.modOrder t f).permits = s.permits := rfl
@[simp] theorem State.modOrder_products (s : State) (t : SlotId) (f : Order → Order) :
    (s.modOrder t f).products = s.products := rfl
@[simp] theorem State.modOrder_matrix (s : State) (t : SlotId) (f : Order → Order) : (s.modOrder t f).matrix = s.matrix := rfl
@[simp] theorem State.modOrder_orders (s : State) (t : SlotId) (f : Order → Order) :
    (s.modOrder t f).orders = vset s.orders t ((s.orderIn t).map f) := rfl
@[simp] theorem State.modOrder_creationCounter (s : State) (t : SlotId) (f : Order → Order) :
    (s.modOrder t f).creationCounter = s.creationCounter := rfl
@[simp] theorem State.modOrder_noteCounter (s : State) (t : SlotId) (f : Order → Order) :
    (s.modOrder t f).noteCounter = s.noteCounter := rfl
@[simp] theorem State.modOrder_bays (s : State) (t : SlotId) (f : Order → Order) : (s.modOrder t f).bays = s.bays := rfl
@[simp] theorem State.modOrder_arms (s : State) (t : SlotId) (f : Order → Order) : (s.modOrder t f).arms = s.arms := rfl
@[simp] theorem State.modOrder_headers (s : State) (t : SlotId) (f : Order → Order) : (s.modOrder t f).headers = s.headers := rfl
@[simp] theorem State.modOrder_meters (s : State) (t : SlotId) (f : Order → Order) : (s.modOrder t f).meters = s.meters := rfl
@[simp] theorem State.modOrder_injectors (s : State) (t : SlotId) (f : Order → Order) :
    (s.modOrder t f).injectors = s.injectors := rfl
@[simp] theorem State.modOrder_screens (s : State) (t : SlotId) (f : Order → Order) : (s.modOrder t f).screens = s.screens := rfl
@[simp] theorem State.modOrder_promptMap (s : State) (t : SlotId) (f : Order → Order) :
    (s.modOrder t f).promptMap = s.promptMap := rfl
@[simp] theorem State.modOrder_displays (s : State) (t : SlotId) (f : Order → Order) :
    (s.modOrder t f).displays = s.displays := rfl
@[simp] theorem State.modOrder_clock (s : State) (t : SlotId) (f : Order → Order) : (s.modOrder t f).clock = s.clock := rfl
@[simp] theorem State.modOrder_clockPhase (s : State) (t : SlotId) (f : Order → Order) :
    (s.modOrder t f).clockPhase = s.clockPhase := rfl
@[simp] theorem State.modOrder_esd (s : State) (t : SlotId) (f : Order → Order) : (s.modOrder t f).esd = s.esd := rfl
@[simp] theorem State.modOrder_flags (s : State) (t : SlotId) (f : Order → Order) : (s.modOrder t f).flags = s.flags := rfl
@[simp] theorem State.modOrder_mask (s : State) (t : SlotId) (f : Order → Order) : (s.modOrder t f).mask = s.mask := rfl
@[simp] theorem State.modOrder_port (s : State) (t : SlotId) (f : Order → Order) : (s.modOrder t f).port = s.port := rfl
@[simp] theorem State.modOrder_freeCount (s : State) (t : SlotId) (f : Order → Order) :
    (s.modOrder t f).freeCount = s.freeCount := rfl
@[simp] theorem State.modOrder_pending (s : State) (t : SlotId) (f : Order → Order) : (s.modOrder t f).pending = s.pending := rfl

/-! ### modBatch -/

@[simp] theorem State.modBatch_permits (s : State) (a : ArmId) (f : Batch → Batch) : (s.modBatch a f).permits = s.permits := rfl
@[simp] theorem State.modBatch_products (s : State) (a : ArmId) (f : Batch → Batch) :
    (s.modBatch a f).products = s.products := rfl
@[simp] theorem State.modBatch_matrix (s : State) (a : ArmId) (f : Batch → Batch) : (s.modBatch a f).matrix = s.matrix := rfl
@[simp] theorem State.modBatch_orders (s : State) (a : ArmId) (f : Batch → Batch) : (s.modBatch a f).orders = s.orders := rfl
@[simp] theorem State.modBatch_creationCounter (s : State) (a : ArmId) (f : Batch → Batch) :
    (s.modBatch a f).creationCounter = s.creationCounter := rfl
@[simp] theorem State.modBatch_noteCounter (s : State) (a : ArmId) (f : Batch → Batch) :
    (s.modBatch a f).noteCounter = s.noteCounter := rfl
@[simp] theorem State.modBatch_bays (s : State) (a : ArmId) (f : Batch → Batch) : (s.modBatch a f).bays = s.bays := rfl
@[simp] theorem State.modBatch_arms (s : State) (a : ArmId) (f : Batch → Batch) :
    (s.modBatch a f).arms = vset s.arms a { s.arm a with batch := (s.arm a).batch.map f } := rfl
@[simp] theorem State.modBatch_headers (s : State) (a : ArmId) (f : Batch → Batch) : (s.modBatch a f).headers = s.headers := rfl
@[simp] theorem State.modBatch_meters (s : State) (a : ArmId) (f : Batch → Batch) : (s.modBatch a f).meters = s.meters := rfl
@[simp] theorem State.modBatch_injectors (s : State) (a : ArmId) (f : Batch → Batch) :
    (s.modBatch a f).injectors = s.injectors := rfl
@[simp] theorem State.modBatch_screens (s : State) (a : ArmId) (f : Batch → Batch) : (s.modBatch a f).screens = s.screens := rfl
@[simp] theorem State.modBatch_promptMap (s : State) (a : ArmId) (f : Batch → Batch) :
    (s.modBatch a f).promptMap = s.promptMap := rfl
@[simp] theorem State.modBatch_displays (s : State) (a : ArmId) (f : Batch → Batch) :
    (s.modBatch a f).displays = s.displays := rfl
@[simp] theorem State.modBatch_clock (s : State) (a : ArmId) (f : Batch → Batch) : (s.modBatch a f).clock = s.clock := rfl
@[simp] theorem State.modBatch_clockPhase (s : State) (a : ArmId) (f : Batch → Batch) :
    (s.modBatch a f).clockPhase = s.clockPhase := rfl
@[simp] theorem State.modBatch_esd (s : State) (a : ArmId) (f : Batch → Batch) : (s.modBatch a f).esd = s.esd := rfl
@[simp] theorem State.modBatch_flags (s : State) (a : ArmId) (f : Batch → Batch) : (s.modBatch a f).flags = s.flags := rfl
@[simp] theorem State.modBatch_mask (s : State) (a : ArmId) (f : Batch → Batch) : (s.modBatch a f).mask = s.mask := rfl
@[simp] theorem State.modBatch_port (s : State) (a : ArmId) (f : Batch → Batch) : (s.modBatch a f).port = s.port := rfl
@[simp] theorem State.modBatch_freeCount (s : State) (a : ArmId) (f : Batch → Batch) :
    (s.modBatch a f).freeCount = s.freeCount := rfl
@[simp] theorem State.modBatch_pending (s : State) (a : ArmId) (f : Batch → Batch) : (s.modBatch a f).pending = s.pending := rfl

/-! ### modPermit -/

@[simp] theorem State.modPermit_permits (s : State) (card : Nat) (f : Permit → Permit) :
    (s.modPermit card f).permits = s.permits.map fun p => if p.card = card then f p else p := rfl
@[simp] theorem State.modPermit_products (s : State) (card : Nat) (f : Permit → Permit) :
    (s.modPermit card f).products = s.products := rfl
@[simp] theorem State.modPermit_matrix (s : State) (card : Nat) (f : Permit → Permit) :
    (s.modPermit card f).matrix = s.matrix := rfl
@[simp] theorem State.modPermit_orders (s : State) (card : Nat) (f : Permit → Permit) :
    (s.modPermit card f).orders = s.orders := rfl
@[simp] theorem State.modPermit_creationCounter (s : State) (card : Nat) (f : Permit → Permit) :
    (s.modPermit card f).creationCounter = s.creationCounter := rfl
@[simp] theorem State.modPermit_noteCounter (s : State) (card : Nat) (f : Permit → Permit) :
    (s.modPermit card f).noteCounter = s.noteCounter := rfl
@[simp] theorem State.modPermit_bays (s : State) (card : Nat) (f : Permit → Permit) : (s.modPermit card f).bays = s.bays := rfl
@[simp] theorem State.modPermit_arms (s : State) (card : Nat) (f : Permit → Permit) : (s.modPermit card f).arms = s.arms := rfl
@[simp] theorem State.modPermit_headers (s : State) (card : Nat) (f : Permit → Permit) :
    (s.modPermit card f).headers = s.headers := rfl
@[simp] theorem State.modPermit_meters (s : State) (card : Nat) (f : Permit → Permit) :
    (s.modPermit card f).meters = s.meters := rfl
@[simp] theorem State.modPermit_injectors (s : State) (card : Nat) (f : Permit → Permit) :
    (s.modPermit card f).injectors = s.injectors := rfl
@[simp] theorem State.modPermit_screens (s : State) (card : Nat) (f : Permit → Permit) :
    (s.modPermit card f).screens = s.screens := rfl
@[simp] theorem State.modPermit_promptMap (s : State) (card : Nat) (f : Permit → Permit) :
    (s.modPermit card f).promptMap = s.promptMap := rfl
@[simp] theorem State.modPermit_displays (s : State) (card : Nat) (f : Permit → Permit) :
    (s.modPermit card f).displays = s.displays := rfl
@[simp] theorem State.modPermit_clock (s : State) (card : Nat) (f : Permit → Permit) :
    (s.modPermit card f).clock = s.clock := rfl
@[simp] theorem State.modPermit_clockPhase (s : State) (card : Nat) (f : Permit → Permit) :
    (s.modPermit card f).clockPhase = s.clockPhase := rfl
@[simp] theorem State.modPermit_esd (s : State) (card : Nat) (f : Permit → Permit) : (s.modPermit card f).esd = s.esd := rfl
@[simp] theorem State.modPermit_flags (s : State) (card : Nat) (f : Permit → Permit) :
    (s.modPermit card f).flags = s.flags := rfl
@[simp] theorem State.modPermit_mask (s : State) (card : Nat) (f : Permit → Permit) : (s.modPermit card f).mask = s.mask := rfl
@[simp] theorem State.modPermit_port (s : State) (card : Nat) (f : Permit → Permit) : (s.modPermit card f).port = s.port := rfl
@[simp] theorem State.modPermit_freeCount (s : State) (card : Nat) (f : Permit → Permit) :
    (s.modPermit card f).freeCount = s.freeCount := rfl
@[simp] theorem State.modPermit_pending (s : State) (card : Nat) (f : Permit → Permit) :
    (s.modPermit card f).pending = s.pending := rfl

/-! ### raise -/

@[simp] theorem State.raise_permits (s : State) (e : EventFlag) : (s.raise e).permits = s.permits := rfl
@[simp] theorem State.raise_products (s : State) (e : EventFlag) : (s.raise e).products = s.products := rfl
@[simp] theorem State.raise_matrix (s : State) (e : EventFlag) : (s.raise e).matrix = s.matrix := rfl
@[simp] theorem State.raise_orders (s : State) (e : EventFlag) : (s.raise e).orders = s.orders := rfl
@[simp] theorem State.raise_creationCounter (s : State) (e : EventFlag) : (s.raise e).creationCounter = s.creationCounter := rfl
@[simp] theorem State.raise_noteCounter (s : State) (e : EventFlag) : (s.raise e).noteCounter = s.noteCounter := rfl
@[simp] theorem State.raise_bays (s : State) (e : EventFlag) : (s.raise e).bays = s.bays := rfl
@[simp] theorem State.raise_arms (s : State) (e : EventFlag) : (s.raise e).arms = s.arms := rfl
@[simp] theorem State.raise_headers (s : State) (e : EventFlag) : (s.raise e).headers = s.headers := rfl
@[simp] theorem State.raise_meters (s : State) (e : EventFlag) : (s.raise e).meters = s.meters := rfl
@[simp] theorem State.raise_injectors (s : State) (e : EventFlag) : (s.raise e).injectors = s.injectors := rfl
@[simp] theorem State.raise_screens (s : State) (e : EventFlag) : (s.raise e).screens = s.screens := rfl
@[simp] theorem State.raise_promptMap (s : State) (e : EventFlag) : (s.raise e).promptMap = s.promptMap := rfl
@[simp] theorem State.raise_displays (s : State) (e : EventFlag) : (s.raise e).displays = s.displays := rfl
@[simp] theorem State.raise_clock (s : State) (e : EventFlag) : (s.raise e).clock = s.clock := rfl
@[simp] theorem State.raise_clockPhase (s : State) (e : EventFlag) : (s.raise e).clockPhase = s.clockPhase := rfl
@[simp] theorem State.raise_esd (s : State) (e : EventFlag) : (s.raise e).esd = s.esd := rfl
@[simp] theorem State.raise_flags (s : State) (e : EventFlag) : (s.raise e).flags = addTo EventFlag.all e s.flags := rfl
@[simp] theorem State.raise_mask (s : State) (e : EventFlag) : (s.raise e).mask = s.mask := rfl
@[simp] theorem State.raise_port (s : State) (e : EventFlag) : (s.raise e).port = s.port := rfl
@[simp] theorem State.raise_freeCount (s : State) (e : EventFlag) : (s.raise e).freeCount = s.freeCount := rfl
@[simp] theorem State.raise_pending (s : State) (e : EventFlag) : (s.raise e).pending = s.pending := rfl

end Sys2Proof.Machine
end

