-- ==== Sys2Proof/Laws/Ops.lean ====
section
/-! SUPPORT. The lemmas of the table, set and record operations: reading after writing, membership, and the
record of one number after the change of another. -/

namespace Sys2Proof.Machine

/-! ### Tables -/

@[simp] theorem vget_vset_same {α : Type} {n : Nat} (v : Vector α n) (i : Fin n) (x : α) : vget (vset v i x) i = x := by
  simp [vget, vset]

theorem vget_vset {α : Type} {n : Nat} (v : Vector α n) (i j : Fin n) (x : α) :
    vget (vset v i x) j = if j = i then x else vget v j := by
  by_cases h : j = i
  · subst h; simp
  · have : i.val ≠ j.val := fun e => h (Fin.ext e.symm)
    simp [vget, vset, h, Vector.getElem_set_ne _ _ this]

theorem vget_vset_ne {α : Type} {n : Nat} (v : Vector α n) {i j : Fin n} (x : α) (h : j ≠ i) :
    vget (vset v i x) j = vget v j := by simp [vget_vset, h]

@[simp] theorem vget_vmap {α β : Type} {n : Nat} (f : α → β) (v : Vector α n) (i : Fin n) :
    vget (vmap f v) i = f (vget v i) := by simp [vget, vmap]

@[simp] theorem vget_ofFn {α : Type} {n : Nat} (f : Fin n → α) (i : Fin n) : vget (Vector.ofFn f) i = f i := by
  simp [vget]

@[simp] theorem vget_replicate {α : Type} {n : Nat} (x : α) (i : Fin n) : vget (Vector.replicate n x) i = x := by
  simp [vget]

theorem vset_vget_same {α : Type} {n : Nat} (v : Vector α n) (i : Fin n) : vset v i (vget v i) = v := by
  apply Vector.ext; intro k hk
  by_cases h : i.val = k
  · subst h; simp [vset, vget]
  · simp [vset, Vector.getElem_set_ne _ _ h]

/-! ### Sets -/

theorem mem_addTo {α : Type} [DecidableEq α] {all set : List α} {x y : α} (h : y ∈ all) :
    y ∈ addTo all x set ↔ y = x ∨ y ∈ set := by simp [addTo, h]

@[simp] theorem mem_dropFrom {α : Type} [DecidableEq α] {set : List α} {x y : α} :
    y ∈ dropFrom x set ↔ y ∈ set ∧ y ≠ x := by simp [dropFrom]

theorem EventFlag.mem_all (e : EventFlag) : e ∈ EventFlag.all := by cases e <;> decide
theorem HoldCause.mem_all (c : HoldCause) : c ∈ HoldCause.all := by cases c <;> decide
theorem mem_allArms (a : ArmId) : a ∈ allArms := List.mem_finRange a
theorem mem_allInjectors (i : InjectorId) : i ∈ allInjectors := List.mem_finRange i
theorem mem_allSlots (t : SlotId) : t ∈ allSlots := List.mem_finRange t

/-- A raised flag is set, and every other flag keeps its value. -/
theorem State.mem_flags_raise (s : State) (e f : EventFlag) : f ∈ (s.raise e).flags ↔ f = e ∨ f ∈ s.flags := by
  simp [mem_addTo (EventFlag.mem_all f)]

/-! ### Numbers -/

theorem numbered_eq_some {n k : Nat} {i : Fin n} : numbered n k = some i ↔ k = num i := by
  unfold numbered num
  constructor
  · intro h; split at h
    · rename_i hk; cases h; simp; omega
    · cases h
  · intro h
    have := i.isLt
    have hk : 1 ≤ k ∧ k ≤ n := by omega
    simp only [hk, and_self, dite_true, Option.some.injEq]
    apply Fin.ext; simp; omega

theorem numbered_num {n : Nat} (i : Fin n) : numbered n (num i) = some i := numbered_eq_some.mpr rfl

theorem numbered_eq_none {n k : Nat} : numbered n k = none ↔ k < 1 ∨ n < k := by
  unfold numbered; split <;> simp <;> omega

theorem coded_eq_some {n k : Nat} {i : Fin n} : coded n k = some i ↔ k = i.val := by
  unfold coded
  constructor
  · intro h; split at h
    · cases h; rfl
    · cases h
  · intro h; subst h; simp

theorem inRange_eq_true {lo hi k : Nat} : inRange lo hi k = true ↔ lo ≤ k ∧ k ≤ hi := by simp [inRange]

/-! ### Records after a change -/

theorem State.session_modSession (s : State) (b c : BayId) (f : Session → Session) :
    (s.modSession b f).session c = if c = b then f (s.session b) else s.session c := by
  simp [State.session, vget_vset]

@[simp] theorem State.session_modSession_same (s : State) (b : BayId) (f : Session → Session) :
    (s.modSession b f).session b = f (s.session b) := by simp [State.session_modSession]

theorem State.arm_modArm (s : State) (a c : ArmId) (f : Arm → Arm) :
    (s.modArm a f).arm c = if c = a then f (s.arm a) else s.arm c := by
  simp [State.arm, vget_vset]

@[simp] theorem State.arm_modArm_same (s : State) (a : ArmId) (f : Arm → Arm) : (s.modArm a f).arm a = f (s.arm a) := by
  simp [State.arm_modArm]

theorem State.header_modHeader (s : State) (h k : HeaderId) (f : Header → Header) :
    (s.modHeader h f).header k = if k = h then f (s.header h) else s.header k := by
  simp [State.header, vget_vset]

theorem State.meter_modMeter (s : State) (m k : MeterId) (f : Meter → Meter) :
    (s.modMeter m f).meter k = if k = m then f (s.meter m) else s.meter k := by
  simp [State.meter, vget_vset]

@[simp] theorem State.meter_modMeter_same (s : State) (m : MeterId) (f : Meter → Meter) :
    (s.modMeter m f).meter m = f (s.meter m) := by simp [State.meter_modMeter]

theorem State.injector_modInjector (s : State) (i k : InjectorId) (f : Injector → Injector) :
    (s.modInjector i f).injector k = if k = i then f (s.injector i) else s.injector k := by
  simp [State.injector, vget_vset]

@[simp] theorem State.injector_modInjector_same (s : State) (i : InjectorId) (f : Injector → Injector) :
    (s.modInjector i f).injector i = f (s.injector i) := by simp [State.injector_modInjector]

theorem State.display_modDisplay (s : State) (b c : BayId) (f : Display → Display) :
    (s.modDisplay b f).display c = if c = b then f (s.display b) else s.display c := by
  simp [State.display, vget_vset]

theorem State.orderIn_modOrder (s : State) (t u : SlotId) (f : Order → Order) :
    (s.modOrder t f).orderIn u = if u = t then (s.orderIn t).map f else s.orderIn u := by
  simp [State.orderIn, vget_vset]

theorem State.batch_modBatch (s : State) (a c : ArmId) (f : Batch → Batch) :
    (s.modBatch a f).batch c = if c = a then (s.batch a).map f else s.batch c := by
  simp only [State.batch, State.modBatch, State.arm_modArm]
  split <;> simp_all

/-! ### Permits -/

theorem State.findPermit_card {s : State} {card : Nat} {p : Permit} (h : s.findPermit card = some p) : p.card = card := by
  have := List.find?_some h; simpa using this

theorem State.findPermit_mem {s : State} {card : Nat} {p : Permit} (h : s.findPermit card = some p) : p ∈ s.permits :=
  List.mem_of_find?_eq_some h

/-- The card numbers of the permits held, in list order. -/
def State.cards (s : State) : List Nat := s.permits.map (·.card)

/-- A change that keeps the card number leaves the list of card numbers. -/
theorem State.cards_modPermit (s : State) (card : Nat) (f : Permit → Permit) (h : ∀ p, (f p).card = p.card) :
    (s.modPermit card f).cards = s.cards := by
  simp only [State.cards, State.modPermit_permits, List.map_map]
  apply List.map_congr_left
  intro p _
  simp only [Function.comp]
  split <;> simp [h]

/-! ### Values that must lie in a range -/

/-- What drawing a bounded value does: the value lies in the range, it is the exact one where that does, and
nothing but the count of free values can change. -/
theorem State.bounded_spec (s : State) (max exact : Nat) :
    (s.bounded max exact).1 ≤ max ∧ (exact ≤ max → s.bounded max exact = (exact, s)) ∧
      ∃ k, (s.bounded max exact).2 = { s with freeCount := k } := by
  unfold State.bounded
  split
  · exact ⟨by assumption, fun _ => rfl, s.freeCount, rfl⟩
  · refine ⟨?_, fun h => absurd h (by assumption), s.freeCount + 1, rfl⟩
    have := Nat.mod_lt (Config.freeValue s.freeCount) (Nat.succ_pos max)
    simp only [Nat.succ_eq_add_one] at this; simpa using Nat.le_of_lt_succ this

end Sys2Proof.Machine
end

