-- ==== Sys2Proof/Laws/Keeps.lean ====
section
/-! SUPPORT. What every operation inside an event can do, said once: it keeps the host's records
(`SameHostRecords`), and it keeps each of the laws of Safety.lean that speak of batches, meters, notes and
drawing sets. The lemmas are in accumulating form: what was kept up to `t` is kept up to the operation on
`t`. -/

namespace Sys2Proof.Machine

set_option Elab.async false

/-- What an operation inside an event keeps, the drawing sets and the stops of ESD aside. -/
structure Holds (s t : State) : Prop where
  same : s.SameHostRecords t
  quiet : s.StoppedDemandsZero → t.StoppedDemandsZero
  residues : s.ResiduesBelowK → t.ResiduesBelowK
  notes : s.NotesDistinct → t.NotesDistinct

/-- What an operation inside an event keeps. -/
structure Keeps (s t : State) : Prop extends Holds s t where
  drawing : s.DrawingExact → t.DrawingExact
  esd : s.EsdStopsFlow → t.EsdStopsFlow

theorem Keeps.refl (s : State) : Keeps s s where
  same := by constructor <;> simp
  quiet := id
  residues := id
  notes := id
  drawing := id
  esd := id

theorem Holds.trans {s t u : State} (h : Holds s t) (k : Holds t u) : Holds s u where
  same := by
    obtain ⟨h, -, -, -⟩ := h; obtain ⟨k, -, -, -⟩ := k
    constructor
    · exact k.permits.trans h.permits
    · exact k.products.trans h.products
    · exact k.matrix.trans h.matrix
    · exact fun a => (k.orders a).trans (h.orders a)
    · exact k.creationCounter.trans h.creationCounter
    · exact fun a => (k.arms a).trans (h.arms a)
    · exact fun a => (k.headers a).trans (h.headers a)
    · exact fun a => (k.meters a).trans (h.meters a)
    · exact fun a => (k.injectors a).trans (h.injectors a)
    · exact k.screens.trans h.screens
    · exact k.promptMap.trans h.promptMap
    · exact k.clock.trans h.clock
    · exact k.clockPhase.trans h.clockPhase
    · exact k.mask.trans h.mask
    · exact k.port.trans h.port
    · exact k.pending.trans h.pending
  quiet q := k.quiet (h.quiet q)
  residues q := k.residues (h.residues q)
  notes q := k.notes (h.notes q)

theorem Keeps.trans {s t u : State} (h : Keeps s t) (k : Keeps t u) : Keeps s u :=
  { h.toHolds.trans k.toHolds with
    drawing := fun q => k.drawing (h.drawing q)
    esd := fun q => k.esd (h.esd q) }

/-! ### Primitive updates -/

section primitives
variable {s t : State}

/-- Updates of sessions, displays, flags and the count of free values keep everything. -/
theorem Keeps.outside {bays displays flags freeCount} (h : Keeps s t) :
    Keeps s { t with bays := bays, displays := displays, flags := flags, freeCount := freeCount } :=
  h.trans { same := by constructor <;> simp [State.arm, State.header, State.meter, State.injector, State.orderIn]
            quiet := fun q a b hb => q a b hb
            residues := id
            notes := id
            drawing := id
            esd := fun q e a b hb => q e a b hb }

/-- The ESD record changed, whatever its state: all is kept but the stops of ESD. -/
theorem Holds.setEsd (h : Holds s t) (e : Esd) : Holds s { t with esd := e } :=
  h.trans { same := by constructor <;> simp [State.arm, State.header, State.meter, State.injector, State.orderIn]
            quiet := fun q a b hb => q a b hb
            residues := id
            notes := id }

/-- The ESD record changed, its state not made active. -/
theorem Keeps.setEsd (h : Keeps s t) (e : Esd) (he : e.active = true → t.esd.active = true) :
    Keeps s { t with esd := e } :=
  { h.toHolds.setEsd e with
    drawing := h.drawing
    esd := fun q a => h.esd q (he a) }

theorem Keeps.modSession (h : Keeps s t) (b : BayId) (f : Session → Session) : Keeps s (t.modSession b f) := h.outside
theorem Keeps.modDisplay (h : Keeps s t) (b : BayId) (f : Display → Display) : Keeps s (t.modDisplay b f) := h.outside
theorem Keeps.raise (h : Keeps s t) (e : EventFlag) : Keeps s (t.raise e) := h.outside

/-- An order changed in its stage and in what loading writes, and not made NOTED. -/
theorem Keeps.modOrder (h : Keeps s t) (i : SlotId) (f : Order → Order)
    (hf : ∀ o, (f o).fixedPart = o.fixedPart := by intro _; rfl)
    (hn : ∀ o, (f o).noteNumber = o.noteNumber ∨ (f o).noteNumber = none := by
      intro _; first | exact .inl rfl | exact .inr rfl) : Keeps s (t.modOrder i f) :=
  h.trans
    { same := by
        constructor <;> try simp [State.arm, State.header, State.meter, State.injector]
        intro k; rw [State.orderIn_modOrder]
        split
        · rename_i e; subst e; cases t.orderIn k <;> simp [hf]
        · rfl
      quiet := fun q a b hb => q a b hb
      residues := id
      notes := by
        rintro ⟨hc, hd⟩
        refine ⟨hc, fun j k n hj hk => ?_⟩
        have key : ∀ j n, (t.modOrder i f).noteAt j = some n → t.noteAt j = some n := by
          intro j n hj
          simp only [State.noteAt, State.orderIn_modOrder] at hj ⊢
          split at hj
          · rename_i e; subst e
            cases ho : t.orderIn j with
            | none => simp [ho] at hj
            | some o =>
              simp only [ho, Option.map_some, Option.bind_some] at hj ⊢
              rcases hn o with e | e <;> simp_all
          · exact hj
        exact hd j k n (key j n hj) (key k n hk)
      drawing := id
      esd := fun q e a b hb => q e a b hb }

theorem Keeps.modPermit (h : Keeps s t) (card : Nat) (f : Permit → Permit)
    (hf : ∀ p, (f p).fixedPart = p.fixedPart := by intro _; rfl) : Keeps s (t.modPermit card f) :=
  h.trans
    { same := by
        constructor <;> try simp [State.arm, State.header, State.meter, State.injector, State.orderIn]
        intro p _; split <;> simp [hf]
      quiet := fun q a b hb => q a b hb
      residues := id
      notes := id
      drawing := id
      esd := fun q e a b hb => q e a b hb }

theorem Keeps.modMeter (h : Keeps s t) (i : MeterId) (f : Meter → Meter)
    (hf : ∀ x, (f x).fixedPart = x.fixedPart := by intro _; rfl)
    (hr : (t.meter i).residue < (t.meter i).k → (f (t.meter i)).residue < (f (t.meter i)).k := by
      intro hr; exact hr) : Keeps s (t.modMeter i f) :=
  h.trans
    { same := by
        constructor <;> try simp [State.arm, State.header, State.injector, State.orderIn]
        intro k; rw [State.meter_modMeter]; split <;> simp_all
      quiet := fun q a b hb => q a b hb
      residues := by
        intro q k; rw [State.meter_modMeter]
        split
        · exact hr (q i)
        · exact q k
      notes := id
      drawing := id
      esd := fun q e a b hb => q e a b hb }

theorem Keeps.modInjector (h : Keeps s t) (i : InjectorId) (f : Injector → Injector)
    (hf : (f (t.injector i)).fixedPart = (t.injector i).fixedPart := by rfl) : Keeps s (t.modInjector i f) :=
  h.trans
    { same := by
        constructor <;> try simp [State.arm, State.header, State.meter, State.orderIn]
        intro k; rw [State.injector_modInjector]; split <;> simp_all
      quiet := fun q a b hb => q a b hb
      residues := id
      notes := id
      drawing := id
      esd := fun q e a b hb => q e a b hb }

/-- Every injector changed alike. -/
theorem Keeps.mapInjectors (h : Keeps s t) (f : Injector → Injector)
    (hf : ∀ x, (f x).fixedPart = x.fixedPart := by intro _; rfl) :
    Keeps s { t with injectors := vmap f t.injectors } :=
  h.trans
    { same := by constructor <;> simp [State.arm, State.header, State.meter, State.injector, State.orderIn, hf]
      quiet := fun q a b hb => q a b hb
      residues := id
      notes := id
      drawing := id
      esd := fun q e a b hb => q e a b hb }

/-- What a change of a batch must leave for the laws: no demand where it does not flow, whether it flows, its
main header, and, while ESD is active, its stop by ESD. -/
structure BatchKept (active : Bool) (b b' : Batch) : Prop where
  quiet : b.Quiet → b'.Quiet
  flowing : b'.state.flowing = b.state.flowing
  header : b'.snapshot.mainHeader = b.snapshot.mainHeader
  esd : active = true → b.EsdStopped → b'.EsdStopped

/-- An arm changed outside its host fields, a batch it then has quiet where that of before was. -/
theorem Holds.modArm (h : Holds s t) (a : ArmId) (f : Arm → Arm)
    (hb : ∀ b', (f (t.arm a)).batch = some b' → b'.Quiet ∨ ∃ b, t.batch a = some b ∧ (b.Quiet → b'.Quiet))
    (hf : ∀ x, (f x).fixedPart = x.fixedPart := by intro _; rfl) : Holds s (t.modArm a f) :=
  h.trans
    { same := by
        constructor <;> try simp [State.header, State.meter, State.injector, State.orderIn]
        intro k; rw [State.arm_modArm]; split <;> simp_all
      quiet := by
        intro q c b' hc
        simp only [State.batch, State.arm_modArm] at hc
        split at hc
        · rcases hb b' hc with k | ⟨b, e, k⟩
          · exact k
          · exact k (q a b e)
        · exact q c b' hc
      residues := id
      notes := id }

theorem Holds.modBatch (h : Holds s t) (a : ArmId) (f : Batch → Batch)
    (hf : ∀ b, t.batch a = some b → (f b).Quiet ∨ (b.Quiet → (f b).Quiet)) : Holds s (t.modBatch a f) := by
  refine h.modArm a _ ?_
  intro b' hb
  simp only [Option.map_eq_some_iff] at hb
  obtain ⟨b, e, rfl⟩ := hb
  rcases hf b e with k | k
  · exact .inl k
  · exact .inr ⟨b, e, k⟩

/-- A header changed in its drawing set. -/
theorem Holds.modHeader (h : Holds s t) (i : HeaderId) (f : Header → Header)
    (hf : ∀ x, (f x).capacity = x.capacity := by intro _; rfl) : Holds s (t.modHeader i f) :=
  h.trans
    { same := by
        constructor <;> try simp [State.arm, State.meter, State.injector, State.orderIn]
        intro k; rw [State.header_modHeader]; split <;> simp_all
      quiet := fun q a b hb => q a b hb
      residues := id
      notes := id }

/-- An arm changed outside its host fields, its batch kept or left absent. -/
theorem Keeps.modArm (h : Keeps s t) (a : ArmId) (f : Arm → Arm)
    (hb : ∀ b', (f (t.arm a)).batch = some b' → ∃ b, t.batch a = some b ∧ BatchKept t.esd.active b b')
    (hs : (t.batch a).isSome → (f (t.arm a)).batch.isSome)
    (hf : ∀ x, (f x).fixedPart = x.fixedPart := by intro _; rfl) : Keeps s (t.modArm a f) :=
  { h.toHolds.modArm a f (fun b' e => have ⟨b, e, k⟩ := hb b' e; .inr ⟨b, e, k.quiet⟩) hf with
    drawing := by
      intro q k c
      rw [show ((t.modArm a f).header k).drawing = (t.header k).drawing from rfl, h.drawing q k c]
      simp only [State.batch, State.arm_modArm]
      split
      · rename_i e; subst e
        constructor
        · rintro ⟨b, e, fl, hm⟩
          obtain ⟨b', e'⟩ := Option.isSome_iff_exists.mp (hs (by simp [State.batch, e]))
          obtain ⟨b2, e2, k⟩ := hb b' e'
          rw [State.batch, e] at e2; cases e2
          exact ⟨b', e', by rw [k.flowing]; exact fl, by rw [k.header]; exact hm⟩
        · rintro ⟨b', e', fl, hm⟩
          obtain ⟨b, e, k⟩ := hb b' e'
          exact ⟨b, e, by rw [← k.flowing]; exact fl, by rw [← k.header]; exact hm⟩
      · rfl
    esd := by
      intro q e c b' hc
      simp only [State.batch, State.arm_modArm] at hc
      split at hc
      · obtain ⟨b, hb0, k⟩ := hb b' hc
        exact k.esd e (h.esd q e a b hb0)
      · exact h.esd q e c b' hc }

/-- An arm whose batch does not flow changed outside its host fields, its batch afterwards not flowing. -/
theorem Keeps.modArm_still (h : Keeps s t) (a : ArmId) (f : Arm → Arm) (hb : ∀ b', (f (t.arm a)).batch ≠ some b')
    (hs : t.flowing a = false)
    (hf : ∀ x, (f x).fixedPart = x.fixedPart := by intro _; rfl) : Keeps s (t.modArm a f) :=
  { h.toHolds.modArm a f (fun b' e => absurd e (hb b')) hf with
    drawing := by
      intro q k c
      rw [show ((t.modArm a f).header k).drawing = (t.header k).drawing from rfl, h.drawing q k c]
      simp only [State.batch, State.arm_modArm]
      split
      · rename_i e; subst e
        constructor
        · rintro ⟨b, e, fl, -⟩
          simp [State.flowing, State.batch, e, fl] at hs
        · rintro ⟨b', e', -⟩; exact absurd e' (hb b')
      · rfl
    esd := by
      intro q e c b' hc
      simp only [State.batch, State.arm_modArm] at hc
      split at hc
      · exact absurd hc (hb b')
      · exact h.esd q e c b' hc }

theorem Keeps.modBatch (h : Keeps s t) (a : ArmId) (f : Batch → Batch) (hf : ∀ b, t.batch a = some b → BatchKept t.esd.active b (f b)) :
    Keeps s (t.modBatch a f) := by
  refine h.modArm a _ ?_ ?_
  · intro b' hb
    simp only [Option.map_eq_some_iff] at hb
    obtain ⟨b, e, rfl⟩ := hb
    exact ⟨b, e, hf b e⟩
  · simp [State.batch]

/-- A batch changed with its state, demands, snapshot and hold set as they were. -/
theorem Keeps.modBatch' (h : Keeps s t) (a : ArmId) (f : Batch → Batch)
    (hs : ∀ b, (f b).state = b.state := by intro _; rfl) (hm : ∀ b, (f b).mainDemand = b.mainDemand := by intro _; rfl)
    (hb : ∀ b, (f b).blendDemand = b.blendDemand := by intro _; rfl)
    (hn : ∀ b, (f b).snapshot = b.snapshot := by intro _; rfl)
    (hh : ∀ b, (f b).holdSet = b.holdSet := by intro _; rfl) : Keeps s (t.modBatch a f) :=
  h.modBatch a f fun b _ =>
    { quiet := fun q => by simp only [Batch.Quiet, hs, hm, hb] at q ⊢; exact q
      flowing := by rw [hs]
      header := by rw [hn]
      esd := fun _ q => by simp only [Batch.EsdStopped, hs, hh] at q ⊢; exact q }

/-- A hold set changed, the cause ESD kept in it while ESD is active. -/
theorem Keeps.modHolds (h : Keeps s t) (a : ArmId) (f : List HoldCause → List HoldCause)
    (hf : ∀ b, t.batch a = some b → t.esd.active = true → HoldCause.esd ∈ b.holdSet → HoldCause.esd ∈ f b.holdSet) :
    Keeps s (t.modBatch a fun b => { b with holdSet := f b.holdSet }) :=
  h.modBatch a _ fun b hb =>
    { quiet := fun q => q
      flowing := rfl
      header := rfl
      esd := fun e q => q.imp id fun k => ⟨k.1, hf b hb e k.2⟩ }

theorem Keeps.foldl {α : Type} (f : State → α → State) (hf : ∀ u x, Keeps u (f u x)) (h : Keeps s t) (l : List α) :
    Keeps s (l.foldl f t) := by
  induction l generalizing t with
  | nil => exact h
  | cons x rest ih => exact ih (h.trans (hf t x))

end primitives

/-! ### Orders, permits, stock, sessions -/

theorem Order.modComp_fixedPart (o : Order) (n : CompNo) (f : Compartment → Compartment)
    (hf : ∀ c, (f c).fixedPart = c.fixedPart) : (o.modComp n f).fixedPart = o.fixedPart := by
  simp only [Order.fixedPart, Order.modComp, List.map_map, Order.mk.injEq, true_and]
  apply List.map_congr_left
  intro c _
  simp only [Function.comp]
  split <;> simp [hf]

section
variable {s t : State}

theorem Keeps.modComp (h : Keeps s t) (r : CompRef) (f : Compartment → Compartment)
    (hf : ∀ c, (f c).fixedPart = c.fixedPart := by intro _; rfl) : Keeps s (t.modComp r f) := by
  unfold State.modComp; split
  · exact h.modOrder _ _ (fun o => Order.modComp_fixedPart o _ f hf) (fun _ => .inl rfl)
  · exact h

theorem Keeps.doseFlag (h : Keeps s t) (r : CompRef) (i : InjectorId) (f : ResultFlag) : Keeps s (t.doseFlag r i f) := by
  unfold State.doseFlag; split
  · exact h.modComp _ _
  · exact h

theorem Keeps.putStock (h : Keeps s t) (i : InjectorId) (n : Nat) : Keeps s (t.putStock i n) := by
  have k := h.modInjector i (fun x => { x with stock := n }) rfl
  unfold State.putStock; dsimp only; split
  · exact k.raise _
  · exact k

theorem Keeps.lowerStock (h : Keeps s t) (i : InjectorId) (n : Nat) : Keeps s (t.lowerStock i n) := h.putStock i _

theorem Keeps.releaseReservations (h : Keeps s t) (r : CompRef) : Keeps s (t.releaseReservations r) := h.mapInjectors _

theorem Keeps.removeQueueEntries (h : Keeps s t) (a : ArmId) : Keeps s (t.removeQueueEntries a) := h.mapInjectors _

theorem Keeps.refuse (h : Keeps s t) (b : BayId) (r : Reason) : Keeps s (t.refuse b r) := h.modSession b _
theorem Keeps.clearReason (h : Keeps s t) (b : BayId) : Keeps s (t.clearReason b) := h.modSession b _

theorem Keeps.returnToIdle (h : Keeps s t) (b : BayId) : Keeps s (t.returnToIdle b) := by
  unfold State.returnToIdle; dsimp only
  split
  · exact ((h.modPermit _ _).modSession b _).raise _
  · exact (h.modSession b _).raise _

theorem Keeps.bounded (h : Keeps s t) (max exact : Nat) : Keeps s (t.bounded max exact).2 := by
  obtain ⟨k, hk⟩ := (State.bounded_spec t max exact).2.2
  rw [hk]; exact h.outside

/-! ### Notes -/

theorem nextNumber_range {n : Nat} (h : 1 ≤ n ∧ n ≤ 999999) : 1 ≤ nextNumber n ∧ nextNumber n ≤ 999999 := by
  unfold nextNumber; split <;> omega

/-- The k-th candidate after a note number. -/
theorem nextNumber_iterate {n : Nat} (h : 1 ≤ n ∧ n ≤ 999999) (k : Nat) :
    nextNumber^[k] n = (n - 1 + k) % 999999 + 1 := by
  induction k generalizing n with
  | zero => simp [Nat.mod_eq_of_lt (show n - 1 < 999999 by omega)]; omega
  | succ k ih =>
    rw [Function.iterate_succ_apply, ih (nextNumber_range h)]
    unfold nextNumber
    split
    · subst_vars; omega
    · have : n + 1 - 1 + k = n - 1 + (k + 1) := by omega
      rw [this]

/-- Unless all of the first candidates are held, the number found is held by none. -/
theorem skipHeld_spec (held : List Nat) (fuel n : Nat) :
    (skipHeld held fuel n ∉ held ∨ ∀ k < fuel, nextNumber^[k] n ∈ held) ∧ ∃ k, skipHeld held fuel n = nextNumber^[k] n := by
  induction fuel generalizing n with
  | zero => exact ⟨.inr (by simp), 0, rfl⟩
  | succ fuel ih =>
    unfold skipHeld
    split
    · rename_i hn
      obtain ⟨h1, k, h2⟩ := ih (nextNumber n)
      refine ⟨?_, k + 1, by rw [h2, Function.iterate_succ_apply]⟩
      rcases h1 with h | h
      · exact .inl h
      · refine .inr fun k hk => ?_
        cases k with
        | zero => exact hn
        | succ k => rw [Function.iterate_succ_apply]; exact h k (by omega)
    · rename_i hn; exact ⟨.inl hn, 0, rfl⟩

theorem State.mem_heldNotes (s : State) (n : Nat) : n ∈ s.heldNotes ↔ ∃ i, s.noteAt i = some n := by
  simp only [State.heldNotes, State.heldOrders, List.mem_filterMap, State.noteAt]
  constructor
  · rintro ⟨⟨i, o⟩, ⟨j, -, hj⟩, hn⟩
    refine ⟨j, ?_⟩
    cases ho : s.orderIn j with
    | none => simp [ho] at hj
    | some p =>
      simp only [ho, Option.map_some, Option.some.injEq, Prod.mk.injEq] at hj
      obtain ⟨rfl, rfl⟩ := hj
      simp only [Option.bind_some, Order.noteNumber]
      split at hn <;> simp_all
  · rintro ⟨i, hi⟩
    cases ho : s.orderIn i with
    | none => simp [ho] at hi
    | some o =>
      refine ⟨(i, o), ⟨i, mem_allSlots i, by simp [ho]⟩, ?_⟩
      simp only [ho, Option.bind_some, Order.noteNumber] at hi
      split at hi <;> simp_all

/-- The note number an issue takes is held by no NOTED order, while some slot holds none (R151). -/
theorem State.nextNote_fresh (s : State) (h : 1 ≤ s.noteCounter ∧ s.noteCounter ≤ 999999) (i : SlotId)
    (hi : s.noteAt i = none) : (∀ j, s.noteAt j ≠ some s.nextNote) ∧ 1 ≤ s.nextNote ∧ s.nextNote ≤ 999999 := by
  obtain ⟨h1, k, h2⟩ := skipHeld_spec s.heldNotes 64 s.noteCounter
  refine ⟨?_, by unfold State.nextNote; rw [h2, nextNumber_iterate h]; omega⟩
  rcases h1 with h1 | h1
  · intro j hj; exact h1 ((s.mem_heldNotes _).mpr ⟨j, hj⟩)
  · exfalso
    choose f hf using fun k : Fin 64 => (s.mem_heldNotes _).mp (h1 k.val k.isLt)
    have inj : Function.Injective f := by
      intro a b e
      have := (hf a).symm.trans (e ▸ hf b)
      simp only [Option.some.injEq, nextNumber_iterate h] at this
      apply Fin.ext
      have ha := a.isLt; have hb := b.isLt
      omega
    obtain ⟨k, hk⟩ := Finite.injective_iff_surjective.mp inj i
    rw [← hk, hf] at hi; cases hi

theorem Compartment.doseChecked_fixedPart (c : Compartment) : c.doseChecked.fixedPart = c.fixedPart := rfl

/-- A note under a fresh number written into an order that has none. -/
theorem Keeps.writeNote (h : Keeps s t) (i : SlotId) (part : SessionPart) (note : NotePart)
    (hi : t.noteAt i = none) (hn : note.number = t.nextNote) : Keeps s (t.writeNote i part note) := by
  have orders : ∀ k, (t.writeNote i part note).orderIn k =
      if k = i then (t.orderIn i).map fun o => o.noted part t.clock note else t.orderIn k :=
    fun k => State.orderIn_modOrder t i k _
  refine h.trans
    { same := ?_, quiet := fun q a b hb => q a b hb, residues := id, notes := ?_, drawing := id,
      esd := fun q e a b hb => q e a b hb }
  · constructor <;> try first | rfl | (intro _; rfl)
    intro k; rw [orders]
    split
    · rename_i e; subst e
      cases t.orderIn k <;>
        simp [Order.noted, Order.fixedPart, Compartment.doseChecked_fixedPart, Function.comp_def]
    · rfl
  · rintro ⟨hc, hd⟩
    obtain ⟨fr, rg⟩ := t.nextNote_fresh hc i hi
    refine ⟨by rw [show (t.writeNote i part note).noteCounter = nextNumber note.number from rfl, hn]; exact nextNumber_range rg, ?_⟩
    have key : ∀ j n, (t.writeNote i part note).noteAt j = some n →
        (j = i ∧ n = t.nextNote) ∨ (j ≠ i ∧ t.noteAt j = some n) := by
      intro j n hj
      simp only [State.noteAt, orders] at hj
      split at hj
      · rename_i e
        cases ho : t.orderIn i with
        | none => simp [ho] at hj
        | some o =>
          simp only [ho, Option.map_some, Option.bind_some, Order.noteNumber, Order.noted, Option.some.injEq] at hj
          exact .inl ⟨e, by rw [← hj, hn]⟩
      · rename_i e; exact .inr ⟨e, hj⟩
    intro j k n hj hk
    rcases key j n hj with ⟨e1, e2⟩ | ⟨e1, e2⟩ <;> rcases key k n hk with ⟨e3, e4⟩ | ⟨e3, e4⟩
    · rw [e1, e3]
    · exact absurd (e2 ▸ e4) (fr k)
    · exact absurd (e4 ▸ e2) (fr j)
    · exact hd j k n e2 e4

theorem Keeps.issueNote (h : Keeps s t) (i : SlotId) (f : List NoteFlag) : Keeps s (t.issueNote i f) := by
  unfold State.issueNote
  split
  · exact h
  · rename_i o ho
    split
    · rename_i part hp
      exact ((h.writeNote i part _ (by simp [State.noteAt, ho, Order.noteNumber, hp]) rfl).modPermit _ _).raise _
    · exact h

theorem Keeps.reopen (h : Keeps s t) (i : SlotId) : Keeps s (t.reopen i) := h.modOrder i _

theorem Keeps.settleOrder (h : Keeps s t) (i : SlotId) (f : List NoteFlag) : Keeps s (t.settleOrder i f) := by
  unfold State.settleOrder
  split
  · exact h
  · split
    · exact h.issueNote i f
    · exact h.reopen i

theorem Compartment.recovered_fixedPart (c : Compartment) : c.recovered.fixedPart = c.fixedPart := by
  unfold Compartment.recovered; split <;> rfl

theorem Keeps.recoverOrder (h : Keeps s t) (i : SlotId) : Keeps s (t.recoverOrder i) := by
  refine Keeps.settleOrder (h.modOrder i _ (fun o => ?_)) i _
  simp [Order.fixedPart, Function.comp_def, Compartment.recovered_fixedPart]

theorem Keeps.recoverFirst (h : Keeps s t) (n : Nat) : Keeps s (t.recoverFirst n) :=
  h.foldl _ (fun u i => (Keeps.refl u).recoverOrder i) _

theorem Keeps.recoverOrders (h : Keeps s t) : Keeps s t.recoverOrders := h.recoverFirst _

end

end Sys2Proof.Machine
end

