-- ==== Sys2Proof/Laws/KeepsControl.lean ====
section
/-! SUPPORT. What the operations of flow control keep (`Keeps`): ceilings, holds, resumes, closings, the flow
profile. An operation that moves an arm into or out of a drawing set is taken whole, since the law of the
drawing sets does not hold between its parts. -/

namespace Sys2Proof.Machine

set_option Elab.async false

/-! ### Views -/

@[simp] theorem State.modComp_arms (s : State) (r : CompRef) (f : Compartment → Compartment) :
    (s.modComp r f).arms = s.arms := by unfold State.modComp; split <;> rfl
@[simp] theorem State.modComp_headers (s : State) (r : CompRef) (f : Compartment → Compartment) :
    (s.modComp r f).headers = s.headers := by unfold State.modComp; split <;> rfl
@[simp] theorem State.modComp_esd (s : State) (r : CompRef) (f : Compartment → Compartment) :
    (s.modComp r f).esd = s.esd := by unfold State.modComp; split <;> rfl
@[simp] theorem State.batch_modComp (s : State) (r : CompRef) (f : Compartment → Compartment) (a : ArmId) :
    (s.modComp r f).batch a = s.batch a := by simp [State.batch, State.arm]
@[simp] theorem State.header_modComp (s : State) (r : CompRef) (f : Compartment → Compartment) (k : HeaderId) :
    (s.modComp r f).header k = s.header k := by simp [State.header]
@[simp] theorem State.batch_raise (s : State) (e : EventFlag) (a : ArmId) : (s.raise e).batch a = s.batch a := rfl
@[simp] theorem State.header_raise (s : State) (e : EventFlag) (k : HeaderId) : (s.raise e).header k = s.header k := rfl
@[simp] theorem State.batch_removeQueueEntries (s : State) (c a : ArmId) :
    (s.removeQueueEntries c).batch a = s.batch a := rfl
@[simp] theorem State.header_removeQueueEntries (s : State) (c : ArmId) (k : HeaderId) :
    (s.removeQueueEntries c).header k = s.header k := rfl
@[simp] theorem State.batch_releaseReservations (s : State) (r : CompRef) (a : ArmId) :
    (s.releaseReservations r).batch a = s.batch a := rfl
@[simp] theorem State.header_releaseReservations (s : State) (r : CompRef) (k : HeaderId) :
    (s.releaseReservations r).header k = s.header k := rfl
@[simp] theorem State.batch_modHeader (s : State) (h : HeaderId) (f : Header → Header) (a : ArmId) :
    (s.modHeader h f).batch a = s.batch a := rfl
@[simp] theorem State.header_modBatch (s : State) (c : ArmId) (f : Batch → Batch) (k : HeaderId) :
    (s.modBatch c f).header k = s.header k := rfl
@[simp] theorem State.header_modArm (s : State) (c : ArmId) (f : Arm → Arm) (k : HeaderId) :
    (s.modArm c f).header k = s.header k := rfl

theorem State.batch_modArm (s : State) (a c : ArmId) (f : Arm → Arm) :
    (s.modArm a f).batch c = if c = a then (f (s.arm a)).batch else s.batch c := by
  simp only [State.batch, State.arm_modArm]; split <;> rfl

/-- An arm leaves the drawing set of its header: the law of drawing sets holds again when its batch does not
flow. -/
theorem State.DrawingExact.leave {t u : State} (q : t.DrawingExact) (a : ArmId) (hdr : HeaderId)
    (hb : ∀ c, c ≠ a → u.batch c = t.batch c)
    (hh : ∀ k, (u.header k).drawing = if k = hdr then dropFrom a (t.header hdr).drawing else (t.header k).drawing)
    (hin : ∀ b, t.batch a = some b → b.snapshot.mainHeader = hdr)
    (hout : ∀ b, u.batch a = some b → b.state.flowing = false) : u.DrawingExact := by
  intro k c
  rw [hh]
  by_cases hc : c = a
  · subst hc
    constructor
    · intro hm
      split at hm
      · simp at hm
      · rename_i hk
        obtain ⟨b, e, -, hm'⟩ := (q k c).mp hm
        exact absurd (hm'.symm.trans (hin b e)) hk
    · rintro ⟨b, e, fl, -⟩
      rw [hout b e] at fl; cases fl
  · rw [hb c hc, ← q k c]
    split
    · rename_i hk; subst hk; simp [hc]
    · rfl

/-- An arm joins the drawing set of its header: the law of drawing sets holds again when its batch flows. -/
theorem State.DrawingExact.join {t u : State} (q : t.DrawingExact) (a : ArmId) (hdr : HeaderId)
    (hb : ∀ c, c ≠ a → u.batch c = t.batch c)
    (hh : ∀ k, (u.header k).drawing = if k = hdr then addTo allArms a (t.header hdr).drawing else (t.header k).drawing)
    (hs : t.flowing a = false)
    (hu : ∃ b, u.batch a = some b ∧ b.state.flowing = true ∧ b.snapshot.mainHeader = hdr) : u.DrawingExact := by
  intro k c
  rw [hh]
  obtain ⟨b, e, fl, hm⟩ := hu
  by_cases hc : c = a
  · subst hc
    have out : ∀ k, c ∉ (t.header k).drawing := by
      intro k hk
      obtain ⟨b, e, fl, -⟩ := (q k c).mp hk
      simp [State.flowing, e, fl] at hs
    split
    · rename_i hk; subst hk
      simp only [mem_addTo (mem_allArms c), true_or, true_iff]
      exact ⟨b, e, fl, hm⟩
    · rename_i hk
      constructor
      · intro h; exact absurd h (out k)
      · rintro ⟨b', e', -, hm'⟩
        rw [e] at e'; cases e'
        exact absurd (hm'.symm.trans hm) hk
  · rw [hb c hc, ← q k c]
    split
    · rename_i hk; subst hk; simp [mem_addTo (mem_allArms c), hc]
    · rfl

/-- The batch of one arm changed: the stops of ESD stand where that batch is stopped, or was not before. -/
theorem State.EsdStopsFlow.change {t u : State} (q : t.EsdStopsFlow) (a : ArmId) (he : u.esd.active = t.esd.active)
    (hb : ∀ c, c ≠ a → u.batch c = t.batch c)
    (hu : (∀ b, u.batch a = some b → b.EsdStopped) ∨ t.esd.active = false ∨ ∃ b, t.batch a = some b ∧ ¬ b.EsdStopped) :
    u.EsdStopsFlow := by
  intro e c b hc
  rw [he] at e
  by_cases h : c = a
  · subst h
    rcases hu with k | k | ⟨b0, k, n⟩
    · exact k b hc
    · rw [e] at k; cases k
    · exact absurd (q e c b0 k) n
  · rw [hb c h] at hc; exact q e c b hc

theorem Batch.EsdStopped.not_flowing {b : Batch} (h : b.EsdStopped) : b.state.flowing = false := by
  rcases h with h | h
  · rw [h]; rfl
  · rw [h.1]; rfl

/-! ### Demands and ceilings -/

/-- A flowing batch that stays flowing on its header is kept. -/
theorem BatchKept.of_flowing {e : Bool} {b b' : Batch} (h : b.state.flowing = true) (h' : b'.state.flowing = true)
    (hm : b'.snapshot.mainHeader = b.snapshot.mainHeader) : BatchKept e b b' :=
  { quiet := fun _ e => by rw [h'] at e; cases e
    flowing := by rw [h, h']
    header := hm
    esd := fun _ q => by have := q.not_flowing; rw [h] at this; cases this }

theorem BatchKept.refl {e : Bool} (b : Batch) : BatchKept e b b := ⟨id, rfl, rfl, fun _ q => q⟩

theorem rampStep_kept {e : Bool} (r : Arm) (b : Batch) (h : b.state.flowing = true) : BatchKept e b (rampStep r b) := by
  unfold rampStep
  split
  · exact BatchKept.refl b
  · dsimp only
    split
    · exact .of_flowing h rfl rfl
    · exact .of_flowing h rfl rfl

theorem respondCeiling_kept {e : Bool} (r : Arm) (c : Nat) (b : Batch) : BatchKept e b (respondCeiling r c b) := by
  unfold respondCeiling
  split
  · exact BatchKept.refl b
  · dsimp only
    split <;> rename_i hb
    · exact .of_flowing (by rw [hb]; rfl) (by simp only [hb]; rfl) rfl
    · split
      · exact .of_flowing (by rw [hb]; rfl) rfl rfl
      · exact ⟨id, rfl, rfl, fun _ q => q⟩
    · have k := rampStep_kept (e := e) r { b with ceiling := some c } (by simp only [hb]; rfl)
      exact ⟨k.quiet, k.flowing, k.header, k.esd⟩
    · exact .of_flowing (by rw [hb]; rfl) (by simp only [hb]; rfl) rfl
    · exact ⟨id, rfl, rfl, fun _ q => q⟩
    · exact ⟨id, rfl, rfl, fun _ q => q⟩

section
variable {s t : State}

theorem Keeps.computeCeilings (h : Keeps s t) (k : HeaderId) : Keeps s (t.computeCeilings k) := by
  unfold State.computeCeilings
  refine h.foldl _ (fun u a => (Keeps.refl u).modArm a _ ?_ ?_) _
  · intro b' e
    simp only [Option.map_eq_some_iff] at e
    obtain ⟨b, e, rfl⟩ := e
    exact ⟨b, e, respondCeiling_kept _ _ b⟩
  · simp [State.batch]

theorem Keeps.settleHeaders (h : Keeps s t) (before : State) : Keeps s (before.settleHeaders t) := by
  unfold State.settleHeaders
  refine h.foldl _ (fun u k => ?_) _
  split
  · exact Keeps.refl u
  · exact (Keeps.refl u).computeCeilings k

/-! ### Leaving a drawing set -/

/-- A batch changed so that it does not flow, together with its leaving the drawing set. -/
theorem Holds.leaveRaw (h : Holds s t) (k : HeaderId) (a : ArmId) : Holds s (t.leaveRaw k a) :=
  (h.modHeader k _).modBatch a _ fun _ _ => .inr id

theorem State.batch_leaveRaw (s : State) (k : HeaderId) (a c : ArmId) :
    (s.leaveRaw k a).batch c = if c = a then (s.batch a).map fun b => { b with ceiling := none } else s.batch c := by
  simp [State.leaveRaw, State.batch_modBatch]

theorem State.header_leaveRaw (s : State) (k i : HeaderId) (a : ArmId) :
    ((s.leaveRaw k a).header i).drawing =
      if i = k then dropFrom a (s.header k).drawing else (s.header i).drawing := by
  simp only [State.leaveRaw, State.header_modBatch, State.header_modHeader]
  split <;> rfl

theorem Batch.still_quiet (b : Batch) (st : BatchState) :
    ({ b.still with state := st } : Batch).Quiet := fun _ => ⟨rfl, rfl⟩

theorem Keeps.enterHeldRaw (h : Keeps s t) (a : ArmId) (b : Batch) (c : HoldCause) (hb : t.batch a = some b)
    (hf : b.state.flowing = true) : Keeps s (t.enterHeldRaw a b c) := by
  have others : ∀ c', c' ≠ a → (t.enterHeldRaw a b c).batch c' = t.batch c' := by
    intro c hc; simp [State.enterHeldRaw, State.batch_leaveRaw, State.batch_modBatch, hc]
  refine h.trans
    { (?_ : Holds t _) with
      drawing := fun q => q.leave a b.snapshot.mainHeader others ?_ ?_ ?_
      esd := fun q => q.change a ?_ others (.inr (.inr ⟨b, hb, fun k => ?_⟩)) }
  · unfold State.enterHeldRaw
    have k1 := (Keeps.refl t).toHolds.modBatch a (fun b => { b.still with state := .held, holdSet := [c] })
      fun b _ => .inl fun _ => ⟨rfl, rfl⟩
    have k2 := k1.trans ((Keeps.refl _).modComp b.ref fun x => { x with state := .held }).toHolds
    have k3 := k2.leaveRaw b.snapshot.mainHeader a
    exact k3.trans (((Keeps.refl _).removeQueueEntries a).raise _).toHolds
  · intro i; simp [State.enterHeldRaw, State.header_leaveRaw]
  · intro b' e; rw [hb] at e; cases e; rfl
  · intro b' e
    simp only [State.enterHeldRaw, State.batch_raise, State.batch_removeQueueEntries, State.batch_leaveRaw, if_true,
      State.batch_modComp, State.batch_modBatch, hb, Option.map_some, Option.some.injEq] at e
    subst e; rfl
  · simp [State.enterHeldRaw, State.leaveRaw, State.removeQueueEntries]
  · have := k.not_flowing; rw [hf] at this; cases this

theorem Keeps.handCauseRaw (h : Keeps s t) (a : ArmId) (c : HoldCause) : Keeps s (t.handCauseRaw a c) := by
  unfold State.handCauseRaw
  split
  · exact h
  · rename_i b hb
    split <;> rename_i hst
    · exact h.modHolds a (addTo HoldCause.all c) fun _ _ _ k => (mem_addTo (HoldCause.mem_all _)).mpr (.inr k)
    · split
      · exact h.modComp _ _
      · exact h
    all_goals exact h.enterHeldRaw a b c hb (by rw [hst]; rfl)

theorem Keeps.handCauses (h : Keeps s t) (l : List ArmId) (c : HoldCause) : Keeps s (t.handCauses l c) :=
  (h.foldl _ (fun u a => (Keeps.refl u).handCauseRaw a c) l).settleHeaders t

theorem Keeps.handCause (h : Keeps s t) (a : ArmId) (c : HoldCause) : Keeps s (t.handCause a c) := h.handCauses [a] c

theorem Keeps.removeCause (h : Keeps s t) (c : HoldCause) (a : ArmId) : Keeps s (t.removeCause c a) := by
  unfold State.removeCause
  split
  · split
    · rename_i b hb hc
      refine h.modHolds a (dropFrom c) fun _ _ e k => mem_dropFrom.mpr ⟨k, fun ec => ?_⟩
      subst ec
      simp [State.conditionHolds, e] at hc
    · exact h
  · exact h

theorem Keeps.removeCauses (h : Keeps s t) (l : List ArmId) (c : HoldCause) : Keeps s (t.removeCauses l c) :=
  h.foldl _ (fun u a => (Keeps.refl u).removeCause c a) l

theorem Keeps.injectorChanged (h : Keeps s t) (i : InjectorId) : Keeps s (t.injectorChanged i) := h.removeCauses _ _

theorem Keeps.setInjectorState (h : Keeps s t) (i : InjectorId) (st : InjectorState) :
    Keeps s (t.setInjectorState i st) := by
  have k := h.modInjector i (fun x => { x with state := st }) rfl
  unfold State.setInjectorState; dsimp only; split
  · exact k
  · exact k.injectorChanged i

theorem Keeps.pruneHoldSet (h : Keeps s t) (a : ArmId) : Keeps s (t.pruneHoldSet a) := by
  unfold State.pruneHoldSet
  split
  · rename_i b _
    refine h.modHolds a (fun l => l.filter fun c => !(c.isCondition && t.conditionHolds a b c)) fun _ _ e k => ?_
    simp [k, State.conditionHolds, e]
  · exact h

theorem State.batch_pruneHoldSet (s : State) (a : ArmId) (b' : Batch) (h : (s.pruneHoldSet a).batch a = some b') :
    ∃ b, s.batch a = some b ∧ b'.state = b.state := by
  unfold State.pruneHoldSet at h
  split at h
  · rename_i b hb
    simp only [State.batch_modBatch, if_true, hb, Option.map_some, Option.some.injEq] at h
    subst h; exact ⟨b, hb, rfl⟩
  · rename_i hb; rw [hb] at h; cases h

/-! ### Joining a drawing set -/

/-- The entry to LOW_START of an arm that did not flow in `t`; `v` may already hold the batch of a start. -/
theorem Keeps.enterLowStart (h : Keeps s t) {v : State} (hv : Holds t v) (a : ArmId) (b : Batch)
    (hb : ∀ c, c ≠ a → v.batch c = t.batch c) (hh : v.headers = t.headers) (ha : v.batch a = some b)
    (hs : t.flowing a = false) (hv' : v.esd = t.esd) (he : t.EsdStopsFlow → t.esd.active = false) :
    Keeps s (v.enterLowStart a b) := by
  unfold State.enterLowStart
  refine Keeps.settleHeaders (h.trans ?_) v
  have others : ∀ c, c ≠ a → ((v.modBatch a Batch.atLowStart).joinRaw b.snapshot.mainHeader a).batch c = t.batch c := by
    intro c hc; simp [State.joinRaw, State.batch_modBatch, hc, hb c hc]
  refine
    { (?_ : Holds t _) with
      drawing := fun q => q.join a b.snapshot.mainHeader others ?_ hs ?_
      esd := fun q => q.change a (by simp [State.joinRaw, hv']) others (.inr (.inl (he q))) }
  · exact Holds.modHeader (hv.modBatch a _ fun b _ => .inl fun e => by cases e) _ _
  · intro i
    simp only [State.joinRaw, State.header_modHeader, State.header_modBatch]
    split <;> simp [State.header, hh]
  · simp only [State.joinRaw, State.batch_modHeader, State.batch_modBatch, if_true, ha, Option.map_some]
    exact ⟨_, rfl, rfl, rfl⟩

/-- The resume of a HELD batch whose set holds no condition cause. -/
theorem Keeps.takeResume (h : Keeps s t) (a : ArmId) (hs : ∀ b, t.batch a = some b → b.state = .held)
    (hc : ∀ b, t.batch a = some b → b.holdSet.any HoldCause.isCondition = false) : Keeps s (t.takeResume a) := by
  unfold State.takeResume
  split
  · rename_i b hb
    refine h.enterLowStart ((Keeps.refl t).modComp b.ref _).toHolds a b (fun c _ => by simp) (by simp) (by simp [hb])
      (by simp [State.flowing, hb, hs b hb, BatchState.flowing]) (by simp) fun q => ?_
    cases e : t.esd.active with
    | false => rfl
    | true =>
      rcases q e a b hb with k | k
      · rw [hs b hb] at k; cases k
      · have := hc b hb
        rw [List.any_eq_false] at this
        exact absurd rfl (this _ k.2)
  · exact h

/-! ### Closing and the flow profile -/

theorem Keeps.enterClosingRaw (h : Keeps s t) (a : ArmId) (k : CloseKind) : Keeps s (t.enterClosingRaw a k) := by
  unfold State.enterClosingRaw
  split
  · exact h
  · rename_i b hb
    dsimp only
    refine Keeps.removeQueueEntries (h.trans ?_) a
    have others : ∀ c, c ≠ a → (((t.modBatch a fun b =>
        { b.still with state := .closing, holdSet := [], closeKind := some k, settle := seconds 2, leak := seconds 30 }).leaveRaw
          b.snapshot.mainHeader a)).batch c = t.batch c := by
      intro c hc; simp [State.batch_leaveRaw, State.batch_modBatch, hc]
    refine
      { (?_ : Holds t _) with
        drawing := fun q => q.leave a b.snapshot.mainHeader others ?_ ?_ ?_
        esd := fun q => q.change a (by simp [State.leaveRaw]) others (.inl ?_) }
    · exact ((Keeps.refl t).toHolds.modBatch a _ fun b _ => .inl fun _ => ⟨rfl, rfl⟩).leaveRaw _ a
    · intro i; simp [State.header_leaveRaw]
    · intro b' e; rw [hb] at e; cases e; rfl
    all_goals
      intro b' e
      simp only [State.batch_leaveRaw, if_true, State.batch_modBatch, hb, Option.map_some, Option.some.injEq] at e
      subst e
    · rfl
    · exact .inl rfl

theorem Keeps.enterClosings (h : Keeps s t) (l : List ArmId) (k : CloseKind) : Keeps s (t.enterClosings l k) :=
  (h.foldl _ (fun u a => (Keeps.refl u).enterClosingRaw a k) l).settleHeaders t

theorem Keeps.enterClosing (h : Keeps s t) (a : ArmId) (k : CloseKind) : Keeps s (t.enterClosing a k) :=
  h.enterClosings [a] k

theorem Keeps.profile (h : Keeps s t) (a : ArmId) : Keeps s (t.profile a) := by
  unfold State.profile
  split
  · exact h
  · rename_i b hb
    dsimp only
    split
    · exact h
    · rename_i hf
      have fl : b.state.flowing = true := by simpa using hf
      split
      · exact h.enterClosing a _
      · split
        · refine h.modBatch a _ fun b' e => ?_
          rw [hb] at e; cases e
          exact .of_flowing fl rfl rfl
        · split
          · refine h.modBatch a _ fun b' e => ?_
            rw [hb] at e; cases e
            exact rampStep_kept _ b fl
          · exact h

theorem Keeps.addTenth (h : Keeps s t) (a : ArmId) : Keeps s (t.addTenth a) := (h.modBatch' a _).profile a

theorem Keeps.rampExpiry (h : Keeps s t) (a : ArmId) : Keeps s (t.rampExpiry a) := by
  unfold State.rampExpiry
  split
  · rename_i b hb
    split
    · rename_i hr
      refine h.modBatch a _ fun b' e => ?_
      rw [hb] at e; cases e
      exact rampStep_kept _ b (by rw [hr]; rfl)
    · exact h
  · exact h

end

end Sys2Proof.Machine
end

