-- ==== Sys2Proof/Laws/KeepsFlow.lean ====
section
/-! SUPPORT. What the operations of injection and metering keep (`Keeps`). -/

namespace Sys2Proof.Machine

set_option Elab.async false

section
variable {s t : State}

/-! ### Injection -/

theorem Keeps.cannotDose (h : Keeps s t) (i : InjectorId) (a : ArmId) (r : CompRef) (q : Requirement) :
    Keeps s (t.cannotDose i a r q) := by
  unfold State.cannotDose
  split
  · exact h.handCause a _
  · exact h.doseFlag r i _

theorem Injector.setReservation_fixedPart (i : Injector) (r : CompRef) (n : Nat) :
    (i.setReservation r n).fixedPart = i.fixedPart := by
  unfold Injector.setReservation; split <;> rfl

theorem Injector.topUp_fixedPart {i j : Injector} {r : CompRef} (h : i.topUp r = some j) : j.fixedPart = i.fixedPart := by
  unfold Injector.topUp at h
  dsimp only at h
  split at h
  · cases h; rfl
  · split at h
    · cases h; exact Injector.setReservation_fixedPart i r _
    · cases h

theorem Keeps.startShots (h : Keeps s t) (i : InjectorId) (n : Nat) : Keeps s (t.startShots i n) := by
  induction n generalizing t with
  | zero => exact h
  | succ n ih =>
    unfold State.startShots
    dsimp only
    split
    · exact h
    · split
      · exact h
      · split
        · rename_i hx
          exact (h.modInjector i _ (Eq.trans (by rfl) (Injector.topUp_fixedPart hx))).setInjectorState i _
        · exact ih ((h.modInjector i _).cannotDose i _ _ _)

theorem Keeps.nextShot (h : Keeps s t) (i : InjectorId) : Keeps s (t.nextShot i) := h.startShots i _

theorem Keeps.enqueue (h : Keeps s t) (i : InjectorId) (a : ArmId) (r : CompRef) (k : Nat) :
    Keeps s (t.enqueue i a r k) := by
  unfold State.enqueue
  split
  · exact (h.modInjector i _).nextShot i
  · split
    · exact h.modInjector i _
    · exact h.doseFlag r i _

theorem Keeps.post (h : Keeps s t) (a : ArmId) (r : CompRef) (e : SnapshotEntry) : Keeps s (t.post a r e) := by
  unfold State.post
  dsimp only
  split
  · exact h.enqueue _ a r _
  · exact h.cannotDose _ a r _

theorem Keeps.creditResult (h : Keeps s t) (r : CompRef) (i : InjectorId) (n : Nat) : Keeps s (t.creditResult r i n) := by
  unfold State.creditResult
  split
  · split
    · exact (h.bounded _ _).modComp _ _
    · exact h
  · exact h

theorem Keeps.creditShot (h : Keeps s t) (i : InjectorId) (x : Shot) : Keeps s (t.creditShot i x) := by
  unfold State.creditShot
  dsimp only
  split
  · exact ((h.creditResult _ i _).lowerStock i _).modInjector i _
  · exact h.lowerStock i _

theorem Keeps.rotate (h : Keeps s t) (i : InjectorId) (x : Shot) : Keeps s (t.rotate i x) := by
  unfold State.rotate
  split
  · exact h.modInjector i _
  · exact h

theorem Keeps.cascade (h : Keeps s t) (i : InjectorId) (o : ShotOwner) : Keeps s (t.cascade i o) := by
  unfold State.cascade
  split
  · split
    · split
      · exact h.post _ _ _
      · exact h
    · exact h
  · exact h

theorem Keeps.endShot (h : Keeps s t) (i : InjectorId) : Keeps s (t.endShot i) :=
  ((h.modInjector i _).setInjectorState i _).nextShot i

theorem Keeps.ownerUnderdosed (h : Keeps s t) (i : InjectorId) (x : Shot) : Keeps s (t.ownerUnderdosed i x) := by
  unfold State.ownerUnderdosed
  split
  · exact h.doseFlag _ i _
  · exact h

theorem Keeps.completeShot (h : Keeps s t) (i : InjectorId) (x : Shot) : Keeps s (t.completeShot i x) := by
  unfold State.completeShot
  have k := ((h.creditShot i x).modInjector i fun j => { j with failures := 0 }).rotate i x
  dsimp only
  split
  · exact (k.cascade i _).endShot i
  · exact k.endShot i

theorem Keeps.faultInjector (h : Keeps s t) (i : InjectorId) (x : Shot) : Keeps s (t.faultInjector i x) := by
  unfold State.faultInjector
  refine Keeps.raise (Keeps.setInjectorState (Keeps.handCauses ?_ _ _) i _) _
  refine Keeps.foldl _ (fun u e => ?_) ((h.ownerUnderdosed i x).modInjector i _) _
  split
  · exact (Keeps.refl u).doseFlag _ i _
  · exact Keeps.refl u

theorem Keeps.failShot (h : Keeps s t) (i : InjectorId) (x : Shot) : Keeps s (t.failShot i x) := by
  unfold State.failShot
  have k := (h.creditShot i x).modInjector i fun j => { j with failures := min 3 (j.failures + 1) }
  dsimp only
  split
  · exact k.faultInjector i x
  · exact ((k.ownerUnderdosed i x).rotate i x).endShot i

theorem Keeps.startProvingShot (h : Keeps s t) (i : InjectorId) : Keeps s (t.startProvingShot i) := h.modInjector i _

theorem Keeps.completeProvingShot (h : Keeps s t) (i : InjectorId) (x : Shot) (p : Proving) :
    Keeps s (t.completeProvingShot i x p) := by
  unfold State.completeProvingShot
  dsimp only
  split
  · exact (((h.bounded _ _).creditShot i x).modInjector i _).startProvingShot i
  · exact ((((h.bounded _ _).creditShot i x).modInjector i _).setInjectorState i _).raise _

theorem Keeps.failProvingShot (h : Keeps s t) (i : InjectorId) (x : Shot) : Keeps s (t.failProvingShot i x) :=
  (((h.creditShot i x).modInjector i _).setInjectorState i _).raise _

theorem Keeps.abortProving (h : Keeps s t) (i : InjectorId) : Keeps s (t.abortProving i) := by
  unfold State.abortProving
  dsimp only
  split
  · exact ((h.creditShot i _).modInjector i _).setInjectorState i _
  · exact (h.modInjector i _).setInjectorState i _

theorem Keeps.tailEnd (h : Keeps s t) (i : InjectorId) : Keeps s (t.tailEnd i) := by
  unfold State.tailEnd
  split
  · exact h
  · split
    · exact h
    · split
      · exact h.completeShot i _
      · exact h.failShot i _
      · exact (h.creditShot i _).endShot i
      · exact h
      · exact h.completeProvingShot i _ _
      · exact h.failProvingShot i _
      · exact h
      · exact h

theorem Keeps.esdInjector (h : Keeps s t) (i : InjectorId) : Keeps s (t.esdInjector i) := by
  unfold State.esdInjector
  split
  · exact h.abortProving i
  · exact h.modInjector i _

/-! ### Metering -/

theorem Compartment.credit_fixedPart (k : Credit) (c : Compartment) : (c.credit k).fixedPart = c.fixedPart := by
  unfold Compartment.credit; dsimp only; split <;> rfl

theorem Keeps.makeCredit (h : Keeps s t) (a : ArmId) (b : Batch) : Keeps s (t.makeCredit a b) :=
  (h.modComp _ _ (Compartment.credit_fixedPart _)).modBatch' a _

theorem Keeps.endCredit (h : Keeps s t) (a : ArmId) : Keeps s (t.endCredit a) := by
  unfold State.endCredit
  split
  · split
    · exact h
    · exact h.makeCredit a _
  · exact h

theorem Keeps.superviseBlend (h : Keeps s t) (a : ArmId) : Keeps s (t.superviseBlend a) := by
  unfold State.superviseBlend
  split
  · exact h
  · split
    · exact h
    · split
      · dsimp only
        split
        all_goals split
        all_goals first
          | exact (h.modBatch' a _).handCause a _
          | exact h.modBatch' a _
      · exact h

theorem Keeps.meteringStep (h : Keeps s t) (a : ArmId) : Keeps s (t.meteringStep a) := by
  unfold State.meteringStep
  split
  · exact h
  · exact ((h.makeCredit a _).modBatch' a _).superviseBlend a

theorem Keeps.postPoints (h : Keeps s t) (a : ArmId) (e : SnapshotEntry) (n : Nat) : Keeps s (t.postPoints a e n) := by
  induction n generalizing t with
  | zero => exact h
  | succ n ih =>
    unfold State.postPoints
    split
    · split
      · exact ih ((h.modBatch' a _).post a _ e)
      · exact h
    · exact h

theorem Keeps.testEntry (h : Keeps s t) (a : ArmId) (p : ShotPoint) : Keeps s (State.testEntry a t p) := by
  unfold State.testEntry
  split
  · split
    · exact h.postPoints a _ _
    · exact h
  · exact h

theorem Keeps.testPoints (h : Keeps s t) (a : ArmId) : Keeps s (t.testPoints a) := by
  unfold State.testPoints
  split
  · exact h.foldl _ (fun u p => (Keeps.refl u).testEntry a p) _
  · exact h

theorem Batch.countTenth_kept {e : Bool} (r : Role) (b : Batch) : BatchKept e b (b.countTenth r) := by
  cases r <;> exact ⟨id, rfl, rfl, fun _ q => q⟩

theorem Keeps.creditTenth (h : Keeps s t) (a : ArmId) (r : Role) : Keeps s (t.creditTenth a r) := by
  have k := ((h.modBatch a _ fun b _ => Batch.countTenth_kept r b).addTenth a).testPoints a
  unfold State.creditTenth
  dsimp only
  split
  · exact k.meteringStep a
  · exact k

theorem Keeps.creditUnauthorized (h : Keeps s t) (m : MeterId) : Keeps s (t.creditUnauthorized m) := by
  unfold State.creditUnauthorized
  dsimp only
  split
  · exact (h.modMeter m _).raise _
  · exact h.modMeter m _

theorem Keeps.produceTenth (h : Keeps s t) (m : MeterId) : Keeps s (t.produceTenth m) := by
  unfold State.produceTenth
  have k := h.modMeter m fun x => { x with totalizer := min (2 ^ 48 - 1) (x.totalizer + 1) }
  dsimp only
  split
  · exact k.creditTenth _ _
  · exact k.creditUnauthorized m

theorem Keeps.produceTenths (h : Keeps s t) (m : MeterId) (n : Nat) : Keeps s (t.produceTenths m n) := by
  induction n generalizing t with
  | zero => exact h
  | succ n ih => exact ih (h.produceTenth m)

theorem Keeps.checkIntegrity (h : Keeps s t) (m : MeterId) : Keeps s (t.checkIntegrity m) := by
  unfold State.checkIntegrity
  have k := h.modMeter m fun x => { x with aCount := 0, bCount := 0 }
  have k2 := (k.modMeter m fun x => { x with state := .fault }).raise .meterFault
  dsimp only
  split
  · exact h
  · split
    · split
      · exact k2.handCause _ _
      · exact k2
    · exact k

theorem Batch.restartSettle_kept {e : Bool} (b : Batch) : BatchKept e b b.restartSettle := by
  unfold Batch.restartSettle; split
  · exact ⟨id, rfl, rfl, fun _ q => q⟩
  · exact .refl b

theorem Batch.restartNoFlow_kept {e : Bool} (b : Batch) : BatchKept e b b.restartNoFlow := by
  unfold Batch.restartNoFlow; split
  · exact ⟨id, rfl, rfl, fun _ q => q⟩
  · exact .refl b

theorem BatchKept.trans {e : Bool} {b c d : Batch} (h : BatchKept e b c) (k : BatchKept e c d) : BatchKept e b d :=
  ⟨fun q => k.quiet (h.quiet q), k.flowing.trans h.flowing, k.header.trans h.header, fun a q => k.esd a (h.esd a q)⟩

theorem Keeps.restartTimers (h : Keeps s t) (m : MeterId) (isA : Bool) : Keeps s (t.restartTimers m isA) := by
  unfold State.restartTimers
  split
  · refine h.modBatch _ _ fun b _ => ?_
    split
    · exact (Batch.restartSettle_kept b).trans (Batch.restartNoFlow_kept _)
    · exact Batch.restartSettle_kept b
  · exact h.modBatch _ _ fun b _ => Batch.restartSettle_kept b
  · exact h

theorem State.meter_restartTimers (s : State) (m k : MeterId) (isA : Bool) :
    (s.restartTimers m isA).meter k = s.meter k := by
  unfold State.restartTimers; split <;> rfl

theorem Keeps.pulseA (h : Keeps s t) (m : MeterId) : Keeps s (t.pulseA m) := by
  unfold State.pulseA
  refine Keeps.checkIntegrity (Keeps.modMeter (Keeps.produceTenths (Keeps.modMeter (h.restartTimers m true) m _ ?_ ?_) m _)
    m _) m
  · intro _; rfl
  · rw [State.meter_restartTimers]
    exact fun hr => Nat.mod_lt _ (by omega)

theorem Keeps.pulseB (h : Keeps s t) (m : MeterId) : Keeps s (t.pulseB m) :=
  ((h.restartTimers m false).modMeter m _).checkIntegrity m

theorem Batch.blendExpiry_kept {e : Bool} (b : Batch) : BatchKept e b b.blendExpiry := by
  unfold Batch.blendExpiry
  split
  · split
    · rename_i hf; exact .of_flowing hf hf rfl
    · exact .refl b
  · exact .refl b

theorem Keeps.noFlowExpiry (h : Keeps s t) (a : ArmId) : Keeps s (t.noFlowExpiry a) := by
  unfold State.noFlowExpiry
  split
  · exact h.handCause a _
  · exact h

end

end Sys2Proof.Machine
end

