-- ==== Sys2Proof/Laws/KeepsSession.lean ====
section
/-! SUPPORT. What the operations of the sessions keep (`Keeps`). -/

namespace Sys2Proof.Machine

set_option Elab.async false

section
variable {s t : State}

/-! ### Closing, ends of batches -/

theorem Keeps.closeSession (h : Keeps s t) (b : BayId) : Keeps s (t.closeSession b) := by
  unfold State.closeSession
  dsimp only
  split
  · split
    · exact ((h.settleOrder _ _).modDisplay b _).returnToIdle b
    · exact (h.settleOrder _ _).returnToIdle b
  · exact h.returnToIdle b

theorem Keeps.closeIfDone (h : Keeps s t) (b : BayId) : Keeps s (t.closeIfDone b) := by
  unfold State.closeIfDone
  split
  · exact h.closeSession b
  · exact h

theorem Keeps.restartInactivity (h : Keeps s t) (b : BayId) : Keeps s (t.restartInactivity b) := by
  unfold State.restartInactivity
  split
  · exact h.modSession b _
  · exact h

/-- An end credit keeps the state and the snapshot of the batch. -/
theorem State.batch_endCredit (s : State) (a : ArmId) (b' : Batch) (h : (s.endCredit a).batch a = some b') :
    ∃ b, s.batch a = some b ∧ b'.state = b.state ∧ b'.snapshot = b.snapshot := by
  unfold State.endCredit at h
  split at h
  · rename_i b hb
    split at h
    · exact ⟨b', h, rfl, rfl⟩
    · simp only [State.makeCredit, State.batch_modBatch, State.batch_modComp, if_true, hb, Option.map_some,
        Option.some.injEq] at h
      subst h; exact ⟨b, hb, rfl, rfl⟩
  · rename_i hb; rw [hb] at h; cases h

theorem Compartment.batchEnded_fixedPart (c : Compartment) (reached leak : Bool) :
    (c.batchEnded reached leak).fixedPart = c.fixedPart := by
  cases reached <;> cases leak <;> rfl

theorem Keeps.retireBatch (h : Keeps s t) (a : ArmId) (b : Batch) (leak : Bool) (hs : t.flowing a = false) :
    Keeps s (t.retireBatch a b leak) := by
  unfold State.retireBatch
  refine Keeps.modArm_still (((h.endCredit a).modComp _ _ fun c => ?_).releaseReservations _) a _ ?_ ?_
  · exact Compartment.batchEnded_fixedPart c _ _
  · intro b' e; cases e
  · simp only [State.flowing, State.batch_releaseReservations, State.batch_modComp] at hs ⊢
    cases e : (t.endCredit a).batch a with
    | none => rfl
    | some b' =>
      obtain ⟨b, hb, hst, -⟩ := t.batch_endCredit a b' e
      simpa [hb, ← hst] using hs

theorem Keeps.tellBay (h : Keeps s t) (b : Option BayId) : Keeps s (t.tellBay b) := by
  cases b with
  | none => exact h
  | some b => exact (h.restartInactivity b).closeIfDone b

theorem State.batchIs_flowing {s : State} {a : ArmId} {st : BatchState} (h : s.batchIs a st = true) :
    s.flowing a = st.flowing := by
  unfold State.batchIs at h
  unfold State.flowing
  cases hb : s.batch a <;> simp_all

theorem Keeps.endBatch (h : Keeps s t) (a : ArmId) (leak : Bool) (hs : t.batchIs a .closing = true) :
    Keeps s (t.endBatch a leak) := by
  unfold State.endBatch
  split
  · exact h
  · rename_i b _
    have k := h.retireBatch a b leak (State.batchIs_flowing hs)
    cases leak
    · exact k.tellBay _
    · exact (k.raise _).tellBay _

theorem Keeps.endAtOnceRaw (h : Keeps s t) (a : ArmId) : Keeps s (t.endAtOnceRaw a) := by
  unfold State.endAtOnceRaw
  split
  · exact h
  · rename_i b hb
    dsimp only
    have k := (((h.endCredit a).modComp b.ref (fun c => (c.addFlag .endedByReset).endedShort)).releaseReservations
      b.ref).removeQueueEntries a
    have others : ∀ (v : State) (c : ArmId), c ≠ a →
        ((v.leaveRaw b.snapshot.mainHeader a).modArm a fun r => { r with batch := none }).batch c = v.batch c := by
      intro v c hc; simp [State.batch_modArm, State.batch_leaveRaw, hc]
    refine k.trans
      { (?_ : Holds _ _) with
        drawing := fun q => q.leave a b.snapshot.mainHeader (others _) ?_ ?_ ?_
        esd := fun q => q.change a rfl (others _) (.inl fun b' e => by simp [State.batch_modArm] at e) }
    · exact ((Keeps.refl _).toHolds.leaveRaw _ a).modArm a _ (by intro b' e; cases e)
    · intro i; simp [State.header_leaveRaw]
    · intro b' e
      simp only [State.batch_removeQueueEntries, State.batch_releaseReservations, State.batch_modComp] at e
      obtain ⟨b2, e2, -, hn⟩ := t.batch_endCredit a b' e
      rw [hb] at e2; cases e2; rw [hn]
    · intro b' e; simp [State.batch_modArm] at e

theorem Keeps.endAtOnce (h : Keeps s t) (l : List ArmId) : Keeps s (t.endAtOnce l) :=
  (h.foldl _ (fun u a => (Keeps.refl u).endAtOnceRaw a) l).settleHeaders t

/-! ### Admission -/

theorem Keeps.presentCard (h : Keeps s t) (b : BayId) (card : Nat) : Keeps s (t.presentCard b card) := by
  unfold State.presentCard
  split
  · split
    · exact h.refuse b _
    · exact (((h.modPermit _ _).modSession b _).modDisplay b _).raise _
  · exact h

theorem Keeps.enterLoading (h : Keeps s t) (b : BayId) : Keeps s (t.enterLoading b) := (h.modSession b _).restartInactivity b

theorem Keeps.passToLoading (h : Keeps s t) (b : BayId) : Keeps s (t.passToLoading b) := by
  unfold State.passToLoading
  split
  · exact h.enterLoading b
  · exact h

theorem Keeps.bindOrder (h : Keeps s t) (b : BayId) (i : SlotId) (n : Nat) : Keeps s (t.bindOrder b i n) :=
  ((h.modOrder i _).modSession b _).passToLoading b

theorem Keeps.rightCode (h : Keeps s t) (b : BayId) (card : Nat) : Keeps s (t.rightCode b card) := by
  unfold State.rightCode
  split
  · exact (h.refuse b _).returnToIdle b
  · dsimp only
    split
    · exact (h.modSession b _).bindOrder b _ _
    · exact h.modSession b _
  · exact h.modSession b _

theorem Keeps.checkCode (h : Keeps s t) (b : BayId) (p : Permit) : Keeps s (t.checkCode b p) := by
  unfold State.checkCode
  dsimp only
  split
  · exact (h.modPermit _ _).rightCode b _
  · split
    · exact ((h.modPermit _ _).modSession b _).refuse b _
    · exact (((h.modPermit _ _).raise _).refuse b _).returnToIdle b

theorem Keeps.enterCode (h : Keeps s t) (b : BayId) : Keeps s (t.enterCode b) := by
  unfold State.enterCode
  split
  · exact (h.modSession b _).refuse b _
  · split
    · exact h.checkCode b _
    · exact h

theorem Keeps.rebuild (h : Keeps s t) (b : BayId) (card : Nat) : Keeps s (t.rebuild b card) := by
  unfold State.rebuild
  split
  · exact (h.refuse b _).returnToIdle b
  · exact (h.refuse b _).modSession b _

theorem Keeps.selectOrder (h : Keeps s t) (b : BayId) (d : Fin 10) : Keeps s (t.selectOrder b d) := by
  unfold State.selectOrder
  dsimp only
  split
  · exact h
  · split
    · split
      · exact h.bindOrder b _ _
      · exact h.rebuild b _
    · exact h

theorem Keeps.endBeforeLoading (h : Keeps s t) (b : BayId) : Keeps s (t.endBeforeLoading b) := by
  unfold State.endBeforeLoading
  split
  · exact (h.reopen _).returnToIdle b
  · exact h.returnToIdle b

/-! ### Keys in LOADING -/

theorem Keeps.loadingDigit (h : Keeps s t) (b : BayId) (d : Fin 10) : Keeps s (t.loadingDigit b d) := by
  unfold State.loadingDigit
  split
  · dsimp only
    split
    · exact (h.modSession b _).modSession b _
    · exact (h.modSession b _).refuse b _
  · split
    · exact h.modSession b _
    · exact h

theorem Keeps.stopKey (h : Keeps s t) (b : BayId) : Keeps s (t.stopKey b) := by
  unfold State.stopKey
  split
  · exact h.refuse b _
  · split
    · exact h
    · split
      · exact h
      · exact h.enterClosing _ _

theorem Keeps.resumeKey (h : Keeps s t) (b : BayId) : Keeps s (t.resumeKey b) := by
  unfold State.resumeKey
  split
  · exact h.refuse b _
  · rename_i a _
    split
    · have k := h.pruneHoldSet a
      dsimp only
      split
      · split
        · exact k.refuse b _
        · split
          · exact k.refuse b _
          · rename_i hh _ b0 hb0 hc _
            refine k.takeResume a (fun b' e => ?_) fun b' e => ?_
            · obtain ⟨b, hb, hst⟩ := t.batch_pruneHoldSet a b' e
              rw [hst]; simpa [State.batchIs, hb] using hh
            · rw [hb0] at e; cases e; simpa using hc
      · exact k
    · exact h.refuse b _

theorem Keeps.finish (h : Keeps s t) (b : BayId) (c : CloseCause) : Keeps s (t.finish b c) := by
  unfold State.finish
  split
  · exact h.refuse b _
  · exact ((h.enterClosings _ _).modSession b _).closeIfDone b

theorem Keeps.reserveAll (h : Keeps s t) (p : StartPlan) : Keeps s (t.reserveAll p) := by
  unfold State.reserveAll
  exact h.foldl _ (fun u e => (Keeps.refl u).modInjector _ _ (Injector.setReservation_fixedPart _ _ _)) _

theorem Compartment.started_fixedPart (p : StartPlan) (c : Compartment) : (c.started p).fixedPart = c.fixedPart := by
  unfold Compartment.started; dsimp only; split <;> rfl

theorem State.reserveAll_frame (s : State) (p : StartPlan) :
    (s.reserveAll p).arms = s.arms ∧ (s.reserveAll p).headers = s.headers ∧ (s.reserveAll p).esd = s.esd := by
  unfold State.reserveAll
  generalize p.snapshot.usable = l
  suffices ∀ u v : State, v.arms = u.arms ∧ v.headers = u.headers ∧ v.esd = u.esd →
      let w := l.foldl (fun acc e => acc.modInjector e.entry.injector fun i => i.setReservation p.ref (s.need p.target e)) v
      w.arms = u.arms ∧ w.headers = u.headers ∧ w.esd = u.esd from this s s ⟨rfl, rfl, rfl⟩
  induction l with
  | nil => exact fun u v h => h
  | cons x l ih => exact fun u v h => ih u _ h

theorem Keeps.takeStart (h : Keeps s t) (b : BayId) (p : StartPlan) (hn : t.batch p.arm = none)
    (he : t.esd.active = false) :
    Keeps s (t.takeStart b p) := by
  unfold State.takeStart
  have k := ((Keeps.refl t).modComp p.ref _ (Compartment.started_fixedPart p)).reserveAll p
  have f := (t.modComp p.ref fun c => c.started p).reserveAll_frame p
  refine Keeps.modSession (h.enterLowStart (k.toHolds.modArm p.arm (fun r => { r with batch := some (t.newBatch p) }) ?_)
    p.arm (t.newBatch p) ?_ ?_ ?_ ?_ ?_ fun _ => he) b _
  · intro b' e
    simp only [Option.some.injEq] at e; subst e
    exact .inl fun e => by cases e
  · intro c hc; rw [State.batch_modArm, if_neg hc]; simp [State.batch, State.arm, f.1]
  · simp [f.2.1]
  · simp [State.batch_modArm]
  · simp [State.flowing, hn]
  · simp [f.2.2]

/-- A plan that passes the checks is for an arm whose batch is IDLE, while ESD is inactive. -/
theorem State.startChecks_idle {s : State} {b : BayId} {p : StartPlan} (h : s.startChecks b = .ok p) :
    s.batch p.arm = none ∧ s.esd.active = false := by
  unfold State.startChecks at h
  split at h
  · cases h
  · rename_i a _
    cases hb : s.batch a with
    | some x => simp only [hb, Option.isSome_some] at h; repeat' split at h
                all_goals first | cases h | simp_all
    | none =>
      have : p.arm = a := by
        repeat' split at h
        all_goals try (cases h)
        unfold State.checkRecipe at h
        dsimp only at h
        repeat' split at h
        all_goals first | (cases h; rfl) | cases h
      rw [this, hb]
      refine ⟨rfl, ?_⟩
      cases he : s.esd.active with
      | false => rfl
      | true => simp [he] at h

theorem Keeps.startKey (h : Keeps s t) (b : BayId) : Keeps s (t.startKey b) := by
  unfold State.startKey
  split
  · exact h.refuse b _
  · rename_i p hp; exact h.takeStart b p (State.startChecks_idle hp).1 (State.startChecks_idle hp).2

/-- An expiry keeps what its act keeps. -/
theorem Keeps.expire (h : Keeps s t) (timer : Timer) (act : State → State) (ha : Keeps s (act t)) :
    Keeps s (t.expire timer act) := by
  unfold State.expire
  split
  · exact ha
  · exact h

/-! ### Terminal, permissives, resets of a bay -/

theorem Keeps.signOfLife (h : Keeps s t) (b : BayId) : Keeps s (t.signOfLife b) := by
  unfold State.signOfLife
  dsimp only
  split
  · exact ((h.modSession b _).removeCauses _ _).modDisplay b _
  · exact h.modSession b _

theorem Keeps.loseTerminal (h : Keeps s t) (b : BayId) : Keeps s (t.loseTerminal b) := by
  unfold State.loseTerminal
  split
  · exact h
  · have k := (h.modSession b fun x => { x with terminal := .lost, silence := none }).raise .terminalLost
    dsimp only
    split
    · exact k
    · exact k.endBeforeLoading b
    · exact k.endBeforeLoading b
    · exact k.endBeforeLoading b
    · exact k.handCauses _ _
    · exact k.handCauses _ _

theorem Keeps.debounceEnd (h : Keeps s t) (b : BayId) (w : Permissive) : Keeps s (t.debounceEnd b w) := by
  exact ((h.modSession b _).removeCauses _ _).passToLoading b

theorem Keeps.permissiveFall (h : Keeps s t) (b : BayId) (w : Permissive) : Keeps s (t.permissiveFall b w) := by
  unfold State.permissiveFall
  dsimp only
  split
  · split
    · exact (h.modSession b _).handCauses _ _
    · exact h.modSession b _
  · exact h

theorem Keeps.hostClose (h : Keeps s t) (b : BayId) : Keeps s (t.hostClose b) :=
  ((h.enterClosings _ _).modSession b _).closeIfDone b

theorem Keeps.resetSession (h : Keeps s t) (b : BayId) : Keeps s (t.resetSession b) := by
  unfold State.resetSession
  split
  · exact h
  · exact h.endBeforeLoading b
  · exact h.endBeforeLoading b
  · exact h.endBeforeLoading b
  · exact ((h.endAtOnce _).modSession b _).closeSession b
  · exact ((h.endAtOnce _).modSession b _).closeSession b

theorem Keeps.resetBay (h : Keeps s t) (b : BayId) : Keeps s (t.resetBay b) :=
  ((h.resetSession b).clearReason b).modDisplay b _

/-! ### Keys -/

theorem Keeps.keyed (h : Keeps s t) (b : BayId) : Keeps s (t.keyed b) := (h.signOfLife b).restartInactivity b

theorem Keeps.loadingKey (h : Keeps s t) (b : BayId) (act : State → State) (ha : ∀ u, Keeps u (act u)) :
    Keeps s (t.loadingKey b act) := by
  unfold State.loadingKey
  split
  · exact (Keeps.modSession h b _).trans (ha _)
  · exact h

theorem Keeps.digitKey (h : Keeps s t) (b : BayId) (d : Fin 10) : Keeps s (t.digitKey b d) := by
  unfold State.digitKey
  split
  · exact h
  · exact h.modSession b _
  · exact h.selectOrder b d
  · exact h
  · exact h.loadingDigit b d
  · exact h

theorem Keeps.enterKey (h : Keeps s t) (b : BayId) : Keeps s (t.enterKey b) := by
  unfold State.enterKey
  split
  · exact h.enterCode b
  · exact h.loadingKey b id fun u => Keeps.refl u

theorem Keeps.cancelKey (h : Keeps s t) (b : BayId) : Keeps s (t.cancelKey b) := by
  unfold State.cancelKey
  split
  · exact h.clearReason b
  · exact h.endBeforeLoading b
  · exact h.endBeforeLoading b
  · exact h.endBeforeLoading b
  · exact h.modSession b _
  · exact h

/-! ### Inputs -/

theorem Keeps.connect (h : Keeps s t) (a : ArmId) (level : Bool) : Keeps s (t.connect a level) :=
  h.modArm a _ (fun b e => ⟨b, e, .refl b⟩) id

theorem Meter.read_fixedPart (x : ProbeReading) (m : Meter) : (m.read x).fixedPart = m.fixedPart := by
  unfold Meter.read; split
  · cases x <;> rfl
  · rfl

theorem Meter.read_residue (x : ProbeReading) (m : Meter) : (m.read x).residue = m.residue ∧ (m.read x).k = m.k := by
  unfold Meter.read; split
  · cases x <;> exact ⟨rfl, rfl⟩
  · exact ⟨rfl, rfl⟩

/-! ### ESD -/

/-- The cause ESD handed to an arm stops its batch, and leaves the others. -/
theorem State.handCauseRaw_esd (t : State) (a c : ArmId) (b : Batch) (h : (t.handCauseRaw a .esd).batch c = some b) :
    (c = a ∧ b.EsdStopped) ∨ (c ≠ a ∧ t.batch c = some b) := by
  unfold State.handCauseRaw at h
  by_cases hc : c = a
  · refine .inl ⟨hc, ?_⟩
    subst hc
    split at h
    · rename_i hb; rw [hb] at h; cases h
    · rename_i b0 hb
      split at h <;> rename_i hst
      · simp only [State.batch_modBatch, if_true, hb, Option.map_some, Option.some.injEq] at h
        subst h
        exact .inr ⟨hst, (mem_addTo (HoldCause.mem_all _)).mpr (.inl rfl)⟩
      · have k : t.batch c = some b := by
          revert h; split <;> simp
        rw [hb] at k; cases k; exact .inl hst
      all_goals
        simp only [State.enterHeldRaw, State.batch_raise, State.batch_removeQueueEntries, State.batch_leaveRaw, if_true,
          State.batch_modComp, State.batch_modBatch, hb, Option.map_some, Option.some.injEq] at h
        subst h
        exact .inr ⟨rfl, by simp⟩
  · refine .inr ⟨hc, ?_⟩
    revert h
    split
    · exact id
    · split
      · simp [State.batch_modBatch, hc]
      · split <;> simp
      all_goals simp [State.enterHeldRaw, State.batch_leaveRaw, State.batch_modBatch, hc]

theorem State.handAllEsd (l : List ArmId) (t : State) (a : ArmId) (b : Batch)
    (h : (l.foldl (fun acc a => acc.handCauseRaw a .esd) t).batch a = some b)
    (ht : a ∉ l → ∀ b, t.batch a = some b → b.EsdStopped) : b.EsdStopped := by
  induction l generalizing t with
  | nil => exact ht (by simp) b h
  | cons x l ih =>
    refine ih _ h fun hl b' hb' => ?_
    rcases t.handCauseRaw_esd x a b' hb' with ⟨-, k⟩ | ⟨k, e⟩
    · exact k
    · exact ht (by simp [k, hl]) b' e

theorem Keeps.esdActivate (h : Keeps s t) : Keeps s t.esdActivate := by
  unfold State.esdActivate
  refine Keeps.foldl _ (fun u i => (Keeps.refl u).esdInjector i) ?_ _
  have k : ∀ u : State, Keeps u (u.handCauses allArms .esd) := fun u => (Keeps.refl u).handCauses _ _
  refine
    { ((h.toHolds.setEsd _).trans ((Keeps.refl _).raise _).toHolds).trans (k _).toHolds with
      drawing := fun q => (k _).drawing (h.drawing q)
      esd := fun _ => ((Keeps.refl _).settleHeaders _).esd fun _ a b hb => ?_ }
  exact State.handAllEsd _ _ a b hb fun hl => absurd (mem_allArms a) hl

theorem Keeps.esdRelease (h : Keeps s t) : Keeps s t.esdRelease := by
  unfold State.esdRelease
  refine Keeps.foldl _ (fun u i => (Keeps.refl u).nextShot i) ?_ _
  exact ((h.setEsd _ fun e => by cases e).raise _).removeCauses _ _

end

end Sys2Proof.Machine
end

