-- ==== Sys2Proof/Laws/Effects.lean ====
section
/-! SUPPORT. What the operations of flow control do, each said once: ceilings computed anew, holds, removals of
causes, closings, resumes. `Eased s t` is all that ceilings computed anew can change. -/

namespace Sys2Proof.Machine

set_option Elab.async false

/-! ### Ceilings -/

/-- Only the arms differ, and each arm's batch only in what a ceiling computed anew writes. -/
structure Eased (s t : State) : Prop where
  eq : t = { s with arms := t.arms }
  arm : ∀ a, t.arm a = { s.arm a with batch := t.batch a }
  batch : ∀ a, (t.batch a).map Batch.besidesFlow = (s.batch a).map Batch.besidesFlow
  still : ∀ a b, s.batch a = some b → b.state.flowing = false →
    ∃ c, t.batch a = some { b with ceiling := c }

theorem Eased.refl (s : State) : Eased s s := ⟨rfl, fun _ => rfl, fun _ => rfl, fun _ b h _ => ⟨b.ceiling, h⟩⟩

theorem Eased.trans {s t u : State} (h : Eased s t) (k : Eased t u) : Eased s u where
  eq := by rw [k.eq, h.eq]
  arm a := by rw [k.arm, h.arm]
  batch a := (k.batch a).trans (h.batch a)
  still a b e f := by
    obtain ⟨c, e'⟩ := h.still a b e f
    obtain ⟨d, e''⟩ := k.still a _ e' f
    exact ⟨d, e''⟩

theorem respondCeiling_besides (r : Arm) (c : Nat) (b : Batch) : (respondCeiling r c b).besidesFlow = b.besidesFlow := by
  unfold respondCeiling
  split
  · rfl
  · dsimp only
    split
    · rfl
    · split <;> rfl
    · unfold rampStep; dsimp only; split <;> rfl
    all_goals rfl

theorem respondCeiling_still (r : Arm) (c : Nat) (b : Batch) (h : b.state.flowing = false) :
    ∃ d, respondCeiling r c b = { b with ceiling := d } := by
  unfold respondCeiling
  split
  · exact ⟨b.ceiling, rfl⟩
  · dsimp only
    split <;> rename_i hb <;> first | exact ⟨_, rfl⟩ | (rw [hb] at h; cases h)

theorem respondCeiling_ceiling (r : Arm) (c : Nat) (b : Batch) : (respondCeiling r c b).ceiling = some c := by
  unfold respondCeiling
  split
  · assumption
  · dsimp only
    split
    · rfl
    · split <;> rfl
    · unfold rampStep; dsimp only; split <;> rfl
    all_goals rfl

theorem respondCeiling_again (r : Arm) (c : Nat) (b : Batch) :
    respondCeiling r c (respondCeiling r c b) = respondCeiling r c b := by
  rw [show respondCeiling r c (respondCeiling r c b) = _ from if_pos (respondCeiling_ceiling r c b)]

/-- The fold of a response over arms, each taken with its own ceiling. -/
theorem foldl_respond (g : ArmId → Nat) (l : List ArmId) (s : State) :
    l.foldl (fun acc a => acc.modArm a fun r => { r with batch := r.batch.map (respondCeiling r (g a)) }) s
      = { s with arms := Vector.ofFn fun a =>
            if a ∈ l then { s.arm a with batch := (s.batch a).map (respondCeiling (s.arm a) (g a)) } else s.arm a } := by
  induction l generalizing s with
  | nil =>
    simp only [List.foldl_nil, List.not_mem_nil, if_false]
    have : (Vector.ofFn fun a => s.arm a) = s.arms := by
      apply Vector.ext; intro i hi; simp [State.arm, vget]
    rw [this]
  | cons x l ih =>
    rw [List.foldl_cons, ih]
    have : (Vector.ofFn fun a => if a ∈ l then
          { (s.modArm x fun r => { r with batch := r.batch.map (respondCeiling r (g x)) }).arm a with
            batch := ((s.modArm x fun r => { r with batch := r.batch.map (respondCeiling r (g x)) }).batch a).map
              (respondCeiling ((s.modArm x fun r => { r with batch := r.batch.map (respondCeiling r (g x)) }).arm a) (g a)) }
        else (s.modArm x fun r => { r with batch := r.batch.map (respondCeiling r (g x)) }).arm a)
      = Vector.ofFn fun a =>
        if a ∈ x :: l then { s.arm a with batch := (s.batch a).map (respondCeiling (s.arm a) (g a)) } else s.arm a := by
      congr 1; funext a
      by_cases hx : a = x
      · subst hx
        simp only [State.arm_modArm_same, State.batch_modArm, if_true, List.mem_cons, true_or]
        by_cases hl : a ∈ l
        · simp only [hl, if_true, Option.map_map]
          have e : ∀ b, (respondCeiling ({ s.arm a with batch := (s.arm a).batch.map (respondCeiling (s.arm a) (g a)) } : Arm) (g a)
              ∘ respondCeiling (s.arm a) (g a)) b = respondCeiling (s.arm a) (g a) b :=
            fun b => respondCeiling_again (s.arm a) (g a) b
          rw [show (respondCeiling ({ s.arm a with batch := (s.arm a).batch.map (respondCeiling (s.arm a) (g a)) } : Arm) (g a)
              ∘ respondCeiling (s.arm a) (g a)) = respondCeiling (s.arm a) (g a) from funext e]
          rfl
        · simp only [hl, if_false]; rfl
      · simp only [State.arm_modArm, State.batch_modArm, hx, if_false, List.mem_cons, false_or]
    rw [this]; rfl

/-- Ceilings computed anew (R97, R98): each drawing arm responds to its ceiling, nothing else changes. -/
theorem State.computeCeilings_eq (s : State) (h : HeaderId) :
    s.computeCeilings h = { s with arms := Vector.ofFn fun a =>
      if a ∈ (s.header h).drawing then
        { s.arm a with batch := (s.batch a).map (respondCeiling (s.arm a) (s.ceilingOf h a)) } else s.arm a } :=
  foldl_respond (s.ceilingOf h) _ s

theorem State.arm_computeCeilings (s : State) (h : HeaderId) (a : ArmId) :
    (s.computeCeilings h).arm a = if a ∈ (s.header h).drawing then
      { s.arm a with batch := (s.batch a).map (respondCeiling (s.arm a) (s.ceilingOf h a)) } else s.arm a := by
  rw [State.computeCeilings_eq]
  simp only [State.arm, vget_ofFn]

theorem State.batch_computeCeilings (s : State) (h : HeaderId) (a : ArmId) :
    (s.computeCeilings h).batch a = if a ∈ (s.header h).drawing then
      (s.batch a).map (respondCeiling (s.arm a) (s.ceilingOf h a)) else s.batch a := by
  unfold State.batch
  rw [State.arm_computeCeilings]
  split <;> rfl

theorem State.computeCeilings_eased (s : State) (h : HeaderId) : Eased s (s.computeCeilings h) where
  eq := by rw [State.computeCeilings_eq]
  arm a := by
    rw [State.batch_computeCeilings, State.arm_computeCeilings]; split <;> rfl
  batch a := by
    rw [State.batch_computeCeilings]
    split
    · rw [Option.map_map]; congr 1; funext b; exact respondCeiling_besides _ _ b
    · rfl
  still a b e f := by
    rw [State.batch_computeCeilings]
    split
    · obtain ⟨d, k⟩ := respondCeiling_still (s.arm a) (s.ceilingOf h a) b f
      exact ⟨d, by rw [e, Option.map_some, k]⟩
    · exact ⟨b.ceiling, e⟩

/-- After ceilings computed anew, they are those of the capacity and the drawing set. -/
theorem State.computeCeilings_at (s : State) (h : HeaderId) : (s.computeCeilings h).CeilingsAt h := by
  intro a b hd hb
  have hh : (s.computeCeilings h).header h = s.header h := by rw [State.computeCeilings_eq]; rfl
  rw [hh] at hd
  rw [State.batch_computeCeilings, if_pos hd, Option.map_eq_some_iff] at hb
  obtain ⟨b', -, rfl⟩ := hb
  rw [respondCeiling_ceiling, hh, State.arm_computeCeilings, if_pos hd]; rfl

theorem State.settleHeaders_eased (before after : State) : Eased after (before.settleHeaders after) := by
  unfold State.settleHeaders
  suffices ∀ (l : List HeaderId) (u : State), Eased after u → Eased after (l.foldl
      (fun acc h => if (before.header h).drawing = (after.header h).drawing then acc else acc.computeCeilings h) u) from
    this _ _ (Eased.refl _)
  intro l
  induction l with
  | nil => intro u hu; exact hu
  | cons h l ih =>
    intro u hu
    rw [List.foldl_cons]
    apply ih
    split
    · exact hu
    · exact hu.trans (State.computeCeilings_eased u h)

/-- An event that changed no drawing set computes no ceiling. -/
theorem State.settleHeaders_same (before after : State) (h : ∀ k, (after.header k).drawing = (before.header k).drawing) :
    before.settleHeaders after = after := by
  unfold State.settleHeaders
  suffices ∀ (l : List HeaderId), l.foldl (fun acc h =>
      if (before.header h).drawing = (after.header h).drawing then acc else acc.computeCeilings h) after = after from this _
  intro l
  induction l with
  | nil => rfl
  | cons k l ih => rw [List.foldl_cons, if_pos (h k).symm, ih]

/-- An event that changed no drawing set but one computes the ceilings of that header. -/
theorem State.settleHeaders_one (before after : State) (k : HeaderId)
    (h : ∀ j, j ≠ k → (after.header j).drawing = (before.header j).drawing)
    (hk : (after.header k).drawing ≠ (before.header k).drawing) :
    before.settleHeaders after = after.computeCeilings k := by
  unfold State.settleHeaders
  have step : ∀ (l : List HeaderId) (u : State), k ∉ l → l.foldl (fun acc h =>
      if (before.header h).drawing = (after.header h).drawing then acc else acc.computeCeilings h) u = u := by
    intro l
    induction l with
    | nil => intro u _; rfl
    | cons j l ih =>
      intro u hj
      simp only [List.mem_cons, not_or] at hj
      rw [List.foldl_cons, if_pos (h j (fun e => hj.1 e.symm)).symm, ih u hj.2]
  have hmem : k ∈ allHeaders := List.mem_finRange k
  obtain ⟨l₁, l₂, e⟩ := List.append_of_mem hmem
  have nd : allHeaders.Nodup := List.nodup_finRange 4
  rw [e] at nd ⊢
  have n1 : k ∉ l₁ := fun m => (List.nodup_append.mp nd).2.2 _ m _ (by simp) rfl
  have n2 : k ∉ l₂ := (List.nodup_cons.mp (List.nodup_append.mp nd).2.1).1
  rw [List.foldl_append, List.foldl_cons, step l₁ _ n1, if_neg (fun e => hk e.symm), step l₂ _ n2]

/-- The one header whose drawing set an event changed has its ceilings anew; none is computed where none changed. -/
theorem State.settleHeaders_at (before after : State) (k : HeaderId)
    (h : ∀ j, j ≠ k → (after.header j).drawing = (before.header j).drawing)
    (hk : (after.header k).drawing ≠ (before.header k).drawing) : (before.settleHeaders after).CeilingsAt k := by
  rw [State.settleHeaders_one before after k h hk]; exact State.computeCeilings_at after k

/-! ### Causes handed to batches -/

/-- A batch as a hold cause leaves it (R99, R100), before ceilings are computed anew. -/
def Batch.given (c : HoldCause) (b : Batch) : Batch :=
  match b.state with
  | .held => { b with holdSet := addTo HoldCause.all c b.holdSet }
  | .closing => b
  | _ => { b.still with state := .held, holdSet := [c], ceiling := none }

/-- Only arms, headers, orders, injectors and flags can differ, and of an arm only its batch. -/
structure FlowOnly (s t : State) : Prop where
  eq : t = { s with arms := t.arms, headers := t.headers, orders := t.orders, injectors := t.injectors, flags := t.flags }
  arm : ∀ a, t.arm a = { s.arm a with batch := t.batch a }

theorem FlowOnly.refl (s : State) : FlowOnly s s := ⟨rfl, fun _ => rfl⟩
theorem FlowOnly.trans {s t u : State} (h : FlowOnly s t) (k : FlowOnly t u) : FlowOnly s u :=
  ⟨by rw [k.eq, h.eq], fun a => by rw [k.arm, h.arm]⟩
theorem Eased.flowOnly {s t : State} (h : Eased s t) : FlowOnly s t := ⟨by rw [h.eq], h.arm⟩

theorem State.modComp_eq (s : State) (r : CompRef) (f : Compartment → Compartment) :
    s.modComp r f = { s with orders := (s.modComp r f).orders } := by unfold State.modComp; split <;> rfl

theorem State.modComp_flowOnly (s : State) (r : CompRef) (f : Compartment → Compartment) : FlowOnly s (s.modComp r f) :=
  ⟨by rw [State.modComp_eq], fun a => by rw [State.modComp_eq]; rfl⟩

theorem State.modBatch_flowOnly (s : State) (a : ArmId) (f : Batch → Batch) : FlowOnly s (s.modBatch a f) where
  eq := rfl
  arm c := by
    rw [State.batch_modBatch]
    unfold State.modBatch
    rw [State.arm_modArm]
    by_cases h : c = a
    · subst h; simp [State.batch]
    · simp [h, State.batch]

theorem State.modHeader_flowOnly (s : State) (h : HeaderId) (f : Header → Header) : FlowOnly s (s.modHeader h f) :=
  ⟨rfl, fun _ => rfl⟩
theorem State.removeQueueEntries_flowOnly (s : State) (a : ArmId) : FlowOnly s (s.removeQueueEntries a) :=
  ⟨rfl, fun _ => rfl⟩
theorem State.raise_flowOnly (s : State) (e : EventFlag) : FlowOnly s (s.raise e) := ⟨rfl, fun _ => rfl⟩

theorem State.leaveRaw_flowOnly (s : State) (h : HeaderId) (a : ArmId) : FlowOnly s (s.leaveRaw h a) :=
  (s.modHeader_flowOnly h _).trans (State.modBatch_flowOnly _ a _)

theorem State.enterHeldRaw_flowOnly (s : State) (a : ArmId) (b : Batch) (c : HoldCause) : FlowOnly s (s.enterHeldRaw a b c) :=
  ((((s.modBatch_flowOnly a _).trans (State.modComp_flowOnly _ b.ref _)).trans
    (State.leaveRaw_flowOnly _ b.snapshot.mainHeader a)).trans (State.removeQueueEntries_flowOnly _ a)).trans
    (State.raise_flowOnly _ .batchHold)

theorem State.batch_enterHeldRaw (s : State) (a x : ArmId) (b : Batch) (c : HoldCause) :
    (s.enterHeldRaw a b c).batch x = if x = a
      then (s.batch a).map fun b => { b.still with state := .held, holdSet := [c], ceiling := none } else s.batch x := by
  simp only [State.enterHeldRaw, State.batch_raise, State.batch_removeQueueEntries, State.batch_leaveRaw,
    State.batch_modComp, State.batch_modBatch]
  split
  · simp only [if_true, Option.map_map]; rfl
  · rfl

theorem State.handCauseRaw_flowOnly (s : State) (a : ArmId) (c : HoldCause) : FlowOnly s (s.handCauseRaw a c) := by
  unfold State.handCauseRaw
  split
  · exact FlowOnly.refl s
  · split
    · exact s.modBatch_flowOnly a _
    · split
      · exact s.modComp_flowOnly _ _
      · exact FlowOnly.refl s
    all_goals exact s.enterHeldRaw_flowOnly a _ c

/-- What a cause does to the batches: the one handed it takes it, the others stay. -/
theorem State.batch_handCauseRaw (s : State) (a x : ArmId) (c : HoldCause) :
    (s.handCauseRaw a c).batch x = if x = a then (s.batch a).map (Batch.given c) else s.batch x := by
  by_cases hx : x = a
  · subst hx
    rw [if_pos rfl]
    unfold State.handCauseRaw
    split
    · rename_i h; rw [h]; rfl
    · rename_i b h
      split <;> rename_i hs
      · rw [State.batch_modBatch, if_pos rfl, h]; simp [Batch.given, hs]
      · split <;> simp [h, Batch.given, hs]
      all_goals rw [State.batch_enterHeldRaw, if_pos rfl, h]; simp [Batch.given, hs]
  · rw [if_neg hx]
    unfold State.handCauseRaw
    split
    · rfl
    · split
      · rw [State.batch_modBatch, if_neg hx]
      · split <;> simp
      all_goals rw [State.batch_enterHeldRaw, if_neg hx]

/-- One event's causes before ceilings are computed anew. -/
def State.handCausesRaw (s : State) (l : List ArmId) (c : HoldCause) : State := l.foldl (fun acc a => acc.handCauseRaw a c) s

theorem State.handCausesRaw_flowOnly (l : List ArmId) (s : State) (c : HoldCause) : FlowOnly s (s.handCausesRaw l c) := by
  induction l generalizing s with
  | nil => exact FlowOnly.refl s
  | cons a l ih => exact (s.handCauseRaw_flowOnly a c).trans (ih _)

theorem State.batch_handCausesRaw (l : List ArmId) (s : State) (c : HoldCause) (nd : l.Nodup) (x : ArmId) :
    (s.handCausesRaw l c).batch x = if x ∈ l then (s.batch x).map (Batch.given c) else s.batch x := by
  induction l generalizing s with
  | nil => simp [State.handCausesRaw]
  | cons a l ih =>
    have nd' := List.nodup_cons.mp nd
    show ((s.handCauseRaw a c).handCausesRaw l c).batch x = _
    rw [ih _ nd'.2, State.batch_handCauseRaw]
    by_cases hx : x = a
    · subst hx; simp [nd'.1]
    · simp [hx]

theorem State.handCauses_eased (s : State) (l : List ArmId) (c : HoldCause) :
    Eased (s.handCausesRaw l c) (s.handCauses l c) := State.settleHeaders_eased _ _

theorem State.handCauses_flowOnly (s : State) (l : List ArmId) (c : HoldCause) : FlowOnly s (s.handCauses l c) :=
  (State.handCausesRaw_flowOnly l s c).trans (s.handCauses_eased l c).flowOnly

/-- The batches after one event's causes: one in CLOSING stays so, any other that was handed the cause is HELD with it,
and one that was not keeps all but what a ceiling writes (R99, R100). -/
theorem State.handCauses_given (s : State) (l : List ArmId) (c : HoldCause) (nd : l.Nodup) {a : ArmId} {b : Batch}
    (ha : a ∈ l) (hb : s.batch a = some b) : ∃ d, (s.handCauses l c).batch a = some { b.given c with ceiling := d } := by
  have h := State.batch_handCausesRaw l s c nd a
  rw [if_pos ha, hb, Option.map_some] at h
  refine (s.handCauses_eased l c).still a _ h ?_
  unfold Batch.given
  cases hs : b.state <;> simp [BatchState.flowing, hs]

theorem State.handCauses_others (s : State) (l : List ArmId) (c : HoldCause) (nd : l.Nodup) {a : ArmId} (ha : a ∉ l) :
    ((s.handCauses l c).batch a).map Batch.besidesFlow = (s.batch a).map Batch.besidesFlow := by
  rw [(s.handCauses_eased l c).batch a, State.batch_handCausesRaw l s c nd a, if_neg ha]

theorem Batch.given_closing {b : Batch} (c : HoldCause) (h : b.state = .closing) : b.given c = b := by simp [Batch.given, h]

theorem Batch.given_held {b : Batch} (c : HoldCause) (h : b.state ≠ .closing) :
    (b.given c).state = .held ∧ c ∈ (b.given c).holdSet := by
  unfold Batch.given
  cases hs : b.state <;> simp_all [mem_addTo (HoldCause.mem_all c)]

theorem State.bayArms_nodup (s : State) (b : BayId) : (s.bayArms b).Nodup := (List.nodup_finRange 12).filter _

theorem State.mem_bayArms (s : State) (b : BayId) (a : ArmId) : a ∈ s.bayArms b ↔ (s.arm a).bay = some b := by
  simp [State.bayArms, mem_allArms]

/-! ### Causes removed -/

theorem State.removeCause_eq (s : State) (c : HoldCause) (a : ArmId) :
    s.removeCause c a = { s with arms := (s.removeCause c a).arms } := by
  unfold State.removeCause
  split
  · split <;> rfl
  · rfl

/-- A batch as the removal of a cause leaves it. -/
def Batch.without (c : HoldCause) (holds : Bool) (b : Batch) : Batch :=
  if b.state = .held ∧ holds then { b with holdSet := dropFrom c b.holdSet } else b

theorem State.arm_removeCause (s : State) (c : HoldCause) (a x : ArmId) :
    (s.removeCause c a).arm x = if x = a
      then { s.arm a with batch := (s.batch a).map fun b => b.without c (s.conditionHolds a b c) } else s.arm x := by
  by_cases hx : x = a
  · subst hx
    rw [if_pos rfl]
    unfold State.removeCause
    split
    · rename_i b h
      split
      · rename_i hc
        rw [State.modBatch, State.arm_modArm, if_pos rfl]
        rw [show (s.arm x).batch = some b from h, h]
        simp [Batch.without, hc]
      · rename_i hc
        rw [h]; simp only [Option.map_some, Batch.without, if_neg hc]
        rw [← h]; rfl
    · rename_i h; rw [h, Option.map_none, ← h]; rfl
  · rw [if_neg hx]
    unfold State.removeCause
    split
    · split
      · rw [State.modBatch, State.arm_modArm, if_neg hx]
      · rfl
    · rfl

end Sys2Proof.Machine
end

