-- ==== Sys2Proof/Laws/Readers.lean ====
section
/-! SUPPORT. The little-endian bytes of a number and what the readers of Operands give on them: the bodies of
plain fields read back as the fields. -/

namespace Sys2Proof.Machine

@[simp] theorem length_littleEndian (n v : Nat) : (littleEndian n v).length = n := by
  induction n generalizing v with
  | zero => rfl
  | succ n ih => simp [littleEndian, ih]

/-- The bytes of a number that fits spell the number. -/
theorem ofLittleEndian_littleEndian (n v : Nat) (h : v < 256 ^ n) : ofLittleEndian (littleEndian n v) = v := by
  induction n generalizing v with
  | zero => simp at h; simp [littleEndian, ofLittleEndian, h]
  | succ n ih =>
    have h' : v / 256 < 256 ^ n := Nat.div_lt_of_lt_mul (by rw [Nat.pow_succ] at h; omega)
    simp only [littleEndian, ofLittleEndian, ih _ h', BitVec.toNat_ofNat]
    omega

theorem ofLittleEndian_lt (bs : List Byte) : ofLittleEndian bs < 256 ^ bs.length := by
  induction bs with
  | nil => simp [ofLittleEndian]
  | cons b rest ih =>
    have := b.isLt
    simp only [ofLittleEndian, List.length_cons, Nat.pow_succ]
    omega

/-- The number that bytes spell has those bytes. -/
theorem littleEndian_ofLittleEndian (bs : List Byte) : littleEndian bs.length (ofLittleEndian bs) = bs := by
  induction bs with
  | nil => rfl
  | cons b rest ih =>
    have hb := b.isLt
    have h1 : (b.toNat + 256 * ofLittleEndian rest) / 256 = ofLittleEndian rest := by omega
    have h2 : BitVec.ofNat 8 (b.toNat + 256 * ofLittleEndian rest) = b := by
      apply BitVec.eq_of_toNat_eq; simp only [BitVec.toNat_ofNat]; omega
    simp only [ofLittleEndian, List.length_cons, littleEndian, h1, h2, ih]

/-- A word reads off the bytes of a number that fits. -/
theorem word_littleEndian (n v : Nat) (rest : List Byte) (h : v < 256 ^ n) :
    word n (littleEndian n v ++ rest) = some (v, rest) := by
  simp [word, ofLittleEndian_littleEndian n v h]

theorem word_one (b : Byte) (rest : List Byte) : word 1 (b :: rest) = some (b.toNat, rest) := by
  simp [word, ofLittleEndian]

theorem readByte_one (b : Byte) : readByte [b] = some b.toNat := by simp [readByte, whole, word_one]

theorem readLong_littleEndian (v : Nat) (h : v < 4294967296) : readLong (littleEndian 4 v) = some v := by
  have := word_littleEndian 4 v [] (by simpa using h)
  rw [List.append_nil] at this
  simp [readLong, whole, this]

theorem numbered_byte {n : Nat} {b : Byte} {i : Fin n} (h : b.toNat = i.val + 1) : numbered n b.toNat = some i :=
  numbered_eq_some.mpr h

theorem numbered_byte_none {n : Nat} {b : Byte} (h : b = 0 ∨ n < b.toNat) : numbered n b.toNat = none := by
  rw [numbered_eq_none]
  rcases h with rfl | h
  · left; simp
  · right; exact h

end Sys2Proof.Machine
end

