-- ==== Sys2Proof/Laws/Requests.lean ====
section
/-! SUPPORT. Host requests: what a request's command does by the port's phase and by its body, and that what
each request's block does keeps the laws of batches, meters, notes, drawing sets and ESD (`Lawful`). -/

namespace Sys2Proof.Machine

set_option Elab.async false

/-! ### The port -/

section port
variable {α : Type} {s : State} {kind tag : Byte} {body : List Byte} {read : List Byte → Option α} {act : State → α → Reply}

theorem State.request_responding (h : s.port.phase = .responding) : s.request kind tag body read act = s := by
  simp [State.request, h]

theorem State.request_malformed (h : s.port.phase = .hunting) (hr : read body = none) :
    s.request kind tag body read act = s.respond kind tag body .invalid [] := by
  simp [State.request, h, hr, Reply.send, Reply.refused]

theorem State.request_taken {f : α} (h : s.port.phase = .hunting) (hr : read body = some f) :
    s.request kind tag body read act = (act s f).send kind tag body := by
  simp [State.request, h, hr]

/-- What holds of a state, of what the block leaves and of any response to it, holds after the request. -/
theorem State.request_rule {P : State → Prop} (hs : P s)
    (hr : ∀ t k tg rq r b, P t → P (t.respond k tg rq r b)) (ha : ∀ f, read body = some f → P (act s f).state) :
    P (s.request kind tag body read act) := by
  cases hp : s.port.phase with
  | responding => rw [State.request_responding hp]; exact hs
  | hunting =>
    cases hf : read body with
    | none => rw [State.request_malformed hp hf]; exact hr _ _ _ _ _ _ hs
    | some f => rw [State.request_taken hp hf]; exact hr _ _ _ _ _ _ (ha f hf)

end port

/-! ### Laws kept -/

/-- The laws of Safety.lean that speak of batches, meters, notes, drawing sets and ESD, kept. -/
structure Lawful (s t : State) : Prop where
  quiet : s.StoppedDemandsZero → t.StoppedDemandsZero
  residues : s.ResiduesBelowK → t.ResiduesBelowK
  notes : s.NotesDistinct → t.NotesDistinct
  drawing : s.DrawingExact → t.DrawingExact
  esd : s.EsdStopsFlow → t.EsdStopsFlow

theorem Keeps.lawful {s t : State} (h : Keeps s t) : Lawful s t := ⟨h.quiet, h.residues, h.notes, h.drawing, h.esd⟩

theorem Lawful.refl (s : State) : Lawful s s := (Keeps.refl s).lawful

theorem Lawful.trans {s t u : State} (h : Lawful s t) (k : Lawful t u) : Lawful s u :=
  ⟨fun q => k.quiet (h.quiet q), fun q => k.residues (h.residues q), fun q => k.notes (h.notes q),
    fun q => k.drawing (h.drawing q), fun q => k.esd (h.esd q)⟩

/-- Batches, drawing sets and ESD as they were, notes as they were or gone. -/
theorem Lawful.of {s t : State} (hb : ∀ a, t.batch a = s.batch a) (hd : ∀ h, (t.header h).drawing = (s.header h).drawing)
    (he : t.esd.active = s.esd.active) (hm : s.ResiduesBelowK → t.ResiduesBelowK) (hc : t.noteCounter = s.noteCounter)
    (hn : ∀ i, t.noteAt i = s.noteAt i ∨ t.noteAt i = none) : Lawful s t where
  quiet q a b e := q a b (by rw [← hb]; exact e)
  residues := hm
  notes q := by
    refine ⟨hc ▸ q.1, fun i j n hi hj => ?_⟩
    rcases hn i with k | k <;> rcases hn j with l | l <;> simp_all
    exact q.2 i j n hi hj
  drawing q h a := by rw [hd, hb]; exact q h a
  esd q e a b hab := q (he ▸ e) a b (by rw [← hb]; exact hab)

/-- No batch under way, drawing sets empty, notes and residues lawful. -/
theorem Lawful.of_idle {s t : State} (hb : ∀ a, t.batch a = none) (hd : ∀ h, (t.header h).drawing = [])
    (hm : s.ResiduesBelowK → t.ResiduesBelowK) (hn : s.NotesDistinct → t.NotesDistinct) : Lawful s t where
  quiet _ a b e := by rw [hb] at e; cases e
  residues := hm
  notes := hn
  drawing _ h a := by simp [hd, hb]
  esd _ _ a b e := by rw [hb] at e; cases e

variable (s : State)

theorem Lawful.respond {s t : State} (h : Lawful s t) (k tag : Byte) (rq : List Byte) (r : ResultCode) (b : List Byte) :
    Lawful s (t.respond k tag rq r b) :=
  h.trans (.of (fun _ => rfl) (fun _ => rfl) rfl id rfl fun _ => .inl rfl)

/-! ### Rack status -/

theorem State.eventsAck_lawful (l : List EventFlag) : Lawful s (s.eventsAck l).state := (Keeps.refl s).outside.lawful

theorem State.eventsMask_lawful (l : List EventFlag) : Lawful s (s.eventsMask l).state :=
  .of (fun _ => rfl) (fun _ => rfl) rfl id rfl fun _ => .inl rfl

theorem State.clockSet_lawful (t : Time) : Lawful s (s.clockSet t).state := by
  unfold State.clockSet
  split
  · exact .of (fun _ => rfl) (fun _ => rfl) rfl id rfl fun _ => .inl rfl
  · exact .refl s

theorem State.resetFlow_lawful : Lawful s s.resetFlow := by
  refine .of_idle ?_ ?_ ?_ ?_
  · intro a; simp [State.resetFlow, State.batch, State.arm]
  · intro h; simp [State.resetFlow, State.header]
  · intro q m
    have k := q m
    simp only [State.meter, State.resetFlow, vget_vmap, Meter.reset] at k ⊢
    exact k
  · intro q; exact q

theorem State.resetSessions_lawful : Lawful s s.resetSessions :=
  .of (fun _ => rfl) (fun _ => rfl) rfl id rfl fun _ => .inl rfl

theorem State.rackReset_lawful : Lawful s s.rackReset :=
  (s.resetFlow_lawful.trans (Keeps.refl _).recoverOrders.lawful).trans (State.resetSessions_lawful _)

theorem State.noteAt_empty {s : State} (h : s.orders = Vector.replicate 64 none) (i : SlotId) : s.noteAt i = none := by
  simp [State.noteAt, State.orderIn, h]

theorem Meter.cleared_residue (m : Meter) (h : m.residue < m.k) : m.cleared.residue < m.cleared.k := by
  unfold Meter.cleared
  dsimp only
  split
  · rename_i e; rw [e] at h; exact h
  · decide

theorem State.clearAll_lawful : Lawful s s.clearAll.state := by
  unfold State.clearAll
  split
  · refine .of_idle ?_ ?_ ?_ ?_
    · intro a; simp [Reply.ok, State.cleared, State.batch, State.arm, Arm.default]
    · intro h; simp [Reply.ok, State.cleared, State.header, Header.default]
    · intro q m
      have k := Meter.cleared_residue _ (q m)
      simp only [Reply.ok, State.meter, State.cleared, vget_vmap] at k ⊢
      exact k
    · intro _
      refine ⟨by simp [Reply.ok, State.cleared], fun i j n hi => ?_⟩
      rw [State.noteAt_empty rfl] at hi; cases hi
  · exact .refl s

theorem State.powerOn_lawful (p : Found) : Lawful s ((s.powerOn p).rackReset) := by
  have k := State.rackReset_lawful (s.powerOn p)
  have r : (s.powerOn p).resetFlow.StoppedDemandsZero ∧ (s.powerOn p).resetFlow.DrawingExact
      ∧ (s.powerOn p).resetFlow.EsdStopsFlow := by
    have b : ∀ a, (s.powerOn p).resetFlow.batch a = none := by intro a; simp [State.resetFlow, State.batch, State.arm]
    refine ⟨fun a x e => ?_, fun h a => ?_, fun _ a x e => ?_⟩
    · rw [b] at e; cases e
    · simp only [b]; simp [State.resetFlow, State.header]
    · rw [b] at e; cases e
  have l := ((Keeps.refl (s.powerOn p).resetFlow).recoverOrders.lawful).trans (State.resetSessions_lawful _)
  exact
    { quiet := fun _ => l.quiet r.1
      residues := fun q => k.residues q
      notes := fun q => k.notes q
      drawing := fun _ => l.drawing r.2.1
      esd := fun _ => l.esd r.2.2 }

theorem State.cutReset_lawful (c : CutReset) : Lawful s (s.cutReset c) := by
  unfold State.cutReset
  refine Lawful.trans ?_ ((Keeps.refl _).recoverFirst _).lawful
  split
  · exact .refl s
  · exact .of (fun _ => rfl) (fun _ => rfl) rfl id rfl fun _ => .inl rfl

theorem State.cutResets_lawful (l : List CutReset) : Lawful s (l.foldl State.cutReset s) := by
  induction l generalizing s with
  | nil => exact .refl s
  | cons c l ih => exact (s.cutReset_lawful c).trans (ih _)

theorem State.keepHunting_lawful (buffer : List Byte) : Lawful s (s.keepHunting buffer) := by
  unfold State.keepHunting; split
  · exact .refl s
  · exact .of (fun _ => rfl) (fun _ => rfl) rfl id rfl fun _ => .inl rfl

theorem State.batch_advance (a : ArmId) : s.advance.batch a = (s.batch a).map Batch.later := by
  simp [State.batch, State.arm, State.advance]

/-- A millisecond passing keeps the laws. -/
theorem State.advance_lawful : Lawful s s.advance where
  quiet q a b e := by
    rw [State.batch_advance, Option.map_eq_some_iff] at e
    obtain ⟨b0, h, rfl⟩ := e
    exact q a b0 h
  residues := id
  notes := id
  drawing q h a := by
    have k := q h a
    simp only [State.batch_advance, Option.map_eq_some_iff]
    rw [show (s.advance.header h).drawing = (s.header h).drawing from rfl, k]
    constructor
    · rintro ⟨b, e, f, m⟩; exact ⟨_, ⟨b, e, rfl⟩, f, m⟩
    · rintro ⟨_, ⟨b, e, rfl⟩, f, m⟩; exact ⟨b, e, f, m⟩
  esd q e a b h := by
    rw [State.batch_advance, Option.map_eq_some_iff] at h
    obtain ⟨b0, h, rfl⟩ := h
    exact q e a b0 h

/-! ### Permits, products, orders -/

/-- A change of permits, products, matrix and screens alone. -/
theorem Lawful.tables {permits products matrix screens promptMap} :
    Lawful s { s with permits := permits, products := products, matrix := matrix, screens := screens,
                      promptMap := promptMap } :=
  .of (fun _ => rfl) (fun _ => rfl) rfl id rfl fun _ => .inl rfl

theorem State.permitPut_lawful (f : PermitFields) : Lawful s (s.permitPut f).state := by
  unfold State.permitPut
  split
  · exact .refl s
  · split
    · exact .tables s
    · split
      · exact .tables s
      · exact .refl s

theorem State.permitGet_lawful (n : Nat) : Lawful s (s.permitGet n).state := by
  unfold State.permitGet; split <;> exact .refl s

theorem State.permitList_lawful (n : Nat) : Lawful s (s.permitList n).state := by
  unfold State.permitList; split <;> exact .refl s

theorem State.permitChange_lawful (n : Nat) (f : Permit → Permit) : Lawful s (s.permitChange n f).state := by
  unfold State.permitChange; split
  · exact .tables s
  · exact .refl s

theorem State.permitRetire_lawful (n : Nat) : Lawful s (s.permitRetire n).state := by
  unfold State.permitRetire; split
  · exact .refl s
  · split
    · exact .refl s
    · exact .tables s

theorem State.productPut_lawful (f : ProductFields) : Lawful s (s.productPut f).state := by
  unfold State.productPut; split
  · exact .refl s
  · exact .tables s

theorem State.productGet_lawful (n : Nat) : Lawful s (s.productGet n).state := by
  unfold State.productGet; split
  · exact .refl s
  · split <;> exact .refl s

theorem State.productDelete_lawful (n : Nat) : Lawful s (s.productDelete n).state := by
  unfold State.productDelete; split
  · exact .refl s
  · split
    · exact .refl s
    · split
      · exact .refl s
      · exact .tables s

theorem State.matrixPut_lawful (f : Nat × List (Option Verdict)) : Lawful s (s.matrixPut f).state := by
  unfold State.matrixPut; split
  · exact .refl s
  · split
    · exact .tables s
    · exact .refl s

/-- A slot written with no order or with one that is not NOTED. -/
theorem Lawful.slot (i : SlotId) (o : Option Order) (n : Nat) (ho : o.bind Order.noteNumber = none) :
    Lawful s { s with orders := vset s.orders i o, creationCounter := n } :=
  .of (fun _ => rfl) (fun _ => rfl) rfl id rfl fun j => by
    simp only [State.noteAt, State.orderIn, vget_vset]
    split
    · exact .inr ho
    · exact .inl rfl

theorem State.orderCreate_lawful (f : OrderFields) : Lawful s (s.orderCreate f).state := by
  unfold State.orderCreate
  split
  · exact .refl s
  · rename_i o ho
    repeat' split
    all_goals try exact .refl s
    refine .slot s _ _ _ ?_
    have : o.stage = .opened := by
      unfold OrderFields.checked at ho
      split at ho
      · split at ho
        · split at ho
          · cases ho; rfl
          · cases ho
        · cases ho
      · cases ho
    simp [Order.noteNumber, this]

theorem State.orderAmend_lawful (f : AmendFields) : Lawful s (s.orderAmend f).state := by
  unfold State.orderAmend
  split
  · exact .refl s
  · split
    · exact .refl s
    · split
      · exact .refl s
      · repeat' split
        all_goals try exact .refl s
        refine .of (fun _ => rfl) (fun _ => rfl) rfl id rfl fun j => .inl ?_
        simp only [Reply.ok, State.noteAt, State.orderIn_modOrder]
        split
        · rename_i e; subst e
          cases s.orderIn j <;> simp [Order.noteNumber, Order.modComp]
        · rfl

theorem State.orderCancel_lawful (n : Nat) : Lawful s (s.orderCancel n).state := by
  unfold State.orderCancel
  split
  · exact .refl s
  · split
    · exact .slot s _ none _ rfl
    · exact .refl s

theorem State.orderGet_lawful (f : Nat × Nat) : Lawful s (s.orderGet f).state := by
  unfold State.orderGet; split
  · split <;> exact .refl s
  · exact .refl s

theorem State.orderCollect_lawful (f : Nat × Nat) : Lawful s (s.orderCollect f).state := by
  unfold State.orderCollect; split
  · split
    · exact .refl s
    · split
      · split
        · exact .slot s _ none _ rfl
        · exact .refl s
      · exact .refl s
  · exact .refl s

/-! ### Bays -/

theorem State.bayClose_keeps (n : Nat) : Keeps s (s.bayClose n).state := by
  have r := Keeps.refl s
  unfold State.bayClose; split
  · exact r
  · split
    · exact r
    · exact r.endBeforeLoading _
    · exact r.endBeforeLoading _
    · exact r.endBeforeLoading _
    · exact r.hostClose _
    · exact r

theorem State.bayReset_keeps (n : Nat) : Keeps s (s.bayReset n).state := by
  unfold State.bayReset; split
  · exact Keeps.refl s
  · exact (Keeps.refl s).resetBay _

theorem State.bayMessage_keeps (f : Nat × Nat × Nat) : Keeps s (s.bayMessage f).state := by
  unfold State.bayMessage; split
  · split
    · dsimp only [Reply.ok]; exact (Keeps.refl s).modDisplay _ _
    · exact Keeps.refl s
  · exact Keeps.refl s

/-! ### Arms and headers -/

theorem ArmFields.checked_batch {f : ArmFields} {r : Arm} (h : f.checked = some r) : r.batch = none := by
  unfold ArmFields.checked at h
  split at h
  · split at h
    · cases h; rfl
    · cases h
  · cases h

theorem State.putArm_lawful (a : ArmId) (r : Arm) (hr : r.batch = none) : Lawful s (s.putArm a r).state := by
  unfold State.putArm
  repeat' split
  all_goals try exact .refl s
  rename_i h _ _
  refine .of (fun c => ?_) (fun _ => rfl) rfl id rfl fun _ => .inl rfl
  have h : s.batch a = none := by simpa using h
  simp only [Reply.ok, State.writeArm, State.batch_modArm]
  split
  · rename_i e; rw [e, h]; exact hr
  · rfl

theorem State.armPut_lawful (f : Nat × Option ArmFields) : Lawful s (s.armPut f).state := by
  unfold State.armPut; split
  · exact .refl s
  · split
    · exact s.putArm_lawful _ _ rfl
    · split
      · exact .refl s
      · rename_i h; exact s.putArm_lawful _ _ (ArmFields.checked_batch h)

theorem State.armGet_lawful (n : Nat) : Lawful s (s.armGet n).state := by
  unfold State.armGet; split <;> exact .refl s

theorem State.armReturn_lawful (n : Nat) : Lawful s (s.armReturn n).state := by
  unfold State.armReturn; split
  · exact .refl s
  · split
    · exact .refl s
    · dsimp only [Reply.ok]
      exact ((Keeps.refl s).modArm _ _ (fun b e => ⟨b, e, .refl b⟩) id).lawful

theorem State.setCapacity_lawful (h : HeaderId) (n : Nat) : Lawful s (s.setCapacity h n) := by
  have k : Lawful s (s.modHeader h fun r => { r with capacity := n }) :=
    .of (fun _ => rfl) (fun i => by rw [State.header_modHeader]; split <;> simp_all) rfl id rfl fun _ => .inl rfl
  unfold State.setCapacity; dsimp only; split
  · exact k
  · exact k.trans ((Keeps.refl _).computeCeilings h).lawful

theorem State.headerPut_lawful (f : Nat × Nat) : Lawful s (s.headerPut f).state := by
  unfold State.headerPut; split
  · exact .refl s
  · split
    · exact s.setCapacity_lawful _ _
    · exact .refl s

theorem State.headerGet_lawful (n : Nat) : Lawful s (s.headerGet n).state := by
  unfold State.headerGet; split <;> exact .refl s

theorem State.batchHold_keeps (n : Nat) : Keeps s (s.batchHold n).state := by
  unfold State.batchHold; split
  · exact Keeps.refl s
  · split
    · exact (Keeps.refl s).handCause _ _
    · exact Keeps.refl s

theorem State.batchResume_keeps (n : Nat) : Keeps s (s.batchResume n).state := by
  unfold State.batchResume; split
  · exact Keeps.refl s
  · rename_i a _
    split
    · rename_i hh
      have k := (Keeps.refl s).pruneHoldSet a
      dsimp only
      split
      · exact k
      · rename_i hc
        refine k.takeResume a (fun b' e => ?_) fun b' e => ?_
        · obtain ⟨b, hb, hst⟩ := s.batch_pruneHoldSet a b' e
          rw [hst]; simpa [State.batchIs, hb] using hh
        · simpa [State.conditionStands, e] using hc
    · exact Keeps.refl s

/-! ### Meters and injectors -/

theorem State.meterPut_lawful (f : Nat × Nat × Nat × Bool) : Lawful s (s.meterPut f).state := by
  unfold State.meterPut; split
  · repeat' split
    all_goals try exact .refl s
    rename_i m _ _ _ hr _
    refine .of (fun _ => rfl) (fun _ => rfl) rfl (fun q i => ?_) rfl fun _ => .inl rfl
    simp only [Reply.ok, State.meter_modMeter]
    split
    · have k := q m
      have hr : 1000 ≤ f.2.2.1 := by
        have : inRange 1000 1000000 f.2.2.1 = true := by simpa using hr
        exact (inRange_eq_true.mp this).1
      simp only [Meter.configured]
      split <;> omega
    · exact q i
  · exact .refl s

theorem State.meterGet_lawful (n : Nat) : Lawful s (s.meterGet n).state := by
  unfold State.meterGet; split <;> exact .refl s

theorem State.clearMeter_keeps (m : MeterId) : Keeps s (s.clearMeter m) := by
  have k := (Keeps.refl s).modMeter m Meter.restored
  unfold State.clearMeter; dsimp only; split
  · exact k
  · exact k.removeCauses _ _

theorem State.meterClear_keeps (n : Nat) : Keeps s (s.meterClear n).state := by
  unfold State.meterClear; split
  · exact s.clearMeter_keeps _
  · exact Keeps.refl s

/-- An injector changed alone. -/
theorem Lawful.modInjector (i : InjectorId) (f : Injector → Injector) : Lawful s (s.modInjector i f) :=
  .of (fun _ => rfl) (fun _ => rfl) rfl id rfl fun _ => .inl rfl

theorem State.injectorPut_lawful (f : InjectorFields) : Lawful s (s.injectorPut f).state := by
  unfold State.injectorPut; split
  · exact .refl s
  · repeat' split
    all_goals try exact .refl s
    unfold State.configureInjector Reply.ok
    dsimp only; split
    · exact .modInjector s _ _
    · exact (Lawful.modInjector s _ _).trans ((Keeps.refl _).injectorChanged _).lawful

theorem State.injectorGet_lawful (n : Nat) : Lawful s (s.injectorGet n).state := by
  unfold State.injectorGet; split <;> exact .refl s

theorem State.clearFailures_lawful (i : InjectorId) : Lawful s (s.clearFailures i) := .modInjector s i _

theorem State.injectorClear_lawful (n : Nat) : Lawful s (s.injectorClear n).state := by
  unfold State.injectorClear; split
  · exact .refl s
  · split
    · exact (s.clearFailures_lawful _).trans ((Keeps.refl _).setInjectorState _ _).lawful
    · exact s.clearFailures_lawful _
    · exact s.clearFailures_lawful _
    · exact .refl s
    · exact .refl s

theorem State.stockAdd_keeps (f : Nat × Nat) : Keeps s (s.stockAdd f).state := by
  unfold State.stockAdd; split
  · exact Keeps.refl s
  · dsimp only; split
    · exact (Keeps.refl s).putStock _ _
    · exact Keeps.refl s

/-- What the computed K of a run is: by the formula for a volume above 0, and nothing but the count of free values can
change. -/
theorem State.computedK_spec (p : Proving) (measured : Nat) :
    (0 < measured → s.computedK p measured = (p.newK measured, s)) ∧
      ∃ k, (s.computedK p measured).2 = { s with freeCount := k } := by
  unfold State.computedK
  split
  · exact ⟨fun h => absurd h (by omega), _, rfl⟩
  · exact ⟨fun _ => rfl, s.freeCount, rfl⟩

theorem State.stockSet_keeps (f : Nat × Nat) : Keeps s (s.stockSet f).state := by
  unfold State.stockSet; split
  · exact Keeps.refl s
  · split
    · exact (Keeps.refl s).putStock _ _
    · exact Keeps.refl s

theorem State.proveStart_keeps (f : Nat × Nat) : Keeps s (s.proveStart f).state := by
  unfold State.proveStart; split
  · exact Keeps.refl s
  · dsimp only
    repeat' split
    all_goals try exact Keeps.refl s
    exact (((Keeps.refl s).modInjector _ _).setInjectorState _ _).startProvingShot _

theorem State.proveResult_lawful (f : Nat × Nat) : Lawful s (s.proveResult f).state := by
  unfold State.proveResult; split
  · exact .refl s
  · split
    · exact .refl s
    · rename_i p _
      have k : Lawful s (s.computedK p f.2).2 := by
        obtain ⟨-, k, e⟩ := s.computedK_spec p f.2
        rw [e]; exact .of (fun _ => rfl) (fun _ => rfl) rfl id rfl fun _ => .inl rfl
      dsimp only
      split
      · exact (k.trans (Lawful.modInjector _ _ _)).trans ((Keeps.refl _).setInjectorState _ _).lawful
      · exact k

theorem State.proveAbort_keeps (n : Nat) : Keeps s (s.proveAbort n).state := by
  unfold State.proveAbort; split
  · exact Keeps.refl s
  · split
    · exact (Keeps.refl s).abortProving _
    · exact (Keeps.refl s).abortProving _
    all_goals exact Keeps.refl s

/-! ### Screens -/

theorem State.screenPut_lawful (f : Nat × List Line) : Lawful s (s.screenPut f).state := by
  unfold State.screenPut; split
  · exact .refl s
  · split
    · exact .refl s
    · exact .tables s

theorem State.screenGet_lawful (n : Nat) : Lawful s (s.screenGet n).state := by
  unfold State.screenGet; split <;> exact .refl s

theorem State.promptMapPut_lawful (l : List (Situation × Nat × Bool)) : Lawful s (s.promptMapPut l).state := by
  unfold State.promptMapPut; split
  · exact .refl s
  · exact .tables s

end Sys2Proof.Machine
end

