-- ==== Sys2Proof/Laws/Holding.lean ====
section
/-! SUPPORT. What single events of flow control do, each said once: an entry to CLOSING (`Closed`), causes removed, a sign of
life and a key (`Woken`), an entry to LOW_START (`LowStarted`), a resume, a hold (`Holding`). -/

namespace Sys2Proof.Machine

set_option Elab.async false

/-! ### Closings, removals of causes, signs of life -/

theorem dropFrom_eq_self {α : Type} [DecidableEq α] {x : α} {l : List α} (h : x ∉ l) : dropFrom x l = l := by
  unfold dropFrom
  rw [List.filter_eq_self]
  intro y hy
  simp only [ne_eq, decide_eq_true_eq]
  rintro rfl; exact h hy

theorem dropFrom_ne_self {α : Type} [DecidableEq α] {x : α} {l : List α} (h : x ∈ l) : dropFrom x l ≠ l := by
  intro e
  have : x ∈ dropFrom x l := by rw [e]; exact h
  simp at this

/-- An event by which one arm left one drawing set: the arm is as the event left it, the arms that stay have ceilings
anew (R97). -/
theorem State.settleHeaders_left (before after : State) (a : ArmId) (k : HeaderId)
    (h : ∀ j, (after.header j).drawing = if j = k then dropFrom a (before.header j).drawing else (before.header j).drawing) :
    (before.settleHeaders after).arm a = after.arm a ∧
      (a ∈ (before.header k).drawing → (before.settleHeaders after).CeilingsAt k) := by
  by_cases ha : a ∈ (before.header k).drawing
  · have hk : (after.header k).drawing ≠ (before.header k).drawing := by
      rw [h k, if_pos rfl]; exact dropFrom_ne_self ha
    have ho : ∀ j, j ≠ k → (after.header j).drawing = (before.header j).drawing := fun j hj => by rw [h j, if_neg hj]
    refine ⟨?_, fun _ => State.settleHeaders_at _ _ k ho hk⟩
    rw [State.settleHeaders_one _ _ k ho hk, State.arm_computeCeilings, if_neg]
    rw [h k, if_pos rfl]; simp
  · have : before.settleHeaders after = after := State.settleHeaders_same _ _ fun j => by
      rw [h j]; split
      · rename_i e; subst e; exact dropFrom_eq_self ha
      · rfl
    rw [this]; exact ⟨rfl, fun c => absurd c ha⟩

/-- An event by which one arm joined one drawing set: it and the arms that draw already have ceilings anew (R97). -/
theorem State.settleHeaders_joined (before after : State) (a : ArmId) (k : HeaderId) (ha : a ∉ (before.header k).drawing)
    (h : ∀ j, (after.header j).drawing = if j = k then addTo allArms a (before.header j).drawing else (before.header j).drawing) :
    before.settleHeaders after = after.computeCeilings k := by
  refine State.settleHeaders_one _ _ k (fun j hj => by rw [h j, if_neg hj]) fun e => ha ?_
  rw [← e, h k, if_pos rfl, mem_addTo (mem_allArms a)]; exact .inl rfl

/-- A batch as its entry to CLOSING leaves it (R92). -/
def Batch.closed (kind : CloseKind) (b : Batch) : Batch :=
  { b.still with state := .closing, holdSet := [], ceiling := none, closeKind := some kind, settle := seconds 2, leak := seconds 30 }

theorem State.enterClosingRaw_eq (s : State) (a : ArmId) (kind : CloseKind) :
    s.enterClosingRaw a kind =
      { s with arms := (s.enterClosingRaw a kind).arms, headers := (s.enterClosingRaw a kind).headers
               injectors := (s.enterClosingRaw a kind).injectors } := by
  unfold State.enterClosingRaw; split <;> rfl

theorem State.enterClosingRaw_flowOnly (s : State) (a : ArmId) (kind : CloseKind) : FlowOnly s (s.enterClosingRaw a kind) := by
  unfold State.enterClosingRaw
  split
  · exact FlowOnly.refl s
  · exact ((s.modBatch_flowOnly a _).trans (State.leaveRaw_flowOnly _ _ a)).trans (State.removeQueueEntries_flowOnly _ a)

theorem State.batch_enterClosingRaw (s : State) (a x : ArmId) (kind : CloseKind) :
    (s.enterClosingRaw a kind).batch x = if x = a then (s.batch a).map (Batch.closed kind) else s.batch x := by
  unfold State.enterClosingRaw
  split
  · rename_i h; rw [h]; split
    · rename_i e; subst e; rw [h]; rfl
    · rfl
  · rename_i b h
    simp only [State.batch_removeQueueEntries, State.batch_leaveRaw, State.batch_modBatch]
    split
    · rw [if_pos trivial, h]; rfl
    · rfl

theorem State.header_enterClosingRaw (s : State) (a : ArmId) (kind : CloseKind) {b : Batch} (hb : s.batch a = some b) (h : HeaderId) :
    (s.enterClosingRaw a kind).header h =
      if h = b.snapshot.mainHeader then { s.header h with drawing := dropFrom a (s.header h).drawing } else s.header h := by
  unfold State.enterClosingRaw
  rw [hb]
  show (((s.modBatch a _).leaveRaw b.snapshot.mainHeader a).header h) = _
  unfold State.leaveRaw
  rw [State.header_modBatch, State.header_modHeader]
  split
  · rename_i e; subst e; rfl
  · rfl

theorem State.queue_enterClosingRaw (s : State) (a : ArmId) (kind : CloseKind) {b : Batch} (hb : s.batch a = some b) (i : InjectorId) :
    ((s.enterClosingRaw a kind).injector i).queue = (s.injector i).queue.filter fun e => decide (e.arm ≠ a) := by
  unfold State.enterClosingRaw
  rw [hb]
  simp [State.removeQueueEntries, State.injector]
  rfl

/-- One batch's entry to CLOSING (R92, R97). -/
structure Closed (s t : State) (a : ArmId) (b : Batch) (kind : CloseKind) : Prop where
  eq : t = { s with arms := t.arms, headers := t.headers, injectors := t.injectors }
  arm : ∀ x, t.arm x = { s.arm x with batch := t.batch x }
  batch : t.batch a = some (b.closed kind)
  others : ∀ x, x ≠ a → (t.batch x).map Batch.besidesFlow = (s.batch x).map Batch.besidesFlow
  drawing : ∀ h, (t.header h).drawing
    = if h = b.snapshot.mainHeader then dropFrom a (s.header h).drawing else (s.header h).drawing
  ceilings : a ∈ (s.header b.snapshot.mainHeader).drawing → t.CeilingsAt b.snapshot.mainHeader
  queue : ∀ i, (t.injector i).queue = (s.injector i).queue.filter fun e => decide (e.arm ≠ a)

/-- An entry to CLOSING (R91, R92) does what `Closed` says. -/
theorem State.enterClosing_closed (s : State) (a : ArmId) (b : Batch) (kind : CloseKind) (hb : s.batch a = some b) :
    Closed s (s.enterClosing a kind) a b kind := by
  have hd : ∀ j, ((s.enterClosingRaw a kind).header j).drawing
      = if j = b.snapshot.mainHeader then dropFrom a (s.header j).drawing else (s.header j).drawing := by
    intro j; rw [State.header_enterClosingRaw s a kind hb]; split <;> rfl
  have hl := State.settleHeaders_left s (s.enterClosingRaw a kind) a b.snapshot.mainHeader hd
  have he := State.settleHeaders_eased s (s.enterClosingRaw a kind)
  have ht : s.enterClosing a kind = s.settleHeaders (s.enterClosingRaw a kind) := rfl
  rw [ht]
  refine ⟨?_, ?_, ?_, ?_, ?_, hl.2, ?_⟩
  · rw [he.eq, State.enterClosingRaw_eq]
  · intro x
    rw [he.arm x, (State.enterClosingRaw_flowOnly s a kind).arm x]
  · unfold State.batch; rw [hl.1]
    show State.batch (s.enterClosingRaw a kind) a = _
    rw [State.batch_enterClosingRaw, if_pos rfl, hb]; rfl
  · intro x hx; rw [he.batch x, State.batch_enterClosingRaw, if_neg hx]
  · intro h; rw [← hd h, he.eq]; rfl
  · intro i; rw [← State.queue_enterClosingRaw s a kind hb i, he.eq]; rfl

/-! ### Causes removed from several batches -/

/-- Removals of a cause change arms only. -/
theorem State.removeCauses_eq (s : State) (l : List ArmId) (c : HoldCause) :
    s.removeCauses l c = { s with arms := (s.removeCauses l c).arms } := by
  unfold State.removeCauses
  induction l generalizing s with
  | nil => rfl
  | cons a l ih => rw [List.foldl_cons, ih, State.removeCause_eq]

/-- A condition reads no hold set. -/
theorem State.conditionHolds_removeCause (s : State) (c d : HoldCause) (a x : ArmId) (b : Batch) :
    (s.removeCause c a).conditionHolds x b d = s.conditionHolds x b d := by
  have e := State.removeCause_eq s c a
  have ha : ∀ y, ((s.removeCause c a).arm y).bay = (s.arm y).bay ∧ ((s.removeCause c a).arm y).connected = (s.arm y).connected
      ∧ ((s.removeCause c a).arm y).mainMeter = (s.arm y).mainMeter ∧ ((s.removeCause c a).arm y).blendMeter = (s.arm y).blendMeter := by
    intro y; rw [State.arm_removeCause]; split
    · rename_i e; subst e; exact ⟨rfl, rfl, rfl, rfl⟩
    · exact ⟨rfl, rfl, rfl, rfl⟩
  have hm : (s.removeCause c a).boundMeters x = s.boundMeters x := by
    unfold State.boundMeters
    rw [(ha x).2.2.1, (ha x).2.2.2]
    have hb : ((s.removeCause c a).batch x).map (·.snapshot) = (s.batch x).map (·.snapshot) := by
      unfold State.batch; rw [State.arm_removeCause]; split
      · rename_i e; subst e
        dsimp only
        rw [Option.map_map]
        congr 1; funext y; simp only [Function.comp, Batch.without]; split <;> rfl
      · rfl
    generalize (s.removeCause c a).batch x = p at hb
    generalize s.batch x = q at hb
    cases p <;> cases q <;> simp only [Option.map_some, Option.map_none, Option.some.injEq, reduceCtorEq] at hb
    · rfl
    · dsimp only; rw [hb]
  cases d <;> simp only [State.conditionHolds, hm, (ha x).1, (ha x).2.1] <;> rw [e] <;> rfl

/-- What the removal of a cause from several batches does (R101). -/
theorem State.arm_removeCauses (s : State) (l : List ArmId) (c : HoldCause) (nd : l.Nodup) (x : ArmId) :
    (s.removeCauses l c).arm x = if x ∈ l
      then { s.arm x with batch := (s.batch x).map fun b => b.without c (s.conditionHolds x b c) } else s.arm x := by
  unfold State.removeCauses
  induction l generalizing s with
  | nil => simp
  | cons a l ih =>
    have nd' := List.nodup_cons.mp nd
    rw [List.foldl_cons, ih _ nd'.2]
    by_cases hx : x = a
    · subst hx
      simp only [nd'.1, if_false, List.mem_cons, true_or, if_true]
      rw [State.arm_removeCause, if_pos rfl]
    · have hb : (s.removeCause c a).batch x = s.batch x := by
        unfold State.batch; rw [State.arm_removeCause, if_neg hx]
      simp only [List.mem_cons, hx, false_or, State.arm_removeCause, if_false, hb, State.conditionHolds_removeCause]


/-! ### Keys -/

/-- What a sign of life, and a key's first effect, can change: sessions, displays, and of the arms the hold sets of the
bay's HELD batches, which can lose TERMINAL_LOST. -/
structure Woken (s t : State) (bay : BayId) : Prop where
  eq : t = { s with bays := t.bays, arms := t.arms, displays := t.displays }
  arm : ∀ a, t.arm a = { s.arm a with
    batch := (s.batch a).map fun b =>
      if (s.arm a).bay = some bay ∧ b.state = .held ∧ (s.session bay).terminal = .lost
      then { b with holdSet := dropFrom .terminalLost b.holdSet } else b }
  bays : ∃ timer, t.bays = vset s.bays bay { s.session bay with terminal := .present, silence := some 3000, timer := timer }
  displays : t.displays = if (s.session bay).terminal = .lost
    then vset s.displays bay { s.display bay with restored := some 5000 } else s.displays

theorem Arm.map_id {r : Arm} {f : Batch → Batch} (h : ∀ b, f b = b) : { r with batch := r.batch.map f } = r := by
  have : f = id := funext h
  rw [this, Option.map_id]; rfl

/-- A sign of life (R67) does what `Woken` says. -/
theorem State.signOfLife_woken (s : State) (bay : BayId) : Woken s (s.signOfLife bay) bay := by
  unfold State.signOfLife
  dsimp only
  split
  · rename_i hl
    generalize hs1 : s.modSession bay (fun x => { x with terminal := .present, silence := seconds 3 }) = s1
    have e1 : s1 = { s with bays := vset s.bays bay { s.session bay with terminal := .present, silence := seconds 3 } } := by
      rw [← hs1]; rfl
    have hb : s1.bayArms bay = s.bayArms bay := by rw [e1]; rfl
    have ha : ∀ a, s1.arm a = s.arm a := fun a => by rw [e1]; rfl
    have hB : ∀ a, s1.batch a = s.batch a := fun a => by rw [e1]; rfl
    have ht : (s1.session bay).terminal = .present := by rw [← hs1]; simp
    refine ⟨?_, ?_, ⟨(s.session bay).timer, ?_⟩, ?_⟩
    · show _ = _
      unfold State.modDisplay
      rw [State.removeCauses_eq, e1]
    · intro a
      show State.arm (s1.removeCauses (s1.bayArms bay) .terminalLost) a = _
      rw [State.arm_removeCauses _ _ _ (State.bayArms_nodup _ _), hb, ha, hB]
      by_cases hm : (s.arm a).bay = some bay
      · rw [if_pos ((State.mem_bayArms s bay a).mpr hm)]
        refine congrArg (fun f => ({ s.arm a with batch := (s.batch a).map f } : Arm)) (funext fun b => ?_)
        have : s1.conditionHolds a b .terminalLost = true := by
          simp [State.conditionHolds, ha, hm, ht]
        simp only [Batch.without, this, hm, hl, and_true, true_and]
      · rw [if_neg (fun e => hm ((State.mem_bayArms s bay a).mp e))]
        refine (Arm.map_id fun b => ?_).symm
        simp [hm]
    · show State.bays (s1.removeCauses (s1.bayArms bay) .terminalLost) = _
      rw [State.removeCauses_eq, e1]; rfl
    · rw [if_pos hl]
      show State.displays (State.modDisplay _ _ _) = _
      unfold State.modDisplay State.display
      rw [State.removeCauses_eq, e1]; rfl
  · rename_i hl
    refine ⟨rfl, ?_, ⟨(s.session bay).timer, rfl⟩, ?_⟩
    · intro a
      refine (Arm.map_id fun b => ?_).symm
      simp [hl]
    · rw [if_neg hl]; rfl

/-- So does what every key does first (R67, R75). -/
theorem State.keyed_woken (s : State) (bay : BayId) : Woken s (s.keyed bay) bay := by
  have h := State.signOfLife_woken s bay
  unfold State.keyed State.restartInactivity
  split
  · obtain ⟨timer, hb⟩ := h.bays
    refine ⟨?_, h.arm, ⟨seconds 600, ?_⟩, h.displays⟩
    · unfold State.modSession; rw [h.eq]
    · show vset (s.signOfLife bay).bays bay _ = _
      unfold State.session
      rw [hb]
      apply Vector.ext
      intro i hi
      by_cases e : bay.val = i
      · subst e; simp [vset, vget, State.session]
      · simp [vset, Vector.getElem_set_ne, e]
  · exact h

section
variable {s u : State} {bay : BayId} (h : Woken s u bay)
include h
theorem Woken.orders : u.orders = s.orders := by rw [h.eq]
theorem Woken.permits : u.permits = s.permits := by rw [h.eq]
theorem Woken.meters : u.meters = s.meters := by rw [h.eq]
theorem Woken.headers : u.headers = s.headers := by rw [h.eq]
theorem Woken.injectors : u.injectors = s.injectors := by rw [h.eq]
theorem Woken.flags : u.flags = s.flags := by rw [h.eq]
theorem Woken.armBay (a : ArmId) : (u.arm a).bay = (s.arm a).bay := by rw [h.arm a]
theorem Woken.bayArms (b : BayId) : u.bayArms b = s.bayArms b := by
  unfold State.bayArms; congr 1; funext a; rw [h.armBay a]
theorem Woken.session : ∃ timer, u.session bay = { s.session bay with terminal := .present, silence := some 3000, timer := timer } := by
  obtain ⟨t, e⟩ := h.bays
  exact ⟨t, by unfold State.session; rw [e, vget_vset_same]; rfl⟩
theorem Woken.session_other {c : BayId} (hc : c ≠ bay) : u.session c = s.session c := by
  obtain ⟨t, e⟩ := h.bays
  unfold State.session; rw [e, vget_vset_ne _ _ hc]
theorem Woken.focusArm : u.focusArm bay = s.focusArm bay := by
  obtain ⟨t, e⟩ := h.session
  unfold State.focusArm; rw [h.bayArms, e]
theorem Woken.batch (a : ArmId) : u.batch a = (s.batch a).map fun b =>
    if (s.arm a).bay = some bay ∧ b.state = .held ∧ (s.session bay).terminal = .lost
    then { b with holdSet := dropFrom .terminalLost b.holdSet } else b := by
  show (u.arm a).batch = _; rw [h.arm a]
theorem Woken.batchIs (a : ArmId) (st : BatchState) : u.batchIs a st = s.batchIs a st := by
  unfold State.batchIs; rw [h.batch a]
  cases s.batch a with
  | none => rfl
  | some b => simp only [Option.map_some, Option.any_some]; split <;> rfl
theorem Woken.flowing (a : ArmId) : u.flowing a = s.flowing a := by
  unfold State.flowing; rw [h.batch a]
  cases s.batch a with
  | none => rfl
  | some b => simp only [Option.map_some, Option.any_some]; split <;> rfl
theorem Woken.batch_isNone (a : ArmId) : u.batch a = none ↔ s.batch a = none := by
  rw [h.batch a]; simp
theorem Woken.allIdle (b : BayId) : u.allIdle b = s.allIdle b := by
  unfold State.allIdle; rw [h.bayArms]; congr 1; funext a; rw [h.batch a]; cases s.batch a <;> rfl
theorem Woken.findOrder (n : Nat) : u.findOrder n = s.findOrder n := by
  unfold State.findOrder State.orderIn; rw [h.orders]
theorem Woken.drawing (d : s.DrawingExact) : u.DrawingExact := by
  intro k a
  rw [show u.header k = s.header k by unfold State.header; rw [h.headers], d k a, h.batch a]
  cases s.batch a with
  | none => simp
  | some b => simp only [Option.map_some, Option.some.injEq, exists_eq_left']; split <;> rfl
end

/-! ### Keys in LOADING -/

theorem State.loadingKey_eq {u : State} {bay : BayId} {x : Session} (hx : x = { u.session bay with armPending := false })
    (hl : x.state = .loading) (act : State → State) :
    u.loadingKey bay act = act { u with bays := vset u.bays bay x } := by
  subst hx
  unfold State.loadingKey
  rw [if_pos hl]; rfl

theorem vset_vset {α : Type} {n : Nat} (v : Vector α n) (i : Fin n) (x y : α) : vset (vset v i x) i y = vset v i y := by
  simp [vset]

theorem focusArm_set {u : State} {bay : BayId} {x : Session} (h : x.focus = (u.session bay).focus) :
    ({ u with bays := vset u.bays bay x } : State).focusArm bay = u.focusArm bay := by
  unfold State.focusArm State.session
  simp only [vget_vset_same, h]; rfl

theorem session_set {u : State} {bay : BayId} {x : Session} :
    ({ u with bays := vset u.bays bay x } : State).session bay = x := by simp [State.session]

theorem refuse_set {u : State} {bay : BayId} {x : Session} (r : Reason) :
    ({ u with bays := vset u.bays bay x } : State).refuse bay r
      = { u with bays := vset u.bays bay { x with reason := some r, reasonTimer := some 5000 } } := by
  unfold State.refuse State.modSession
  simp only [session_set, vset_vset, seconds]

theorem Woken.header {s u : State} {bay : BayId} (h : Woken s u bay) (k : HeaderId) : u.header k = s.header k := by
  unfold State.header; rw [h.headers]
theorem Woken.injector {s u : State} {bay : BayId} (h : Woken s u bay) (k : InjectorId) : u.injector k = s.injector k := by
  unfold State.injector; rw [h.injectors]

/-! ### Entries to LOW_START -/

/-- What an entry to LOW_START does (R86, R88, R102). -/
structure LowStarted (s t : State) (a : ArmId) (b : Batch) : Prop where
  eq : t = { s with arms := t.arms, headers := t.headers }
  arm : ∀ x, t.arm x = { s.arm x with batch := t.batch x }
  drawing : ∀ h, (t.header h).drawing
    = if h = b.snapshot.mainHeader then addTo allArms a (s.header h).drawing else (s.header h).drawing
  capacity : ∀ h, (t.header h).capacity = (s.header h).capacity
  ceilings : t.CeilingsAt b.snapshot.mainHeader
  batch : ∀ c, c = min ((s.header b.snapshot.mainHeader).capacity
      / (addTo allArms a (s.header b.snapshot.mainHeader).drawing).length) (s.arm a).maxFlow →
    t.batch a = some { b.atLowStart with ceiling := some c, mainDemand := min (s.arm a).lowFlow c }
  others : ∀ x, x ≠ a → State.CeilingResponse s t b.snapshot.mainHeader x

theorem State.enterLowStart_spec (s : State) (a : ArmId) (b : Batch) (hb : s.batch a = some b)
    (hd : a ∉ (s.header b.snapshot.mainHeader).drawing) : LowStarted s (s.enterLowStart a b) a b := by
  unfold State.enterLowStart
  generalize hafter : (s.modBatch a Batch.atLowStart).joinRaw b.snapshot.mainHeader a = after
  have hh : ∀ j, after.header j = if j = b.snapshot.mainHeader
      then { s.header j with drawing := addTo allArms a (s.header j).drawing } else s.header j := by
    intro j; rw [← hafter]; unfold State.joinRaw
    rw [State.header_modHeader]
    split
    · rename_i e; subst e; rfl
    · rfl
  have hB : ∀ x, after.batch x = if x = a then some b.atLowStart else s.batch x := by
    intro x; rw [← hafter]; unfold State.joinRaw
    rw [State.batch_modHeader, State.batch_modBatch, hb]; rfl
  have hA : ∀ x, after.arm x = { s.arm x with batch := after.batch x } := by
    intro x; rw [← hafter]
    exact ((s.modBatch_flowOnly a _).trans (State.modHeader_flowOnly _ _ _)).arm x
  rw [State.settleHeaders_joined s after a b.snapshot.mainHeader hd (fun j => by rw [hh]; split <;> rfl)]
  have ee := after.computeCeilings_eased b.snapshot.mainHeader
  have hm : a ∈ (after.header b.snapshot.mainHeader).drawing := by
    rw [hh, if_pos rfl]; simp [mem_addTo (mem_allArms a)]
  have heq : after = { s with arms := after.arms, headers := after.headers } := by rw [← hafter]; rfl
  have hhe : ∀ j, (after.computeCeilings b.snapshot.mainHeader).header j = after.header j := by intro j; rw [ee.eq]; rfl
  refine ⟨?_, ?_, ?_, ?_, State.computeCeilings_at _ _, ?_, ?_⟩
  · rw [ee.eq, heq]
  · intro x; rw [ee.arm, hA]
  · intro j; rw [hhe, hh]; split <;> rfl
  · intro j; rw [hhe, hh]; split <;> rfl
  · intro c hc
    rw [State.batch_computeCeilings, if_pos hm, hB, if_pos rfl]
    have hce : after.ceilingOf b.snapshot.mainHeader a = c := by
      unfold State.ceilingOf; rw [hh, if_pos rfl, hA, hc]
    rw [hce]
    simp only [Option.map_some, Option.some.injEq]
    unfold respondCeiling
    rw [if_neg (by simp [Batch.atLowStart])]
    simp only [Batch.atLowStart, lowStartDemand, capped, hA]
  · intro x hx
    have hx' : after.batch x = s.batch x := by rw [hB, if_neg hx]
    have hxa : after.arm x = s.arm x := by rw [hA, hx']; rfl
    have hmem : x ∈ (after.header b.snapshot.mainHeader).drawing ↔ x ∈ (s.header b.snapshot.mainHeader).drawing := by
      rw [hh, if_pos rfl]; simp [mem_addTo (mem_allArms x), hx]
    unfold State.CeilingResponse
    rw [State.batch_computeCeilings, if_congr hmem rfl rfl, hx', hxa]
    have hce : (after.computeCeilings b.snapshot.mainHeader).ceilingOf b.snapshot.mainHeader x
        = after.ceilingOf b.snapshot.mainHeader x := by
      unfold State.ceilingOf; rw [hhe, ee.arm]
    rw [hce]

theorem State.orderOf_modComp (s : State) (r r' : CompRef) (f : Compartment → Compartment) :
    (s.modComp r f).orderOf r' = if r'.slot = r.slot ∧ (s.orderOf r).isSome
      then (s.orderOf r').map fun o => o.modComp r.comp f else s.orderOf r' := by
  unfold State.modComp
  split
  · rename_i o h
    rw [h]; simp only [Option.isSome_some, and_true]
    unfold State.orderOf
    rw [State.orderIn_modOrder]
    split
    · rename_i e; rw [e]
      cases s.orderIn r.slot with
      | none => rfl
      | some p =>
        simp only [Option.map_some, Option.filter_some]
        by_cases hn : p.number = r'.order <;> simp [Order.modComp, hn]
    · rfl
  · rename_i h; rw [h]; simp

theorem Order.comp_modComp (o : Order) (n m : CompNo) (f : Compartment → Compartment) (hf : ∀ c, (f c).number = c.number) :
    (o.modComp n f).comp m = if m = n then (o.comp m).map f else o.comp m := by
  unfold Order.comp Order.modComp
  dsimp only
  induction o.comps with
  | nil => simp
  | cons c l ih =>
    simp only [List.map_cons, List.find?_cons]
    by_cases hc : c.number = n
    · rw [if_pos hc]
      by_cases hm : c.number = m
      · have : m = n := hm ▸ hc
        subst this
        simp [hf, hc]
      · simp only [hf, hm, decide_false, ih]
    · rw [if_neg hc]
      by_cases hm : c.number = m
      · have : m ≠ n := fun e => hc (hm.trans e)
        simp [hm, this]
      · simp only [hm, decide_false, ih]

theorem State.modComp_at (s : State) (r : CompRef) (f : Compartment → Compartment) (hf : ∀ c, (f c).number = c.number)
    {o : Order} {c : Compartment} (ho : s.orderOf r = some o) (hc : o.comp r.comp = some c) :
    (s.modComp r f).orderOf r = some (o.modComp r.comp f) ∧ (o.modComp r.comp f).comp r.comp = some (f c) := by
  rw [State.orderOf_modComp, ho]
  simp [Order.comp_modComp _ _ _ _ hf, hc]

/-- A resume taken (R102). -/
theorem State.takeResume_spec (s : State) (a : ArmId) (b : Batch) (hb : s.batch a = some b)
    (hd : a ∉ (s.header b.snapshot.mainHeader).drawing) : (s.takeResume a).ResumedFrom s a b := by
  unfold State.takeResume
  rw [hb]
  dsimp only
  generalize hv : s.modComp b.ref (fun x => { x with state := .loading }) = v
  have ve : v = { s with orders := v.orders } := by rw [← hv]; exact State.modComp_eq s _ _
  have hb' : v.batch a = some b := by rw [ve]; exact hb
  have hh : ∀ j, v.header j = s.header j := by intro j; rw [ve]; rfl
  have ha : ∀ j, v.arm j = s.arm j := by intro j; rw [ve]; rfl
  have hB : ∀ j, v.batch j = s.batch j := by intro j; rw [ve]; rfl
  have k := State.enterLowStart_spec v a b hb' (by rw [hh]; exact hd)
  refine ⟨⟨_, rfl, ?_⟩, ?_, k.ceilings, ?_, ?_, ?_, ?_, ?_, ?_⟩
  · rw [k.batch _ rfl, hh, ha]; rfl
  · intro j; rw [k.drawing, hh]
  · intro o c ho hc
    have m := State.modComp_at s b.ref (fun x => { x with state := .loading }) (fun _ => rfl) ho hc
    refine ⟨_, ?_, m.2⟩
    rw [k.eq]
    rw [hv] at m
    exact m.1
  · intro c hc
    have := k.others c hc
    unfold State.CeilingResponse at this ⊢
    rw [this, hB, hh, ha]
  · rw [k.eq, ve]
  · rw [k.eq, ve]
  · rw [k.eq, ve]
  · rw [k.eq, ve]

theorem State.DrawingExact.not_drawing {s : State} (d : s.DrawingExact) {a : ArmId} {b : Batch} (hb : s.batch a = some b)
    (hf : b.state.flowing = false) (h : HeaderId) : a ∉ (s.header h).drawing := by
  rw [d h a]; rintro ⟨b', e, f, -⟩
  rw [hb] at e; cases e; rw [hf] at f; cases f

theorem State.pruneHoldSet_eq (s : State) (a : ArmId) (b : Batch) (hb : s.batch a = some b) :
    s.pruneHoldSet a = { s with arms := vset s.arms a { s.arm a with batch := some { b with
      holdSet := b.holdSet.filter fun c => !(c.isCondition && s.conditionHolds a b c) } } } := by
  unfold State.pruneHoldSet
  rw [hb]
  show State.modBatch _ _ _ = _
  unfold State.modBatch State.modArm
  dsimp only
  rw [show (s.arm a).batch = some b from hb]; rfl

/-- What a taken resume can change. -/
theorem State.takeResume_eq (s : State) (a : ArmId) (b : Batch) (hb : s.batch a = some b)
    (hd : a ∉ (s.header b.snapshot.mainHeader).drawing) :
    s.takeResume a = { s with arms := (s.takeResume a).arms, headers := (s.takeResume a).headers
                              orders := (s.takeResume a).orders } := by
  unfold State.takeResume
  rw [hb]
  dsimp only
  have ve := s.modComp_eq b.ref (fun x => { x with state := .loading })
  generalize s.modComp b.ref (fun x => { x with state := .loading }) = v at ve
  have hb' : v.batch a = some b := by rw [ve]; exact hb
  have hh : ∀ j, v.header j = s.header j := by intro j; rw [ve]; rfl
  have k := State.enterLowStart_spec v a b hb' (by rw [hh]; exact hd)
  generalize v.enterLowStart a b = t at k
  rw [k.eq, ve]

/-! ### Holds -/

theorem exec_byte {s : State} {kind tag n : Byte} {act : State → Nat → Reply} (h : s.port.phase = .hunting) :
    s.request kind tag [n] readByte act = (act s n.toNat).send kind tag [n] :=
  State.request_taken h (readByte_one n)

theorem orderOf_congr {u v : State} (h : u.orders = v.orders) (r : CompRef) : u.orderOf r = v.orderOf r := by
  unfold State.orderOf State.orderIn; rw [h]

theorem modComp_orders_congr {u v : State} (h : u.orders = v.orders) (r : CompRef) (f : Compartment → Compartment) :
    (u.modComp r f).orders = (v.modComp r f).orders := by
  unfold State.modComp
  rw [orderOf_congr h]
  split
  · unfold State.modOrder State.orderIn; dsimp only; rw [h]
  · exact h

@[simp] theorem leaveRaw_orders (s : State) (h : HeaderId) (a : ArmId) : (s.leaveRaw h a).orders = s.orders := rfl
@[simp] theorem leaveRaw_injectors (s : State) (h : HeaderId) (a : ArmId) : (s.leaveRaw h a).injectors = s.injectors := rfl
@[simp] theorem leaveRaw_flags (s : State) (h : HeaderId) (a : ArmId) : (s.leaveRaw h a).flags = s.flags := rfl
@[simp] theorem removeQueueEntries_orders (s : State) (a : ArmId) : (s.removeQueueEntries a).orders = s.orders := rfl
@[simp] theorem removeQueueEntries_flags (s : State) (a : ArmId) : (s.removeQueueEntries a).flags = s.flags := rfl
@[simp] theorem modComp_injectors (s : State) (r : CompRef) (f : Compartment → Compartment) : (s.modComp r f).injectors = s.injectors := by
  rw [State.modComp_eq]
@[simp] theorem modComp_flags (s : State) (r : CompRef) (f : Compartment → Compartment) : (s.modComp r f).flags = s.flags := by
  rw [State.modComp_eq]
theorem removeQueueEntries_injectors {s t : State} (h : s.injectors = t.injectors) (a : ArmId) :
    (s.removeQueueEntries a).injectors = (t.removeQueueEntries a).injectors := by
  unfold State.removeQueueEntries; rw [h]

theorem enterHeldRaw_orders (s : State) (a : ArmId) (b : Batch) (c : HoldCause) :
    (s.enterHeldRaw a b c).orders = (s.modComp b.ref fun x => { x with state := .held }).orders := by
  simp only [State.enterHeldRaw, State.raise_orders, removeQueueEntries_orders, leaveRaw_orders]
  exact modComp_orders_congr (State.modBatch_orders _ _ _) _ _

theorem enterHeldRaw_injectors (s : State) (a : ArmId) (b : Batch) (c : HoldCause) :
    (s.enterHeldRaw a b c).injectors = (s.removeQueueEntries a).injectors := by
  simp only [State.enterHeldRaw, State.raise_injectors]
  apply removeQueueEntries_injectors
  simp only [leaveRaw_injectors, modComp_injectors, State.modBatch_injectors]

theorem enterHeldRaw_flags (s : State) (a : ArmId) (b : Batch) (c : HoldCause) :
    (s.enterHeldRaw a b c).flags = addTo EventFlag.all .batchHold s.flags := by
  simp only [State.enterHeldRaw, State.raise_flags, removeQueueEntries_flags, leaveRaw_flags, modComp_flags, State.modBatch_flags]

theorem holdBody_of {s : State} {a : ArmId} {b : Batch} (h : s.batch a = some b) :
    s.holdBody a = put1 b.state.code ++ putHoldSet b.holdSet := by
  unfold State.holdBody State.batchCode; rw [h]

/-- What a cause does to a flowing batch, and around it (R99). -/
structure Holding (s t : State) (a : ArmId) (b : Batch) (c : HoldCause) : Prop where
  batch : t.batch a = some { b.still with state := .held, holdSet := [c], ceiling := none }
  comp : ∀ o x, s.orderOf b.ref = some o → o.comp b.ref.comp = some x → ∃ o', t.orderOf b.ref = some o' ∧
          o'.comp b.ref.comp = some { x with state := .held }
  drawing : ∀ h, (t.header h).drawing = if h = b.snapshot.mainHeader then dropFrom a (s.header h).drawing
          else (s.header h).drawing
  ceilings : a ∈ (s.header b.snapshot.mainHeader).drawing → t.CeilingsAt b.snapshot.mainHeader
  queue : ∀ i, (t.injector i).queue = (s.injector i).queue.filter fun e => decide (e.arm ≠ a)
  flags : t.flags = addTo EventFlag.all .batchHold s.flags
  others : ∀ x, x ≠ a → (t.batch x).map (·.besidesFlow) = (s.batch x).map (·.besidesFlow)

/-- A cause handed to a flowing batch holds it (R99). -/
theorem State.handCause_held (s : State) (a : ArmId) (b : Batch) (c : HoldCause) (hb : s.batch a = some b)
    (hf : b.state.flowing = true) : Holding s (s.handCause a c) a b c := by
  have hraw : s.handCauseRaw a c = s.enterHeldRaw a b c := by
    unfold State.handCauseRaw; rw [hb]; dsimp only
    cases hs : b.state <;> simp_all [BatchState.flowing]
  have ht : s.handCause a c = s.settleHeaders (s.enterHeldRaw a b c) := by
    rw [← hraw]; rfl
  rw [ht]
  have hh : ∀ j, ((s.enterHeldRaw a b c).header j).drawing
      = if j = b.snapshot.mainHeader then dropFrom a (s.header j).drawing else (s.header j).drawing := by
    intro j
    simp only [State.enterHeldRaw, State.header_raise, State.header_removeQueueEntries, State.header_leaveRaw,
      State.header_modComp, State.header_modBatch]
    split
    · rename_i e; subst e; rfl
    · rfl
  have hl := State.settleHeaders_left s (s.enterHeldRaw a b c) a _ hh
  have e := State.settleHeaders_eased s (s.enterHeldRaw a b c)
  refine ⟨?_, ?_, ?_, hl.2, ?_, ?_, ?_⟩
  · unfold State.batch; rw [hl.1]
    have := State.batch_enterHeldRaw s a a b c
    rw [if_pos rfl, hb] at this; exact this
  · intro o x ho hx
    rw [e.eq]
    have m := State.modComp_at s b.ref (fun x => { x with state := .held }) (fun _ => rfl) ho hx
    refine ⟨_, ?_, m.2⟩
    rw [← m.1]
    exact orderOf_congr (enterHeldRaw_orders s a b c) _
  · intro j; rw [← hh j, e.eq]; rfl
  · intro i; rw [e.eq]
    show ((s.enterHeldRaw a b c).injector i).queue = _
    unfold State.injector
    rw [enterHeldRaw_injectors]
    simp [State.removeQueueEntries]
  · rw [e.eq]
    exact enterHeldRaw_flags s a b c
  · intro x hx
    rw [e.batch, State.batch_enterHeldRaw, if_neg hx]

theorem State.handCause_eq (s : State) (l : List ArmId) (c : HoldCause) : s.handCauses l c =
    { s with arms := (s.handCauses l c).arms, headers := (s.handCauses l c).headers, orders := (s.handCauses l c).orders
             injectors := (s.handCauses l c).injectors, flags := (s.handCauses l c).flags } :=
  (s.handCauses_flowOnly l c).eq

/-- A cause handed to a HELD batch joins its hold set (R100). -/
theorem State.handCause_adds (s : State) (a : ArmId) (b : Batch) (c : HoldCause) (hb : s.batch a = some b)
    (hs : b.state = .held) : s.handCause a c = { s with
      arms := vset s.arms a { s.arm a with batch := some { b with holdSet := addTo HoldCause.all c b.holdSet } } } := by
  have hraw : s.handCauseRaw a c = s.modBatch a fun b => { b with holdSet := addTo HoldCause.all c b.holdSet } := by
    unfold State.handCauseRaw; rw [hb]; dsimp only; rw [hs]
  show s.settleHeaders (s.handCauseRaw a c) = _
  rw [hraw, State.settleHeaders_same s (s.modBatch a _) (fun _ => rfl)]
  unfold State.modBatch State.modArm
  dsimp only
  rw [show (s.arm a).batch = some b from hb]; rfl

end Sys2Proof.Machine
end

