-- ==== Sys2Proof/Laws/Visits.lean ====
section
/-! SUPPORT. What the operations of a visit do, each said once: orders reopened and released, closings of several batches,
the close of a session (`Released`, `ClosedFrom`). -/

namespace Sys2Proof.Machine

set_option Elab.async false

/-! ### The terminal and the bound order -/

theorem State.signOfLife_bays (s : State) (bay : BayId) :
    (s.signOfLife bay).bays = vset s.bays bay { s.session bay with terminal := .present, silence := some 3000 } := by
  unfold State.signOfLife
  dsimp only
  split
  · show State.bays (State.removeCauses _ _ _) = _
    rw [State.removeCauses_eq]; rfl
  · rfl

theorem findOrder_in {s : State} {n : Nat} {i : SlotId} {o : Order} (h : s.findOrder n = some (i, o)) :
    s.orderIn i = some o ∧ o.number = n := by
  unfold State.findOrder at h
  obtain ⟨j, -, hj⟩ := List.exists_of_findSome?_eq_some h
  split at hj
  · rename_i p hp
    split at hj
    · rename_i hn
      cases hj; exact ⟨hp, hn⟩
    · cases hj
  · cases hj

theorem reopen_of {s : State} {i : SlotId} {o : Order} (h : s.orderIn i = some o) :
    s.reopen i = { s with orders := vset s.orders i (some { o with stage := .opened }) } := by
  unfold State.reopen State.modOrder; rw [h]; rfl

theorem handCauseRaw_flag (s : State) (a : ArmId) (c : HoldCause) {f : EventFlag} (h : f ∈ s.flags) : f ∈ (s.handCauseRaw a c).flags := by
  have : ∀ b, f ∈ (s.enterHeldRaw a b c).flags := fun b => by
    rw [enterHeldRaw_flags, mem_addTo (EventFlag.mem_all f)]; exact .inr h
  unfold State.handCauseRaw
  split
  · exact h
  · split
    · exact h
    · split
      · rw [modComp_flags]; exact h
      · exact h
    all_goals exact this _

theorem handCauses_flag (s : State) (l : List ArmId) (c : HoldCause) {f : EventFlag} (h : f ∈ s.flags) : f ∈ (s.handCauses l c).flags := by
  rw [(s.handCauses_eased l c).eq]
  show f ∈ (s.handCausesRaw l c).flags
  induction l generalizing s with
  | nil => exact h
  | cons a l ih => exact ih _ (handCauseRaw_flag s a c h)

theorem endBeforeLoading_none {s : State} {bay : BayId} (h : (s.session bay).bound = none) :
    s.endBeforeLoading bay = s.returnToIdle bay := by
  unfold State.endBeforeLoading State.boundOrder; rw [h]; rfl

theorem endBeforeLoading_some {s : State} {bay : BayId} {n : Nat} {i : SlotId} {o : Order} (h : (s.session bay).bound = some n)
    (ho : s.findOrder n = some (i, o)) :
    s.endBeforeLoading bay = ({ s with orders := vset s.orders i (some { o with stage := .opened }) } : State).returnToIdle bay := by
  unfold State.endBeforeLoading State.boundOrder; rw [h]
  simp only [Option.bind_some, ho]
  rw [reopen_of (findOrder_in ho).1]

/-! ### Permissives -/

theorem modSession_eq (s : State) (b : BayId) (f : Session → Session) :
    s.modSession b f = { s with bays := vset s.bays b (f (s.session b)) } := rfl

/-- The entry to LOADING once both permissives are PRESENT (R66). -/
theorem passToLoading_eq (s : State) (bay : BayId) : s.passToLoading bay = { s with
    bays := vset s.bays bay (if (s.session bay).state = .waitBond ∧ (s.session bay).bond.present = true ∧ (s.session bay).overfill.present = true
      then { s.session bay with state := .loading, focus := 0, armPending := false, selected := none, timer := if s.allIdle bay then some 600000 else none } else s.session bay) } := by
  by_cases h : (s.session bay).state = .waitBond ∧ (s.session bay).bond.present = true ∧ (s.session bay).overfill.present = true
  · rw [if_pos h]
    have hp : (s.session bay).state = .waitBond ∧ (s.session bay).permissivesPresent = true := by
      refine ⟨h.1, ?_⟩; unfold Session.permissivesPresent; rw [h.2.1, h.2.2]; rfl
    unfold State.passToLoading
    rw [if_pos hp]
    unfold State.enterLoading
    generalize hv : s.modSession bay (fun x => { x with state := .loading, focus := 0, armPending := false, selected := none, timer := none }) = v
    have hl : (v.session bay).state = .loading := by rw [← hv]; simp
    have hi : v.allIdle bay = s.allIdle bay := by rw [← hv]; rfl
    unfold State.restartInactivity
    simp only [hl, hi, true_and]
    cases s.allIdle bay
    · rw [← hv]; rfl
    · rw [← hv]; simp [modSession_eq, State.session, vset_vset, seconds]
  · rw [if_neg h]
    have hp : ¬ ((s.session bay).state = .waitBond ∧ (s.session bay).permissivesPresent = true) := by
      unfold Session.permissivesPresent; rw [Bool.and_eq_true]; exact h
    unfold State.passToLoading
    rw [if_neg hp]
    unfold State.session
    rw [vset_vget_same]

/-! ### One batch changed -/

theorem modBatch_set {s : State} {a : ArmId} {b : Batch} (hb : s.batch a = some b) (f : Batch → Batch) :
    s.modBatch a f = { s with arms := vset s.arms a { s.arm a with batch := some (f b) } } := by
  unfold State.modBatch State.modArm
  dsimp only
  rw [show (s.arm a).batch = some b from hb]; rfl

theorem modBatch_id {s : State} {a : ArmId} {f : Batch → Batch} (h : ∀ b, s.batch a = some b → f b = b) : s.modBatch a f = s := by
  unfold State.modBatch State.modArm
  have : (s.arm a).batch.map f = (s.arm a).batch := by
    cases e : (s.arm a).batch with
    | none => rfl
    | some b => simp [h b e]
  dsimp only
  rw [this]
  unfold State.arm; rw [show ({ vget s.arms a with batch := (vget s.arms a).batch } : Arm) = vget s.arms a from rfl, vset_vget_same]

theorem rampStep_of {r : Arm} {b : Batch} {ceiling d : Nat} (hc : b.ceiling = some ceiling)
    (hd : d = (if b.mainDemand < ceiling then min (b.mainDemand + r.rampStep) ceiling else max (b.mainDemand - r.rampStep) ceiling)) :
    rampStep r b = { b with mainDemand := d, state := if d = ceiling then .high else .ramping,
                            ramp := if d = ceiling then none else some (1000 * r.rampInterval) } := by
  unfold rampStep
  rw [hc]
  have : rampToward r.rampStep ceiling b.mainDemand = d := by rw [hd]; rfl
  simp only [this]
  split <;> rfl

/-! ### Closings of several batches, and an order released -/

/-- Several batches enter CLOSING, before ceilings are computed anew. -/
def State.enterClosingsRaw (s : State) (l : List ArmId) (k : CloseKind) : State := l.foldl (fun acc a => acc.enterClosingRaw a k) s

theorem enterClosingsRaw_flowOnly (l : List ArmId) (s : State) (k : CloseKind) : FlowOnly s (s.enterClosingsRaw l k) := by
  induction l generalizing s with
  | nil => exact FlowOnly.refl s
  | cons a l ih => exact (s.enterClosingRaw_flowOnly a k).trans (ih _)

theorem onlyAHI_trans {s t u : State} (h : t = { s with arms := t.arms, headers := t.headers, injectors := t.injectors })
    (k : u = { t with arms := u.arms, headers := u.headers, injectors := u.injectors }) :
    u = { s with arms := u.arms, headers := u.headers, injectors := u.injectors } := by rw [k, h]

theorem Eased.onlyAHI {s t : State} (h : Eased s t) : t = { s with arms := t.arms, headers := t.headers, injectors := t.injectors } := by
  rw [h.eq]

theorem enterClosingsRaw_eq (l : List ArmId) (s : State) (k : CloseKind) : s.enterClosingsRaw l k =
    { s with arms := (s.enterClosingsRaw l k).arms, headers := (s.enterClosingsRaw l k).headers
             injectors := (s.enterClosingsRaw l k).injectors } := by
  induction l generalizing s with
  | nil => rfl
  | cons a l ih => exact onlyAHI_trans (State.enterClosingRaw_eq s a k) (ih (s.enterClosingRaw a k))

theorem enterClosings_eq (l : List ArmId) (s : State) (k : CloseKind) : s.enterClosings l k =
    { s with arms := (s.enterClosings l k).arms, headers := (s.enterClosings l k).headers
             injectors := (s.enterClosings l k).injectors } :=
  onlyAHI_trans (enterClosingsRaw_eq l s k) (State.settleHeaders_eased s (s.enterClosingsRaw l k)).onlyAHI

theorem batch_enterClosingsRaw (l : List ArmId) (s : State) (k : CloseKind) (nd : l.Nodup) (x : ArmId) :
    (s.enterClosingsRaw l k).batch x = if x ∈ l then (s.batch x).map (Batch.closed k) else s.batch x := by
  induction l generalizing s with
  | nil => simp [State.enterClosingsRaw]
  | cons a l ih =>
    have nd' := List.nodup_cons.mp nd
    show ((s.enterClosingRaw a k).enterClosingsRaw l k).batch x = _
    rw [ih _ nd'.2, State.batch_enterClosingRaw]
    by_cases hx : x = a
    · subst hx; simp [nd'.1]
    · simp [hx]

theorem enterClosings_arm (l : List ArmId) (s : State) (k : CloseKind) (x : ArmId) :
    (s.enterClosings l k).arm x = { s.arm x with batch := (s.enterClosings l k).batch x } :=
  ((enterClosingsRaw_flowOnly l s k).trans (State.settleHeaders_eased s (s.enterClosingsRaw l k)).flowOnly).arm x

/-- A batch among those closed, after the closings. -/
theorem enterClosings_in (l : List ArmId) (s : State) (k : CloseKind) (nd : l.Nodup) {x : ArmId} {b : Batch} (hx : x ∈ l)
    (hb : s.batch x = some b) : ∃ d, (s.enterClosings l k).batch x = some { b.closed k with ceiling := d } := by
  refine (State.settleHeaders_eased s (s.enterClosingsRaw l k)).still x _ ?_ rfl
  rw [batch_enterClosingsRaw l s k nd, if_pos hx, hb]; rfl

theorem enterClosings_others (l : List ArmId) (s : State) (k : CloseKind) (nd : l.Nodup) {x : ArmId} (hx : x ∉ l) :
    ((s.enterClosings l k).batch x).map Batch.besidesFlow = (s.batch x).map Batch.besidesFlow := by
  have := (State.settleHeaders_eased s (s.enterClosingsRaw l k)).batch x
  rw [batch_enterClosingsRaw l s k nd, if_neg hx] at this
  exact this

theorem enterClosings_still (l : List ArmId) (s : State) (k : CloseKind) (nd : l.Nodup) {x : ArmId} {b : Batch} (hx : x ∉ l)
    (hb : s.batch x = some b) (hs : b.state.flowing = false) : ∃ d, (s.enterClosings l k).batch x = some { b with ceiling := d } := by
  refine (State.settleHeaders_eased s (s.enterClosingsRaw l k)).still x _ ?_ hs
  rw [batch_enterClosingsRaw l s k nd, if_neg hx, hb]

theorem enterClosings_isSome (l : List ArmId) (s : State) (k : CloseKind) (nd : l.Nodup) (x : ArmId) :
    ((s.enterClosings l k).batch x).isSome = (s.batch x).isSome := by
  have h := (State.settleHeaders_eased s (s.enterClosingsRaw l k)).batch x
  have : ((s.enterClosings l k).batch x).isSome = ((s.enterClosingsRaw l k).batch x).isSome := by
    have := congrArg Option.isSome h
    simp only [Option.isSome_map] at this; exact this
  rw [this, batch_enterClosingsRaw l s k nd]
  split <;> simp

theorem enterClosings_nil (s : State) (k : CloseKind) : s.enterClosings [] k = s :=
  State.settleHeaders_same s s fun _ => rfl

theorem enterClosings_allIdle (l : List ArmId) (s : State) (k : CloseKind) (nd : l.Nodup) (b : BayId) :
    (s.enterClosings l k).allIdle b = s.allIdle b := by
  have h : ∀ a, ((s.enterClosings l k).arm a).bay = (s.arm a).bay := fun a => by rw [enterClosings_arm]
  have k' : ∀ a, ((s.enterClosings l k).batch a).isNone = (s.batch a).isNone := fun a => by
    have := enterClosings_isSome l s k nd a
    rw [← Option.not_isSome, ← Option.not_isSome, this]
  generalize s.enterClosings l k = t at h k'
  unfold State.allIdle State.bayArms
  simp only [h, k']

theorem allIdle_iff (s : State) (b : BayId) : s.allIdle b = true ↔ ∀ a, (s.arm a).bay = some b → s.batch a = none := by
  unfold State.allIdle
  rw [List.all_eq_true]
  constructor
  · intro h a ha; simpa using h a ((State.mem_bayArms s b a).mpr ha)
  · intro h a ha; simpa using h a ((State.mem_bayArms s b a).mp ha)

/-- What a return to IDLE writes (R58). -/
theorem returnToIdle_eq (s : State) (bay : BayId) : s.returnToIdle bay = { s with
    permits := s.permits.map (fun p => if (s.session bay).card = some p.card then { p with sessionBay := none } else p)
    bays := vset s.bays bay (s.session bay).toIdle
    flags := addTo EventFlag.all (sessionFlag bay) s.flags } := by
  unfold State.returnToIdle
  cases e : (s.session bay).card with
  | none =>
    dsimp only
    unfold State.raise State.modSession
    dsimp only
    congr 1
    · simp
  | some c =>
    dsimp only
    unfold State.raise State.modSession State.modPermit
    dsimp only
    congr 1
    · apply List.map_congr_left; intro p _
      by_cases h : p.card = c
      · simp [h]
      · rw [if_neg h, if_neg]; intro e; exact h (Option.some.inj e).symm

/-- An order's release with something delivered: its note (R54, R150, R151). -/
theorem settleOrder_noted {s : State} {i : SlotId} {o : Order} {part : SessionPart} (f : List NoteFlag) (ho : s.orderIn i = some o)
    (hs : o.stage = .active part) (hg : 0 < o.totalGross) : s.settleOrder i f = { s with
      orders := vset s.orders i (some (o.noted part s.clock { number := s.nextNote, holder := s.holderOf o.card, flags := f }))
      noteCounter := nextNumber s.nextNote
      permits := s.permits.map fun p => if p.card = o.card then p.countLoad else p
      flags := addTo EventFlag.all .orderNoted s.flags } := by
  unfold State.settleOrder
  rw [ho]; dsimp only; rw [if_pos hg]
  unfold State.issueNote
  rw [ho]; dsimp only; rw [hs]; dsimp only
  unfold State.writeNote State.modPermit State.raise State.modOrder
  rw [ho]; rfl

theorem settleOrder_open {s : State} {i : SlotId} {o : Order} (f : List NoteFlag) (ho : s.orderIn i = some o)
    (hg : o.totalGross = 0) : s.settleOrder i f = { s with orders := vset s.orders i (some { o with stage := .opened }) } := by
  unfold State.settleOrder
  rw [ho]; dsimp only; rw [if_neg (by omega)]
  exact reopen_of ho

/-- What the settling of an order can change. -/
theorem settleOrder_eq (s : State) (i : SlotId) (f : List NoteFlag) : s.settleOrder i f = { s with
      orders := (s.settleOrder i f).orders, noteCounter := (s.settleOrder i f).noteCounter
      permits := (s.settleOrder i f).permits, flags := (s.settleOrder i f).flags } ∧
    (∀ j, j ≠ i → (s.settleOrder i f).orderIn j = s.orderIn j) := by
  cases ho : s.orderIn i with
  | none => unfold State.settleOrder; rw [ho]; exact ⟨rfl, fun _ _ => rfl⟩
  | some o =>
    by_cases hg : o.totalGross = 0
    · rw [settleOrder_open f ho hg]
      refine ⟨rfl, fun j hj => ?_⟩
      unfold State.orderIn; rw [vget_vset_ne _ _ hj]
    · cases hs : o.stage with
      | active part =>
        rw [settleOrder_noted f ho hs (by omega)]
        refine ⟨rfl, fun j hj => ?_⟩
        unfold State.orderIn; rw [vget_vset_ne _ _ hj]
      | opened =>
        unfold State.settleOrder State.issueNote
        rw [ho]; dsimp only; rw [if_pos (by omega)]; rw [hs]; exact ⟨rfl, fun _ _ => rfl⟩
      | noted p n =>
        unfold State.settleOrder State.issueNote
        rw [ho]; dsimp only; rw [if_pos (by omega)]; rw [hs]; exact ⟨rfl, fun _ _ => rfl⟩

theorem settleOrder_sessionBays (s : State) (i : SlotId) (f : List NoteFlag) :
    (s.settleOrder i f).permits.map (fun p => (p.card, p.sessionBay)) = s.permits.map fun p => (p.card, p.sessionBay) := by
  cases ho : s.orderIn i with
  | none => unfold State.settleOrder; rw [ho]
  | some o =>
    by_cases hg : o.totalGross = 0
    · rw [settleOrder_open f ho hg]
    · cases hs : o.stage with
      | active part =>
        rw [settleOrder_noted f ho hs (by omega)]
        dsimp only
        rw [List.map_map]
        refine List.map_congr_left fun p _ => ?_
        dsimp only [Function.comp]
        split <;> rfl
      | opened => unfold State.settleOrder State.issueNote; rw [ho]; dsimp only; rw [if_pos (by omega)]; rw [hs]
      | noted p n => unfold State.settleOrder State.issueNote; rw [ho]; dsimp only; rw [if_pos (by omega)]; rw [hs]

/-- A session's close (R77): what comes before the session's return to IDLE. -/
structure Released (s t : State) (bay : BayId) : Prop where
  eq : t = { s with orders := t.orders, noteCounter := t.noteCounter, permits := t.permits, flags := t.flags, displays := t.displays }
  unbound : (s.session bay).bound = none → t = s
  opened : ∀ n i o, (s.session bay).bound = some n → s.findOrder n = some (i, o) → o.totalGross = 0 →
    t.orderIn i = some { o with stage := .opened }
  noted : ∀ n i o part, (s.session bay).bound = some n → s.findOrder n = some (i, o) → o.stage = .active part → 0 < o.totalGross →
    t.orderIn i = some (o.noted part s.clock { number := s.nextNote, holder := s.holderOf o.card, flags := noteFlagsOf (s.session bay).closeCause }) ∧
    t.noteCounter = nextNumber s.nextNote ∧ (t.display bay).lastNote = some s.nextNote ∧ EventFlag.orderNoted ∈ t.flags
  others : ∀ n i o j, (s.session bay).bound = some n → s.findOrder n = some (i, o) → j ≠ i → t.orderIn j = s.orderIn j
  permitsOpened : ∀ n i o, (s.session bay).bound = some n → s.findOrder n = some (i, o) → o.totalGross = 0 → t.permits = s.permits
  permitsNoted : ∀ n i o part, (s.session bay).bound = some n → s.findOrder n = some (i, o) → o.stage = .active part →
    0 < o.totalGross → t.permits = s.permits.map fun p => if p.card = o.card then p.countLoad else p
  sessionBays : t.permits.map (fun p => (p.card, p.sessionBay)) = s.permits.map fun p => (p.card, p.sessionBay)

/-- The close of a session is a release of its order and a return to IDLE (R77). -/
theorem closeSession_released (s : State) (bay : BayId) : ∃ t, s.closeSession bay = t.returnToIdle bay ∧ Released s t bay := by
  refine ⟨_, rfl, ?_⟩
  dsimp only
  cases hb : (s.session bay).bound with
  | none =>
    simp only [Option.bind_none]
    exact ⟨rfl, fun _ => rfl, fun _ _ _ e => by simp [hb] at e, fun _ _ _ _ e => by simp [hb] at e, fun _ _ _ _ e => by simp [hb] at e,
      fun _ _ _ e => by simp [hb] at e, fun _ _ _ _ e => by simp [hb] at e, rfl⟩
  | some n =>
    simp only [Option.bind_some]
    cases ho : s.findOrder n with
    | none =>
      dsimp only
      have : ∀ m i o, (s.session bay).bound = some m → s.findOrder m ≠ some (i, o) := by
        intro m i o e; rw [hb] at e; cases e; rw [ho]; simp
      exact ⟨rfl, fun _ => rfl, fun _ _ _ e f => absurd f (this _ _ _ e), fun _ _ _ _ e f => absurd f (this _ _ _ e), fun _ _ _ _ e f => absurd f (this _ _ _ e),
        fun _ _ _ e f => absurd f (this _ _ _ e), fun _ _ _ _ e f => absurd f (this _ _ _ e), rfl⟩
    | some io =>
      obtain ⟨i, o⟩ := io
      dsimp only
      have hi := (findOrder_in ho).1
      have k := settleOrder_eq s i (noteFlagsOf (s.session bay).closeCause)
      refine ⟨?_, fun e => (by rw [hb] at e; cases e), ?_, ?_, ?_, ?_, ?_, ?_⟩
      · split
        · unfold State.modDisplay; dsimp only; rw [k.1]
        · exact k.1.trans (by rw [k.1])
      · intro m j p e f g
        rw [hb] at e; cases e; rw [ho] at f; cases f
        rw [if_neg (by omega), settleOrder_open _ hi g]
        simp [State.orderIn]
      · intro m j p part e f g h
        rw [hb] at e; cases e; rw [ho] at f; cases f
        rw [if_pos h, settleOrder_noted _ hi g h]
        refine ⟨?_, rfl, ?_, ?_⟩
        · simp [State.orderIn]
        · simp [State.display]
        · simp [mem_addTo (EventFlag.mem_all _)]
      · intro m j p q e f g
        rw [hb] at e; cases e; rw [ho] at f; cases f
        split
        · exact k.2 q g
        · exact k.2 q g
      · intro m j p e f g
        rw [hb] at e; cases e; rw [ho] at f; cases f
        rw [if_neg (by omega), settleOrder_open _ hi g]
      · intro m j p part e f g h
        rw [hb] at e; cases e; rw [ho] at f; cases f
        rw [if_pos h, settleOrder_noted _ hi g h]
        rfl
      · split
        · exact settleOrder_sessionBays _ _ _
        · exact settleOrder_sessionBays _ _ _

/-! ### The close of a session -/

theorem findOrder_orders {s t : State} (h : t.orders = s.orders) (n : Nat) : t.findOrder n = s.findOrder n := by
  unfold State.findOrder State.orderIn; rw [h]

theorem nextNote_orders {s t : State} (h : t.orders = s.orders) (k : t.noteCounter = s.noteCounter) : t.nextNote = s.nextNote := by
  unfold State.nextNote State.heldNotes State.heldOrders State.orderIn; rw [h, k]

/-- What a session's close leaves (R58, R77). -/
structure ClosedFrom (s t : State) (bay : BayId) : Prop where
  eq : t = { s with orders := t.orders, noteCounter := t.noteCounter, permits := t.permits, flags := t.flags
                    displays := t.displays, bays := t.bays }
  session : t.session bay = (s.session bay).toIdle
  sessions : ∀ c, c ≠ bay → t.session c = s.session c
  flag : sessionFlag bay ∈ t.flags
  permit : ∀ p ∈ t.permits, (s.session bay).card = some p.card → p.sessionBay = none
  opened : ∀ n i o, (s.session bay).bound = some n → s.findOrder n = some (i, o) → o.totalGross = 0 →
    t.orderIn i = some { o with stage := .opened }
  noted : ∀ n i o part, (s.session bay).bound = some n → s.findOrder n = some (i, o) → o.stage = .active part → 0 < o.totalGross →
    t.orderIn i = some (o.noted part s.clock { number := s.nextNote, holder := s.holderOf o.card, flags := noteFlagsOf (s.session bay).closeCause }) ∧
    t.noteCounter = nextNumber s.nextNote ∧ (t.display bay).lastNote = some s.nextNote ∧ EventFlag.orderNoted ∈ t.flags
  others : ∀ n i o j, (s.session bay).bound = some n → s.findOrder n = some (i, o) → j ≠ i → t.orderIn j = s.orderIn j
  permitsOpened : ∀ n i o, (s.session bay).bound = some n → s.findOrder n = some (i, o) → o.totalGross = 0 →
    t.permits = s.permits.map fun p => if (s.session bay).card = some p.card then { p with sessionBay := none } else p
  permitsNoted : ∀ n i o part, (s.session bay).bound = some n → s.findOrder n = some (i, o) → o.stage = .active part →
    0 < o.totalGross → t.permits = (s.permits.map fun p => if p.card = o.card then p.countLoad else p).map fun p =>
      if (s.session bay).card = some p.card then { p with sessionBay := none } else p

/-- The close of a session, whole. -/
theorem closeSession_spec (s : State) (bay : BayId) : ClosedFrom s (s.closeSession bay) bay := by
  obtain ⟨t, e, r⟩ := closeSession_released s bay
  have hs : t.session bay = s.session bay := by rw [r.eq]; rfl
  rw [e, returnToIdle_eq]
  refine ⟨?_, ?_, ?_, ?_, ?_, ?_, ?_, ?_, ?_, ?_⟩
  · rw [r.eq]
  · simp [State.session]; exact congrArg Session.toIdle hs
  · intro c hc
    show vget (vset _ _ _) c = _
    rw [vget_vset_ne _ _ hc]
    show t.session c = _; rw [r.eq]; rfl
  · simp [mem_addTo (EventFlag.mem_all _)]
  · intro p hp hcard
    dsimp only at hp
    rw [List.mem_map] at hp
    obtain ⟨q, -, rfl⟩ := hp
    rw [hs] at hcard ⊢
    split at hcard
    · rw [if_pos (by assumption)]
    · contradiction
  · exact r.opened
  · intro n i o part h1 h2 h3 h4
    obtain ⟨k1, k2, k3, k4⟩ := r.noted n i o part h1 h2 h3 h4
    exact ⟨k1, k2, k3, (mem_addTo (EventFlag.mem_all _)).mpr (.inr k4)⟩
  · exact r.others
  · intro n i o h1 h2 h3
    dsimp only
    rw [hs, r.permitsOpened n i o h1 h2 h3]
  · intro n i o part h1 h2 h3 h4
    dsimp only
    rw [hs, r.permitsNoted n i o part h1 h2 h3 h4]

theorem returnToIdle_sessionBays (s : State) (bay : BayId) :
    (s.returnToIdle bay).permits.map (fun p => (p.card, p.sessionBay))
      = s.permits.map fun p => (p.card, if (s.session bay).card = some p.card then none else p.sessionBay) := by
  rw [returnToIdle_eq]
  dsimp only
  rw [List.map_map]
  refine List.map_congr_left fun p _ => ?_
  dsimp only [Function.comp]
  split <;> rfl

/-- A session's close frees its permit, and no other (R11, R18). -/
theorem closeSession_sessionBays (s : State) (bay : BayId) :
    (s.closeSession bay).permits.map (fun p => (p.card, p.sessionBay))
      = s.permits.map fun p => (p.card, if (s.session bay).card = some p.card then none else p.sessionBay) := by
  obtain ⟨t, e, r⟩ := closeSession_released s bay
  have hs : t.session bay = s.session bay := by rw [r.eq]; rfl
  rw [e, returnToIdle_sessionBays, hs]
  have h : t.permits.map (fun p => (p.card, p.sessionBay)) = s.permits.map fun p => (p.card, p.sessionBay) := r.sessionBays
  have k := congrArg (List.map fun q : Nat × Option BayId =>
    (q.1, if (s.session bay).card = some q.1 then none else q.2)) h
  rw [List.map_map, List.map_map] at k
  exact k

theorem allIdle_bays {s : State} {x : Session} (b c : BayId) : ({ s with bays := vset s.bays c x } : State).allIdle b = s.allIdle b := rfl

end Sys2Proof.Machine
end

