-- ==== Sys2Proof/Laws/BatchEnds.lean ====
section
/-! SUPPORT. What the ends of batches do, each said once: end credits, ends without settle (`EndedRaw`), and what a compartment
of an order keeps through the end of its batch and of its session (`Flagged`, `CompHas`). -/

namespace Sys2Proof.Machine

set_option Elab.async false

/-! ### Ends without settle -/

/-- What an end credit can change. -/
theorem endCredit_eq (s : State) (a : ArmId) : s.endCredit a = { s with arms := (s.endCredit a).arms, orders := (s.endCredit a).orders } := by
  unfold State.endCredit
  split
  · split
    · rfl
    · unfold State.makeCredit
      dsimp only
      have := s.modComp_eq ‹Batch›.ref fun c => c.credit (s.creditNow a ‹Batch›)
      generalize State.modComp _ _ _ = v at this
      unfold State.modBatch State.modArm
      rw [this]
  · rfl

theorem makeCredit_arm (s : State) (a x : ArmId) (b : Batch) (hx : x ≠ a) : (s.makeCredit a b).arm x = s.arm x := by
  unfold State.makeCredit State.modBatch
  dsimp only
  rw [State.arm_modArm, if_neg hx, State.modComp_eq]; rfl

theorem endCredit_arm (s : State) (a x : ArmId) (hx : x ≠ a) : (s.endCredit a).arm x = s.arm x := by
  unfold State.endCredit
  split
  · split
    · rfl
    · exact makeCredit_arm s a x _ hx
  · rfl

theorem makeCredit_self (s : State) (a : ArmId) (b : Batch) :
    (s.makeCredit a b).arm a = { s.arm a with batch := (s.batch a).map fun b' => { b' with
      net := b'.net + (s.creditNow a b).net, metering := { b'.metering with stepMain := 0, stepBlend := 0 } } } := by
  unfold State.makeCredit State.modBatch
  dsimp only
  rw [State.arm_modArm, if_pos rfl, State.modComp_eq]; rfl

theorem endCredit_self (s : State) (a : ArmId) : ∃ f : Batch → Batch, (s.endCredit a).arm a = { s.arm a with batch := (s.batch a).map f } := by
  unfold State.endCredit
  split
  · split
    · exact ⟨id, by rw [Option.map_id]; rfl⟩
    · exact ⟨_, makeCredit_self s a _⟩
  · exact ⟨id, by rw [Option.map_id]; rfl⟩

theorem arm_noBatch {r : Arm} (o : Option Batch) : { ({ r with batch := o } : Arm) with batch := none } = { r with batch := none } := rfl

/-- One batch's end without settle (R105): its arm. -/
theorem endAtOnceRaw_arm (s : State) (a x : ArmId) : (s.endAtOnceRaw a).arm x = if x = a then { s.arm a with batch := none } else s.arm x := by
  unfold State.endAtOnceRaw
  split
  · rename_i h
    split
    · rename_i e; subst e
      rw [← h]; rfl
    · rfl
  · rename_i b h
    dsimp only
    rw [State.arm_modArm]
    have e := fun v => (State.leaveRaw_flowOnly v b.snapshot.mainHeader a).arm
    have hc : ((s.endCredit a).modComp b.ref (fun c => (c.addFlag .endedByReset).endedShort)).arms = (s.endCredit a).arms := by simp
    split
    · rename_i hx
      rw [e]
      show { ((((s.endCredit a).modComp b.ref (fun c => (c.addFlag .endedByReset).endedShort)).arm a)) with batch := none } = _
      unfold State.arm; rw [hc]
      obtain ⟨f, k⟩ := endCredit_self s a
      show { (s.endCredit a).arm a with batch := none } = _
      rw [k]; rfl
    · rename_i hx
      rw [e]
      rw [State.batch_leaveRaw, if_neg hx]
      show (((s.endCredit a).modComp b.ref (fun c => (c.addFlag .endedByReset).endedShort)).arm x) = _
      unfold State.arm; rw [hc]
      exact endCredit_arm s a x hx

theorem releaseReservations_orders (s : State) (r : CompRef) : (s.releaseReservations r).orders = s.orders := rfl

theorem endAtOnceRaw_eq (s : State) (a : ArmId) : s.endAtOnceRaw a = { s with arms := (s.endAtOnceRaw a).arms, headers := (s.endAtOnceRaw a).headers, injectors := (s.endAtOnceRaw a).injectors, orders := (s.endAtOnceRaw a).orders } := by
  unfold State.endAtOnceRaw
  split
  · rfl
  · rename_i b h
    dsimp only
    have k := endCredit_eq s a
    generalize s.endCredit a = v at k
    have k2 := State.modComp_eq v b.ref fun c => (c.addFlag .endedByReset).endedShort
    generalize State.modComp v b.ref _ = w at k2
    have : w = { s with arms := w.arms, orders := w.orders } := by rw [k2, k]
    unfold State.modArm State.leaveRaw State.modBatch State.modArm State.modHeader State.removeQueueEntries State.releaseReservations
    dsimp only
    rw [this]

theorem endAtOnceRaw_orders (s : State) (a : ArmId) {b : Batch} (h : s.batch a = some b) : (s.endAtOnceRaw a).orders =
    ((s.endCredit a).modComp b.ref fun c => (c.addFlag .endedByReset).endedShort).orders := by
  unfold State.endAtOnceRaw
  rw [h]
  dsimp only [State.modArm]
  rw [leaveRaw_orders, removeQueueEntries_orders, releaseReservations_orders]

theorem endAtOnceRaw_queue (s : State) (a : ArmId) (i : InjectorId) : ((s.endAtOnceRaw a).injector i).queue =
    if (s.batch a).isSome then (s.injector i).queue.filter fun e => decide (e.arm ≠ a) else (s.injector i).queue := by
  unfold State.endAtOnceRaw
  split
  · rename_i h; rw [h]; rfl
  · rename_i b h
    rw [h]
    have k : ((s.endCredit a).modComp b.ref fun c => (c.addFlag .endedByReset).endedShort).injectors = s.injectors := by
      rw [modComp_injectors, endCredit_eq]
    dsimp only
    generalize State.modComp _ _ _ = v at k
    unfold State.injector State.modArm
    dsimp only
    rw [leaveRaw_injectors]
    unfold State.removeQueueEntries State.releaseReservations
    simp only [vget_vmap, k, Option.isSome_some, if_true]

/-- A compartment's flag stays through a change of compartments that keeps flags. -/
def State.Flagged (s : State) (r : CompRef) (f : CompFlag) : Prop :=
  ∃ o c, s.orderOf r = some o ∧ o.comp r.comp = some c ∧ f ∈ c.flags

theorem State.Flagged.modComp {s : State} {r : CompRef} {f : CompFlag} (h : s.Flagged r f) (r' : CompRef) (g : Compartment → Compartment)
    (hn : ∀ c, (g c).number = c.number) (hg : ∀ c, f ∈ c.flags → f ∈ (g c).flags) : (s.modComp r' g).Flagged r f := by
  obtain ⟨o, c, ho, hc, hf⟩ := h
  have k := State.orderOf_modComp s r' r g
  by_cases e : r.slot = r'.slot ∧ (s.orderOf r').isSome
  · rw [if_pos e, ho] at k
    refine ⟨_, if r.comp = r'.comp then g c else c, k, ?_, ?_⟩
    · rw [Order.comp_modComp _ _ _ _ hn, hc]; split <;> rfl
    · split
      · exact hg c hf
      · exact hf
  · rw [if_neg e, ho] at k
    exact ⟨o, c, k, hc, hf⟩

theorem State.Flagged.congr {s t : State} {r : CompRef} {f : CompFlag} (h : s.Flagged r f) (e : t.orders = s.orders) : t.Flagged r f := by
  obtain ⟨o, c, ho, hc, hf⟩ := h
  exact ⟨o, c, by rw [orderOf_congr e]; exact ho, hc, hf⟩

/-- A compartment is held where the reference points. -/
def State.HasComp (s : State) (r : CompRef) : Prop := ∃ o c, s.orderOf r = some o ∧ o.comp r.comp = some c

theorem State.HasComp.modComp {s : State} {r : CompRef} (h : s.HasComp r) (r' : CompRef) (g : Compartment → Compartment)
    (hn : ∀ c, (g c).number = c.number) : (s.modComp r' g).HasComp r := by
  obtain ⟨o, c, ho, hc⟩ := h
  have k := State.orderOf_modComp s r' r g
  by_cases e : r.slot = r'.slot ∧ (s.orderOf r').isSome
  · rw [if_pos e, ho] at k
    refine ⟨_, if r.comp = r'.comp then g c else c, k, ?_⟩
    · rw [Order.comp_modComp _ _ _ _ hn, hc]; split <;> rfl
  · rw [if_neg e, ho] at k
    exact ⟨o, c, k, hc⟩

theorem State.HasComp.congr {s t : State} {r : CompRef} (h : s.HasComp r) (e : t.orders = s.orders) : t.HasComp r := by
  obtain ⟨o, c, ho, hc⟩ := h
  exact ⟨o, c, by rw [orderOf_congr e]; exact ho, hc⟩

theorem Compartment.credit_number (c : Compartment) (k : Credit) : (c.credit k).number = c.number := by
  unfold Compartment.credit; dsimp only; split <;> rfl
theorem Compartment.credit_flags (c : Compartment) (k : Credit) {f : CompFlag} (h : f ∈ c.flags) (hf : f ∈ CompFlag.all) : f ∈ (c.credit k).flags := by
  unfold Compartment.credit; dsimp only; split
  · simp [Compartment.addFlag, mem_addTo hf, h]
  · exact h

theorem CompFlag.mem_all (f : CompFlag) : f ∈ CompFlag.all := by cases f <;> decide

theorem State.HasComp.endCredit {s : State} {r : CompRef} (h : s.HasComp r) (a : ArmId) : (s.endCredit a).HasComp r := by
  unfold State.endCredit
  split
  · split
    · exact h
    · unfold State.makeCredit
      exact (h.modComp _ _ fun c => Compartment.credit_number c _).congr rfl
  · exact h

theorem State.Flagged.endCredit {s : State} {r : CompRef} {f : CompFlag} (h : s.Flagged r f) (a : ArmId) : (s.endCredit a).Flagged r f := by
  unfold State.endCredit
  split
  · split
    · exact h
    · unfold State.makeCredit
      exact (h.modComp _ _ (fun c => Compartment.credit_number c _) fun c hc => Compartment.credit_flags c _ hc (CompFlag.mem_all f)).congr rfl
  · exact h

theorem modComp_flagged {s : State} {r : CompRef} (h : s.HasComp r) (g : Compartment → Compartment) (f : CompFlag)
    (hn : ∀ c, (g c).number = c.number) (hg : ∀ c, f ∈ (g c).flags) : (s.modComp r g).Flagged r f := by
  obtain ⟨o, c, ho, hc⟩ := h
  have m := State.modComp_at s r g hn ho hc
  exact ⟨_, _, m.1, m.2, hg c⟩

theorem endAtOnceRaw_hasComp {s : State} {r : CompRef} (h : s.HasComp r) (a : ArmId) : (s.endAtOnceRaw a).HasComp r := by
  cases hb : s.batch a with
  | none => unfold State.endAtOnceRaw; rw [hb]; exact h
  | some b => exact ((h.endCredit a).modComp b.ref (fun c => (c.addFlag .endedByReset).endedShort) fun _ => rfl).congr (endAtOnceRaw_orders s a hb)

theorem endAtOnceRaw_keepsFlag {s : State} {r : CompRef} {f : CompFlag} (h : s.Flagged r f) (a : ArmId) : (s.endAtOnceRaw a).Flagged r f := by
  cases hb : s.batch a with
  | none => unfold State.endAtOnceRaw; rw [hb]; exact h
  | some b =>
    exact ((h.endCredit a).modComp b.ref (fun c => (c.addFlag .endedByReset).endedShort) (fun _ => rfl) fun c hc =>
      (mem_addTo (CompFlag.mem_all f)).mpr (.inr hc)).congr (endAtOnceRaw_orders s a hb)

theorem endAtOnceRaw_flagged {s : State} {a : ArmId} {b : Batch} (hb : s.batch a = some b) (h : s.HasComp b.ref) :
    (s.endAtOnceRaw a).Flagged b.ref .endedByReset :=
  (modComp_flagged (h.endCredit a) (fun c => (c.addFlag .endedByReset).endedShort) .endedByReset (fun _ => rfl) fun c =>
      (mem_addTo (CompFlag.mem_all _)).mpr (.inl rfl)).congr (endAtOnceRaw_orders s a hb)

/-- Ends without settle of several batches, before ceilings are computed. -/
structure EndedRaw (s t : State) (l : List ArmId) : Prop where
  eq : t = { s with arms := t.arms, headers := t.headers, injectors := t.injectors, orders := t.orders }
  arm : ∀ x, t.arm x = if x ∈ l then { s.arm x with batch := none } else s.arm x
  queue : ∀ i, (t.injector i).queue = (s.injector i).queue.filter fun e => decide (¬ (e.arm ∈ l ∧ (s.batch e.arm).isSome = true))
  keepsFlag : ∀ r f, s.Flagged r f → t.Flagged r f
  hasComp : ∀ r, s.HasComp r → t.HasComp r
  flagged : ∀ a b, a ∈ l → s.batch a = some b → s.HasComp b.ref → t.Flagged b.ref .endedByReset

theorem endAtOnceRaws (l : List ArmId) (s : State) (nd : l.Nodup) : EndedRaw s (l.foldl State.endAtOnceRaw s) l := by
  induction l generalizing s with
  | nil => exact ⟨rfl, fun _ => by simp, fun _ => by simp, fun _ _ h => h, fun _ h => h, fun _ _ h => by simp at h⟩
  | cons a l ih =>
    have nd' := List.nodup_cons.mp nd
    have k := ih (s.endAtOnceRaw a) nd'.2
    have ke := endAtOnceRaw_eq s a
    have ka := endAtOnceRaw_arm s a
    rw [List.foldl_cons]
    have hbat : ∀ x, x ≠ a → (s.endAtOnceRaw a).batch x = s.batch x := by intro x hx; unfold State.batch; rw [ka, if_neg hx]
    refine ⟨?_, ?_, ?_, ?_, ?_, ?_⟩
    · exact (show ∀ u v w : State, v = { u with arms := v.arms, headers := v.headers, injectors := v.injectors, orders := v.orders } →
        w = { v with arms := w.arms, headers := w.headers, injectors := w.injectors, orders := w.orders } →
        w = { u with arms := w.arms, headers := w.headers, injectors := w.injectors, orders := w.orders } from
        fun u v w h h' => by rw [h', h]) _ _ _ ke k.eq
    · intro x
      rw [k.arm, ka]
      by_cases hx : x = a
      · subst hx; simp [nd'.1]
      · simp [hx]
    · intro i
      rw [k.queue, endAtOnceRaw_queue]
      by_cases hs : (s.batch a).isSome = true
      · rw [if_pos hs, List.filter_filter]
        apply List.filter_congr
        intro e _
        by_cases hx : e.arm = a
        · simp [hx, hs]
        · simp [hx, hbat _ hx]
      · rw [if_neg hs]
        apply List.filter_congr
        intro e _
        by_cases hx : e.arm = a
        · simp [hx, hs, nd'.1]
        · simp [hx, hbat _ hx]
    · intro r f h; exact k.keepsFlag r f (endAtOnceRaw_keepsFlag h a)
    · intro r h; exact k.hasComp r (endAtOnceRaw_hasComp h a)
    · intro x b hx hb hc
      by_cases hxa : x = a
      · subst hxa; exact k.keepsFlag _ _ (endAtOnceRaw_flagged hb hc)
      · exact k.flagged x b (by simpa [hxa] using hx) (by rw [hbat _ hxa]; exact hb) (endAtOnceRaw_hasComp hc a)


/-- Ends without settle (R105), for several arms. -/
theorem endAtOnce_ended (l : List ArmId) (s : State) (nd : l.Nodup) :
    EndedRaw s (l.foldl State.endAtOnceRaw s) l ∧ Eased (l.foldl State.endAtOnceRaw s) (s.endAtOnce l) :=
  ⟨endAtOnceRaws l s nd, State.settleHeaders_eased _ _⟩

theorem settleOrder_flagged {s : State} {r : CompRef} {f : CompFlag} (h : s.Flagged r f) (i : SlotId) (fl : List NoteFlag) :
    (s.settleOrder i fl).Flagged r f := by
  obtain ⟨o, c, ho, hc, hf⟩ := h
  by_cases hi : r.slot = i
  · have hs : s.orderIn i = some o ∧ o.number = r.order := by
      unfold State.orderOf at ho; rw [hi, Option.filter_eq_some_iff] at ho
      exact ⟨ho.1, by simpa using ho.2⟩
    by_cases hg : o.totalGross = 0
    · rw [settleOrder_open fl hs.1 hg]
      refine ⟨{ o with stage := .opened }, c, ?_, hc, hf⟩
      unfold State.orderOf State.orderIn
      rw [hi]; simp only [vget_vset_same]
      simp [hs.2]
    · cases hst : o.stage with
      | active part =>
        rw [settleOrder_noted fl hs.1 hst (by omega)]
        refine ⟨o.noted part s.clock { number := s.nextNote, holder := s.holderOf o.card, flags := fl }, c.doseChecked, ?_, ?_, hf⟩
        · unfold State.orderOf State.orderIn
          rw [hi]; simp only [vget_vset_same]
          simp [Order.noted, hs.2]
        · simp only [Order.comp, Order.noted, List.find?_map]
          show Option.map _ (o.comps.find? fun c => decide (c.number = r.comp)) = _
          rw [show o.comps.find? (fun c => decide (c.number = r.comp)) = some c from hc]; rfl
      | opened =>
        unfold State.settleOrder State.issueNote
        rw [hs.1]; dsimp only; rw [if_pos (by omega)]; rw [hst]; exact ⟨o, c, ho, hc, hf⟩
      | noted p n =>
        unfold State.settleOrder State.issueNote
        rw [hs.1]; dsimp only; rw [if_pos (by omega)]; rw [hst]; exact ⟨o, c, ho, hc, hf⟩
  · refine ⟨o, c, ?_, hc, hf⟩
    unfold State.orderOf
    rw [(settleOrder_eq s i fl).2 _ hi]; exact ho

theorem closeSession_flagged {s : State} {r : CompRef} {f : CompFlag} (h : s.Flagged r f) (bay : BayId) :
    (s.closeSession bay).Flagged r f := by
  unfold State.closeSession
  dsimp only
  rw [returnToIdle_eq]
  have : State.Flagged (match (s.session bay).bound.bind s.findOrder with
    | some (t, o) =>
      if 0 < o.totalGross then (s.settleOrder t (noteFlagsOf (s.session bay).closeCause)).modDisplay bay fun d => { d with lastNote := some s.nextNote }
      else s.settleOrder t (noteFlagsOf (s.session bay).closeCause)
    | none => s) r f := by
    split
    · split
      · exact (settleOrder_flagged h _ _).congr rfl
      · exact settleOrder_flagged h _ _
    · exact h
  exact this.congr rfl

/-! ### Compartments through an end -/

/-- The compartment that a reference names is there and has a property. -/
def State.CompHas (s : State) (r : CompRef) (P : Compartment → Prop) : Prop :=
  ∃ o c, s.orderOf r = some o ∧ o.comp r.comp = some c ∧ P c

theorem State.CompHas.congr {s t : State} {r : CompRef} {P} (h : s.CompHas r P) (e : t.orders = s.orders) : t.CompHas r P := by
  obtain ⟨o, c, ho, hc, hf⟩ := h
  exact ⟨o, c, by rw [orderOf_congr e]; exact ho, hc, hf⟩

theorem State.CompHas.mono {s : State} {r : CompRef} {P Q} (h : s.CompHas r P) (k : ∀ c, P c → Q c) : s.CompHas r Q := by
  obtain ⟨o, c, ho, hc, hf⟩ := h
  exact ⟨o, c, ho, hc, k c hf⟩

theorem State.CompHas.modComp {s : State} {r : CompRef} {P Q : Compartment → Prop} (h : s.CompHas r P) (g : Compartment → Compartment)
    (hn : ∀ c, (g c).number = c.number) (hg : ∀ c, P c → Q (g c)) : (s.modComp r g).CompHas r Q := by
  obtain ⟨o, c, ho, hc, hf⟩ := h
  have m := State.modComp_at s r g hn ho hc
  exact ⟨_, _, m.1, m.2, hg c hf⟩

theorem State.CompHas.settleOrder {s : State} {r : CompRef} {P} (h : s.CompHas r P) (i : SlotId) (fl : List NoteFlag)
    (hP : ∀ c, P c → P c.doseChecked) : (s.settleOrder i fl).CompHas r P := by
  obtain ⟨o, c, ho, hc, hf⟩ := h
  by_cases hi : r.slot = i
  · have hs : s.orderIn i = some o ∧ o.number = r.order := by
      unfold State.orderOf at ho; rw [hi, Option.filter_eq_some_iff] at ho
      exact ⟨ho.1, by simpa using ho.2⟩
    by_cases hg : o.totalGross = 0
    · rw [settleOrder_open fl hs.1 hg]
      refine ⟨{ o with stage := .opened }, c, ?_, hc, hf⟩
      unfold State.orderOf State.orderIn
      rw [hi]; simp only [vget_vset_same]
      simp [hs.2]
    · cases hst : o.stage with
      | active part =>
        rw [settleOrder_noted fl hs.1 hst (by omega)]
        refine ⟨o.noted part s.clock { number := s.nextNote, holder := s.holderOf o.card, flags := fl }, c.doseChecked, ?_, ?_, hP c hf⟩
        · unfold State.orderOf State.orderIn
          rw [hi]; simp only [vget_vset_same]
          simp [Order.noted, hs.2]
        · simp only [Order.comp, Order.noted, List.find?_map]
          show Option.map _ (o.comps.find? fun c => decide (c.number = r.comp)) = _
          rw [show o.comps.find? (fun c => decide (c.number = r.comp)) = some c from hc]; rfl
      | opened =>
        unfold State.settleOrder State.issueNote
        rw [hs.1]; dsimp only; rw [if_pos (by omega)]; rw [hst]; exact ⟨o, c, ho, hc, hf⟩
      | noted p n =>
        unfold State.settleOrder State.issueNote
        rw [hs.1]; dsimp only; rw [if_pos (by omega)]; rw [hst]; exact ⟨o, c, ho, hc, hf⟩
  · refine ⟨o, c, ?_, hc, hf⟩
    unfold State.orderOf
    rw [(settleOrder_eq s i fl).2 _ hi]; exact ho

theorem State.CompHas.closeSession {s : State} {r : CompRef} {P} (h : s.CompHas r P) (bay : BayId)
    (hP : ∀ c, P c → P c.doseChecked) : (s.closeSession bay).CompHas r P := by
  unfold State.closeSession
  dsimp only
  rw [returnToIdle_eq]
  have : State.CompHas (match (s.session bay).bound.bind s.findOrder with
    | some (t, o) =>
      if 0 < o.totalGross then (s.settleOrder t (noteFlagsOf (s.session bay).closeCause)).modDisplay bay fun d => { d with lastNote := some s.nextNote }
      else s.settleOrder t (noteFlagsOf (s.session bay).closeCause)
    | none => s) r P := by
    split
    · split
      · exact (h.settleOrder _ _ hP).congr rfl
      · exact h.settleOrder _ _ hP
    · exact h
  exact this.congr rfl

/-- What a batch end tells its bay (R94): nothing, the inactivity limit, or the close. -/
theorem tellBay_cases (s : State) (b : Option BayId) : ∃ x, s.tellBay b = { s with bays := x } ∨
    ∃ bay, s.tellBay b = ({ s with bays := x } : State).closeSession bay := by
  cases b with
  | none => exact ⟨s.bays, .inl rfl⟩
  | some bay =>
    have : ∃ x, s.restartInactivity bay = { s with bays := x } := by
      unfold State.restartInactivity; split
      · exact ⟨_, rfl⟩
      · exact ⟨s.bays, rfl⟩
    obtain ⟨x, e⟩ := this
    refine ⟨x, ?_⟩
    show (s.restartInactivity bay).closeIfDone bay = _ ∨ ∃ c, (s.restartInactivity bay).closeIfDone bay = _
    rw [e]
    unfold State.closeIfDone
    by_cases h : ((({ s with bays := x } : State).session bay).state = .closing ∧ ({ s with bays := x } : State).allIdle bay = true)
    · rw [if_pos h]; exact .inr ⟨bay, rfl⟩
    · rw [if_neg h]; exact .inl rfl

/-- What a batch end tells its bay, by the bay's arms and its session (R75, R77, R94). -/
theorem tellBay_told (s : State) (bay : BayId) :
    (s.allIdle bay = false ∨ ((s.session bay).state ≠ .loading ∧ (s.session bay).state ≠ .closing) → s.tellBay (some bay) = s) ∧
    (s.allIdle bay = true → (s.session bay).state = .loading → s.tellBay (some bay)
      = { s with bays := vset s.bays bay { s.session bay with timer := some 600000 } }) ∧
    (s.allIdle bay = true → (s.session bay).state = .closing → s.tellBay (some bay) = s.closeSession bay) := by
  have e : s.tellBay (some bay) = (s.restartInactivity bay).closeIfDone bay := rfl
  refine ⟨fun h => ?_, fun hi hs => ?_, fun hi hs => ?_⟩
  · have h1 : s.restartInactivity bay = s := by
      unfold State.restartInactivity
      rw [if_neg]; rintro ⟨h1, h2⟩
      rcases h with h | h
      · rw [h] at h2; cases h2
      · exact h.1 h1
    rw [e, h1]
    unfold State.closeIfDone
    rw [if_neg]; rintro ⟨h1, h2⟩
    rcases h with h | h
    · rw [h] at h2; cases h2
    · exact h.2 h1
  · have h1 : s.restartInactivity bay = { s with bays := vset s.bays bay { s.session bay with timer := some 600000 } } := by
      unfold State.restartInactivity
      rw [if_pos ⟨hs, hi⟩]; rfl
    rw [e, h1]
    unfold State.closeIfDone
    rw [if_neg]; rintro ⟨h2, -⟩
    simp [State.session] at h2
    unfold State.session at hs
    rw [hs] at h2; cases h2
  · have h1 : s.restartInactivity bay = s := by
      unfold State.restartInactivity
      rw [if_neg]; rintro ⟨h1, -⟩; rw [hs] at h1; cases h1
    rw [e, h1]
    unfold State.closeIfDone
    rw [if_pos ⟨hs, hi⟩]

theorem tellBay_eq (s : State) (b : Option BayId) : s.tellBay b = { s with orders := (s.tellBay b).orders, noteCounter := (s.tellBay b).noteCounter, permits := (s.tellBay b).permits, flags := (s.tellBay b).flags, displays := (s.tellBay b).displays, bays := (s.tellBay b).bays } := by
  obtain ⟨x, e | ⟨bay, e⟩⟩ := tellBay_cases s b
  · rw [e]
  · rw [e]
    have k := closeSession_spec ({ s with bays := x } : State) bay
    generalize State.closeSession _ _ = z at k
    rw [k.eq]

theorem settleOrder_flags (s : State) (i : SlotId) (fl : List NoteFlag) {f : EventFlag} (h : f ∈ s.flags) : f ∈ (s.settleOrder i fl).flags := by
  unfold State.settleOrder State.issueNote
  split
  · exact h
  · split
    · split
      · exact h
      · split
        · simp only [State.raise_flags, State.modPermit_flags]
          exact (mem_addTo (EventFlag.mem_all f)).mpr (.inr h)
        · exact h
    · exact h

theorem closeSession_flags (s : State) (bay : BayId) {f : EventFlag} (h : f ∈ s.flags) : f ∈ (s.closeSession bay).flags := by
  unfold State.closeSession
  dsimp only
  rw [returnToIdle_eq]
  refine (mem_addTo (EventFlag.mem_all f)).mpr (.inr ?_)
  split
  · split
    · exact settleOrder_flags s _ _ h
    · exact settleOrder_flags s _ _ h
  · exact h

theorem tellBay_flags (s : State) (b : Option BayId) {f : EventFlag} (h : f ∈ s.flags) : f ∈ (s.tellBay b).flags := by
  obtain ⟨x, e | ⟨bay, e⟩⟩ := tellBay_cases s b
  · rw [e]; exact h
  · rw [e]; apply closeSession_flags; exact h

theorem State.CompHas.tellBay {s : State} {r : CompRef} {P} (h : s.CompHas r P) (b : Option BayId)
    (hP : ∀ c, P c → P c.doseChecked) : (s.tellBay b).CompHas r P := by
  obtain ⟨x, e | ⟨bay, e⟩⟩ := tellBay_cases s b
  · rw [e]; exact h
  · rw [e]; exact State.CompHas.closeSession (s := { s with bays := x }) h bay hP

end Sys2Proof.Machine
end

