-- ==== Sys2Proof/Laws/Bodies.lean ====
section
/-! SUPPORT. The bodies of the responses as the bytes that Table 11-4 spells: one lemma per body, from the writers of
Bodies.lean to the spellings of Safety.lean. -/

namespace Sys2Proof.Machine

/-! ### The writers -/

theorem put1_eq (v : Nat) : put1 v = [byteOf v] := rfl

theorem putNum_eq {n : Nat} (i : Fin n) : putNum i = [numberByte i] := rfl

theorem putNum_fun (n : Nat) : (putNum : Fin n → List Byte) = fun i => [numberByte i] := rfl

theorem putOptional_eq {α : Type} (f : α → List Byte) (o : Option α) : putOptional f o = markedBytes f o := by
  cases o <;> rfl

theorem putList_eq {α : Type} (f : α → List Byte) (l : List α) : putList f l = countedBytes f l := rfl

theorem putText_eq (t : List Glyph) : putText t = textBytes t := by
  show put1 t.length ++ t.flatMap (fun g => [byteOf g.val]) = _
  rw [← List.map_eq_flatMap]; rfl

theorem putSigned_eq (n : Nat) (v : Int) : putSigned n v = signedBytes n v := rfl

theorem putBool_eq (b : Bool) : putBool b = [if b then 1 else 0] := rfl

theorem putSetClear_eq (b : Bool) : putSetClear b = [if b then 0 else 1] := by cases b <;> rfl

theorem putPresent_eq (b : Bool) : putPresent b = [if b then 1 else 0] := by cases b <;> rfl

theorem putTime_eq (t : Option Time) :
    putTime t = markedBytes (fun x => littleEndian 2 x.day ++ littleEndian 4 x.second) t := putOptional_eq _ _

/-- A set whose values are listed once each. -/
theorem putSet_eq {α : Type} [DecidableEq α] (n : Nat) (values set : List α) (h : values.Nodup) :
    putSet n values set = memberBytes n values set := by
  have : (values.zipIdx.map fun e => if e.1 ∈ set then 2 ^ e.2 else 0)
      = values.map fun x => if x ∈ set then 2 ^ values.idxOf x else 0 := by
    apply List.ext_getElem
    · simp
    · intro k h1 h2
      simp only [List.length_map, List.length_zipIdx] at h1
      simp [h.idxOf_getElem]
  rw [putSet, this]

/-! ### The codes of named values are their places -/

theorem Requirement.code_eq (x : Requirement) : byteOf x.code = placeByte [.required, .optional] x := by cases x <;> rfl
theorem Service.code_eq (x : Service) : byteOf x.code = placeByte [.inService, .outOfService] x := by cases x <;> rfl
theorem DynamicHold.code_eq (x : DynamicHold) : byteOf x.code = placeByte [.none, .host, .strike] x := by
  cases x <;> rfl
theorem Verdict.code_eq (x : Verdict) : byteOf x.code = placeByte [.allow, .lowFlow, .forbid] x := by cases x <;> rfl
theorem Terminal.code_eq (x : Terminal) : byteOf x.code = placeByte [.present, .lost] x := by cases x <;> rfl
theorem MeterState.code_eq (x : MeterState) : byteOf x.code = placeByte [.ok, .fault] x := by cases x <;> rfl
theorem ShotPhase.code_eq (x : ShotPhase) : byteOf x.code = placeByte [.opened, .tail] x := by cases x <;> rfl
theorem Emphasis.code_eq (x : Emphasis) : byteOf x.code = placeByte [.normal, .inverse, .flashing] x := by
  cases x <;> rfl
theorem CompState.code_eq (x : CompState) :
    byteOf x.code = placeByte [.unplanned, .planned, .loading, .held, .partly, .filled] x := by cases x <;> rfl
theorem SessionState.code_eq (x : SessionState) :
    byteOf x.code = placeByte [.idle, .codeEntry, .orderSelect, .waitBond, .loading, .closing] x := by cases x <;> rfl
theorem BatchState.code_eq (x : BatchState) :
    byteOf x.code = placeByte [.lowStart, .ramping, .high, .topping, .closing, .held] x + 1 := by cases x <;> rfl
theorem ProbeState.code_eq (x : ProbeState) :
    byteOf x.code = placeByte [.noReading, .valid, .outOfRange, .probeFault] x := by cases x <;> rfl
theorem InjectorState.code_eq (x : InjectorState) :
    byteOf x.code = placeByte [.idle, .shot, .fault, .proving, .proveWait] x := by cases x <;> rfl
theorem ShotOutcome.code_eq (x : ShotOutcome) : byteOf x.code = placeByte [.none, .completed, .failed, .ended] x := by
  cases x <;> rfl
theorem ResultCode.code_eq (x : ResultCode) :
    byteOf x.code = placeByte [.ok, .notFound, .exists, .full, .invalid, .inUse, .wrongState] x := by cases x <;> rfl

/-- The state of an arm's batch, IDLE without one. -/
theorem State.batchCode_eq (s : State) (a : ArmId) : byteOf (s.batchCode a)
    = placeByte [none, some .lowStart, some .ramping, some .high, some .topping, some .closing, some .held]
        ((s.batch a).map (·.state)) := by
  unfold State.batchCode
  cases s.batch a with
  | none => rfl
  | some b => simp only [Option.map_some]; cases b.state <;> rfl

/-! ### The bodies -/

theorem Permit.body_eq (p : Permit) : p.body
    = littleEndian 4 p.card ++ textBytes p.name ++ memberBytes 1 (List.finRange 8) p.classes
      ++ littleEndian 2 p.validFrom ++ littleEndian 2 p.expiry ++ markedBytes (littleEndian 2) p.allowance
      ++ [byteOf p.strikes, if p.persistent then 0 else 1, placeByte [DynamicHold.none, .host, .strike] p.dynamic]
      ++ markedBytes (fun b => [numberByte b]) p.sessionBay := by
  simp only [Permit.body, putText_eq, putOptional_eq, putSetClear_eq, put1_eq, DynamicHold.code_eq,
    putSet_eq 1 allClasses p.classes (List.nodup_finRange 8)]
  simp only [put4, put2, allClasses, List.append_assoc, List.cons_append, List.nil_append]
  rfl

theorem Product.body_eq (p : Product) (used : Bool) : p.body used
    = textBytes p.name ++ [byteOf p.cls.val, byteOf p.group.val, numberByte p.mainHeader]
      ++ markedBytes (fun q => numberByte q.header :: littleEndian 2 q.ratio ++ [byteOf q.tolerance]) p.blend
      ++ countedBytes (fun e => numberByte e.injector :: littleEndian 2 e.rate
          ++ [placeByte [Requirement.required, .optional] e.requirement, byteOf e.tolerance]) p.additives
      ++ countedBytes (fun q => signedBytes 2 q.temperature ++ littleEndian 2 q.factor) p.correction
      ++ [if used then 1 else 0] := by
  have h : AdditiveEntry.body = fun e => numberByte e.injector :: littleEndian 2 e.rate
      ++ [placeByte [Requirement.required, .optional] e.requirement, byteOf e.tolerance] := by
    funext e
    simp only [AdditiveEntry.body, put1_eq, putNum_eq, Requirement.code_eq, put2]
    simp
  have k : CorrectionPoint.body = fun q => signedBytes 2 q.temperature ++ littleEndian 2 q.factor := rfl
  simp only [Product.body, putText_eq, putOptional_eq, putList_eq, putBool_eq, put1_eq, putNum_eq, h, k, put2]
  simp

theorem AdditiveResult.body_eq (r : AdditiveResult) : r.body
    = byteOf r.index :: numberByte r.injector :: littleEndian 2 r.rate
      ++ [placeByte [Requirement.required, .optional] r.requirement, byteOf r.tolerance]
      ++ littleEndian 4 r.expected ++ littleEndian 4 r.delivered
      ++ memberBytes 2 [ResultFlag.underdosed, .lagged, .outOfTolerance, .skipped] r.flags := by
  simp only [AdditiveResult.body, put1_eq, putNum_eq, Requirement.code_eq, put2, put4,
    putSet_eq 2 ResultFlag.all r.flags (by decide)]
  simp [ResultFlag.all]

theorem Compartment.average_eq (c : Compartment) : putOptional (putSigned 2) c.average
    = if c.gross = 0 then [0] else 1 :: signedBytes 2 (c.tempSum.sign
        * ((2 * c.tempSum.natAbs + c.gross) / (2 * c.gross) : Nat)) := by
  unfold Compartment.average
  split
  · rfl
  · rename_i h
    have hg : 0 < c.gross := Nat.pos_of_ne_zero h
    have : roundHalfAway c.tempSum c.gross
        = c.tempSum.sign * ((2 * c.tempSum.natAbs + c.gross) / (2 * c.gross) : Nat) := by
      unfold roundHalfAway
      rcases lt_trichotomy c.tempSum 0 with k | k | k
      · rw [if_neg (by omega), Int.sign_eq_neg_one_of_neg k, neg_one_mul]
      · rw [if_pos (by omega), k]
        have : (2 * (0 : Int).natAbs + c.gross) / (2 * c.gross) = 0 := Nat.div_eq_of_lt (by simp; omega)
        rw [this]; rfl
      · rw [if_pos (by omega), Int.sign_eq_one_of_pos k, one_mul]
    rw [this]; rfl

theorem Compartment.body_eq (c : Compartment) : c.body
    = numberByte c.number :: littleEndian 4 c.capacity ++ littleEndian 4 c.planned
      ++ markedBytes (fun p => [numberByte p]) c.product ++ markedBytes (fun g => [byteOf g.val]) c.prevGroup
      ++ [placeByte [CompState.unplanned, .planned, .loading, .held, .partly, .filled] c.state]
      ++ littleEndian 4 c.gross ++ littleEndian 4 c.net ++ signedBytes 6 c.tempSum ++ [byteOf c.batchCount]
      ++ markedBytes (fun a => [numberByte a]) c.lastArm
      ++ countedBytes (fun r => byteOf r.index :: numberByte r.injector :: littleEndian 2 r.rate
          ++ [placeByte [Requirement.required, .optional] r.requirement, byteOf r.tolerance]
          ++ littleEndian 4 r.expected ++ littleEndian 4 r.delivered
          ++ memberBytes 2 [ResultFlag.underdosed, .lagged, .outOfTolerance, .skipped] r.flags) c.results
      ++ memberBytes 2 [CompFlag.tempSubstituted, .lowFlowOnly, .closedUnderTrip, .endedByReset, .valveLeak,
          .powerInterrupted] c.flags
      ++ (if c.gross = 0 then [0] else 1 :: signedBytes 2 (c.tempSum.sign
          * ((2 * c.tempSum.natAbs + c.gross) / (2 * c.gross) : Nat))) := by
  have h : AdditiveResult.body = fun r => byteOf r.index :: numberByte r.injector :: littleEndian 2 r.rate
          ++ [placeByte [Requirement.required, .optional] r.requirement, byteOf r.tolerance]
          ++ littleEndian 4 r.expected ++ littleEndian 4 r.delivered
          ++ memberBytes 2 [ResultFlag.underdosed, .lagged, .outOfTolerance, .skipped] r.flags :=
    funext AdditiveResult.body_eq
  rw [Compartment.body, Compartment.average_eq]
  simp only [put1_eq, putNum_fun, putOptional_eq, putList_eq, CompState.code_eq,
    putSigned_eq, h, put4, putSet_eq 2 CompFlag.all c.flags (by decide)]
  simp only [CompFlag.all, List.append_assoc, List.cons_append, List.nil_append]

/-- The parts of an order by its stage (R47). -/
theorem Stage.body_eq (stage : Stage) : stage.body
    = match stage with
      | .opened => [0, 0]
      | .active part => 1 :: numberByte part.bay
          :: markedBytes (fun x => littleEndian 2 x.day ++ littleEndian 4 x.second) part.startTime
          ++ markedBytes (fun x => littleEndian 2 x.day ++ littleEndian 4 x.second) part.endTime ++ [0]
      | .noted part x => 1 :: numberByte part.bay
          :: markedBytes (fun x => littleEndian 2 x.day ++ littleEndian 4 x.second) part.startTime
          ++ markedBytes (fun x => littleEndian 2 x.day ++ littleEndian 4 x.second) part.endTime
          ++ 1 :: littleEndian 4 x.number ++ textBytes x.holder
          ++ memberBytes 2 [NoteFlag.powerInterrupted, .bayReset, .hostClosed] x.flags := by
  cases stage with
  | opened => rfl
  | active part => simp [Stage.body, SessionPart.body, putNum_eq, putTime_eq]
  | noted part x =>
    simp only [Stage.body, SessionPart.body, NotePart.body, putNum_eq, putTime_eq, putText_eq, put4,
      putSet_eq 2 NoteFlag.all x.flags (by decide)]
    simp [NoteFlag.all]

theorem Order.body_eq (o : Order) (position : Nat) : o.body position
    = littleEndian 4 o.number ++ littleEndian 4 o.seq
      ++ (match o.stage with
          | .opened => [(0 : Byte)]
          | .active _ => [1]
          | .noted _ _ => [2])
      ++ littleEndian 4 o.card ++ markedBytes (fun b => [numberByte b]) o.bay ++ textBytes o.tanker
      ++ o.stage.body ++ littleEndian 4 (o.comps.map (·.gross)).sum ++ littleEndian 4 (o.comps.map (·.net)).sum
      ++ countedBytes Compartment.body ((o.comps.drop (position - 1)).take 4)
      ++ [if 4 < (o.comps.drop (position - 1)).length then 1 else 0] := by
  have h : put1 o.stage.code = (match o.stage with
          | .opened => [(0 : Byte)]
          | .active _ => [1]
          | .noted _ _ => [2]) := by cases o.stage <;> rfl
  simp only [Order.body, putText_eq, putOptional_eq, putList_eq, putBool_eq, h, put4, decide_eq_true_eq]
  rfl

/-- The record of an arm and its live figures, 0 and absent in IDLE (log entry 24). -/
theorem Arm.body_eq (r : Arm) : r.body
    = markedBytes (fun b => [numberByte b]) r.bay ++ markedBytes (fun m => [numberByte m]) r.mainMeter
      ++ markedBytes (fun m => [numberByte m]) r.blendMeter
      ++ memberBytes 4 (List.finRange 32) r.products ++ littleEndian 2 r.maxFlow
      ++ littleEndian 2 r.lowFlow ++ littleEndian 4 r.startupVolume
      ++ littleEndian 2 r.rampStep ++ [byteOf r.rampInterval]
      ++ littleEndian 2 r.toppingFlow ++ littleEndian 4 r.toppingVolume
      ++ littleEndian 4 r.closingAllowance ++ [placeByte [Service.inService, .outOfService] r.service]
      ++ (match r.batch with
        | none => List.replicate 22 0
        | some b => (placeByte [BatchState.lowStart, .ramping, .high, .topping, .closing, .held] b.state + 1)
          :: 1 :: littleEndian 4 b.ref.order ++ [1, numberByte b.ref.comp] ++ littleEndian 4 b.target
          ++ littleEndian 4 b.gross ++ littleEndian 4 b.net ++ littleEndian 2 b.mainDemand
          ++ littleEndian 2 b.blendDemand ++ markedBytes (littleEndian 2) b.ceiling
          ++ memberBytes 2 HoldCause.all b.holdSet) := by
  simp only [Arm.body, putHoldSet, put1_eq, putNum_fun, putOptional_eq, putSet_eq 4 allProducts r.products (List.nodup_finRange 32), Service.code_eq]
  cases r.batch with
  | none =>
    have : put4 0 ++ put4 0 ++ put4 0 ++ put2 0 ++ put2 0 ++ [0] ++ putSet 2 HoldCause.all [] = List.replicate 19 0 := by
      decide
    simp only [put2, put4, List.append_assoc, List.cons_append, List.nil_append] at this
    simp [put2, put4, allProducts, List.replicate]
    exact this
  | some b =>
    simp only [BatchState.code_eq, putSet_eq 2 HoldCause.all b.holdSet (by decide)]
    simp [put2, put4, allProducts]
    rfl

theorem State.headerBody_eq (s : State) (h : HeaderId) : s.headerBody h
    = littleEndian 2 (s.header h).capacity ++ memberBytes 2 (List.finRange 12) (s.header h).drawing
      ++ countedBytes (fun a => littleEndian 2 (((s.batch a).bind (·.ceiling)).getD 0))
        ((List.finRange 12).filter fun a => decide (a ∈ (s.header h).drawing)) := by
  simp only [State.headerBody, putList_eq, putSet_eq 2 allArms (s.header h).drawing (List.nodup_finRange 12)]
  rfl

theorem State.holdBody_eq (s : State) (a : ArmId) : s.holdBody a
    = placeByte [none, some BatchState.lowStart, some .ramping, some .high, some .topping, some .closing, some .held]
        ((s.batch a).map (·.state)) :: memberBytes 2 HoldCause.all ((s.batch a).elim [] (·.holdSet)) := by
  simp only [State.holdBody, put1_eq, State.batchCode_eq, putHoldSet]
  cases s.batch a <;> simp only [Option.elim] <;> rw [putSet_eq 2 HoldCause.all _ (by decide)] <;> rfl

/-- A meter is bound to an arm out of IDLE that has it as main meter, or as blend meter of a blended batch (R108). -/
theorem State.boundTo_isSome (s : State) (m : MeterId) : (s.boundTo m).isSome
    = (List.finRange 12).any fun a => (s.batch a).any fun b => decide ((s.arm a).mainMeter = some m) ||
        (decide ((s.arm a).blendMeter = some m) && b.snapshot.blend.isSome) := by
  have h : ∀ l : List ArmId, (l.findSome? fun a => match s.batch a with
      | none => none
      | some b =>
        if (s.arm a).mainMeter = some m then some (a, Role.main)
        else if (s.arm a).blendMeter = some m ∧ b.snapshot.blend.isSome then some (a, .blend)
        else none).isSome
      = l.any fun a => (s.batch a).any fun b => decide ((s.arm a).mainMeter = some m) ||
        (decide ((s.arm a).blendMeter = some m) && b.snapshot.blend.isSome) := by
    intro l
    induction l with
    | nil => rfl
    | cons a rest ih =>
      simp only [List.findSome?_cons, List.any_cons]
      split <;> rename_i k
      · cases hb : s.batch a with
        | none => simp [hb] at k
        | some b =>
          simp only [hb] at k
          split at k <;> rename_i h1
          · simp [h1]
          · split at k <;> rename_i h2
            · simp [h1, h2]
            · cases k
      · rw [ih]
        cases hb : s.batch a with
        | none => simp
        | some b =>
          simp only [hb] at k
          split at k <;> rename_i h1
          · cases k
          · split at k <;> rename_i h2
            · cases k
            · have : (decide ((s.arm a).blendMeter = some m) && b.snapshot.blend.isSome) = false := by
                simpa using h2
              simp [h1, this]
  exact h _

theorem State.meterBody_eq (s : State) (m : MeterId) : s.meterBody m
    = numberByte (s.meter m).header :: littleEndian 4 (s.meter m).k
      ++ [if (s.meter m).probe then 1 else 0, placeByte [MeterState.ok, .fault] (s.meter m).state]
      ++ littleEndian 6 (s.meter m).totalizer ++ littleEndian 4 (s.meter m).unauthorized
      ++ [if (s.meter m).unauthorizedFlag then 0 else 1] ++ littleEndian 2 (s.meter m).aCount
      ++ littleEndian 2 (s.meter m).bCount ++ markedBytes (signedBytes 2) (s.meter m).lastTemp
      ++ [placeByte [ProbeState.noReading, .valid, .outOfRange, .probeFault] (s.meter m).probeState]
      ++ (match (List.finRange 12).find? fun a => decide ((s.arm a).mainMeter = some m),
            (List.finRange 12).find? fun a => decide ((s.arm a).blendMeter = some m) with
          | some a, _ => [0, 1, numberByte a]
          | none, some a => [1, 1, numberByte a]
          | none, none => [2, 0])
      ++ [if (s.boundTo m).isSome then 1 else 0] := by
  have h : put1 (s.meterRole m).1 ++ putOptional putNum (s.meterRole m).2
      = (match (List.finRange 12).find? fun a => decide ((s.arm a).mainMeter = some m),
            (List.finRange 12).find? fun a => decide ((s.arm a).blendMeter = some m) with
          | some a, _ => [0, 1, numberByte a]
          | none, some a => [1, 1, numberByte a]
          | none, none => [2, 0]) := by
    unfold State.meterRole allArms
    split <;> rename_i k <;> simp only [k]
    · rfl
    · split <;> rename_i k' <;> simp only [k'] <;> rfl
  rw [← h]
  simp only [State.meterBody, put1_eq, putNum_eq, putOptional_eq, putBool_eq, putSetClear_eq, MeterState.code_eq, ProbeState.code_eq]
  simp [put2, put4]
  rfl

theorem Injector.body_eq (i : Injector) : i.body
    = placeByte [Service.inService, .outOfService] i.service :: littleEndian 2 i.shotVolume
      ++ littleEndian 2 i.k ++ [byteOf i.window]
      ++ markedBytes (fun j => [numberByte j]) i.follower ++ littleEndian 4 i.stock
      ++ littleEndian 4 i.mark
      ++ [placeByte [InjectorState.idle, .shot, .fault, .proving, .proveWait] i.state]
      ++ littleEndian 4 (i.reservations.map (·.amount)).sum ++ [byteOf i.failures]
      ++ littleEndian 4 (i.stock - (i.reservations.map (·.amount)).sum)
      ++ countedBytes (fun e => numberByte e.arm :: littleEndian 4 e.ref.order
          ++ [numberByte e.ref.comp, byteOf e.index, byteOf e.owed, if e.inService then 1 else 0]) i.queue
      ++ markedBytes (fun y => littleEndian 2 y.target ++ littleEndian 4 y.counted
          ++ [placeByte [ShotPhase.opened, .tail] y.phase,
              placeByte [ShotOutcome.none, .completed, .failed, .ended] y.outcome]) i.shot := by
  have h : QueueEntry.body = fun e => numberByte e.arm :: littleEndian 4 e.ref.order
          ++ [numberByte e.ref.comp, byteOf e.index, byteOf e.owed, if e.inService then 1 else 0] := by
    funext e
    simp [QueueEntry.body, putRef, putNum_eq, put1_eq, putBool_eq, put4]
  have k : Shot.body = fun y => littleEndian 2 y.target ++ littleEndian 4 y.counted
          ++ [placeByte [ShotPhase.opened, .tail] y.phase,
              placeByte [ShotOutcome.none, .completed, .failed, .ended] y.outcome] := by
    funext y
    simp [Shot.body, put1_eq, put2, put4, ShotPhase.code_eq, ShotOutcome.code_eq]
  simp only [Injector.body, put1_eq, putOptional_eq, putList_eq, Service.code_eq, InjectorState.code_eq, h, k]
  simp [put2, put4]
  rfl

theorem Cell.body_eq (c : Cell) : c.body = match c with
    | .character g => [1, byteOf g.val]
    | .attr e => [2, placeByte [Emphasis.normal, .inverse, .flashing] e]
    | .field f w => [3, placeByte FieldCode.all f, byteOf w] := by
  cases c with
  | attr e => simp [Cell.body, put1_eq, Emphasis.code_eq]
  | _ => rfl

theorem Line.body_eq (l : Line) : l.body
    = [0, if l.hidden then 1 else 0, if l.double then 1 else 0, placeByte [Emphasis.normal, .inverse, .flashing] l.emphasis]
      ++ countedBytes (fun c => match c with
        | .character g => [1, byteOf g.val]
        | .attr e => [2, placeByte [Emphasis.normal, .inverse, .flashing] e]
        | .field f w => [3, placeByte FieldCode.all f, byteOf w]) l.cells := by
  have h : Cell.body = fun c => match c with
        | .character g => [1, byteOf g.val]
        | .attr e => [2, placeByte [Emphasis.normal, .inverse, .flashing] e]
        | .field f w => [3, placeByte FieldCode.all f, byteOf w] := funext Cell.body_eq
  simp [Line.body, put1_eq, putBool_eq, putList_eq, Emphasis.code_eq, h]

theorem State.statusBody_eq (s : State) : s.statusBody
    = markedBytes (fun c => littleEndian 2 c.day ++ littleEndian 4 c.second) s.clock
      ++ [if s.esd.active then 0 else 1] ++ memberBytes 2 EventFlag.all s.flags ++ memberBytes 2 EventFlag.all s.mask
      ++ (List.finRange 4).flatMap (fun b =>
        placeByte [SessionState.idle, .codeEntry, .orderSelect, .waitBond, .loading, .closing] (s.session b).state
          :: markedBytes (littleEndian 4) (s.session b).bound
          ++ [placeByte [Terminal.present, .lost] (s.session b).terminal, if (s.session b).bond.present then 1 else 0,
              if (s.session b).overfill.present then 1 else 0])
      ++ (List.finRange 12).flatMap (fun a =>
        [placeByte [none, some BatchState.lowStart, some .ramping, some .high, some .topping, some .closing, some .held]
            ((s.batch a).map (·.state)), placeByte [Service.inService, .outOfService] (s.arm a).service])
      ++ (List.finRange 8).flatMap (fun i =>
        [placeByte [InjectorState.idle, .shot, .fault, .proving, .proveWait] (s.injector i).state,
          placeByte [Service.inService, .outOfService] (s.injector i).service]) := by
  simp only [State.statusBody, State.flagsBody, putTime_eq, put1_eq, putOptional_eq, putPresent_eq, SessionState.code_eq,
    Terminal.code_eq, State.batchCode_eq, Service.code_eq, InjectorState.code_eq,
    putSet_eq 2 EventFlag.all s.flags (by decide), putSet_eq 2 EventFlag.all s.mask (by decide), allArms, allInjectors]
  cases s.esd.active <;> simp <;> rfl

end Sys2Proof.Machine
end

