-- ==== Sys2Proof/Laws/Dosing.lean ====
section
/-! SUPPORT. What the operations of starts, injection and metering do, each said once: reservations of a start, what every
operation of injection and holding keeps (`CoreKept`), the tenths of a meter (`Credited`, `Unauthorized`) and the
integrity check (`Checked`). -/

namespace Sys2Proof.Machine

set_option Elab.async false

/-! ### Starts -/

/-- The start checks read of a session no pending arm selection. -/
theorem startChecks_pending (u : State) (bay : BayId) (x : Session) (hx : x = { u.session bay with armPending := false }) :
    ({ u with bays := vset u.bays bay x } : State).startChecks bay = u.startChecks bay := by
  generalize hw : ({ u with bays := vset u.bays bay x } : State) = w
  have hs : w.session bay = x := by rw [← hw]; simp [State.session]
  have h1 : w.focusArm bay = u.focusArm bay := by rw [← hw, focusArm_set (by rw [hx])]
  have h2 : w.loadableComp bay = u.loadableComp bay := by
    unfold State.loadableComp State.boundOrder
    rw [hs, hx, ← hw]; rfl
  have h3 : ∀ c, w.standingAt bay c = u.standingAt bay c := by
    intro c; unfold State.standingAt State.sessionPermit; rw [hs, hx, ← hw]; rfl
  unfold State.startChecks
  rw [h1, h2]
  simp only [h3, hs]
  rw [← hw, hx]
  rfl

theorem startChecks_arm {s : State} {b : BayId} {p : StartPlan} (h : s.startChecks b = .ok p) :
    s.batch p.arm = none ∧ s.esd.active = false := State.startChecks_idle h

theorem reservation_set (i : Injector) (r : CompRef) (n : Nat) : (i.setReservation r n).reservation r = n := by
  unfold Injector.setReservation
  split
  · rename_i h
    unfold Injector.reservation
    dsimp only
    rw [List.any_eq_true] at h
    obtain ⟨x, hx, he⟩ := h
    have he : x.ref = r := by simpa using he
    cases hf : List.find? (fun x => decide (x.ref = r)) (i.reservations.map fun x => if x.ref = r then { x with amount := n } else x) with
    | none =>
      rw [List.find?_eq_none] at hf
      have := hf { x with amount := n } (List.mem_map.mpr ⟨x, hx, by rw [if_pos he]⟩)
      simp [he] at this
    | some y =>
      dsimp only
      have hm := List.mem_of_find?_eq_some hf
      have hp : y.ref = r := by simpa using List.find?_some hf
      obtain ⟨z, hz, e⟩ := List.mem_map.mp hm
      by_cases hz : z.ref = r
      · rw [if_pos hz] at e; rw [← e]
      · rw [if_neg hz] at e; subst e; exact absurd hp hz
  · rename_i h
    have : i.reservations.find? (fun x => decide (x.ref = r)) = none := by
      rw [List.find?_eq_none]; intro x hx hr; exact h (List.any_eq_true.mpr ⟨x, hx, hr⟩)
    unfold Injector.reservation
    simp [List.find?_append, this]

theorem setReservation_rest (i : Injector) (r : CompRef) (n : Nat) :
    i.setReservation r n = { i with reservations := (i.setReservation r n).reservations } := by
  unfold Injector.setReservation; split <;> rfl

/-- The reservations of a start. -/
theorem reserveAll_fold (s : State) (p : StartPlan) (l : List SnapshotEntry) (v : State) (i : InjectorId) :
    let w := l.foldl (fun acc e => acc.modInjector e.entry.injector fun i => i.setReservation p.ref (s.need p.target e)) v
    w = { v with injectors := w.injectors } ∧
    (w.injector i = { v.injector i with reservations := (w.injector i).reservations }) ∧
    ((l.map (·.entry.injector)).Nodup → (w.injector i).reservation p.ref = match l.find? (fun e => decide (e.entry.injector = i)) with
      | some e => s.need p.target e
      | none => (v.injector i).reservation p.ref) := by
  induction l generalizing v with
  | nil => exact ⟨rfl, rfl, fun _ => rfl⟩
  | cons e l ih =>
    have k := ih (v.modInjector e.entry.injector fun i => i.setReservation p.ref (s.need p.target e))
    dsimp only at k ⊢
    rw [List.foldl_cons]
    obtain ⟨k1, k2, k3⟩ := k
    generalize List.foldl _ _ l = w at k1 k2 k3
    refine ⟨?_, ?_, fun nd => ?_⟩
    · rw [k1]; rfl
    · rw [k2, State.injector_modInjector]
      split
      · rename_i h; subst h; rw [setReservation_rest]
      · rfl
    · rw [List.map_cons, List.nodup_cons] at nd
      rw [k3 nd.2, List.find?_cons, State.injector_modInjector]
      by_cases h : e.entry.injector = i
      · subst h
        have : l.find? (fun x => decide (x.entry.injector = e.entry.injector)) = none := by
          rw [List.find?_eq_none]; intro x hx he
          exact nd.1 (List.mem_map.mpr ⟨x, hx, by simpa using he⟩)
        rw [this]
        simp [reservation_set]
      · rw [if_neg (fun e' => h e'.symm)]
        simp [h]

/-! ### What injection and holding keep of batches, sessions and meters -/

/-- What of a batch no operation of injection or of holding changes. -/
def Batch.core (b : Batch) : CompRef × Nat × Snapshot × Nat × Nat := (b.ref, b.target, b.snapshot, b.gross, b.blendGross)

/-- Operations that keep sessions, permits, displays, meters, flags set, and the core of every batch. -/
structure CoreKept (s t : State) : Prop where
  bays : t.bays = s.bays
  permits : t.permits = s.permits
  displays : t.displays = s.displays
  meters : t.meters = s.meters
  esd : t.esd = s.esd
  flags : ∀ f ∈ s.flags, f ∈ t.flags
  arm : ∀ a, t.arm a = { s.arm a with batch := t.batch a }
  core : ∀ a, (t.batch a).map Batch.core = (s.batch a).map Batch.core

theorem CoreKept.refl (s : State) : CoreKept s s := ⟨rfl, rfl, rfl, rfl, rfl, fun _ h => h, fun _ => rfl, fun _ => rfl⟩
theorem CoreKept.trans {s t u : State} (h : CoreKept s t) (k : CoreKept t u) : CoreKept s u :=
  ⟨k.bays.trans h.bays, k.permits.trans h.permits, k.displays.trans h.displays, k.meters.trans h.meters, k.esd.trans h.esd,
    fun f hf => k.flags f (h.flags f hf), fun a => by rw [k.arm, h.arm], fun a => (k.core a).trans (h.core a)⟩

theorem CoreKept.after {s t u : State} (k : CoreKept t u) (h : CoreKept s t) : CoreKept s u := h.trans k

section
variable (s : State)
theorem coreKept_modComp (r : CompRef) (f : Compartment → Compartment) : CoreKept s (s.modComp r f) := by
  rw [State.modComp_eq]; exact ⟨rfl, rfl, rfl, rfl, rfl, fun _ h => h, fun _ => rfl, fun _ => rfl⟩
theorem coreKept_modInjector (i : InjectorId) (f : Injector → Injector) : CoreKept s (s.modInjector i f) :=
  ⟨rfl, rfl, rfl, rfl, rfl, fun _ h => h, fun _ => rfl, fun _ => rfl⟩
theorem coreKept_raise (e : EventFlag) : CoreKept s (s.raise e) :=
  ⟨rfl, rfl, rfl, rfl, rfl, fun f h => (s.mem_flags_raise e f).mpr (.inr h), fun _ => rfl, fun _ => rfl⟩
theorem coreKept_freeCount (n : Nat) : CoreKept s { s with freeCount := n } :=
  ⟨rfl, rfl, rfl, rfl, rfl, fun _ h => h, fun _ => rfl, fun _ => rfl⟩
theorem coreKept_bounded (m e : Nat) : CoreKept s (s.bounded m e).2 := by
  obtain ⟨-, -, k, e⟩ := s.bounded_spec m e; rw [e]; exact coreKept_freeCount s k
theorem coreKept_modBatch (a : ArmId) (f : Batch → Batch) (hf : ∀ b, (f b).core = b.core) : CoreKept s (s.modBatch a f) := by
  refine ⟨rfl, rfl, rfl, rfl, rfl, fun _ h => h, (s.modBatch_flowOnly a f).arm, fun x => ?_⟩
  rw [State.batch_modBatch]
  split
  · rename_i e; subst e; rw [Option.map_map]; congr 1; funext b; exact hf b
  · rfl
theorem Eased.coreKept {t : State} (h : Eased s t) : CoreKept s t := by
  refine ⟨by rw [h.eq], by rw [h.eq], by rw [h.eq], by rw [h.eq], by rw [h.eq], fun f k => by rw [h.eq]; exact k, h.arm, fun a => ?_⟩
  have := congrArg (Option.map Batch.core) (h.batch a)
  rw [Option.map_map, Option.map_map] at this
  exact this
theorem coreKept_modHeader (h : HeaderId) (f : Header → Header) : CoreKept s (s.modHeader h f) :=
  ⟨rfl, rfl, rfl, rfl, rfl, fun _ h => h, fun _ => rfl, fun _ => rfl⟩
theorem coreKept_leaveRaw (h : HeaderId) (a : ArmId) : CoreKept s (s.leaveRaw h a) :=
  (coreKept_modHeader s h _).trans (coreKept_modBatch _ a _ fun _ => rfl)
theorem coreKept_removeQueueEntries (a : ArmId) : CoreKept s (s.removeQueueEntries a) :=
  ⟨rfl, rfl, rfl, rfl, rfl, fun _ h => h, fun _ => rfl, fun _ => rfl⟩
theorem coreKept_enterHeldRaw (a : ArmId) (b : Batch) (c : HoldCause) : CoreKept s (s.enterHeldRaw a b c) :=
  (coreKept_raise _ _).after <| (coreKept_removeQueueEntries _ _).after <| (coreKept_leaveRaw _ _ _).after <| (coreKept_modComp _ _ _).after <|
    coreKept_modBatch s a _ fun _ => rfl
theorem coreKept_handCauseRaw (a : ArmId) (c : HoldCause) : CoreKept s (s.handCauseRaw a c) := by
  unfold State.handCauseRaw
  split
  · exact .refl s
  · split
    · exact coreKept_modBatch s a _ fun _ => rfl
    · split
      · exact coreKept_modComp s _ _
      · exact .refl s
    all_goals exact coreKept_enterHeldRaw s a _ c
theorem coreKept_foldl {α : Type} (f : State → α → State) (hf : ∀ u x, CoreKept u (f u x)) (l : List α) : CoreKept s (l.foldl f s) := by
  induction l generalizing s with
  | nil => exact .refl s
  | cons x l ih => exact (hf s x).trans (ih _)
theorem coreKept_settle (t : State) (h : CoreKept s t) : CoreKept s (s.settleHeaders t) := h.trans (State.settleHeaders_eased s t).coreKept
theorem coreKept_handCauses (l : List ArmId) (c : HoldCause) : CoreKept s (s.handCauses l c) :=
  coreKept_settle s _ (coreKept_foldl s _ (fun u a => coreKept_handCauseRaw u a c) l)
theorem coreKept_removeCause (c : HoldCause) (a : ArmId) : CoreKept s (s.removeCause c a) := by
  unfold State.removeCause
  split
  · split
    · exact coreKept_modBatch s a _ fun _ => rfl
    · exact .refl s
  · exact .refl s
theorem coreKept_removeCauses (l : List ArmId) (c : HoldCause) : CoreKept s (s.removeCauses l c) :=
  coreKept_foldl s _ (fun u a => coreKept_removeCause u c a) l
theorem coreKept_setInjectorState (i : InjectorId) (st : InjectorState) : CoreKept s (s.setInjectorState i st) := by
  unfold State.setInjectorState
  dsimp only
  split
  · exact coreKept_modInjector s i _
  · exact (coreKept_modInjector s i _).trans (coreKept_removeCauses _ _ _)
theorem coreKept_doseFlag (r : CompRef) (i : InjectorId) (f : ResultFlag) : CoreKept s (s.doseFlag r i f) := by
  unfold State.doseFlag; split
  · exact coreKept_modComp s _ _
  · exact .refl s
theorem coreKept_cannotDose (i : InjectorId) (a : ArmId) (r : CompRef) (q : Requirement) : CoreKept s (s.cannotDose i a r q) := by
  unfold State.cannotDose; split
  · exact coreKept_handCauses s _ _
  · exact coreKept_doseFlag s _ _ _
theorem coreKept_startShots (i : InjectorId) (n : Nat) : CoreKept s (s.startShots i n) := by
  induction n generalizing s with
  | zero => exact .refl s
  | succ n ih =>
    unfold State.startShots
    dsimp only
    split
    · exact .refl s
    · split
      · exact .refl s
      · split
        · exact (coreKept_modInjector s i _).trans (coreKept_setInjectorState _ _ _)
        · exact ((coreKept_modInjector s i _).trans (coreKept_cannotDose _ _ _ _ _)).trans (ih _)
theorem coreKept_nextShot (i : InjectorId) : CoreKept s (s.nextShot i) := coreKept_startShots s i _
theorem coreKept_enqueue (i : InjectorId) (a : ArmId) (r : CompRef) (k : Nat) : CoreKept s (s.enqueue i a r k) := by
  unfold State.enqueue
  split
  · exact (coreKept_modInjector s i _).trans (coreKept_nextShot _ _)
  · split
    · exact coreKept_modInjector s i _
    · exact coreKept_doseFlag s _ _ _
theorem coreKept_post (a : ArmId) (r : CompRef) (e : SnapshotEntry) : CoreKept s (s.post a r e) := by
  unfold State.post
  dsimp only
  split
  · exact coreKept_enqueue s _ _ _ _
  · exact coreKept_cannotDose s _ _ _ _
theorem coreKept_creditResult (r : CompRef) (i : InjectorId) (n : Nat) : CoreKept s (s.creditResult r i n) := by
  unfold State.creditResult
  split
  · split
    · exact (coreKept_bounded s _ _).trans (coreKept_modComp _ _ _)
    · exact .refl s
  · exact .refl s
theorem coreKept_lowerStock (i : InjectorId) (n : Nat) : CoreKept s (s.lowerStock i n) := by
  unfold State.lowerStock State.putStock
  dsimp only
  split
  · exact (coreKept_modInjector s i _).trans (coreKept_raise _ _)
  · exact coreKept_modInjector s i _
theorem coreKept_creditShot (i : InjectorId) (x : Shot) : CoreKept s (s.creditShot i x) := by
  unfold State.creditShot
  dsimp only
  split
  · exact ((coreKept_creditResult s _ _ _).trans (coreKept_lowerStock _ _ _)).trans (coreKept_modInjector _ _ _)
  · exact coreKept_lowerStock s _ _
theorem coreKept_rotate (i : InjectorId) (x : Shot) : CoreKept s (s.rotate i x) := by
  unfold State.rotate; split
  · exact coreKept_modInjector s i _
  · exact .refl s
theorem coreKept_cascade (i : InjectorId) (o : ShotOwner) : CoreKept s (s.cascade i o) := by
  unfold State.cascade
  split
  · split
    · split
      · exact coreKept_post s _ _ _
      · exact .refl s
    · exact .refl s
  · exact .refl s
theorem coreKept_endShot (i : InjectorId) : CoreKept s (s.endShot i) :=
  ((coreKept_modInjector s i _).trans (coreKept_setInjectorState _ _ _)).trans (coreKept_nextShot _ _)
theorem coreKept_ownerUnderdosed (i : InjectorId) (x : Shot) : CoreKept s (s.ownerUnderdosed i x) := by
  unfold State.ownerUnderdosed; split
  · exact coreKept_doseFlag s _ _ _
  · exact .refl s
theorem coreKept_completeShot (i : InjectorId) (x : Shot) : CoreKept s (s.completeShot i x) := by
  unfold State.completeShot
  have k := ((coreKept_creditShot s i x).trans (coreKept_modInjector _ i fun j => { j with failures := 0 })).trans (coreKept_rotate _ i x)
  dsimp only
  split
  · exact (k.trans (coreKept_cascade _ _ _)).trans (coreKept_endShot _ _)
  · exact k.trans (coreKept_endShot _ _)
theorem coreKept_faultInjector (i : InjectorId) (x : Shot) : CoreKept s (s.faultInjector i x) := by
  unfold State.faultInjector
  refine (((((coreKept_ownerUnderdosed s i x).trans (coreKept_modInjector _ _ _)).trans (coreKept_foldl _ _ ?_ _)).trans
    (coreKept_handCauses _ _ _)).trans (coreKept_setInjectorState _ _ _)).trans (coreKept_raise _ _)
  intro u e
  split
  · exact coreKept_doseFlag u _ _ _
  · exact .refl u
theorem coreKept_failShot (i : InjectorId) (x : Shot) : CoreKept s (s.failShot i x) := by
  unfold State.failShot
  have k := (coreKept_creditShot s i x).trans (coreKept_modInjector _ i fun j => { j with failures := min 3 (j.failures + 1) })
  dsimp only
  split
  · exact k.trans (coreKept_faultInjector _ _ _)
  · exact ((k.trans (coreKept_ownerUnderdosed _ _ _)).trans (coreKept_rotate _ _ _)).trans (coreKept_endShot _ _)
theorem coreKept_completeProvingShot (i : InjectorId) (x : Shot) (p : Proving) : CoreKept s (s.completeProvingShot i x p) := by
  unfold State.completeProvingShot
  have k := fun f => ((coreKept_bounded s 2550000 (p.totalPulses + x.counted)).trans (coreKept_creditShot _ i x)).trans (coreKept_modInjector _ i f)
  dsimp only
  split
  · exact (k _).trans (coreKept_modInjector _ _ _)
  · exact ((k _).trans (coreKept_setInjectorState _ _ _)).trans (coreKept_raise _ _)
theorem coreKept_failProvingShot (i : InjectorId) (x : Shot) : CoreKept s (s.failProvingShot i x) :=
  (((coreKept_creditShot s i x).trans (coreKept_modInjector _ _ _)).trans (coreKept_setInjectorState _ _ _)).trans (coreKept_raise _ _)
theorem coreKept_abortProving (i : InjectorId) : CoreKept s (s.abortProving i) := by
  unfold State.abortProving
  dsimp only
  split
  · exact ((coreKept_creditShot s _ _).trans (coreKept_modInjector _ _ _)).trans (coreKept_setInjectorState _ _ _)
  · exact (coreKept_modInjector s _ _).trans (coreKept_setInjectorState _ _ _)
theorem coreKept_tailEnd (i : InjectorId) : CoreKept s (s.tailEnd i) := by
  unfold State.tailEnd
  split
  · exact .refl s
  · split
    · exact .refl s
    · split
      · exact coreKept_completeShot s _ _
      · exact coreKept_failShot s _ _
      · exact (coreKept_creditShot s _ _).trans (coreKept_endShot _ _)
      · exact .refl s
      · exact coreKept_completeProvingShot s _ _ _
      · exact coreKept_failProvingShot s _ _
      · exact .refl s
      · exact .refl s
theorem coreKept_esdInjector (i : InjectorId) : CoreKept s (s.esdInjector i) := by
  unfold State.esdInjector
  split
  · exact coreKept_abortProving s i
  · exact coreKept_modInjector s i _
theorem coreKept_makeCredit (a : ArmId) (b : Batch) : CoreKept s (s.makeCredit a b) :=
  (coreKept_modComp s _ _).trans (coreKept_modBatch _ a _ fun _ => rfl)
theorem coreKept_superviseBlend (a : ArmId) : CoreKept s (s.superviseBlend a) := by
  unfold State.superviseBlend
  split
  · exact .refl s
  · split
    · exact .refl s
    · split
      · dsimp only
        split
        · split
          · exact (coreKept_handCauses _ _ _).after (coreKept_modBatch s a _ fun _ => rfl)
          · exact coreKept_modBatch s a _ fun _ => rfl
        · split
          · exact (coreKept_handCauses _ _ _).after (coreKept_modBatch s a _ fun _ => rfl)
          · exact coreKept_modBatch s a _ fun _ => rfl
      · exact .refl s
theorem CoreKept.mb {s t : State} (h : CoreKept s t) (a : ArmId) (f : Batch → Batch) (hf : ∀ b, (f b).core = b.core := by intro _; rfl) :
    CoreKept s (t.modBatch a f) := h.trans (coreKept_modBatch t a f hf)
theorem coreKept_meteringStep (a : ArmId) : CoreKept s (s.meteringStep a) := by
  unfold State.meteringStep
  split
  · exact .refl s
  · exact (coreKept_superviseBlend _ _).after <| (coreKept_makeCredit s a _).mb a _
theorem coreKept_postPoints (a : ArmId) (e : SnapshotEntry) (n : Nat) : CoreKept s (s.postPoints a e n) := by
  induction n generalizing s with
  | zero => exact .refl s
  | succ n ih =>
    unfold State.postPoints
    split
    · split
      · exact (ih _).after <| (coreKept_post _ _ _ _).after <| coreKept_modBatch s a _ fun _ => rfl
      · exact .refl s
    · exact .refl s
theorem coreKept_testPoints (a : ArmId) : CoreKept s (s.testPoints a) := by
  unfold State.testPoints
  split
  · refine coreKept_foldl s _ (fun u p => ?_) _
    unfold State.testEntry
    split
    · split
      · exact coreKept_postPoints u _ _ _
      · exact .refl u
    · exact .refl u
  · exact .refl s
theorem coreKept_enterClosingRaw (a : ArmId) (k : CloseKind) : CoreKept s (s.enterClosingRaw a k) := by
  unfold State.enterClosingRaw
  split
  · exact .refl s
  · exact (coreKept_removeQueueEntries _ _).after <| (coreKept_leaveRaw _ _ _).after <| coreKept_modBatch s a _ fun _ => rfl
theorem coreKept_enterClosings (l : List ArmId) (k : CloseKind) : CoreKept s (s.enterClosings l k) :=
  coreKept_settle s _ (coreKept_foldl s _ (fun u a => coreKept_enterClosingRaw u a k) l)
theorem rampStep_core (r : Arm) (b : Batch) : (rampStep r b).core = b.core := by
  unfold rampStep; split
  · rfl
  · dsimp only; split <;> rfl
theorem coreKept_profile (a : ArmId) : CoreKept s (s.profile a) := by
  unfold State.profile
  split
  · exact .refl s
  · dsimp only
    split
    · exact .refl s
    · split
      · exact coreKept_enterClosings s _ _
      · split
        · exact coreKept_modBatch s a _ fun _ => rfl
        · split
          · exact coreKept_modBatch s a _ (rampStep_core _)
          · exact .refl s
end

theorem CoreKept.boundTo {s t : State} (h : CoreKept s t) (m : MeterId) : t.boundTo m = s.boundTo m := by
  unfold State.boundTo
  congr 1
  funext a
  have ha := h.arm a
  have hc := h.core a
  have e1 : (t.arm a).mainMeter = (s.arm a).mainMeter := by rw [ha]
  have e2 : (t.arm a).blendMeter = (s.arm a).blendMeter := by rw [ha]
  rw [e1, e2]
  cases hb : s.batch a with
  | none =>
    rw [hb] at hc
    cases hb' : t.batch a with
    | none => rfl
    | some b => rw [hb'] at hc; cases hc
  | some b =>
    rw [hb] at hc
    cases hb' : t.batch a with
    | none => rw [hb'] at hc; cases hc
    | some b' =>
      rw [hb'] at hc
      have : b'.snapshot = b.snapshot := congrArg (fun x => x.2.2.1) (Option.some.inj hc)
      dsimp only
      rw [this]

/-- A tenth credited: the core of the arm's batch moves by one tenth. -/
theorem creditTenth_coreKept (s : State) (a : ArmId) (role : Role) : CoreKept (s.modBatch a fun b => { b.countTenth role with gross := b.gross + 1 }) (s.creditTenth a role) := by
  unfold State.creditTenth
  have k0 : CoreKept (s.modBatch a fun b => { b.countTenth role with gross := b.gross + 1 }) (((s.modBatch a fun b => b.countTenth role)).addTenth a) := by
    unfold State.addTenth
    refine CoreKept.trans ?_ (coreKept_profile _ a)
    refine ⟨rfl, rfl, rfl, rfl, rfl, fun _ h => h, fun x => ?_, fun x => ?_⟩
    · have e1 := ((s.modBatch_flowOnly a fun b => b.countTenth role).trans (State.modBatch_flowOnly _ a fun b =>
        { b with gross := b.gross + 1, sinceStart := if b.state.flowing then b.sinceStart + 1 else b.sinceStart })).arm x
      have e2 := (s.modBatch_flowOnly a fun b => { b.countTenth role with gross := b.gross + 1 }).arm x
      rw [e2]; exact e1
    · simp only [State.batch_modBatch]
      split
      · rename_i e; subst e
        cases s.batch x with
        | none => rfl
        | some b => cases role <;> rfl
      · rfl
  have k1 := k0.trans (coreKept_testPoints _ a)
  dsimp only
  split
  · exact k1.trans (coreKept_meteringStep _ a)
  · exact k1

/-! ### Tenths and the integrity check -/

/-- `n` tenths on a bound meter. -/
structure Credited (s t : State) (m : MeterId) (a : ArmId) (role : Role) (n : Nat) : Prop where
  bays : t.bays = s.bays
  permits : t.permits = s.permits
  flags : ∀ f ∈ s.flags, f ∈ t.flags
  bound : t.boundTo m = s.boundTo m
  meters : t.meters = vset s.meters m { s.meter m with totalizer := if n = 0 then (s.meter m).totalizer else min (2 ^ 48 - 1) ((s.meter m).totalizer + n) }
  core : ∀ y, s.batch a = some y → ∃ z, t.batch a = some z ∧ z.gross = y.gross + n ∧
    z.blendGross = (if role = .blend then y.blendGross + n else y.blendGross) ∧ z.ref = y.ref ∧ z.target = y.target ∧ z.snapshot = y.snapshot

theorem boundTo_core {s t : State} (hb : ∀ a, (t.arm a).mainMeter = (s.arm a).mainMeter ∧ (t.arm a).blendMeter = (s.arm a).blendMeter)
    (hc : ∀ a, (t.batch a).map (·.snapshot) = (s.batch a).map (·.snapshot)) (m : MeterId) : t.boundTo m = s.boundTo m := by
  unfold State.boundTo
  congr 1
  funext a
  rw [(hb a).1, (hb a).2]
  have hc := hc a
  cases hb : s.batch a with
  | none =>
    rw [hb] at hc
    cases hb' : t.batch a with
    | none => rfl
    | some b => rw [hb'] at hc; cases hc
  | some b =>
    rw [hb] at hc
    cases hb' : t.batch a with
    | none => rw [hb'] at hc; cases hc
    | some b' =>
      rw [hb'] at hc
      have : b'.snapshot = b.snapshot := Option.some.inj hc
      dsimp only
      rw [this]

theorem boundTo_modBatch (s : State) (a : ArmId) (f : Batch → Batch) (hf : ∀ b, (f b).snapshot = b.snapshot) (m : MeterId) :
    (s.modBatch a f).boundTo m = s.boundTo m := by
  refine boundTo_core (fun x => ?_) (fun x => ?_) m
  · rw [(s.modBatch_flowOnly a f).arm]; exact ⟨rfl, rfl⟩
  · rw [State.batch_modBatch]
    split
    · rename_i e; subst e; rw [Option.map_map]; congr 1; funext b; exact hf b
    · rfl

theorem produceTenth_credited (s : State) (m : MeterId) (a : ArmId) (role : Role) (h : s.boundTo m = some (a, role)) :
    Credited s (s.produceTenth m) m a role 1 := by
  generalize hs1 : s.modMeter m (fun x => { x with totalizer := min (2 ^ 48 - 1) (x.totalizer + 1) }) = s1
  have e1 : s1 = { s with meters := vset s.meters m { s.meter m with totalizer := min (2 ^ 48 - 1) ((s.meter m).totalizer + 1) } } := hs1 ▸ rfl
  have hb1 : s1.boundTo m = some (a, role) := by rw [e1]; exact h
  have hp : s.produceTenth m = s1.creditTenth a role := by
    unfold State.produceTenth
    dsimp only
    rw [hs1, hb1]
  rw [hp]
  have k := creditTenth_coreKept s1 a role
  have hk : (s1.creditTenth a role).boundTo m = s.boundTo m := by
    rw [k.boundTo m, boundTo_modBatch _ _ _ (fun b => by cases role <;> rfl), hb1, h]
  refine ⟨?_, ?_, ?_, hk, ?_, ?_⟩
  · rw [k.bays, e1]; rfl
  · rw [k.permits, e1]; rfl
  · intro f hf; exact k.flags f (by rw [e1]; exact hf)
  · rw [k.meters, e1]; rfl
  · intro y hy
    have hc := k.core a
    rw [State.batch_modBatch, if_pos rfl, show s1.batch a = some y from by rw [e1]; exact hy] at hc
    cases hz : (s1.creditTenth a role).batch a with
    | none => rw [hz] at hc; cases hc
    | some z =>
      rw [hz] at hc
      have hc : z.core = _ := Option.some.inj hc
      refine ⟨z, rfl, ?_, ?_, ?_, ?_, ?_⟩
      · exact (congrArg (fun x => x.2.2.2.1) hc)
      · refine (congrArg (fun x => x.2.2.2.2) hc).trans ?_
        cases role <;> rfl
      · refine (congrArg (fun x => x.1) hc).trans ?_; cases role <;> rfl
      · refine (congrArg (fun x => x.2.1) hc).trans ?_; cases role <;> rfl
      · refine (congrArg (fun x => x.2.2.1) hc).trans ?_; cases role <;> rfl

/-- Tenths produced on a bound meter (R109, R110). -/
theorem produceTenths_credited (n : Nat) (s : State) (m : MeterId) (a : ArmId) (role : Role) (h : s.boundTo m = some (a, role)) :
    Credited s (s.produceTenths m n) m a role n := by
  induction n generalizing s with
  | zero =>
    refine ⟨rfl, rfl, fun _ h => h, rfl, ?_, fun y hy => ⟨y, hy, rfl, by simp, rfl, rfl, rfl⟩⟩
    show s.meters = _
    unfold State.meter
    rw [if_pos rfl, show ({ vget s.meters m with totalizer := (vget s.meters m).totalizer } : Meter) = vget s.meters m from rfl, vset_vget_same]
  | succ n ih =>
    have k := produceTenth_credited s m a role h
    have l := ih (s.produceTenth m) (k.bound.trans h)
    show Credited s ((s.produceTenth m).produceTenths m n) m a role (n + 1)
    have hm : (s.produceTenth m).meter m = { s.meter m with totalizer := min (2 ^ 48 - 1) ((s.meter m).totalizer + 1) } := by
      unfold State.meter; rw [k.meters]; simp [State.meter]
    refine ⟨l.bays.trans k.bays, l.permits.trans k.permits, fun f hf => l.flags f (k.flags f hf), l.bound.trans k.bound, ?_, ?_⟩
    · rw [l.meters, hm, k.meters]
      rw [vset_vset]
      congr 1
      rw [if_neg (Nat.succ_ne_zero n)]
      by_cases hn : n = 0
      · subst hn; simp
      · simp only [hn, if_false]
        congr 1
        have := Nat.pos_of_ne_zero hn
        rw [Nat.min_def, Nat.min_def, Nat.min_def]; split <;> split <;> split <;> omega
    · intro y hy
      obtain ⟨z, e0, e1, e2, e3, e4, e5⟩ := k.core y hy
      obtain ⟨z', f0, f1, f2, f3, f4, f5⟩ := l.core z e0
      refine ⟨z', f0, by omega, ?_, f3.trans e3, f4.trans e4, f5.trans e5⟩
      rw [f2]; split <;> simp_all; omega

theorem meter_raise (s : State) (e : EventFlag) (m : MeterId) : (s.raise e).meter m = s.meter m := rfl

/-- `n` tenths on a meter bound to no batch. -/
structure Unauthorized (s t : State) (m : MeterId) (n : Nat) : Prop where
  eq : t = { s with meters := t.meters, flags := t.flags }
  flags : ∀ f ∈ s.flags, f ∈ t.flags
  others : ∀ y, y ≠ m → t.meter y = s.meter y
  meter : t.meter m = { s.meter m with
    totalizer := if n = 0 then (s.meter m).totalizer else min (2 ^ 48 - 1) ((s.meter m).totalizer + n)
    unauthorized := if n = 0 then (s.meter m).unauthorized else min 9999999 ((s.meter m).unauthorized + n)
    unauthorizedFlag := (t.meter m).unauthorizedFlag }
  kept : (s.meter m).unauthorizedFlag = true → (t.meter m).unauthorizedFlag = true
  flag : 0 < n → 50 < min 9999999 ((s.meter m).unauthorized + n) → (t.meter m).unauthorizedFlag = true ∧
    ((s.meter m).unauthorizedFlag = false → EventFlag.unauthFlow ∈ t.flags)
  unset : (s.meter m).unauthorizedFlag = false → (t.meter m).unauthorizedFlag = true → EventFlag.unauthFlow ∈ t.flags

theorem produceTenth_unauthorized (s : State) (m : MeterId) (h : s.boundTo m = none) : Unauthorized s (s.produceTenth m) m 1 := by
  generalize hs1 : s.modMeter m (fun x => { x with totalizer := min (2 ^ 48 - 1) (x.totalizer + 1) }) = s1
  have e1 : s1 = { s with meters := vset s.meters m { s.meter m with totalizer := min (2 ^ 48 - 1) ((s.meter m).totalizer + 1) } } := hs1 ▸ rfl
  have hm1 : s1.meter m = { s.meter m with totalizer := min (2 ^ 48 - 1) ((s.meter m).totalizer + 1) } := by rw [e1]; simp [State.meter]
  have hp : s.produceTenth m = s1.creditUnauthorized m := by
    unfold State.produceTenth
    dsimp only
    rw [hs1, show s1.boundTo m = none from by rw [e1]; exact h]
  rw [hp]
  unfold State.creditUnauthorized
  dsimp only
  have ho : ∀ y f, y ≠ m → (s1.modMeter m f).meter y = s.meter y := by
    intro y f hy; rw [State.meter_modMeter, if_neg hy, e1]; unfold State.meter; rw [vget_vset_ne _ _ hy]
  by_cases hv : 50 < min 9999999 ((s1.meter m).unauthorized + 1) ∧ (!(s1.meter m).unauthorizedFlag) = true
  · rw [if_pos hv]
    refine ⟨?_, ?_, ?_, ?_, ?_, ?_, ?_⟩
    · rw [e1]; rfl
    · intro f hf; exact (State.mem_flags_raise _ _ _).mpr (.inr (by rw [e1]; exact hf))
    · intro y hy; rw [meter_raise]; exact ho y _ hy
    · rw [meter_raise, State.meter_modMeter_same, hm1]; rfl
    · intro _; rw [meter_raise, State.meter_modMeter_same]
    · intro _ _
      refine ⟨?_, fun _ => (State.mem_flags_raise _ _ _).mpr (.inl rfl)⟩
      rw [meter_raise, State.meter_modMeter_same]
    · intro _ _; exact (State.mem_flags_raise _ _ _).mpr (.inl rfl)
  · rw [if_neg hv]
    have hmf : ((s1.modMeter m fun x => { x with unauthorized := min 9999999 ((s1.meter m).unauthorized + 1) }).meter m) =
        { s1.meter m with unauthorized := min 9999999 ((s1.meter m).unauthorized + 1) } := State.meter_modMeter_same _ _ _
    refine ⟨?_, ?_, ?_, ?_, ?_, ?_, ?_⟩
    · rw [e1]; rfl
    · intro f hf; rw [e1]; exact hf
    · intro y hy; exact ho y _ hy
    · rw [hmf, hm1]; rfl
    · intro hk; rw [hmf, hm1]; exact hk
    · intro _ h50
      have : (s.meter m).unauthorizedFlag = true := by
        rw [hm1] at hv
        cases e : (s.meter m).unauthorizedFlag with
        | true => rfl
        | false => exact absurd ⟨h50, by simp [e]⟩ hv
      refine ⟨by rw [hmf, hm1]; exact this, fun e => ?_⟩
      rw [this] at e; cases e
    · intro e1' e2'
      rw [hmf, hm1] at e2'
      rw [show (s.meter m).unauthorizedFlag = true from e2'] at e1'; cases e1'

/-- Tenths produced on a meter bound to no batch (R119). -/
theorem produceTenths_unauthorized (n : Nat) (s : State) (m : MeterId) (h : s.boundTo m = none) : Unauthorized s (s.produceTenths m n) m n := by
  induction n generalizing s with
  | zero => exact ⟨rfl, fun _ h => h, fun _ _ => rfl, rfl, id, fun h => absurd h (by omega), fun e f => by
      rw [show (s.meter m).unauthorizedFlag = true from f] at e; cases e⟩
  | succ n ih =>
    have k := produceTenth_unauthorized s m h
    have hb : (s.produceTenth m).boundTo m = none := by rw [k.eq]; exact h
    have l := ih (s.produceTenth m) hb
    show Unauthorized s ((s.produceTenth m).produceTenths m n) m (n + 1)
    generalize hu : s.produceTenth m = u at k l
    generalize u.produceTenths m n = t at l
    have hmu : (u.meter m).unauthorized = min 9999999 ((s.meter m).unauthorized + 1) := by rw [k.meter]; rfl
    refine ⟨?_, fun f hf => l.flags f (k.flags f hf), fun y hy => (l.others y hy).trans (k.others y hy), ?_, fun e => l.kept (k.kept e), ?_, ?_⟩
    · rw [l.eq, k.eq]
    · have e1 := l.meter
      have e2 := k.meter
      rw [if_neg (by omega), if_neg (by omega)]
      rw [if_neg (by omega), if_neg (by omega)] at e2
      rw [e1]
      have e3 : u.meter m = { s.meter m with
        totalizer := min (2 ^ 48 - 1) ((s.meter m).totalizer + 1)
        unauthorized := min 9999999 ((s.meter m).unauthorized + 1)
        unauthorizedFlag := (u.meter m).unauthorizedFlag } := e2
      have e4 : (u.meter m).totalizer = min (2 ^ 48 - 1) ((s.meter m).totalizer + 1) := by rw [e3]
      rw [e4, hmu]
      by_cases hn : n = 0
      · subst hn; simp only [if_true]; rw [e3]
      · rw [if_neg hn, if_neg hn]
        rw [show min (2 ^ 48 - 1) (min (2 ^ 48 - 1) ((s.meter m).totalizer + 1) + n) = min (2 ^ 48 - 1) ((s.meter m).totalizer + (n + 1)) from by omega]
        rw [show min 9999999 (min 9999999 ((s.meter m).unauthorized + 1) + n) = min 9999999 ((s.meter m).unauthorized + (n + 1)) from by omega]
        rw [e3]
    · intro _ h50
      have key : (t.meter m).unauthorizedFlag = true := by
        by_cases hn : n = 0
        · subst hn
          exact l.kept (k.flag (by omega) h50).1
        · refine (l.flag (by omega) ?_).1
          rw [hmu]; omega
      refine ⟨key, fun e => ?_⟩
      cases hf : (u.meter m).unauthorizedFlag with
      | true => exact l.flags _ (k.unset e hf)
      | false => exact l.unset hf key
    · intro e e'
      cases hf : (u.meter m).unauthorizedFlag with
      | true => exact l.flags _ (k.unset e hf)
      | false => exact l.unset hf e'

/-- The integrity check of a meter (R111). -/
structure Checked (s t : State) (m : MeterId) : Prop where
  bays : t.bays = s.bays
  permits : t.permits = s.permits
  flags : ∀ f ∈ s.flags, f ∈ t.flags
  others : ∀ y, y ≠ m → t.meter y = s.meter y
  same : t.meter m = { s.meter m with
    aCount := if (s.meter m).aCount < 1000 ∧ (s.meter m).bCount < 1000 then (s.meter m).aCount else 0
    bCount := if (s.meter m).aCount < 1000 ∧ (s.meter m).bCount < 1000 then (s.meter m).bCount else 0
    state := if (1000 ≤ (s.meter m).aCount ∨ 1000 ≤ (s.meter m).bCount) ∧ 10 < distance (s.meter m).aCount (s.meter m).bCount ∧ (s.meter m).state = .ok
      then .fault else (s.meter m).state }
  raised : (1000 ≤ (s.meter m).aCount ∨ 1000 ≤ (s.meter m).bCount) → 10 < distance (s.meter m).aCount (s.meter m).bCount → (s.meter m).state = .ok →
    EventFlag.meterFault ∈ t.flags
  unbound : s.boundTo m = none → t = { s with meters := t.meters, flags := t.flags }
  core : ∀ a, (t.batch a).map Batch.core = (s.batch a).map Batch.core

theorem checkIntegrity_checked (s : State) (m : MeterId) : Checked s (s.checkIntegrity m) m := by
  unfold State.checkIntegrity
  dsimp only
  have ho : ∀ (v : State) y f, y ≠ m → (v.modMeter m f).meter y = v.meter y := by
    intro v y f hy; rw [State.meter_modMeter, if_neg hy]
  by_cases h1 : (s.meter m).aCount < 1000 ∧ (s.meter m).bCount < 1000
  · rw [if_pos h1]
    refine ⟨rfl, rfl, fun _ h => h, fun _ _ => rfl, ?_, ?_, fun _ => rfl, fun _ => rfl⟩
    · rw [if_pos h1, if_pos h1, if_neg (by rintro ⟨e, -⟩; omega)]
    · intro e; omega
  · rw [if_neg h1]
    have h1' : 1000 ≤ (s.meter m).aCount ∨ 1000 ≤ (s.meter m).bCount := by omega
    by_cases h2 : 10 < distance (s.meter m).aCount (s.meter m).bCount ∧ (s.meter m).state = .ok
    · rw [if_pos h2]
      generalize hv : ((s.modMeter m fun x => { x with aCount := 0, bCount := 0 }).modMeter m fun x => { x with state := .fault }).raise .meterFault = v
      have hvm : v.meter m = { s.meter m with aCount := 0, bCount := 0, state := .fault } := by
        rw [← hv]; rw [meter_raise, State.meter_modMeter_same, State.meter_modMeter_same]
      have hvo : ∀ y, y ≠ m → v.meter y = s.meter y := by
        intro y hy; rw [← hv]; rw [meter_raise, ho _ _ _ hy, ho _ _ _ hy]
      have hvf : ∀ f ∈ s.flags, f ∈ v.flags := fun f hf => by rw [← hv]; exact (State.mem_flags_raise _ _ _).mpr (.inr hf)
      have hvr : EventFlag.meterFault ∈ v.flags := by rw [← hv]; exact (State.mem_flags_raise _ _ _).mpr (.inl rfl)
      have hvb : v.boundTo m = s.boundTo m := by rw [← hv]; rfl
      have hve : v = { s with meters := v.meters, flags := v.flags } := by rw [← hv]; rfl
      have hval : v.meter m = { s.meter m with
        aCount := if (s.meter m).aCount < 1000 ∧ (s.meter m).bCount < 1000 then (s.meter m).aCount else 0
        bCount := if (s.meter m).aCount < 1000 ∧ (s.meter m).bCount < 1000 then (s.meter m).bCount else 0
        state := if (1000 ≤ (s.meter m).aCount ∨ 1000 ≤ (s.meter m).bCount) ∧ 10 < distance (s.meter m).aCount (s.meter m).bCount ∧ (s.meter m).state = .ok
          then .fault else (s.meter m).state } := by
        rw [hvm, if_neg h1, if_neg h1, if_pos ⟨h1', h2⟩]
      split
      · rename_i a r hb
        have k := coreKept_handCauses v [a] .meter
        show Checked s (v.handCauses [a] .meter) m
        refine ⟨?_, ?_, fun f hf => k.flags f (hvf f hf), fun y hy => ?_, ?_, fun _ _ _ => k.flags _ hvr, fun hn => ?_, fun x => ?_⟩
        · rw [k.bays, hve]
        · rw [k.permits, hve]
        · unfold State.meter; rw [k.meters]; exact hvo y hy
        · unfold State.meter; rw [k.meters]; exact hval
        · rw [hvb, hn] at hb; cases hb
        · rw [k.core, hve]; rfl
      · exact ⟨by rw [hve], by rw [hve], hvf, hvo, hval, fun _ _ _ => hvr, fun _ => hve, fun x => by rw [hve]; rfl⟩
    · rw [if_neg h2]
      refine ⟨rfl, rfl, fun _ h => h, fun y hy => ho _ _ _ hy, ?_, fun _ e f => absurd ⟨e, f⟩ h2, fun _ => rfl, fun _ => rfl⟩
      rw [State.meter_modMeter_same, if_neg h1, if_neg h1, if_neg (fun e => h2 e.2)]

/-! ### Pulses -/

theorem restartTimers_coreKept (s : State) (m : MeterId) (isA : Bool) : CoreKept s (s.restartTimers m isA) := by
  unfold State.restartTimers
  split
  · refine coreKept_modBatch s _ _ fun b => ?_
    unfold Batch.restartNoFlow Batch.restartSettle
    repeat' split
    all_goals rfl
  · refine coreKept_modBatch s _ _ fun b => ?_
    unfold Batch.restartSettle
    repeat' split
    all_goals rfl
  · exact .refl s

theorem core_parts {y z : Batch} (h : z.core = y.core) : z.ref = y.ref ∧ z.target = y.target ∧ z.snapshot = y.snapshot ∧ z.gross = y.gross ∧ z.blendGross = y.blendGross := by
  unfold Batch.core at h; simp only [Prod.mk.injEq] at h; exact ⟨h.1, h.2.1, h.2.2.1, h.2.2.2.1, h.2.2.2.2⟩

theorem coreKept_some {s t : State} (h : ∀ a, (t.batch a).map Batch.core = (s.batch a).map Batch.core) {a : ArmId} {y : Batch} (hy : s.batch a = some y) : ∃ z, t.batch a = some z ∧ z.core = y.core := by
  have := h a
  rw [hy] at this
  cases hz : t.batch a with
  | none => rw [hz] at this; cases this
  | some z => rw [hz] at this; exact ⟨z, rfl, Option.some.inj this⟩

end Sys2Proof.Machine
end

