-- ==== Sys2Proof/Laws/Causes.lean ====
section
/-! SUPPORT. What a cause, a dosing flag, a move of an injector and a shot's credit do, each said once in the words of
Safety.lean: `HeldFrom`, `TakesCause`, `DoseFlagged`, `AdditiveRemoved`, `ShotCredited`; and what a start of shots and a
posting do, how shots end, and what the integrity check and a pulse's restarts do. -/

namespace Sys2Proof.Machine

set_option Elab.async false

/-! ### Expiries -/

@[simp] theorem State.expire_due (s : State) (act : State → State) : s.expire (some 0) act = act s := rfl

theorem State.expire_not (s : State) {t : Timer} (h : t ≠ some 0) (act : State → State) : s.expire t act = s := by
  unfold State.expire Timer.due
  rw [decide_eq_false h]; rfl

/-! ### Orders with one compartment changed -/

theorem State.compChanged_modComp (s : State) (r : CompRef) (f : Compartment → Compartment) :
    State.CompChanged s (s.modComp r f) r f := by
  intro k
  unfold State.modComp State.orderOf
  cases h : s.orderIn r.slot with
  | none =>
    simp only [Option.filter_none]
    by_cases hk : k = r.slot
    · subst hk; rw [h]; rfl
    · simp [hk]
  | some o =>
    simp only [Option.filter_some]
    by_cases hn : o.number = r.order
    · simp only [hn, decide_true, if_true]
      rw [State.orderIn_modOrder]
      by_cases hk : k = r.slot
      · subst hk
        rw [if_pos rfl, h]
        simp [hn, Order.modComp]
      · simp [hk]
    · simp only [hn, decide_false, Bool.false_eq_true, if_false]
      by_cases hk : k = r.slot
      · subst hk; rw [h]; simp [hn]
      · simp [hk]

theorem State.CompChanged.congr {s t u : State} {r : CompRef} {f : Compartment → Compartment} (h : State.CompChanged s t r f)
    (e : u.orders = t.orders) : State.CompChanged s u r f := fun k => by
  unfold State.orderIn; rw [e]; exact h k

/-- The order of a number is found where it was, with the compartment changed where it holds it. -/
theorem State.CompChanged.findOrder {s t : State} {r : CompRef} {f : Compartment → Compartment} (h : State.CompChanged s t r f)
    (n : Nat) : t.findOrder n = (s.findOrder n).map fun e => (e.1, if e.1 = r.slot ∧ e.2.number = r.order then
      { e.2 with comps := e.2.comps.map fun c => if c.number = r.comp then f c else c } else e.2) := by
  unfold State.findOrder
  induction allSlots with
  | nil => rfl
  | cons k l ih =>
    rw [List.findSome?_cons, List.findSome?_cons, h k]
    cases hk : s.orderIn k with
    | none => exact ih
    | some o =>
      dsimp only [Option.map_some]
      have : (if k = r.slot ∧ o.number = r.order then
          { o with comps := o.comps.map fun c => if c.number = r.comp then f c else c } else o).number = o.number := by
        split <;> rfl
      rw [this]
      by_cases hn : o.number = n
      · rw [if_pos hn, if_pos hn]; rfl
      · rw [if_neg hn, if_neg hn]; exact ih

theorem State.doseFlag_flagged (s : State) (r : CompRef) (i : InjectorId) (f : ResultFlag) :
    State.DoseFlagged s (s.doseFlag r i f) r i f := by
  unfold State.doseFlag State.creditable
  cases ho : s.orderOf r with
  | none =>
    refine ⟨rfl, fun k => ?_⟩
    simp only [Option.any_none, Bool.false_eq_true, if_false]
    cases hk : s.orderIn k with
    | none => rfl
    | some o =>
      simp only [Option.map_some]
      rw [if_neg]
      rintro ⟨rfl, hn, -⟩
      rw [State.orderOf, hk] at ho
      simp [hn] at ho
  | some o =>
    have hi : s.orderIn r.slot = some o ∧ o.number = r.order := by
      unfold State.orderOf at ho
      rw [Option.filter_eq_some_iff] at ho
      simpa using ho
    by_cases ha : o.isActive
    · simp only [Option.any_some, ha, if_true]
      refine ⟨State.modComp_eq _ _ _, fun k => ?_⟩
      rw [State.compChanged_modComp s r _ k]
      cases hk : s.orderIn k with
      | none => rfl
      | some p =>
        simp only [Option.map_some]
        by_cases hkr : k = r.slot
        · subst hkr
          rw [hi.1] at hk; cases hk
          simp [hi.2, ha, Compartment.modResult, AdditiveResult.addFlag]
        · simp [hkr]
    · simp only [Option.any_some, ha, Bool.false_eq_true, if_false]
      refine ⟨rfl, fun k => ?_⟩
      cases hk : s.orderIn k with
      | none => rfl
      | some p =>
        simp only [Option.map_some]
        rw [if_neg]
        rintro ⟨rfl, hn, hp⟩
        rw [hi.1] at hk; cases hk
        exact ha hp

/-! ### Causes -/

/-- After an event by which one arm left one drawing set, the others respond (R97, R98). -/
theorem State.settleHeaders_others (before after : State) (a : ArmId) (k : HeaderId)
    (h : ∀ j, (after.header j).drawing = if j = k then dropFrom a (before.header j).drawing else (before.header j).drawing)
    (hx : ∀ x, x ≠ a → after.arm x = before.arm x) : State.OthersRespond before (before.settleHeaders after) k a := by
  intro x hxa
  have hm : x ∈ (after.header k).drawing ↔ x ∈ (before.header k).drawing := by rw [h k, if_pos rfl]; simp [hxa]
  have hb : after.batch x = before.batch x := by unfold State.batch; rw [hx x hxa]
  by_cases ha : a ∈ (before.header k).drawing
  · refine ⟨fun _ => ?_, fun c => absurd ha c⟩
    have hk : (after.header k).drawing ≠ (before.header k).drawing := by
      rw [h k, if_pos rfl]; exact dropFrom_ne_self ha
    rw [State.settleHeaders_one _ _ k (fun j hj => by rw [h j, if_neg hj]) hk]
    unfold State.CeilingResponse
    rw [State.batch_computeCeilings, if_congr hm rfl rfl, hb, hx x hxa]
    have e := after.computeCeilings_eased k
    have : (after.computeCeilings k).ceilingOf k x = after.ceilingOf k x := by
      unfold State.ceilingOf
      rw [e.arm, show (after.computeCeilings k).header k = after.header k by rw [e.eq]; rfl]
    rw [this]
  · refine ⟨fun c => absurd c ha, fun _ => ?_⟩
    have : before.settleHeaders after = after := State.settleHeaders_same _ _ fun j => by
      rw [h j]; split
      · rename_i e; subst e; exact dropFrom_eq_self ha
      · rfl
    rw [this, hb]

/-- An arm that draws from no header after an event is as the event left it. -/
theorem State.settleHeaders_away (before after : State) (a : ArmId) (h : ∀ j, a ∉ (after.header j).drawing) :
    (before.settleHeaders after).arm a = after.arm a := by
  unfold State.settleHeaders
  suffices ∀ (l : List HeaderId) (u : State), u.arm a = after.arm a → u.headers = after.headers →
      (l.foldl (fun acc h => if (before.header h).drawing = (after.header h).drawing then acc else acc.computeCeilings h) u).arm a
        = after.arm a from this _ _ rfl rfl
  intro l
  induction l with
  | nil => intro u hu _; exact hu
  | cons k l ih =>
    intro u hu hh
    rw [List.foldl_cons]
    split
    · exact ih u hu hh
    · refine ih _ ?_ (by rw [State.computeCeilings_eq]; exact hh)
      rw [State.arm_computeCeilings, if_neg]
      · exact hu
      · unfold State.header; rw [hh]; exact h k

/-- An arm that draws from no header changed by an event is as the event left it. -/
theorem State.settleHeaders_outside (before after : State) (a : ArmId) (l : List HeaderId) (u : State)
    (hu : u.headers = after.headers)
    (h : ∀ k ∈ l, a ∈ (after.header k).drawing → (after.header k).drawing = (before.header k).drawing) :
    (l.foldl (fun acc k => if (before.header k).drawing = (after.header k).drawing then acc else acc.computeCeilings k) u).arm a
      = u.arm a := by
  induction l generalizing u with
  | nil => rfl
  | cons k l ih =>
    rw [List.foldl_cons]
    have tail : ∀ j ∈ l, a ∈ (after.header j).drawing → (after.header j).drawing = (before.header j).drawing :=
      fun j m => h j (List.mem_cons_of_mem k m)
    split
    · exact ih u hu tail
    · rename_i hk
      rw [ih _ (by rw [State.computeCeilings_eq]; exact hu) tail, State.arm_computeCeilings, if_neg]
      intro m
      unfold State.header at m; rw [hu] at m
      exact hk (h k (by simp) m).symm

/-- An arm that an event has not reached responds once where the event has changed its drawing set, and else keeps its
batch (R97, R98, log entry 11). -/
theorem State.settleHeaders_respondsOnce (before after : State) (a : ArmId) (ha : after.arm a = before.arm a) :
    before.RespondsOnce (before.settleHeaders after) a := by
  have eased := State.settleHeaders_eased before after
  have hh : ∀ k, (before.settleHeaders after).header k = after.header k := fun k => by rw [eased.eq]; rfl
  refine ⟨fun h => ?_, fun k hm hne hu => ?_⟩
  · unfold State.batch
    rw [← ha]
    refine congrArg Arm.batch (State.settleHeaders_outside before after a allHeaders after rfl fun k _ m => ?_)
    have := h k (by rw [hh]; exact m)
    rwa [hh] at this
  · rw [hh] at hm hne
    have away : ∀ j, j ≠ k → a ∉ (after.header j).drawing := fun j hj => by rw [← hh]; exact hu j hj
    have c : (before.settleHeaders after).ceilingOf k a = after.ceilingOf k a := by
      unfold State.ceilingOf; rw [hh, eased.arm]
    rw [c]
    obtain ⟨l₁, l₂, e⟩ := List.append_of_mem (show k ∈ allHeaders from List.mem_finRange k)
    have nd : allHeaders.Nodup := List.nodup_finRange 4
    rw [e] at nd
    have n1 : k ∉ l₁ := fun m => (List.nodup_append.mp nd).2.2 _ m _ (by simp) rfl
    have n2 : k ∉ l₂ := (List.nodup_cons.mp (List.nodup_append.mp nd).2.1).1
    unfold State.settleHeaders State.batch
    rw [e, List.foldl_append, List.foldl_cons, if_neg (fun c => hne c.symm)]
    have keep : (l₁.foldl (fun acc h => if (before.header h).drawing = (after.header h).drawing then acc
        else acc.computeCeilings h) after).headers = after.headers := by
      suffices ∀ (l : List HeaderId) (u : State), u.headers = after.headers → (l.foldl (fun acc h =>
          if (before.header h).drawing = (after.header h).drawing then acc else acc.computeCeilings h) u).headers
          = after.headers from this _ _ rfl
      intro l
      induction l with
      | nil => intro u hu; exact hu
      | cons j l ih =>
        intro u hu; rw [List.foldl_cons]; apply ih; split
        · exact hu
        · rw [State.computeCeilings_eq]; exact hu
    have first := State.settleHeaders_outside before after a l₁ after rfl
      fun j m d => absurd d (away j (fun q => n1 (q ▸ m)))
    rw [State.settleHeaders_outside before after a l₂ _ (by rw [State.computeCeilings_eq]; exact keep)
      fun j m d => absurd d (away j (fun q => n2 (q ▸ m)))]
    rw [State.arm_computeCeilings]
    unfold State.header State.ceilingOf State.batch State.header at *
    rw [keep, first, if_pos hm, ha]

/-- What an event does before and behind the part that settles does not reach the arm. -/
theorem State.RespondsOnce.congr {s u t v : State} {a : ArmId} (h : u.RespondsOnce t a) (hs : s.arm a = u.arm a)
    (hh : s.headers = u.headers) (ht : v.arm a = t.arm a) (hv : v.headers = t.headers) : s.RespondsOnce v a := by
  have c : ∀ k, v.ceilingOf k a = t.ceilingOf k a := fun k => by unfold State.ceilingOf State.header; rw [ht, hv]
  unfold State.RespondsOnce State.batch State.header at h ⊢
  rw [hs, hh, ht, hv]
  simp only [c]
  exact h

/-- An event that reaches neither the arm nor any drawing set. -/
theorem State.respondsOnce_same {s t : State} {a : ArmId} (ha : t.arm a = s.arm a) (hh : t.headers = s.headers) :
    s.RespondsOnce t a := by
  refine ⟨fun _ => by unfold State.batch; rw [ha], fun k _ hne _ => absurd ?_ hne⟩
  unfold State.header; rw [hh]

/-- An arm out of reach of a cause (R97, R98). -/
theorem State.handCauses_respondsOnce (s : State) (l : List ArmId) (c : HoldCause) (a : ArmId) (ha : a ∉ l) :
    s.RespondsOnce (s.handCauses l c) a := by
  refine State.settleHeaders_respondsOnce s _ a ?_
  show (s.handCausesRaw l c).arm a = _
  induction l generalizing s with
  | nil => rfl
  | cons x l ih =>
    simp only [List.mem_cons, not_or] at ha
    show ((s.handCauseRaw x c).handCausesRaw l c).arm a = _
    rw [ih _ ha.2, (s.handCauseRaw_flowOnly x c).arm a, State.batch_handCauseRaw, if_neg ha.1]; rfl

/-- An arm out of reach of the entries to CLOSING of others (R97, R98). -/
theorem State.enterClosings_respondsOnce (s : State) (l : List ArmId) (kind : CloseKind) (a : ArmId) (ha : a ∉ l) :
    s.RespondsOnce (s.enterClosings l kind) a := by
  refine State.settleHeaders_respondsOnce s _ a ?_
  induction l generalizing s with
  | nil => rfl
  | cons x l ih =>
    simp only [List.mem_cons, not_or] at ha
    rw [List.foldl_cons, ih _ ha.2, (s.enterClosingRaw_flowOnly x kind).arm a, State.batch_enterClosingRaw, if_neg ha.1]; rfl

/-- A cause handed to several batches in an event, where drawing sets are exact (R99, R100). -/
theorem State.handCauses_exact (s : State) (l : List ArmId) (c : HoldCause) (nd : l.Nodup) (d : s.DrawingExact) {a : ArmId}
    {b : Batch} (ha : a ∈ l) (hb : s.batch a = some b) : (s.handCauses l c).batch a = some (b.given c) := by
  have hk : Keeps s (s.handCausesRaw l c) := Keeps.foldl (fun u x => u.handCauseRaw x c) (fun u x => (Keeps.refl u).handCauseRaw x c)
    (Keeps.refl s) l
  have h := State.batch_handCausesRaw l s c nd a
  rw [if_pos ha, hb, Option.map_some] at h
  have hnf : (b.given c).state.flowing = false := by
    unfold Batch.given
    cases hs : b.state <;> simp [BatchState.flowing, hs]
  have : (s.handCauses l c).arm a = (s.handCausesRaw l c).arm a :=
    State.settleHeaders_away _ _ a fun j => (hk.drawing d).not_drawing h hnf j
  unfold State.batch at h ⊢
  rw [this, h]

/-- A cause handed to a flowing batch holds it, and does nothing else (R99, R136). -/
theorem State.handCause_heldFrom (s : State) (a : ArmId) (b : Batch) (c : HoldCause) (hb : s.batch a = some b)
    (hf : b.state.flowing = true) : (s.handCause a c).HeldFrom s a b c := by
  have k := State.handCause_held s a b c hb hf
  have hraw : s.handCauseRaw a c = s.enterHeldRaw a b c := by
    unfold State.handCauseRaw; rw [hb]; dsimp only
    cases hs : b.state <;> simp_all [BatchState.flowing]
  have ht : s.handCause a c = s.settleHeaders (s.enterHeldRaw a b c) := by rw [← hraw]; rfl
  have e := State.settleHeaders_eased s (s.enterHeldRaw a b c)
  have hh : ∀ j, (s.enterHeldRaw a b c).header j = if j = b.snapshot.mainHeader
      then { s.header j with drawing := dropFrom a (s.header j).drawing } else s.header j := by
    intro j
    simp only [State.enterHeldRaw, State.header_raise, State.header_removeQueueEntries, State.leaveRaw, State.header_modBatch,
      State.header_modHeader, State.header_modComp]
    split
    · rename_i e; subst e; rfl
    · rfl
  have hA : ∀ x, x ≠ a → (s.enterHeldRaw a b c).arm x = s.arm x := by
    intro x hx
    rw [(State.enterHeldRaw_flowOnly s a b c).arm x, State.batch_enterHeldRaw, if_neg hx]; rfl
  have hhe : ∀ j, (s.handCause a c).header j = (s.enterHeldRaw a b c).header j := by intro j; rw [ht, e.eq]; rfl
  refine ⟨k.batch, ?_, k.drawing, ?_, ?_, k.flags, ?_, ?_, State.handCause_eq s [a] c⟩
  · refine (State.compChanged_modComp s b.ref _).congr ?_
    rw [ht, e.eq]; exact enterHeldRaw_orders s a b c
  · rw [ht]
    exact State.settleHeaders_others s _ a _ (fun j => by rw [hh]; split <;> rfl) hA
  · intro i
    rw [ht, e.eq]
    show (s.enterHeldRaw a b c).injector i = _
    unfold State.injector
    rw [enterHeldRaw_injectors]
    simp [State.removeQueueEntries]
  · intro x; rw [ht, e.arm, (State.enterHeldRaw_flowOnly s a b c).arm x]
  · intro h; rw [hhe, hh]; split <;> rfl

/-- A cause that is no external trip (R99, R100). -/
theorem State.handCause_takes (s : State) (a : ArmId) (c : HoldCause) (hc : c.isTrip = false) :
    State.TakesCause s (s.handCause a c) a c := by
  refine ⟨fun hb => ?_, fun b hb => ⟨fun hs => ?_, State.handCause_adds s a b c hb, State.handCause_heldFrom s a b c hb⟩⟩
  · show s.settleHeaders (s.handCauseRaw a c) = s
    have : s.handCauseRaw a c = s := by unfold State.handCauseRaw; rw [hb]
    rw [this]; exact State.settleHeaders_same _ _ fun _ => rfl
  · show s.settleHeaders (s.handCauseRaw a c) = s
    have : s.handCauseRaw a c = s := by unfold State.handCauseRaw; rw [hb]; dsimp only; rw [hs]; dsimp only; rw [hc]; rfl
    rw [this]; exact State.settleHeaders_same _ _ fun _ => rfl

/-- After an entry to CLOSING the other arms respond (R92, R97, R98). -/
theorem State.enterClosing_others (s : State) (a : ArmId) (b : Batch) (kind : CloseKind) (hb : s.batch a = some b) :
    State.OthersRespond s (s.enterClosing a kind) b.snapshot.mainHeader a :=
  State.settleHeaders_others s (s.enterClosingRaw a kind) a b.snapshot.mainHeader
    (fun j => by rw [State.header_enterClosingRaw s a kind hb]; split <;> rfl)
    (fun x hx => by
      rw [(State.enterClosingRaw_flowOnly s a kind).arm x, State.batch_enterClosingRaw, if_neg hx]; rfl)

/-- A response is the same from a state before in which the arm and the drawing set are the same. -/
theorem State.CeilingResponse.before {s u t : State} {h : HeaderId} {a : ArmId} (k : State.CeilingResponse u t h a)
    (hh : (u.header h).drawing = (s.header h).drawing) (ha : u.arm a = s.arm a) : State.CeilingResponse s t h a := by
  unfold State.CeilingResponse State.batch at k ⊢
  rw [hh, ha] at k
  exact k

theorem State.OthersRespond.before {s u t : State} {h : HeaderId} {a : ArmId} (k : State.OthersRespond u t h a)
    (hh : (u.header h).drawing = (s.header h).drawing) (ha : ∀ c, c ≠ a → u.arm c = s.arm c) :
    State.OthersRespond s t h a := fun c hc =>
  ⟨fun m => ((k c hc).1 (hh ▸ m)).before hh (ha c hc), fun m => by
    rw [(k c hc).2 (hh ▸ m)]; unfold State.batch; rw [ha c hc]⟩

/-- A property of the compartment a reference names that a change keeps. -/
theorem State.modComp_still {P : Compartment → Prop} (s : State) (r q : CompRef) (f : Compartment → Compartment)
    (hf : ∀ c, (f c).number = c.number) (hP : ∀ c, P c → P (f c))
    (h : ∃ o c, s.orderOf q = some o ∧ o.comp q.comp = some c ∧ P c) :
    ∃ o c, (s.modComp r f).orderOf q = some o ∧ o.comp q.comp = some c ∧ P c := by
  obtain ⟨o, c, ho, hc, hp⟩ := h
  rw [State.orderOf_modComp]
  split
  · refine ⟨o.modComp r.comp f, if q.comp = r.comp then f c else c, by rw [ho]; rfl, ?_, ?_⟩
    · rw [Order.comp_modComp _ _ _ _ hf, hc]; split <;> rfl
    · split
      · exact hP c hp
      · exact hp
  · exact ⟨o, c, ho, hc, hp⟩

/-- What a cause does to the compartments keeps the flags they have. -/
theorem State.handCauseRaw_still {P : Compartment → Prop} (s : State) (a : ArmId) (c : HoldCause) (q : CompRef)
    (h1 : ∀ x, P x → P { x with state := .held }) (h2 : ∀ x, P x → P (x.addFlag .closedUnderTrip))
    (h : ∃ o x, s.orderOf q = some o ∧ o.comp q.comp = some x ∧ P x) :
    ∃ o x, (s.handCauseRaw a c).orderOf q = some o ∧ o.comp q.comp = some x ∧ P x := by
  have held : ∀ b, ∃ o x, (s.enterHeldRaw a b c).orderOf q = some o ∧ o.comp q.comp = some x ∧ P x := by
    intro b
    rw [orderOf_congr (enterHeldRaw_orders s a b c)]
    exact State.modComp_still s _ q _ (fun _ => rfl) h1 h
  unfold State.handCauseRaw
  split
  · exact h
  · split
    · rw [orderOf_congr (State.modBatch_orders _ _ _)]; exact h
    · split
      · exact State.modComp_still s _ q _ (fun _ => rfl) h2 h
      · exact h
    all_goals exact held _

/-- What a cause handed to one batch brings about, the same cause handed to several brings about where no other batch of
them undoes it. -/
theorem State.handCausesRaw_of {P Q : State → Prop} (l : List ArmId) (s : State) (c : HoldCause) {a : ArmId} {b : Batch}
    (ha : a ∈ l) (hb : s.batch a = some b) (hq : Q s) (keep : ∀ u x, Q u → Q (u.handCauseRaw x c))
    (now : ∀ u, u.batch a = some b → Q u → P (u.handCauseRaw a c)) (later : ∀ u x, P u → P (u.handCauseRaw x c)) :
    P (s.handCausesRaw l c) := by
  induction l generalizing s with
  | nil => cases ha
  | cons x l ih =>
    by_cases hx : a = x
    · subst hx
      have all : ∀ (l : List ArmId) (u : State), P u → P (u.handCausesRaw l c) := by
        intro l
        induction l with
        | nil => exact fun _ k => k
        | cons y l ih => exact fun u k => ih _ (later u y k)
      exact all l _ (now s hb hq)
    · refine ih _ ((List.mem_cons.mp ha).resolve_left hx) ?_ (keep s x hq)
      rw [State.batch_handCauseRaw, if_neg hx]; exact hb

/-- A trip handed to several batches marks the compartment of each that is in CLOSING (R100). -/
theorem State.handCauses_marks (s : State) (l : List ArmId) (c : HoldCause) (hc : c.isTrip = true) {a : ArmId} {b : Batch}
    (ha : a ∈ l) (hb : s.batch a = some b) (hs : b.state = .closing)
    (h : ∃ o x, s.orderOf b.ref = some o ∧ o.comp b.ref.comp = some x) : ∃ o x, (s.handCauses l c).orderOf b.ref = some o ∧
    o.comp b.ref.comp = some x ∧ CompFlag.closedUnderTrip ∈ x.flags := by
  have e := s.handCauses_eased l c
  rw [orderOf_congr (u := s.handCauses l c) (v := s.handCausesRaw l c) (by rw [e.eq])]
  obtain ⟨o, x, ho, hx⟩ := h
  refine State.handCausesRaw_of (Q := fun u => ∃ o k, u.orderOf b.ref = some o ∧ o.comp b.ref.comp = some k ∧ True)
    (P := fun u => ∃ o k, u.orderOf b.ref = some o ∧ o.comp b.ref.comp = some k ∧ CompFlag.closedUnderTrip ∈ k.flags) l s c
    ha hb ⟨o, x, ho, hx, trivial⟩ (fun u x => State.handCauseRaw_still u x c b.ref (fun _ k => k) (fun _ k => k))
    (fun u hu ⟨o, k, ho, hk, _⟩ => ?_) fun u x => State.handCauseRaw_still u x c b.ref (fun _ k => k)
      (fun _ k => (mem_addTo (show CompFlag.closedUnderTrip ∈ CompFlag.all by decide)).mpr (.inr k))
  rw [show u.handCauseRaw a c = u.modComp b.ref fun x => x.addFlag .closedUnderTrip by
    unfold State.handCauseRaw; rw [hu]; dsimp only; rw [hs]; dsimp only; rw [if_pos hc]]
  have m := State.modComp_at u b.ref (fun x => x.addFlag .closedUnderTrip) (fun _ => rfl) ho hk
  exact ⟨_, _, m.1, m.2, (mem_addTo (by decide)).mpr (.inl rfl)⟩

/-- The condition causes are all but NO_FLOW, BLEND and HOST (Table 5-6). -/
theorem HoldCause.isCondition_eq_true {c : HoldCause} : c.isCondition = true ↔ c ≠ .noFlow ∧ c ≠ .blend ∧ c ≠ .host := by
  cases c <;> simp [HoldCause.isCondition]

theorem HoldCause.isCondition_eq_false {c : HoldCause} : c.isCondition = false ↔ c = .noFlow ∨ c = .blend ∨ c = .host := by
  cases c <;> simp [HoldCause.isCondition]

/-- A cause that a resume leaves in the hold set: it is latching, or its condition, as Table 5-6 words it, does not
hold. -/
theorem State.standing_eq (s : State) (a : ArmId) (b : Batch) (hb : s.batch a = some b) (cause : HoldCause) :
    (!(cause.isCondition && s.conditionHolds a b cause)) = !(match cause with
      | .permissive => (s.arm a).bay.any fun y => (s.session y).bond.present && (s.session y).overfill.present
      | .esd => !s.esd.active
      | .armDisconnected => (s.arm a).connected
      | .terminalLost => (s.arm a).bay.any fun y => decide ((s.session y).terminal = .present)
      | .meter => ((s.arm a).mainMeter.toList ++ if b.snapshot.blend.isSome then (s.arm a).blendMeter.toList else []).all
          fun m => decide ((s.meter m).state = .ok)
      | .additive => b.snapshot.entries.all fun e => decide (e.entry.requirement = .optional) ||
          (decide ((s.injector e.entry.injector).service = .inService) &&
            (decide ((s.injector e.entry.injector).state = .idle) || decide ((s.injector e.entry.injector).state = .shot)))
      | .noFlow => false
      | .blend => false
      | .host => false) := by
  cases cause with
  | meter => simp only [HoldCause.isCondition, State.conditionHolds, State.boundMeters, hb, Bool.true_and]
  | additive =>
    simp only [HoldCause.isCondition, State.conditionHolds, State.requiredAvailable, Injector.available, Bool.true_and,
      Bool.decide_and, Bool.decide_or]
  | _ => rfl

/-! ### Moves of an injector's state -/

/-- A change of an injector's state or service, handed on (R101, R123). -/
theorem State.injectorChanged_removed (u : State) (i : InjectorId) : State.AdditiveRemoved u (u.injectorChanged i) i := by
  unfold State.injectorChanged
  refine ⟨State.removeCauses_eq _ _ _, fun a => ?_⟩
  rw [State.arm_removeCauses _ _ _ (show (allArms.filter _).Nodup from (List.nodup_finRange 12).filter _)]
  cases hb : u.batch a with
  | none =>
    rw [if_neg (by simp [hb])]
    exact (by rw [← show (u.arm a).batch = none from hb] : u.arm a = { u.arm a with batch := none })
  | some b =>
    by_cases hr : b.snapshot.requires i = true
    · rw [if_pos (by simp [hb, hr, mem_allArms])]
      simp only [Option.map_some, Batch.without, State.conditionHolds, hr, eq_self, true_and]
      congr
    · rw [if_neg (by simp [hb, hr])]
      simp only [hr, Option.map_some, Bool.false_eq_true, false_and, and_false, if_false]
      rw [← hb]; rfl

/-- A move of an injector to another state, handed on (R101, R123). -/
theorem State.setInjectorState_removed (s : State) (i : InjectorId) (st : InjectorState) (h : (s.injector i).state ≠ st) :
    State.AdditiveRemoved { s with injectors := vset s.injectors i { s.injector i with state := st } }
      (s.setInjectorState i st) i := by
  unfold State.setInjectorState
  rw [if_neg h]
  exact State.injectorChanged_removed (s.modInjector i fun x => { x with state := st }) i

/-! ### Starts of shots -/

theorem Injector.reservation_setOther (i : Injector) (r q : CompRef) (n : Nat) (h : q ≠ r) :
    (i.setReservation r n).reservation q = i.reservation q := by
  unfold Injector.setReservation
  split
  · unfold Injector.reservation
    dsimp only
    have : (i.reservations.map fun x => if x.ref = r then { x with amount := n } else x).find? (fun x => decide (x.ref = q))
        = i.reservations.find? fun x => decide (x.ref = q) := by
      induction i.reservations with
      | nil => rfl
      | cons x l ih =>
        rw [List.map_cons, List.find?_cons, List.find?_cons, ih]
        by_cases hx : x.ref = r
        · have : x.ref ≠ q := fun e => h (e.symm.trans hx)
          simp [hx, h.symm]
        · rw [if_neg hx]
    rw [this]
  · unfold Injector.reservation
    simp [List.find?_append, h.symm]

theorem sum_setReservation (l : List Reservation) (r : CompRef) (n : Nat) (nd : (l.map (·.ref)).Nodup) {x : Reservation}
    (hx : l.find? (fun x => decide (x.ref = r)) = some x) (hn : x.amount ≤ n) :
    ((l.map fun x => if x.ref = r then { x with amount := n } else x).map (·.amount)).sum
      = (l.map (·.amount)).sum + (n - x.amount) := by
  induction l with
  | nil => simp at hx
  | cons y l ih =>
    rw [List.map_cons, List.nodup_cons] at nd
    simp only [List.map_cons, List.sum_cons]
    by_cases hy : y.ref = r
    · simp only [List.find?_cons, hy, decide_true, Option.some.injEq] at hx
      subst hx
      have : (l.map fun x => if x.ref = r then { x with amount := n } else x) = l := by
        conv => rhs; rw [← List.map_id l]
        apply List.map_congr_left
        intro z hz
        rw [if_neg]; rfl
        rintro e
        exact nd.1 (List.mem_map.mpr ⟨z, hz, e.trans hy.symm⟩)
      rw [this, if_pos hy]
      dsimp only
      omega
    · simp only [List.find?_cons, hy, decide_false] at hx
      rw [if_neg hy, ih nd.2 hx]; omega

theorem Injector.reservation_topUp {i j : Injector} {r : CompRef} (h : i.topUp r = some j) :
    j = { i with reservations := j.reservations } ∧
    (∀ q, j.reservation q = if q = r then max (i.reservation r) i.shotVolume else i.reservation q) ∧
    (i.shotVolume ≤ i.reservation r → j.reservations = i.reservations) ∧
    ((i.reservations.map (·.ref)).Nodup → (j.reservations.map (·.amount)).sum
      = (i.reservations.map (·.amount)).sum + (i.shotVolume - i.reservation r)) := by
  unfold Injector.topUp at h
  dsimp only at h
  split at h
  · rename_i hv
    cases h
    refine ⟨rfl, fun q => ?_, fun _ => rfl, fun _ => by omega⟩
    split
    · rename_i e; subst e; omega
    · rfl
  · rename_i hv
    split at h
    · cases h
      refine ⟨setReservation_rest _ _ _, fun q => ?_, fun c => absurd c hv, fun nd => ?_⟩
      · split
        · rename_i e; subst e; rw [reservation_set]; omega
        · rename_i e; exact Injector.reservation_setOther _ _ _ _ e
      · unfold Injector.setReservation
        split
        · rename_i ha
          cases hf : i.reservations.find? (fun x => decide (x.ref = r)) with
          | none =>
            rw [List.find?_eq_none] at hf
            rw [List.any_eq_true] at ha
            obtain ⟨x, hx, hr⟩ := ha
            exact absurd hr (hf x hx)
          | some x =>
            have hres : i.reservation r = x.amount := by unfold Injector.reservation; rw [hf]
            rw [hres] at hv ⊢
            exact sum_setReservation _ _ _ nd hf (by omega)
        · rename_i ha
          have hf : i.reservations.find? (fun x => decide (x.ref = r)) = none := by
            rw [List.find?_eq_none]; intro x hx hr; exact ha (List.any_eq_true.mpr ⟨x, hx, hr⟩)
          have hres : i.reservation r = 0 := by unfold Injector.reservation; rw [hf]
          rw [hres]
          simp
    · cases h

theorem State.injectors_setInjectorState (s : State) (i : InjectorId) (st : InjectorState) :
    (s.setInjectorState i st).injectors = (s.modInjector i fun x => { x with state := st }).injectors := by
  unfold State.setInjectorState
  dsimp only
  split
  · rfl
  · unfold State.injectorChanged; rw [State.removeCauses_eq]

/-- An entry that cannot be dosed changes no injector but for queue entries and shots (R127, R129, R136). -/
theorem State.cannotDose_injector (s : State) (j : InjectorId) (a : ArmId) (r : CompRef) (q : Requirement) (i : InjectorId) :
    ∃ queue shot, (s.cannotDose j a r q).injector i = { s.injector i with queue := queue, shot := shot } ∧
      queue.length ≤ (s.injector i).queue.length := by
  unfold State.cannotDose
  cases q with
  | optional =>
    exact ⟨_, (s.injector i).shot, by rw [(State.doseFlag_flagged s r j .underdosed).1]; rfl, Nat.le_refl _⟩
  | required =>
    dsimp only
    have k := State.handCause_takes s a .additive rfl
    cases hb : s.batch a with
    | none => exact ⟨_, _, by rw [k.1 hb], Nat.le_refl _⟩
    | some b =>
      have kb := k.2 b hb
      by_cases hf : b.state.flowing = true
      · exact ⟨_, _, (kb.2.2 hf).injectors i, List.length_filter_le _ _⟩
      · by_cases hc : b.state = .closing
        · exact ⟨_, _, by rw [kb.1 hc], Nat.le_refl _⟩
        · have hh : b.state = .held := by cases hs : b.state <;> simp_all [BatchState.flowing]
          exact ⟨_, _, by rw [kb.2.1 hh]; rfl, Nat.le_refl _⟩

/-- Fuel above the length of the queue suffices. -/
theorem State.startShots_fuel (n : Nat) (s : State) (i : InjectorId) (k : Nat) (hn : (s.injector i).queue.length < n)
    (hk : (s.injector i).queue.length < k) : s.startShots i n = s.startShots i k := by
  induction n generalizing s k with
  | zero => omega
  | succ n ih =>
    cases k with
    | zero => omega
    | succ k =>
      unfold State.startShots
      dsimp only
      split
      · rfl
      · split
        · rfl
        · rename_i e rest hq
          split
          · rfl
          · generalize hu : s.modInjector i (fun x => { x with queue := rest }) = u
            have hui : (u.injector i).queue = rest := by rw [← hu]; simp
            obtain ⟨queue, shot, he, hl⟩ := State.cannotDose_injector u i e.arm e.ref (s.requirementOf e.arm e.index) i
            rw [hq, List.length_cons] at hn hk
            rw [hui] at hl
            exact ih _ k (by rw [he]; dsimp only; omega) (by rw [he]; dsimp only; omega)

/-- The head of an IDLE injector's queue goes ahead (R128, R129). -/
theorem State.nextShot_starts (s : State) (i : InjectorId) (e : QueueEntry) (rest : List QueueEntry) (x' : Injector)
    (hesd : s.esd.active = false) (hidle : (s.injector i).state = .idle) (hq : (s.injector i).queue = e :: rest)
    (ht : (s.injector i).topUp e.ref = some x') :
    s.nextShot i = (s.modInjector i fun _ => x'.serve e rest).setInjectorState i .shot := by
  unfold State.nextShot
  rw [hq]
  unfold State.startShots
  dsimp only
  rw [if_neg (by simp [hesd, hidle])]
  simp only [hq, ht]

/-- The head of an IDLE injector's queue is refused, and the next is tried (R128, R129). -/
theorem State.nextShot_refused (s : State) (i : InjectorId) (e : QueueEntry) (rest : List QueueEntry)
    (hesd : s.esd.active = false) (hidle : (s.injector i).state = .idle) (hq : (s.injector i).queue = e :: rest)
    (ht : (s.injector i).topUp e.ref = none) :
    s.nextShot i = ((s.modInjector i fun x => { x with queue := rest }).cannotDose i e.arm e.ref
      (s.requirementOf e.arm e.index)).nextShot i := by
  conv => lhs; unfold State.nextShot
  rw [hq]
  unfold State.startShots
  dsimp only
  rw [if_neg (by simp [hesd, hidle])]
  simp only [hq, ht]
  generalize hu : s.modInjector i (fun x => { x with queue := rest }) = u
  have hui : (u.injector i).queue = rest := by rw [← hu]; simp
  obtain ⟨queue, shot, he, hl⟩ := State.cannotDose_injector u i e.arm e.ref (s.requirementOf e.arm e.index) i
  rw [hui] at hl
  exact State.startShots_fuel _ _ _ _ (by rw [he]; simp only [List.length_cons]; omega) (Nat.lt_succ_self _)

/-- No shot starts (R128). -/
theorem State.nextShot_none (s : State) (i : InjectorId)
    (h : s.esd.active = true ∨ (s.injector i).state ≠ .idle ∨ (s.injector i).queue = []) : s.nextShot i = s := by
  unfold State.nextShot State.startShots
  dsimp only
  split
  · rfl
  · rename_i hn
    rw [not_or] at hn
    have : (s.injector i).queue = [] := by rcases h with h | h | h; exacts [absurd h hn.1, absurd h hn.2, h]
    rw [this]

/-- Where no injector is IDLE with a queue, none starts a shot (R128). -/
theorem State.nextShots_none (u : State) (h : ∀ i, (u.injector i).state ≠ .idle ∨ (u.injector i).queue = [])
    (l : List InjectorId) : l.foldl State.nextShot u = u := by
  induction l with
  | nil => rfl
  | cons i l ih => rw [List.foldl_cons, State.nextShot_none u i (.inr (h i)), ih]

/-- A posting to another injector, or to one in SHOT, keeps an injector but for queue entries and the shot's mark. -/
theorem State.startShots_state (n : Nat) (s : State) (j i : InjectorId) (h : j ≠ i ∨ (s.injector i).state ≠ .idle) :
    ((s.startShots j n).injector i).state = (s.injector i).state := by
  induction n generalizing s with
  | zero => rfl
  | succ n ih =>
    unfold State.startShots
    dsimp only
    split
    · rfl
    · rename_i hc
      rw [not_or, not_not] at hc
      have hji : j ≠ i := by
        rcases h with h | h
        · exact h
        · rintro rfl; exact h hc.2
      split
      · rfl
      · rename_i e rest hq
        split
        · rename_i x' _
          unfold State.injector
          rw [State.injectors_setInjectorState]
          show ((State.modInjector _ _ _).injector i).state = _
          rw [State.injector_modInjector, if_neg (Ne.symm hji), State.injector_modInjector, if_neg (Ne.symm hji)]; rfl
        · obtain ⟨queue, shot, he, -⟩ := State.cannotDose_injector (s.modInjector j fun x => { x with queue := rest }) j e.arm e.ref
            (s.requirementOf e.arm e.index) i
          rw [ih _ (.inl hji), he]
          rw [State.injector_modInjector, if_neg (Ne.symm hji)]

theorem State.post_state (s : State) (a : ArmId) (r : CompRef) (e : SnapshotEntry) (i : InjectorId)
    (h : (s.injector i).state ≠ .idle) : ((s.post a r e).injector i).state = (s.injector i).state := by
  unfold State.post
  dsimp only
  split
  · unfold State.enqueue
    split
    · unfold State.nextShot
      generalize hu : State.modInjector _ _ _ = u
      have : (u.injector i).state = (s.injector i).state := by
        rw [← hu, State.injector_modInjector]; split
        · rename_i e; rw [e]
        · rfl
      rw [State.startShots_state _ _ _ _ (.inr (this ▸ h)), this]
    · split
      · rw [State.injector_modInjector]; split
        · rename_i e; rw [e]
        · rfl
      · rw [(State.doseFlag_flagged s r e.entry.injector .lagged).1]; rfl
  · obtain ⟨queue, shot, he, -⟩ := State.cannotDose_injector s e.entry.injector a r e.entry.requirement i
    rw [he]

/-! ### Credits of shots -/

/-- Where the slot does not hold the order in ACTIVE, or its compartment has no result for the injector, no order
changes (R132). -/
theorem State.Delivered.none (s u : State) (r : CompRef) (i : InjectorId) (amount : Nat) (hu : ∀ k, u.orderIn k = s.orderIn k)
    (h : ∀ o, s.orderOf r = some o → o.isActive = true →
      (o.comp r.comp).any (fun c => c.results.any fun z => decide (z.injector = i)) = false) :
    State.Delivered s u r i amount := by
  refine ⟨min 2000000 ((((s.orderOf r).bind fun o => o.comp r.comp).bind fun c =>
      c.results.find? fun z => decide (z.injector = i)).elim 0 (·.delivered + amount)), Nat.min_le_left _ _, fun k => ?_,
    fun o c z ho hc hz hl => ?_⟩
  · rw [hu]
    cases hk : s.orderIn k with
    | none => rfl
    | some o =>
      rw [Option.map_some, if_neg]
      rintro ⟨h1, h2, h3, h4⟩
      rw [h o (by unfold State.orderOf; rw [← h1, hk, Option.filter_some, if_pos (by simpa using h2)]) h3] at h4
      cases h4
  · rw [ho, Option.bind_some, hc, Option.bind_some, hz]; exact Nat.min_eq_right hl

/-- The delivered volume on the result of an injector (R132). -/
theorem State.creditResult_credited (s : State) (r : CompRef) (i : InjectorId) (amount : Nat) :
    s.creditResult r i amount
      = { s with orders := (s.creditResult r i amount).orders, freeCount := (s.creditResult r i amount).freeCount } ∧
    State.Delivered s (s.creditResult r i amount) r i amount := by
  unfold State.creditResult
  split
  · rename_i hcr
    split
    · rename_i x hx
      obtain ⟨hb1, hb2, k, hb3⟩ := s.bounded_spec 2000000 (x.delivered + amount)
      generalize s.bounded 2000000 (x.delivered + amount) = v at hb1 hb2 hb3
      dsimp only
      refine ⟨by rw [State.modComp_eq, hb3], v.1, hb1, fun k => ?_, fun o c z hs hc hz hl => ?_⟩
      · rw [State.compChanged_modComp v.2 r _ k]
        have : v.2.orderIn k = s.orderIn k := by rw [hb3]; rfl
        rw [this]
        cases hk : s.orderIn k with
        | none => rfl
        | some o =>
          simp only [Option.map_some]
          by_cases hc : k = r.slot ∧ o.number = r.order
          · have ho : s.orderOf r = some o := by
              unfold State.orderOf; rw [← hc.1, hk, Option.filter_some, if_pos (by simpa using hc.2)]
            unfold State.creditable at hcr
            unfold State.compOf at hx
            rw [ho] at hcr hx
            rw [Option.bind_some] at hx
            obtain ⟨c, hc1, hc2⟩ := Option.bind_eq_some_iff.mp hx
            have has : (o.comp r.comp).any (fun c => c.results.any fun z => decide (z.injector = i)) = true := by
              rw [hc1, Option.any_some, List.any_eq_true]
              exact ⟨x, List.mem_of_find?_eq_some hc2, List.find?_some (p := fun z : AdditiveResult => decide (z.injector = i)) hc2⟩
            rw [if_pos hc, if_pos ⟨hc.1, hc.2, hcr, has⟩]; rfl
          · rw [if_neg hc, if_neg fun e => hc ⟨e.1, e.2.1⟩]
      · have hxz : x = z := by
          unfold State.compOf at hx
          rw [hs] at hx
          simp only [Option.bind_some, hc, hz, Option.some.injEq] at hx
          exact hx.symm
        subst hxz
        rw [hb2 hl]
    · rename_i hx
      refine ⟨rfl, .none s s r i amount (fun _ => rfl) fun o ho _ => ?_⟩
      unfold State.compOf at hx
      rw [ho, Option.bind_some] at hx
      cases hc : o.comp r.comp with
      | none => rfl
      | some c =>
        rw [hc, Option.bind_some, List.find?_eq_none] at hx
        rw [Option.any_some, List.any_eq_false]
        exact hx
  · rename_i hcr
    exact ⟨rfl, .none s s r i amount (fun _ => rfl) fun o ho ha => absurd (by unfold State.creditable; rw [ho]; exact ha) hcr⟩

/-- Stages 1 to 4 of a shot's credit (R131, R132). -/
theorem State.creditShot_credited (s : State) (i : InjectorId) (x : Shot) (o : ShotOwner) (ho : x.owner = some o) :
    State.ShotCredited s (s.creditShot i x) i o.ref ((s.injector i).measured x.counted) := by
  unfold State.creditShot
  rw [ho]
  dsimp only
  generalize (s.injector i).measured x.counted = amount
  have k := State.creditResult_credited s o.ref i amount
  generalize s.creditResult o.ref i amount = v at k
  have hi : v.injector i = s.injector i := by rw [k.1]; rfl
  have hl : (v.lowerStock i amount).modInjector i (fun j => j.lowerReservation o.ref amount) = { v with
      injectors := vset s.injectors i { s.injector i with
        stock := (s.injector i).stock - amount
        reservations := (s.injector i).reservations.map fun x =>
          if x.ref = o.ref then { x with amount := x.amount - amount } else x }
      flags := if (s.injector i).mark ≤ (s.injector i).stock ∧ (s.injector i).stock - amount < (s.injector i).mark
        then addTo EventFlag.all .stockLow s.flags else s.flags } := by
    have hvi : v.injectors = s.injectors := by rw [k.1]
    have hvf : v.flags = s.flags := by rw [k.1]
    unfold State.lowerStock State.putStock
    dsimp only
    rw [hi]
    split
    · unfold State.modInjector State.raise State.injector
      simp [vset_vset, hvi, hvf, Injector.lowerReservation]
    · unfold State.modInjector State.injector
      simp [vset_vset, hvi, hvf, Injector.lowerReservation]
  rw [hl]
  refine ⟨?_, k.2⟩
  conv => lhs; rw [k.1]

/-! ### Ends of shots -/

/-- The end of a shot (R131, stage 8): no current shot, IDLE, the change handed on, and the next shot. -/
theorem State.endShot_removed (w : State) (i) (h : (w.injector i).state ≠ .idle) : ∃ z, State.AdditiveRemoved
    { w with injectors := vset w.injectors i { w.injector i with shot := none, state := .idle } } z i ∧ w.endShot i = z.nextShot i := by
  refine ⟨(w.modInjector i fun j => { j with shot := none }).setInjectorState i .idle, ?_, rfl⟩
  have k := State.setInjectorState_removed (w.modInjector i fun j => { j with shot := none }) i .idle (by simpa using h)
  refine Eq.mp (congrArg (fun u => State.AdditiveRemoved u _ i) ?_) k
  simp only [State.injector_modInjector_same]
  unfold State.modInjector
  dsimp only
  rw [vset_vset]

/-- A move to a state in which an injector is unavailable frees no batch. -/
theorem State.setInjectorState_stays (s : State) (i : InjectorId) (st : InjectorState) (h : st ≠ .idle ∧ st ≠ .shot) :
    s.setInjectorState i st = s.modInjector i fun x => { x with state := st } := by
  by_cases he : (s.injector i).state = st
  · unfold State.setInjectorState; rw [if_pos he]
  · have k := State.setInjectorState_removed s i st he
    refine Eq.trans k.1 ?_
    have : (s.setInjectorState i st).arms = s.arms := by
      apply Vector.ext
      intro n hn
      have := k.2 ⟨n, hn⟩
      simp only [State.arm, vget] at this
      rw [this]
      have hb : ∀ b : Batch, (if b.state = .held ∧ b.snapshot.requires i = true ∧
          ({ s with injectors := vset s.injectors i { s.injector i with state := st } } : State).requiredAvailable b.snapshot = true then
          { b with holdSet := dropFrom .additive b.holdSet } else b) = b := by
        intro b
        rw [if_neg]
        rintro ⟨-, hr, hv⟩
        unfold Snapshot.requires at hr
        rw [List.any_eq_true] at hr
        obtain ⟨e, he, hr⟩ := hr
        unfold State.requiredAvailable at hv
        rw [List.all_eq_true] at hv
        have := hv e he
        simp only [Bool.and_eq_true, decide_eq_true_eq] at hr
        simp only [hr.1, hr.2, Bool.or_eq_true, decide_eq_true_eq, reduceCtorEq, false_or, State.injector, vget_vset_same,
          Injector.available, Bool.and_eq_true] at this
        rcases this.2 with h' | h'
        · exact h.1 h'
        · exact h.2 h'
      have : (fun b : Batch => if b.state = .held ∧ b.snapshot.requires i = true ∧
          ({ s with injectors := vset s.injectors i { s.injector i with state := st } } : State).requiredAvailable b.snapshot = true then
          { b with holdSet := dropFrom .additive b.holdSet } else b) = id := funext hb
      simp only [this, Option.map_id]
      unfold State.batch State.arm vget
      simp
    rw [this]
    rfl

/-- Stage 6 of R131. -/
theorem State.rotate_eq (s : State) (i : InjectorId) (x : Injector) (y : Shot) (h : (s.injector i).queue = x.queue) : s.rotate i y = { s with
    injectors := vset s.injectors i { s.injector i with queue := match x.queue, y.queued with
              | e :: rest, true =>
                if 1 < e.owed then rest ++ [{ e with owed := e.owed - 1, inService := false }] else rest
              | queue, _ => queue } } := by
  unfold State.rotate
  cases hq : y.queued with
  | true =>
    rw [if_pos rfl]
    unfold State.modInjector
    dsimp only
    rw [h]
    cases x.queue with
    | nil => rfl
    | cons e l => rfl
  | false =>
    have : (match x.queue, false with
              | e :: rest, true =>
                if 1 < e.owed then rest ++ [{ e with owed := e.owed - 1, inService := false }] else rest
              | queue, _ => queue) = (s.injector i).queue := by rw [h]; cases x.queue <;> rfl
    simp only [Bool.false_eq_true, if_false]
    rw [this]
    unfold State.injector; rw [vset_vget_same]

/-! ### One cause for several batches -/

theorem Batch.given_flowing {b : Batch} (c : HoldCause) (h : b.state.flowing = true) : b.given c = { b with
          state := .held, mainDemand := 0, blendDemand := 0, ceiling := none, holdSet := [c], ramp := none
          metering := { b.metering with noFlow := none, blendTimer := none } } := by
  unfold Batch.given
  cases hs : b.state <;> first | rfl | (rw [hs] at h; cases h)

theorem Batch.given_inHeld {b : Batch} (c : HoldCause) (h : b.state = .held) : b.given c = { b with holdSet := addTo HoldCause.all c b.holdSet } := by
  unfold Batch.given; rw [h]

/-- A cause only takes arms out of drawing sets and entries out of queues. -/
theorem State.handCauseRaw_leaves (s : State) (x : ArmId) (c : HoldCause) :
    (∀ h, ∀ a ∈ ((s.handCauseRaw x c).header h).drawing, a ∈ (s.header h).drawing) ∧
    ∀ i, ∀ e ∈ ((s.handCauseRaw x c).injector i).queue, e ∈ (s.injector i).queue := by
  have held : ∀ b, (∀ h, ∀ a ∈ ((s.enterHeldRaw x b c).header h).drawing, a ∈ (s.header h).drawing) ∧
      ∀ i, ∀ e ∈ ((s.enterHeldRaw x b c).injector i).queue, e ∈ (s.injector i).queue := by
    intro b
    refine ⟨fun h a m => ?_, fun i e m => ?_⟩
    · simp only [State.enterHeldRaw, State.header_raise, State.header_removeQueueEntries, State.header_leaveRaw,
        State.header_modComp, State.header_modBatch] at m
      split at m
      · rename_i k; subst k; exact (List.mem_filter.mp m).1
      · exact m
    · unfold State.injector at m ⊢
      rw [enterHeldRaw_injectors] at m
      simp only [State.removeQueueEntries, vget_vmap] at m
      exact (List.mem_filter.mp m).1
  have same : ∀ u : State, u.headers = s.headers → u.injectors = s.injectors →
      (∀ h, ∀ a ∈ (u.header h).drawing, a ∈ (s.header h).drawing) ∧
      ∀ i, ∀ e ∈ (u.injector i).queue, e ∈ (s.injector i).queue := by
    intro u hu hi
    unfold State.header State.injector
    rw [hu, hi]
    exact ⟨fun _ _ m => m, fun _ _ m => m⟩
  unfold State.handCauseRaw
  split
  · exact same s rfl rfl
  · split
    · exact same _ rfl rfl
    · split
      · rw [State.modComp_eq]; exact same _ rfl rfl
      · exact same s rfl rfl
    all_goals exact held _

/-- Holding a flowing batch sets BATCH_HOLD, takes its arm out of the drawing set and its entries out of the queues
(R99, R136). -/
theorem State.handCausesRaw_leaves (l : List ArmId) (s : State) (c : HoldCause) {a : ArmId} {b : Batch} (ha : a ∈ l)
    (hb : s.batch a = some b) (hf : b.state.flowing = true) : EventFlag.batchHold ∈ (s.handCausesRaw l c).flags ∧
    a ∉ ((s.handCausesRaw l c).header b.snapshot.mainHeader).drawing ∧
    ∀ i, ∀ e ∈ ((s.handCausesRaw l c).injector i).queue, e.arm ≠ a := by
  refine State.handCausesRaw_of (Q := fun _ => True)
    (P := fun u => EventFlag.batchHold ∈ u.flags ∧ a ∉ (u.header b.snapshot.mainHeader).drawing ∧
      ∀ i, ∀ e ∈ (u.injector i).queue, e.arm ≠ a) l s c ha hb trivial (fun _ _ _ => trivial) (fun u hu _ => ?_) fun u x k => ?_
  · rw [show u.handCauseRaw a c = u.enterHeldRaw a b c by
      unfold State.handCauseRaw; rw [hu]; dsimp only
      cases hs : b.state <;> simp_all [BatchState.flowing]]
    refine ⟨?_, ?_, fun i e he => ?_⟩
    · rw [enterHeldRaw_flags, mem_addTo (EventFlag.mem_all _)]; exact .inl rfl
    · simp [State.enterHeldRaw, State.header_leaveRaw]
    · unfold State.injector at he
      rw [enterHeldRaw_injectors] at he
      simp only [State.removeQueueEntries, vget_vmap] at he
      simpa using (List.mem_filter.mp he).2
  · have m := u.handCauseRaw_leaves x c
    exact ⟨handCauseRaw_flag u x c k.1, fun e => k.2.1 (m.1 _ _ e), fun i e he => k.2.2 i e (m.2 i e he)⟩

/-- A trip handed to several batches (R99, R100). -/
theorem State.handCauses_trip (s : State) (l : List ArmId) (c : HoldCause) (hc : c.isTrip = true) (nd : l.Nodup) {a : ArmId}
    (ha : a ∈ l) : s.TripReached (s.handCauses l c) a c := by
  have e := s.handCauses_eased l c
  refine ⟨fun b hb hf => ?_, fun b hb hs => ⟨?_, fun o k ho hk =>
    State.handCauses_marks s l c hc ha hb hs ⟨o, k, ho, hk⟩⟩⟩
  · have m := State.handCausesRaw_leaves l s c ha hb hf
    obtain ⟨d, hd⟩ := State.handCauses_given s l c nd ha hb
    refine ⟨⟨d, fun x => ?_, by rw [hd, Batch.given_flowing c hf]⟩, fun o k ho hk => ?_, by rw [e.eq]; exact m.2.1,
      by rw [e.eq]; exact m.2.2, by rw [e.eq]; exact m.1⟩
    · have := State.handCauses_exact s l c nd x ha hb
      rw [hd, Option.some.injEq] at this
      have := congrArg Batch.ceiling this
      rw [Batch.given_flowing c hf] at this
      exact this
    · rw [orderOf_congr (u := s.handCauses l c) (v := s.handCausesRaw l c) (by rw [e.eq])]
      refine State.handCausesRaw_of (Q := fun u => ∃ o k, u.orderOf b.ref = some o ∧ o.comp b.ref.comp = some k ∧ True)
        (P := fun u => ∃ o k, u.orderOf b.ref = some o ∧ o.comp b.ref.comp = some k ∧ k.state = .held) l s c ha hb
        ⟨o, k, ho, hk, trivial⟩ (fun u x => State.handCauseRaw_still u x c b.ref (fun _ k => k) (fun _ k => k))
        (fun u hu ⟨o, k, ho, hk, _⟩ => ?_) fun u x => State.handCauseRaw_still u x c b.ref (fun _ _ => rfl) (fun _ k => k)
      rw [show u.handCauseRaw a c = u.enterHeldRaw a b c by
        unfold State.handCauseRaw; rw [hu]; dsimp only
        cases hs : b.state <;> simp_all [BatchState.flowing], orderOf_congr (enterHeldRaw_orders u a b c)]
      have m := State.modComp_at u b.ref (fun x => { x with state := .held }) (fun _ => rfl) ho hk
      exact ⟨_, _, m.1, m.2, rfl⟩
  · obtain ⟨d, hd⟩ := State.handCauses_given s l c nd ha hb
    refine ⟨d, fun x => ?_, by rw [hd, Batch.given_closing c hs]⟩
    have := State.handCauses_exact s l c nd x ha hb
    rw [hd, Option.some.injEq, Batch.given_closing c hs] at this
    exact congrArg Batch.ceiling this

/-- A cause handed to several batches joins the hold set of each that is HELD (R100). -/
theorem State.handCauses_adds (s : State) (l : List ArmId) (c : HoldCause) (nd : l.Nodup) {a : ArmId} {b : Batch} (ha : a ∈ l)
    (hb : s.batch a = some b) (hs : b.state = .held) : ∃ ceiling, (s.DrawingExact → ceiling = b.ceiling) ∧
    (s.handCauses l c).batch a
      = some { b with holdSet := addTo HoldCause.all c b.holdSet, ceiling := ceiling } := by
  obtain ⟨d, hd⟩ := State.handCauses_given s l c nd ha hb
  rw [Batch.given_inHeld c hs] at hd
  refine ⟨d, fun x => ?_, hd⟩
  have := State.handCauses_exact s l c nd x ha hb
  rw [hd, Batch.given_inHeld c hs, Option.some.injEq] at this
  exact congrArg Batch.ceiling this

/-- Holds leave an injector with an empty queue and no shot as it is. -/
theorem State.handCausesRaw_injector (l : List ArmId) (s : State) (c : HoldCause) (i : InjectorId) (hq : (s.injector i).queue = [])
    (hs : (s.injector i).shot = none) : (s.handCausesRaw l c).injector i = s.injector i := by
  induction l generalizing s with
  | nil => rfl
  | cons a l ih =>
    show ((s.handCauseRaw a c).handCausesRaw l c).injector i = _
    have : (s.handCauseRaw a c).injector i = s.injector i := by
      have hh : ∀ b, (s.enterHeldRaw a b c).injector i = s.injector i := by
        intro b
        unfold State.injector
        rw [enterHeldRaw_injectors]
        simp only [State.removeQueueEntries, vget_vmap]
        rw [show vget s.injectors i = s.injector i from rfl, hq, hs]
        simp only [List.filter_nil, List.any_nil, Bool.false_eq_true, if_false]
        rw [← hs]; rw [← hq]
      unfold State.handCauseRaw
      split
      · rfl
      · split
        · rfl
        · split
          · rw [State.modComp_eq]; rfl
          · rfl
        all_goals exact hh _
    rw [ih _ (this ▸ hq) (this ▸ hs), this]

/-! ### Meters -/

theorem modMeter_at (s : State) (m) (f : Meter → Meter) {x : Meter} (h : s.meter m = x) :
    s.modMeter m f = { s with meters := vset s.meters m (f x) } := by subst h; rfl

/-- The integrity check by its counts (R111). -/
theorem State.checkIntegrity_cases (v : State) (m : MeterId) (x : Meter) (a b : Nat) (hst : (v.meter m).state = x.state) (z : State)
    (hz : z = { v with meters := vset v.meters m { v.meter m with aCount := a, bCount := b } }) :
    (a < 1000 ∧ b < 1000 → z.checkIntegrity m = z) ∧
      ((1000 ≤ a ∨ 1000 ≤ b) → x.state = .fault ∨ (a ≤ b + 10 ∧ b ≤ a + 10) →
        z.checkIntegrity m = { v with meters := vset v.meters m { v.meter m with aCount := 0, bCount := 0 } }) ∧
      ((1000 ≤ a ∨ 1000 ≤ b) → x.state = .ok → a + 10 < b ∨ b + 10 < a → ∃ w : State, w = { v with
          meters := vset v.meters m { v.meter m with aCount := 0, bCount := 0, state := .fault }
          flags := addTo EventFlag.all .meterFault v.flags } ∧
        (v.boundTo m = none → z.checkIntegrity m = w) ∧ ∀ arm role, v.boundTo m = some (arm, role) → State.TakesCause w (z.checkIntegrity m) arm .meter) := by
  have hm : z.meter m = { v.meter m with aCount := a, bCount := b } := by rw [hz]; simp [State.meter]
  have e0 : z.modMeter m (fun x => { x with aCount := 0, bCount := 0 }) = { v with meters := vset v.meters m { v.meter m with aCount := 0, bCount := 0 } } := by
    rw [modMeter_at z m _ hm, hz]; simp only [vset_vset]
  unfold State.checkIntegrity
  rw [hm]
  dsimp only
  refine ⟨fun h => if_pos h, fun h1 h2 => ?_, fun h1 h2 h3 => ?_⟩
  · rw [if_neg (by omega), if_neg, e0]
    rintro ⟨c1, c2⟩
    rw [hst] at c2
    rcases h2 with h | h
    · rw [h] at c2; cases c2
    · unfold distance at c1; omega
  · rw [if_neg (by omega), if_pos ⟨by unfold distance; omega, by rw [hst]; exact h2⟩, e0]
    have e1 : (({ v with meters := vset v.meters m { v.meter m with aCount := 0, bCount := 0 } } : State).modMeter m fun x => { x with state := .fault }).raise .meterFault
      = { v with meters := vset v.meters m { v.meter m with aCount := 0, bCount := 0, state := .fault }
                 flags := addTo EventFlag.all .meterFault v.flags } := by
      rw [modMeter_at (x := { v.meter m with aCount := 0, bCount := 0 }) _ m _ (by simp [State.meter])]
      unfold State.raise
      simp only [vset_vset]
    rw [e1]
    generalize hw : ({ v with meters := vset v.meters m { v.meter m with aCount := 0, bCount := 0, state := .fault }
                              flags := addTo EventFlag.all .meterFault v.flags } : State) = w
    have hwb : w.boundTo m = v.boundTo m := by rw [← hw]; rfl
    rw [hwb]
    refine ⟨w, rfl, fun hn => ?_, fun arm role hb => ?_⟩
    · rw [hn]
    · rw [hb]
      exact State.handCause_takes _ arm .meter rfl

theorem State.restartTimers_eq (s : State) (m : MeterId) (isA : Bool) : s.restartTimers m isA = { s with arms := (s.restartTimers m isA).arms } := by
  unfold State.restartTimers; split <;> rfl

/-- What a pulse restarts (R93, R117). -/
theorem State.restartTimers_arm (s : State) (m : MeterId) (isA : Bool) (y : ArmId) : (s.restartTimers m isA).arm y = { s.arm y with
        batch := (s.batch y).map fun z =>
          if (s.boundTo m).map (·.1) = some y ∧ z.state = .closing then { z with settle := some 2000 }
          else if isA = true ∧ s.boundTo m = some (y, .main) ∧ z.state.flowing = true then
            { z with metering := { z.metering with noFlow := some 10000 } }
          else z } := by
  unfold State.restartTimers
  cases hb : s.boundTo m with
  | none =>
    simp only [Option.map_none, reduceCtorEq, false_and, and_false, if_false]
    exact (Arm.map_id (r := s.arm y) fun _ => rfl).symm
  | some p =>
    obtain ⟨a, role⟩ := p
    cases role with
    | main =>
      dsimp only
      rw [(s.modBatch_flowOnly a _).arm y, State.batch_modBatch]
      by_cases h : y = a
      · subst h
        rw [if_pos rfl]
        refine congrArg (fun g => ({ s.arm y with batch := (s.batch y).map g } : Arm)) ?_
        funext z
        cases isA <;> cases hz : z.state <;> simp [Batch.restartSettle, Batch.restartNoFlow, hz, BatchState.flowing] <;> rfl
      · rw [if_neg h]
        have : ¬ a = y := fun e => h e.symm
        simp only [Option.map_some, Option.some.injEq, this, false_and, if_false, Prod.mk.injEq, and_false]
        unfold State.batch
        cases (s.arm y).batch <;> rfl
    | blend =>
      dsimp only
      rw [(s.modBatch_flowOnly a _).arm y, State.batch_modBatch]
      by_cases h : y = a
      · subst h
        rw [if_pos rfl]
        refine congrArg (fun g => ({ s.arm y with batch := (s.batch y).map g } : Arm)) ?_
        funext z
        cases isA <;> cases hz : z.state <;> simp [Batch.restartSettle, hz, BatchState.flowing] <;> rfl
      · rw [if_neg h]
        have : ¬ a = y := fun e => h e.symm
        simp only [Option.map_some, Option.some.injEq, this, false_and, if_false, Prod.mk.injEq, and_false]
        unfold State.batch
        cases (s.arm y).batch <;> rfl


end Sys2Proof.Machine
end

