-- ==== Sys2Proof/Laws/EndsAtOnce.lean ====
section
/-! SUPPORT. Ends of batches without settle (R105): what several of them in one event do to the compartments, the
reservations, the drawing sets and the orders; and the figures of a credit. -/

namespace Sys2Proof.Machine

/-- A change of one compartment leaves the others. -/
theorem State.CompHas.other {s : State} {r q : CompRef} {P} (h : s.CompHas q P) (hq : q ≠ r) (g : Compartment → Compartment)
    (hn : ∀ c, (g c).number = c.number) : (s.modComp r g).CompHas q P := by
  obtain ⟨o, c, ho, hc, hf⟩ := h
  have k := State.orderOf_modComp s r q g
  by_cases e : q.slot = r.slot ∧ (s.orderOf r).isSome
  · rw [if_pos e, ho] at k
    refine ⟨_, c, k, ?_, hf⟩
    rw [Order.comp_modComp _ _ _ _ hn, if_neg, hc]
    intro hcomp
    obtain ⟨p, hp⟩ := Option.isSome_iff_exists.mp e.2
    unfold State.orderOf at ho hp
    rw [e.1] at ho
    rw [Option.filter_eq_some_iff] at ho hp
    rw [ho.1] at hp
    obtain ⟨h1, h2⟩ := hp
    cases h1
    apply hq
    cases q; cases r
    simp only [decide_eq_true_eq] at ho h2 e hcomp ⊢
    simp [e.1, hcomp, ← ho.2, ← h2]
  · rw [if_neg e, ho] at k
    exact ⟨o, c, k, hc, hf⟩

/-- A compartment with the end credit of a batch (R114). -/
def Compartment.endCredited (c : Compartment) (s : State) (a : ArmId) (b : Batch) : Compartment :=
  if b.metering.stepMain + b.metering.stepBlend = 0 then c else c.credit (s.creditNow a b)

theorem State.CompHas.endCredit {s : State} {a : ArmId} {b : Batch} {c : Compartment} (hb : s.batch a = some b)
    (h : s.CompHas b.ref (· = c)) : (s.endCredit a).CompHas b.ref (· = c.endCredited s a b) := by
  unfold State.endCredit Compartment.endCredited
  rw [hb]
  dsimp only
  split
  · exact h
  · unfold State.makeCredit
    refine ((h.modComp _ (fun c => Compartment.credit_number c _) fun x e => ?_).congr rfl : State.CompHas _ b.ref _)
    subst e; rfl

theorem State.CompHas.endCredit_other {s : State} {a : ArmId} {q : CompRef} {P} (h : s.CompHas q P)
    (hq : ∀ b, s.batch a = some b → b.ref ≠ q) : (s.endCredit a).CompHas q P := by
  unfold State.endCredit
  split
  · rename_i b hb
    split
    · exact h
    · unfold State.makeCredit
      exact (h.other (fun e => hq b hb e.symm) _ fun c => Compartment.credit_number c _).congr rfl
  · exact h

theorem State.CompHas.endAtOnceRaw_other {s : State} {a : ArmId} {q : CompRef} {P} (h : s.CompHas q P)
    (hq : ∀ b, s.batch a = some b → b.ref ≠ q) : (s.endAtOnceRaw a).CompHas q P := by
  cases hb : s.batch a with
  | none => unfold State.endAtOnceRaw; rw [hb]; exact h
  | some b =>
    exact ((h.endCredit_other hq).other (fun e => hq b hb e.symm) (fun c => (c.addFlag .endedByReset).endedShort)
      fun _ => rfl).congr (endAtOnceRaw_orders s a hb)

theorem State.CompHas.endAtOnceRaw {s : State} {a : ArmId} {b : Batch} {c : Compartment} (hb : s.batch a = some b)
    (h : s.CompHas b.ref (· = c)) :
    (s.endAtOnceRaw a).CompHas b.ref (· = ((c.endCredited s a b).addFlag .endedByReset).endedShort) :=
  ((h.endCredit hb).modComp (fun c => (c.addFlag .endedByReset).endedShort) (fun _ => rfl) fun c e => by rw [e]).congr
    (endAtOnceRaw_orders s a hb)

/-- One batch's end leaves its arm out of its drawing set and its compartment without reservations; no end adds an arm
or a reservation. -/
theorem endAtOnceRaw_leaves (s : State) (x : ArmId) :
    (∀ h, ∀ a ∈ ((s.endAtOnceRaw x).header h).drawing, a ∈ (s.header h).drawing) ∧
    (∀ i, ∀ r ∈ ((s.endAtOnceRaw x).injector i).reservations, r ∈ (s.injector i).reservations) ∧
    ∀ b, s.batch x = some b → x ∉ ((s.endAtOnceRaw x).header b.snapshot.mainHeader).drawing ∧
      ∀ i, ∀ r ∈ ((s.endAtOnceRaw x).injector i).reservations, r.ref ≠ b.ref := by
  unfold State.endAtOnceRaw
  split
  · rename_i h
    exact ⟨fun _ _ m => m, fun _ _ m => m, fun b e => by rw [h] at e; cases e⟩
  · rename_i b h
    have ke : ((s.endCredit x).modComp b.ref fun c => (c.addFlag .endedByReset).endedShort).injectors = s.injectors := by
      rw [modComp_injectors, endCredit_eq]
    have kh : ((s.endCredit x).modComp b.ref fun c => (c.addFlag .endedByReset).endedShort).headers = s.headers := by
      rw [State.modComp_eq, endCredit_eq]
    dsimp only
    generalize State.modComp _ _ _ = v at ke kh
    have hr : ∀ i, (((((v.releaseReservations b.ref).removeQueueEntries x).leaveRaw b.snapshot.mainHeader x).modArm x
        fun r => { r with batch := none }).injector i).reservations
        = (s.injector i).reservations.filter fun r => decide (r.ref ≠ b.ref) := by
      intro i
      unfold State.injector State.modArm
      dsimp only
      rw [leaveRaw_injectors]
      unfold State.removeQueueEntries State.releaseReservations
      simp only [vget_vmap, ke]
    have hd : ∀ h, (((((v.releaseReservations b.ref).removeQueueEntries x).leaveRaw b.snapshot.mainHeader x).modArm x
        fun r => { r with batch := none }).header h).drawing
        = if h = b.snapshot.mainHeader then dropFrom x (s.header h).drawing else (s.header h).drawing := by
      intro h
      show (State.header (State.leaveRaw _ _ _) h).drawing = _
      rw [State.header_leaveRaw]
      have : ∀ k, ((v.releaseReservations b.ref).removeQueueEntries x).header k = s.header k := by
        intro k; show vget v.headers k = _; rw [kh]; rfl
      rw [this, this]
      split
      · rename_i e; rw [e]
      · rfl
    refine ⟨fun h a m => ?_, fun i r m => ?_, fun b' e => ?_⟩
    · rw [hd] at m; split at m
      · exact (List.mem_filter.mp m).1
      · exact m
    · rw [hr] at m; exact (List.mem_filter.mp m).1
    · have e : b = b' := by rw [h] at e; exact Option.some.inj e
      subst e
      refine ⟨?_, fun i r m => ?_⟩
      · rw [hd, if_pos rfl]; simp
      · rw [hr] at m; simpa using (List.mem_filter.mp m).2

/-- An arm out of reach of the ends without settle of others (R97, R98). -/
theorem State.endAtOnce_respondsOnce (s : State) (l : List ArmId) (a : ArmId) (ha : a ∉ l) :
    s.RespondsOnce (s.endAtOnce l) a := by
  refine State.settleHeaders_respondsOnce s _ a ?_
  induction l generalizing s with
  | nil => rfl
  | cons x l ih =>
    simp only [List.mem_cons, not_or] at ha
    rw [List.foldl_cons, ih _ ha.2, endAtOnceRaw_arm, if_neg ha.1]

/-- An end without settle leaves every order in its slot and its stage. -/
theorem endAtOnceRaw_findOrder {s : State} {n : Nat} {i : SlotId} {o : Order} (h : s.findOrder n = some (i, o)) (a : ArmId) :
    ∃ o', (s.endAtOnceRaw a).findOrder n = some (i, o') ∧ o'.stage = o.stage := by
  have mod : ∀ (u : State) (r : CompRef) (f : Compartment → Compartment) (p : Order), u.findOrder n = some (i, p) →
      p.stage = o.stage → ∃ o', (u.modComp r f).findOrder n = some (i, o') ∧ o'.stage = o.stage := by
    intro u r f p hp hs
    rw [(State.compChanged_modComp u r f).findOrder, hp]
    refine ⟨_, rfl, ?_⟩
    rw [← hs]; dsimp only; split <;> rfl
  cases hb : s.batch a with
  | none => unfold State.endAtOnceRaw; rw [hb]; exact ⟨o, h, rfl⟩
  | some b =>
    rw [findOrder_orders (endAtOnceRaw_orders s a hb)]
    have : ∃ o', (s.endCredit a).findOrder n = some (i, o') ∧ o'.stage = o.stage := by
      unfold State.endCredit
      rw [hb]; dsimp only
      split
      · exact ⟨o, h, rfl⟩
      · unfold State.makeCredit
        dsimp only
        rw [findOrder_orders (State.modBatch_orders _ _ _)]
        exact mod s _ _ o h rfl
    obtain ⟨p, hp, hs⟩ := this
    exact mod _ _ _ p hp hs

/-- What one end of several brings about, where the others neither undo it nor spoil what it starts from. -/
theorem endAtOnceRaws_of {P Q : State → Prop} (l : List ArmId) (s : State) (nd : l.Nodup) {a : ArmId} {b : Batch} (ha : a ∈ l)
    (hb : s.batch a = some b) (hq : Q s)
    (keep : ∀ u x, x ∈ l → x ≠ a → u.batch x = s.batch x → Q u → Q (u.endAtOnceRaw x))
    (now : ∀ u, u.batch a = some b → Q u → P (u.endAtOnceRaw a))
    (later : ∀ u x, x ∈ l → x ≠ a → u.batch x = s.batch x → P u → P (u.endAtOnceRaw x)) :
    P (l.foldl State.endAtOnceRaw s) := by
  have others : ∀ u x y, y ≠ x → (State.endAtOnceRaw u x).batch y = u.batch y := by
    intro u x y h; unfold State.batch; rw [endAtOnceRaw_arm, if_neg h]
  have all : ∀ (l' : List ArmId) (u : State), l'.Nodup → (∀ x ∈ l', x ∈ l ∧ x ≠ a ∧ u.batch x = s.batch x) → P u →
      P (l'.foldl State.endAtOnceRaw u) := by
    intro l'
    induction l' with
    | nil => exact fun _ _ _ k => k
    | cons y l' ih =>
      intro u nd' m k
      have nd' := List.nodup_cons.mp nd'
      obtain ⟨m1, m2, m3⟩ := m y (by simp)
      refine ih _ nd'.2 (fun x hx => ?_) (later u y m1 m2 m3 k)
      obtain ⟨k1, k2, k3⟩ := m x (by simp [hx])
      exact ⟨k1, k2, by rw [others _ _ _ (fun e => by rw [e] at hx; exact nd'.1 hx)]; exact k3⟩
  suffices ∀ (l' : List ArmId) (u : State), l'.Nodup → (∀ x ∈ l', x ∈ l ∧ u.batch x = s.batch x) → a ∈ l' → Q u →
      P (l'.foldl State.endAtOnceRaw u) from this l s nd (fun x hx => ⟨hx, rfl⟩) ha hq
  intro l'
  induction l' with
  | nil => intro u _ _ h; cases h
  | cons y l' ih =>
    intro u nd' m h k
    have nd' := List.nodup_cons.mp nd'
    obtain ⟨m1, m2⟩ := m y (by simp)
    have rest : ∀ x ∈ l', x ∈ l ∧ (State.endAtOnceRaw u y).batch x = s.batch x := fun x hx =>
      ⟨(m x (by simp [hx])).1, by rw [others _ _ _ (fun e => by rw [e] at hx; exact nd'.1 hx)]; exact (m x (by simp [hx])).2⟩
    by_cases hy : y = a
    · subst hy
      refine all l' _ nd'.2 (fun x hx => ⟨(rest x hx).1, fun e => by rw [e] at hx; exact nd'.1 hx, (rest x hx).2⟩)
        (now u (m2.trans hb) k)
    · exact ih _ nd'.2 rest ((List.mem_cons.mp h).resolve_left (Ne.symm hy)) (keep u y m1 hy m2 k)

/-- Ends without settle (R105, R114), for several arms: what each does to its compartment, to the reservations and to the
drawing sets. -/
theorem endAtOnceRaws_ends (l : List ArmId) (s : State) (nd : l.Nodup) {a : ArmId} {b : Batch} (ha : a ∈ l)
    (hb : s.batch a = some b) : ∀ t, t = l.foldl State.endAtOnceRaw s →
    (s.HasComp b.ref → t.CompHas b.ref fun c => CompFlag.endedByReset ∈ c.flags ∧
      c.state = if c.planned ≤ c.gross then .filled else .partly) ∧
    (∀ c, s.CompHas b.ref (· = c) → (∀ d y, d ∈ l → d ≠ a → s.batch d = some y → y.ref ≠ b.ref) →
      t.CompHas b.ref (· = ((c.endCredited s a b).addFlag .endedByReset).endedShort)) ∧
    (∀ i, ∀ r ∈ (t.injector i).reservations, r.ref ≠ b.ref) ∧ a ∉ (t.header b.snapshot.mainHeader).drawing := by
  rintro t rfl
  have ended : ∀ (u : State) (x : ArmId) (y : Batch), u.batch x = some y → u.HasComp y.ref →
      (u.endAtOnceRaw x).CompHas y.ref fun c => CompFlag.endedByReset ∈ c.flags ∧
        c.state = if c.planned ≤ c.gross then .filled else .partly := by
    intro u x y hy ⟨o, c, ho, hc⟩
    refine (State.CompHas.endAtOnceRaw hy ⟨o, c, ho, hc, rfl⟩).mono ?_
    rintro z rfl
    exact ⟨(mem_addTo (CompFlag.mem_all _)).mpr (.inl rfl), rfl⟩
  refine ⟨fun h => ?_, fun c h one => ?_, ?_⟩
  · refine endAtOnceRaws_of (Q := fun u => u.HasComp b.ref) (P := fun u => u.CompHas b.ref fun c =>
      CompFlag.endedByReset ∈ c.flags ∧ c.state = if c.planned ≤ c.gross then .filled else .partly) l s nd ha hb h
      (fun u x _ _ _ k => endAtOnceRaw_hasComp k x)
      (fun u hu k => ended u a b hu k) fun u x _ _ _ k => ?_
    cases hx : u.batch x with
    | none => unfold State.endAtOnceRaw; rw [hx]; exact k
    | some y =>
      by_cases e : y.ref = b.ref
      · rw [← e]
        obtain ⟨o, c, ho, hc, -⟩ := k
        exact ended u x y hx (e ▸ ⟨o, c, ho, hc⟩)
      · exact State.CompHas.endAtOnceRaw_other k fun z hz => by rw [hx] at hz; cases hz; exact e
  · have away : ∀ (u : State) (P : Compartment → Prop) (x : ArmId), x ∈ l → x ≠ a → u.batch x = s.batch x →
        u.CompHas b.ref P → (u.endAtOnceRaw x).CompHas b.ref P := fun u P x hl hx hu k =>
      k.endAtOnceRaw_other fun y hy => one x y hl hx (hu ▸ hy)
    refine endAtOnceRaws_of (Q := fun u => u.CompHas b.ref (· = c) ∧ u.meters = s.meters ∧ u.arm a = s.arm a) l s nd ha hb
      ⟨h, rfl, rfl⟩ (fun u x hl hx hu ⟨k1, k2, k3⟩ => ⟨away u _ x hl hx hu k1, by rw [endAtOnceRaw_eq]; exact k2, ?_⟩)
      (fun u hu ⟨k1, k2, k3⟩ => ?_) fun u x hl hx hu k => away u _ x hl hx hu k
    · rw [endAtOnceRaw_arm, if_neg (Ne.symm hx)]; exact k3
    · have : c.endCredited u a b = c.endCredited s a b := by
        unfold Compartment.endCredited State.creditNow State.meter
        rw [k2, k3]
      rw [← this]
      exact State.CompHas.endAtOnceRaw hu k1
  · refine endAtOnceRaws_of (Q := fun _ => True) l s nd ha hb trivial (fun _ _ _ _ _ _ => trivial)
      (P := fun u => (∀ i, ∀ r ∈ (u.injector i).reservations, r.ref ≠ b.ref) ∧ a ∉ (u.header b.snapshot.mainHeader).drawing)
      (fun u hu _ => ?_) fun u x _ _ _ k => ?_
    · have m := (endAtOnceRaw_leaves u a).2.2 b hu
      exact ⟨m.2, m.1⟩
    · have m := endAtOnceRaw_leaves u x
      exact ⟨fun i r hr => k.1 i r (m.2.1 i r hr), fun e => k.2 (m.1 _ _ e)⟩

theorem endAtOnceRaws_findOrder {n : Nat} {i : SlotId} {o : Order} (l : List ArmId) {s : State}
    (h : s.findOrder n = some (i, o)) :
    ∃ o', (l.foldl State.endAtOnceRaw s).findOrder n = some (i, o') ∧ o'.stage = o.stage := by
  induction l generalizing s o with
  | nil => exact ⟨o, h, rfl⟩
  | cons a l ih =>
    obtain ⟨p, hp, hs⟩ := endAtOnceRaw_findOrder h a
    obtain ⟨q, hq, hs'⟩ := ih hp
    exact ⟨q, hq, hs'.trans hs⟩

/-- The figures of a credit (R112, R113) with the line temperature spelled out. -/
theorem State.creditNow_eq (s : State) (a : ArmId) (b : Batch) (g : Nat) (temp : Option Int)
    (hg : g = b.metering.stepMain + b.metering.stepBlend) (ht : temp = ((s.arm a).mainMeter.bind fun m =>
      if (s.meter m).probe = true ∧ (s.meter m).probeState = .valid then (s.meter m).lastTemp else none)) :
    s.creditNow a b = { gross := g, increment := temp.getD 150 * g, substituted := temp.isNone
                        net := match temp with
                          | some x => (2 * (g * correctionFactor b.snapshot.correction x) + 10000) / 20000
                          | none => g } := by
  have e : (s.arm a).mainMeter.bind (fun m => (s.meter m).lineTemperature) = temp := by
    rw [ht]
    cases (s.arm a).mainMeter with
    | none => rfl
    | some m => rfl
  unfold State.creditNow
  dsimp only
  rw [e, ← hg]
  unfold creditFor roundHalfUp
  cases temp with
  | none =>
    dsimp only
    have : (2 * (g * 10000) + 10000) / (2 * 10000) = g := by omega
    rw [this]; rfl
  | some x => rfl


end Sys2Proof.Machine
end

