-- ==== Sys2Proof/Laws/Esd.lean ====
section
/-! SUPPORT. The end of a proving run by an abort or by ESD (R148), and what ESD becoming active does at the injectors
(R137): to the injector itself, and to the batches that it has reached before. -/

namespace Sys2Proof.Machine

set_option Elab.async false

/-- The stock of an injector lowered: the record and the flags, written out (R125). -/
theorem State.lowerStock_eq (s : State) (i : InjectorId) (amount : Nat) :
    s.lowerStock i amount = { s with
      injectors := vset s.injectors i { s.injector i with stock := (s.injector i).stock - amount }
      flags := if (s.injector i).mark ≤ (s.injector i).stock ∧ (s.injector i).stock - amount < (s.injector i).mark
        then addTo EventFlag.all .stockLow s.flags else s.flags } := by
  unfold State.lowerStock State.putStock
  dsimp only
  split <;> rfl

/-- What the shot under way of a run has measured, credited to the stock (R148). -/
theorem State.creditUnowned (s : State) (i : InjectorId) (x : Injector) (q stock : Nat) (hx : s.injector i = x)
    (ho : x.shot.all (fun y => y.owner.isNone) = true) (hq : q = x.shot.elim 0 (·.counted))
    (hst : stock = x.stock - (2 * (q * 1000) + x.k) / (2 * x.k)) :
    s.abortProving i = (({ s with
      injectors := vset s.injectors i { x with stock := stock }
      flags := if x.mark ≤ x.stock ∧ stock < x.mark then addTo EventFlag.all .stockLow s.flags else s.flags } : State
      ).modInjector i fun j => { j with shot := none, proving := none }).setInjectorState i .idle := by
  unfold State.abortProving
  rcases Option.eq_none_or_eq_some x.shot with hy | ⟨y, hy⟩
  · have e : stock = x.stock := by
      rw [hst, hq, hy]
      rcases Nat.eq_zero_or_pos x.k with h | h
      · simp [h]
      · simp only [Option.elim_none, Nat.zero_mul, Nat.mul_zero, Nat.zero_add]
        rw [Nat.div_eq_of_lt (by omega)]; rfl
    have u : ({ s with
        injectors := vset s.injectors i { x with stock := stock }
        flags := if x.mark ≤ x.stock ∧ stock < x.mark then addTo EventFlag.all .stockLow s.flags else s.flags } : State)
        = s := by
      rw [e, if_neg (by omega), ← hx]
      exact congrArg (fun v => ({ s with injectors := v } : State)) (vset_vget_same _ _)
    rw [u, hx, hy]
  · rw [hy] at ho hq
    have hn : y.owner = none := by simpa using ho
    have m : x.stock - (s.injector i).measured y.counted = stock := by rw [hst, hq, hx]; rfl
    have k : s.creditShot i y = s.lowerStock i ((s.injector i).measured y.counted) := by
      unfold State.creditShot; rw [hn]
    rw [hx, hy]
    dsimp only
    rw [hx] at m
    rw [k, State.lowerStock_eq, hx]
    simp only [m, hy]

/-- The end of a run by an abort (R148): the stock lowered by what the shot under way has measured, the run and its shot
discarded, the change handed on (R101, R123). -/
theorem State.abortProving_removed (s : State) (i : InjectorId) (x : Injector) (q stock : Nat) (hx : s.injector i = x)
    (hs : x.state ≠ .idle) (ho : x.shot.all (fun y => y.owner.isNone) = true) (hq : q = x.shot.elim 0 (·.counted))
    (hst : stock = x.stock - (2 * (q * 1000) + x.k) / (2 * x.k)) :
    State.AdditiveRemoved { s with
      injectors := vset s.injectors i { x with state := .idle, shot := none, proving := none, stock := stock }
      flags := if x.mark ≤ x.stock ∧ stock < x.mark then addTo EventFlag.all .stockLow s.flags else s.flags }
      (s.abortProving i) i := by
  rw [State.creditUnowned s i x q stock hx ho hq hst]
  generalize hu : ({ s with
        injectors := vset s.injectors i { x with stock := stock }
        flags := if x.mark ≤ x.stock ∧ stock < x.mark then addTo EventFlag.all .stockLow s.flags else s.flags } : State) = u
  have hui : u.injector i = { x with stock := stock } := by rw [← hu]; simp [State.injector]
  have k := State.setInjectorState_removed (u.modInjector i fun j => { j with shot := none, proving := none }) i .idle
    (by rw [State.injector_modInjector_same, hui]; exact hs)
  refine Eq.mp (congrArg (fun u => State.AdditiveRemoved u _ i) ?_) k
  rw [State.injector_modInjector_same, hui]
  unfold State.modInjector
  dsimp only
  rw [hui, ← hu]
  simp only [vset_vset]

/-- What ESD at one injector leaves of everything but that injector: headers, the other injectors, flags set, the states
of compartments; of the batches only ADDITIVE can leave a hold set. -/
structure State.EsdStep (u v : State) (i : InjectorId) : Prop where
  headers : v.headers = u.headers
  batch : ∀ a, v.batch a = u.batch a ∨ ∃ b, u.batch a = some b ∧ b.state = .held ∧
    v.batch a = some { b with holdSet := dropFrom .additive b.holdSet }
  comp : ∀ (P : Compartment → Prop) (q : CompRef), (∀ c f, P c → P (c.modResult i f)) →
    (∃ o c, u.orderOf q = some o ∧ o.comp q.comp = some c ∧ P c) →
    ∃ o c, v.orderOf q = some o ∧ o.comp q.comp = some c ∧ P c
  queue : ∀ e ∈ (v.injector i).queue, e ∈ (u.injector i).queue
  others : ∀ j, j ≠ i → v.injector j = u.injector j
  flags : ∀ f ∈ u.flags, f ∈ v.flags

theorem State.EsdStep.setInjectorState {u v : State} {i : InjectorId} (h : State.EsdStep u v i) (st : InjectorState)
    (hb : ∀ a, v.batch a = u.batch a) (hs : (v.injector i).state ≠ st) : State.EsdStep u (v.setInjectorState i st) i := by
  have k := State.setInjectorState_removed v i st hs
  have he : ∀ j, (v.setInjectorState i st).injector j = if j = i then { v.injector i with state := st } else v.injector j := by
    intro j
    rw [k.1]
    show vget (vset v.injectors i { v.injector i with state := st }) j = _
    rw [vget_vset]
    rfl
  refine ⟨by rw [k.1]; exact h.headers, fun a => ?_, fun P q hP x => ?_, fun e m => ?_, fun j hj => ?_, fun f m => ?_⟩
  · have m := congrArg Arm.batch (k.2 a)
    replace m : (v.setInjectorState i st).batch a = _ := m
    rw [m]
    rw [show State.batch { v with injectors := vset v.injectors i { v.injector i with state := st } } a = u.batch a
      from hb a]
    cases hx : u.batch a with
    | none => exact .inl rfl
    | some b =>
      rw [Option.map_some]
      split
      · rename_i c; exact .inr ⟨b, rfl, c.1, rfl⟩
      · exact .inl rfl
  · rw [k.1]; exact h.comp P q hP x
  · rw [he, if_pos rfl] at m; exact h.queue e m
  · rw [he, if_neg hj]; exact h.others j hj
  · rw [k.1]; exact h.flags f m

theorem State.EsdStep.modInjector {u v : State} {i : InjectorId} (h : State.EsdStep u v i) (f : Injector → Injector)
    (hf : ∀ x, ∀ e ∈ (f x).queue, e ∈ x.queue) : State.EsdStep u (v.modInjector i f) i := by
  refine ⟨h.headers, h.batch, h.comp, fun e m => ?_, fun j hj => ?_, h.flags⟩
  · rw [State.injector_modInjector_same] at m; exact h.queue e (hf _ e m)
  · rw [← h.others j hj]; exact vget_vset_ne _ _ hj

theorem State.EsdStep.refl (u : State) (i : InjectorId) : State.EsdStep u u i :=
  ⟨rfl, fun _ => .inl rfl, fun _ _ _ h => h, fun _ h => h, fun _ _ => rfl, fun _ h => h⟩

/-- The credit of a shot (R131). -/
theorem State.creditShot_esdStep (u : State) (i : InjectorId) (x : Shot) : State.EsdStep u (u.creditShot i x) i ∧
    (∀ a, (u.creditShot i x).batch a = u.batch a) ∧ ((u.creditShot i x).injector i).state = (u.injector i).state := by
  have low : ∀ v n, State.EsdStep u v i → State.EsdStep u (v.lowerStock i n) i := by
    intro v n h
    rw [State.lowerStock_eq]
    have k := h.modInjector (fun x => { x with stock := x.stock - n }) fun _ _ h => h
    exact ⟨k.headers, k.batch, k.comp, k.queue, k.others, fun f m => by
      show f ∈ if _ then _ else _
      split
      · exact (mem_addTo (EventFlag.mem_all _)).mpr (.inr (h.flags f m))
      · exact h.flags f m⟩
  have ls : ∀ (v : State) n, ((v.lowerStock i n).injector i).state = (v.injector i).state := by
    intro v n; rw [State.lowerStock_eq]; simp [State.injector]
  have res : ∀ r n, State.EsdStep u (u.creditResult r i n) i ∧ (u.creditResult r i n).injectors = u.injectors ∧
      (u.creditResult r i n).arms = u.arms := by
    intro r n
    unfold State.creditResult
    split
    · split
      · rename_i z _
        obtain ⟨-, -, k, hk⟩ := u.bounded_spec 2000000 (z.delivered + n)
        dsimp only
        refine ⟨⟨by rw [State.modComp_eq, hk], fun a => .inl (by rw [State.modComp_eq, hk]; rfl), fun P q hP h => ?_,
          fun e m => by rw [State.modComp_eq, hk] at m; exact m, fun j _ => by rw [State.modComp_eq, hk]; rfl,
          fun f m => by rw [State.modComp_eq, hk]; exact m⟩, by rw [State.modComp_eq, hk], by rw [State.modComp_eq, hk]⟩
        exact State.modComp_still _ _ q _ (fun _ => rfl) (fun c => hP c _) (by rw [hk]; exact h)
      · exact ⟨.refl u i, rfl, rfl⟩
    · exact ⟨.refl u i, rfl, rfl⟩
  unfold State.creditShot
  dsimp only
  split
  · rename_i o _
    obtain ⟨k, e, ea⟩ := res o.ref ((u.injector i).measured x.counted)
    refine ⟨(low _ _ k).modInjector _ fun _ _ h => h, fun a => ?_, ?_⟩
    · show (State.lowerStock _ i _).batch a = _
      rw [State.lowerStock_eq]; unfold State.batch State.arm; dsimp only; rw [ea]
    · rw [State.injector_modInjector_same]
      exact (ls _ _).trans (congrArg (fun v => (vget v i).state) e)
  · exact ⟨low u _ (.refl u i), fun a => by rw [State.lowerStock_eq]; rfl, ls u _⟩

theorem State.esdInjector_step (u : State) (i : InjectorId) : State.EsdStep u (u.esdInjector i) i := by
  unfold State.esdInjector
  split
  · rename_i hs
    have ab : ∀ v : State, State.EsdStep u v i → (∀ a, v.batch a = u.batch a) → (v.injector i).state = (u.injector i).state →
        State.EsdStep u ((v.modInjector i fun j => { j with shot := none, proving := none }).setInjectorState i .idle) i := by
      intro v h hb hi
      have m := h.modInjector (fun j => { j with shot := none, proving := none }) fun _ _ h => h
      exact m.setInjectorState .idle hb (by
        rw [State.injector_modInjector_same]; show (v.injector i).state ≠ _; rw [hi, hs]; decide)
    unfold State.abortProving
    dsimp only
    split
    · rename_i y _; have k := u.creditShot_esdStep i y; exact ab _ k.1 k.2.1 k.2.2
    · exact ab u (.refl u i) (fun _ => rfl) rfl
  · exact (State.EsdStep.refl u i).modInjector _ fun _ _ h => by cases h

/-- A batch that ESD has reached stays as the trip left it while the injectors follow (R99, R100, R137). -/
theorem State.TripReached.esdInjector {s u : State} {a : ArmId} (h : s.TripReached u a .esd) (i : InjectorId) :
    s.TripReached (u.esdInjector i) a .esd := by
  have k := u.esdInjector_step i
  refine ⟨fun b hb hf => ?_, fun b hb hs => ?_⟩
  · obtain ⟨⟨d, hd, hu⟩, hc, hdr, hq, hfl⟩ := h.flowing b hb hf
    refine ⟨⟨d, hd, ?_⟩, fun o c ho hk => k.comp (fun x => x.state = .held) b.ref (fun _ _ h => h) (hc o c ho hk), ?_,
      fun j e m => ?_, k.flags _ hfl⟩
    · rcases k.batch a with e | ⟨b', e1, -, e2⟩
      · rw [e, hu]
      · rw [hu, Option.some.injEq] at e1; rw [e2, ← e1]; rfl
    · unfold State.header; rw [k.headers]; exact hdr
    · by_cases hj : j = i
      · subst hj; exact hq j e (k.queue e m)
      · rw [k.others j hj] at m; exact hq j e m
  · obtain ⟨⟨d, hd, hu⟩, hc⟩ := h.closing b hb hs
    refine ⟨⟨d, hd, ?_⟩, fun o c ho hk =>
      k.comp (fun x => CompFlag.closedUnderTrip ∈ x.flags) b.ref (fun _ _ h => h) (hc o c ho hk)⟩
    rcases k.batch a with e | ⟨b', e1, e3, -⟩
    · rw [e, hu]
    · rw [hu, Option.some.injEq] at e1
      rw [← e1] at e3
      rw [show b.state = .held from e3] at hs; cases hs

/-- What holds have done to an injector: entries gone from its queue, and its shot no longer queued once the entry in
service is gone (R99, R136). -/
structure Injector.Bereft (x y : Injector) : Prop where
  rest : y = { x with queue := y.queue, shot := y.shot }
  queue : ∀ e ∈ y.queue, e ∈ x.queue
  shot : (y.shot = x.shot ∧ y.queue.any (·.inService) = x.queue.any (·.inService)) ∨
    (y.shot = x.shot.map (fun z => { z with queued := false }) ∧ x.queue.any (·.inService) = true)

theorem Injector.Bereft.refl (x : Injector) : x.Bereft x := ⟨rfl, fun _ h => h, .inl ⟨rfl, rfl⟩⟩

theorem Injector.Bereft.removeEntries {x y : Injector} (h : x.Bereft y) (a : ArmId) : x.Bereft { y with
    queue := y.queue.filter fun e => decide (e.arm ≠ a)
    shot := if y.queue.any fun e => decide (e.arm = a) && e.inService
      then y.shot.map fun x => { x with queued := false } else y.shot } := by
  refine ⟨by rw [h.rest], fun e m => h.queue e (List.mem_filter.mp m).1, ?_⟩
  dsimp only
  by_cases c : y.queue.any (fun e => decide (e.arm = a) && e.inService) = true
  · rw [if_pos c]
    right
    obtain ⟨e, he, hp⟩ := List.any_eq_true.mp c
    rw [Bool.and_eq_true] at hp
    refine ⟨?_, List.any_eq_true.mpr ⟨e, h.queue e he, hp.2⟩⟩
    rcases h.shot with ⟨e, -⟩ | ⟨e, -⟩ <;> rw [e]
    rw [Option.map_map]; rfl
  · rw [if_neg c]
    rcases h.shot with ⟨e, k⟩ | k
    · left
      refine ⟨e, k ▸ ?_⟩
      rw [Bool.eq_iff_iff]
      simp only [List.any_eq_true, List.mem_filter, decide_eq_true_eq]
      refine ⟨fun ⟨e, h, k⟩ => ⟨e, h.1, k⟩, fun ⟨e, h, k⟩ => ⟨e, ⟨h, fun ha => c ?_⟩, k⟩⟩
      exact List.any_eq_true.mpr ⟨e, h, by simp [ha, k]⟩
    · exact .inr k

theorem State.handCausesRaw_bereft (l : List ArmId) (s : State) (c : HoldCause) (i : InjectorId) {x : Injector}
    (h : x.Bereft (s.injector i)) : x.Bereft ((s.handCausesRaw l c).injector i) := by
  induction l generalizing s with
  | nil => exact h
  | cons a l ih =>
    refine ih (s.handCauseRaw a c) ?_
    have hh : ∀ b, x.Bereft ((s.enterHeldRaw a b c).injector i) := by
      intro b
      unfold State.injector
      rw [enterHeldRaw_injectors]
      simp only [State.removeQueueEntries, vget_vmap]
      exact h.removeEntries a
    unfold State.handCauseRaw
    split
    · exact h
    · split
      · exact h
      · split
        · rw [State.modComp_eq]; exact h
        · exact h
      all_goals exact hh _

/-- The ceilings computed after holds leave the injectors alone (R98). -/
theorem State.handCauses_bereft (s : State) (l : List ArmId) (c : HoldCause) (i : InjectorId) :
    (s.injector i).Bereft ((s.handCauses l c).injector i) := by
  have e := s.handCauses_eased l c
  rw [show (s.handCauses l c).injector i = (s.handCausesRaw l c).injector i by rw [e.eq]; rfl]
  exact s.handCausesRaw_bereft l c i (.refl _)

/-- What ESD does at an injector that is not in PROVING, whatever holds have taken from it before (R137). -/
theorem Injector.Bereft.esd {x : Injector} {u : State} {i : InjectorId} (h : x.Bereft (u.injector i))
    (hs : x.state ≠ .proving) : (u.esdInjector i).injector i = { x with
      queue := []
      shot := x.shot.map fun y => { y with
        phase := .tail, queued := y.queued && !x.queue.any (·.inService)
        outcome := if y.phase = .opened then .ended else y.outcome
        window := if y.phase = .opened then none else y.window
        tail := if y.phase = .opened then some 1000 else y.tail } } := by
  have st : (u.injector i).state = x.state := by rw [h.rest]
  unfold State.esdInjector
  rw [if_neg (st ▸ hs), State.injector_modInjector_same]
  have key : ∀ y : Shot, y.esdEnd = { y with
      phase := .tail
      outcome := if y.phase = .opened then .ended else y.outcome
      window := if y.phase = .opened then none else y.window
      tail := if y.phase = .opened then some 1000 else y.tail } := by
    intro y
    unfold Shot.esdEnd Shot.close
    cases hp : y.phase
    · rfl
    · simp only [reduceCtorEq, if_false]; rw [← hp]
  rw [h.rest]
  dsimp only
  congr 1
  rcases h.shot with ⟨e, k⟩ | ⟨e, k⟩
  · rw [e, k]
    congr 1; funext y
    rw [key]
    cases x.queue.any (·.inService) <;> simp
  · rw [e, k, Option.map_map]
    congr 1; funext y
    simp only [Function.comp_apply, key]
    split <;> simp

/-- What ESD does at an injector in PROVING (R148). -/
theorem Injector.Bereft.esdProving {x : Injector} {u : State} {i : InjectorId} (h : x.Bereft (u.injector i))
    (hs : x.state = .proving) (ho : x.shot.all (fun y => y.owner.isNone) = true) (q stock : Nat)
    (hq : q = x.shot.elim 0 (·.counted)) (hst : stock = x.stock - (2 * (q * 1000) + x.k) / (2 * x.k)) :
    (u.esdInjector i).injector i = { x with
      state := .idle, shot := none, proving := none, stock := stock, queue := ((u.esdInjector i).injector i).queue } ∧
    (∀ e ∈ ((u.esdInjector i).injector i).queue, e ∈ x.queue) ∧
    (x.mark ≤ x.stock → stock < x.mark → EventFlag.stockLow ∈ (u.esdInjector i).flags) := by
  have st : (u.injector i).state = x.state := by rw [h.rest]
  unfold State.esdInjector
  rw [if_pos (st.trans hs)]
  generalize hy : u.injector i = y at h st
  have e := h.rest
  have sh : y.shot.all (fun y => y.owner.isNone) = true ∧ y.shot.elim 0 (·.counted) = x.shot.elim 0 (·.counted) := by
    rcases h.shot with ⟨e, -⟩ | ⟨e, -⟩ <;> rw [e]
    · exact ⟨ho, rfl⟩
    · cases hx : x.shot with
      | none => exact ⟨rfl, rfl⟩
      | some z => rw [hx] at ho; exact ⟨ho, rfl⟩
  have k := u.abortProving_removed i y q stock hy (by rw [st, hs]; decide) sh.1 (hq.trans sh.2.symm) (by rw [hst, e])
  have ki : (u.abortProving i).injector i
      = { y with state := .idle, shot := none, proving := none, stock := stock } := by
    rw [k.1]; simp [State.injector]
  refine ⟨?_, fun e m => h.queue e (by rw [ki] at m; exact m), fun m1 m2 => ?_⟩
  · rw [ki, e]
  · rw [k.1]
    show _ ∈ if _ then _ else _
    rw [if_pos (by rw [e]; exact ⟨m1, m2⟩)]
    exact (mem_addTo (EventFlag.mem_all _)).mpr (.inl rfl)

/-- The injectors follow one after the other; each is reached once (R137, R148). -/
theorem State.esdInjectors_at {P : State → Prop} (l : List InjectorId) (nd : l.Nodup) (s : State) (i : InjectorId)
    (hi : i ∈ l) {Q : State → Prop} (hq : Q s) (before : ∀ u j, j ≠ i → Q u → Q (u.esdInjector j))
    (now : ∀ u, Q u → P (u.esdInjector i)) (after : ∀ u j, j ≠ i → P u → P (u.esdInjector j)) :
    P (l.foldl State.esdInjector s) := by
  induction l generalizing s with
  | nil => cases hi
  | cons j l ih =>
    rw [List.nodup_cons] at nd
    by_cases hj : j = i
    · subst hj
      have go : ∀ (l : List InjectorId) (u : State), j ∉ l → P u → P (l.foldl State.esdInjector u) := by
        intro l
        induction l with
        | nil => exact fun _ _ h => h
        | cons k l ih =>
          intro u hn hp
          rw [List.mem_cons, not_or] at hn
          exact ih _ hn.2 (after u k (Ne.symm hn.1) hp)
      exact go l _ nd.1 (now s hq)
    · exact ih nd.2 _ ((List.mem_cons.mp hi).resolve_left (Ne.symm hj)) (before s j hj hq)

end Sys2Proof.Machine
end

