-- ==== Sys2Proof/Laws/Frames.lean ====
section
/-! SUPPORT. What the hunt of the host link does with a whole frame (R167): one lemma for a byte between frames, for a
length out of range, for a frame whose CRC fails and for an accepted one, and for a frame that comes in parts. -/

namespace Sys2Proof.Machine

/-- The length field of a frame as its two bytes spell it. -/
theorem length_field (l0 l1 : Byte) : ofLittleEndian [l0, l1] = l0.toNat + 256 * l1.toNat := by
  simp [ofLittleEndian]

/-- A byte between frames other than 0xA5 is skipped. -/
theorem hunt_noise (b : Byte) (rest : List Byte) (h : b ≠ 0xA5) : hunt [] (b :: rest) = hunt [] rest := by
  have wait : huntByte [] b = .waiting [] := if_pos ⟨rfl, h⟩
  simp only [hunt, wait]

/-- The start byte and the first length byte wait for the next. -/
theorem hunt_start (rest : List Byte) : hunt [] (0xA5 :: rest) = hunt [0xA5] rest := by
  simp [hunt, huntByte, hostStart, judgeFrame]

theorem hunt_low (l0 : Byte) (rest : List Byte) : hunt [0xA5] (l0 :: rest) = hunt [0xA5, l0] rest := by
  simp [hunt, huntByte, judgeFrame]

/-- A length out of range discards the three bytes. -/
theorem hunt_badLength (l0 l1 : Byte) (rest : List Byte)
    (h : l0.toNat + 256 * l1.toNat < 2 ∨ 502 < l0.toNat + 256 * l1.toNat) :
    hunt [0xA5, l0] (l1 :: rest) = { hunt [] rest with discarded := [0xA5, l0, l1] :: (hunt [] rest).discarded } := by
  have : judgeFrame [0xA5, l0, l1] = .discarded [0xA5, l0, l1] := by
    simp only [judgeFrame, length_field]
    rw [if_pos h]
  simp only [hunt, huntByte, List.cons_ne_nil, false_and, if_false, List.cons_append, List.nil_append, this]

/-- While bytes of a frame are missing it waits for them. -/
theorem judgeFrame_part (l0 l1 : Byte) (part : List Byte) (h2 : 2 ≤ l0.toNat + 256 * l1.toNat)
    (h502 : l0.toNat + 256 * l1.toNat ≤ 502) (hp : part.length < l0.toNat + 256 * l1.toNat + 2) :
    judgeFrame (0xA5 :: l0 :: l1 :: part) = .waiting (0xA5 :: l0 :: l1 :: part) := by
  simp only [judgeFrame, length_field]
  rw [if_neg (by omega), if_pos hp]

theorem hunt_length (l0 l1 : Byte) (rest : List Byte) (h2 : 2 ≤ l0.toNat + 256 * l1.toNat)
    (h502 : l0.toNat + 256 * l1.toNat ≤ 502) : hunt [0xA5, l0] (l1 :: rest) = hunt [0xA5, l0, l1] rest := by
  simp only [hunt, huntByte, List.cons_ne_nil, false_and, if_false, List.cons_append, List.nil_append,
    judgeFrame_part l0 l1 [] h2 h502 (by simp)]

/-- A frame that comes in parts is hunted as if it came whole. -/
theorem hunt_part (l0 l1 : Byte) (h2 : 2 ≤ l0.toNat + 256 * l1.toNat) (h502 : l0.toNat + 256 * l1.toNat ≤ 502)
    (more rest part : List Byte) (h : part.length + more.length < l0.toNat + 256 * l1.toNat + 2) :
    hunt (0xA5 :: l0 :: l1 :: part) (more ++ rest) = hunt (0xA5 :: l0 :: l1 :: (part ++ more)) rest := by
  induction more generalizing part with
  | nil => simp
  | cons b more ih =>
    simp only [List.length_cons] at h
    have hj := judgeFrame_part l0 l1 (part ++ [b]) h2 h502 (by simp; omega)
    have step : hunt (0xA5 :: l0 :: l1 :: part) (b :: (more ++ rest))
        = hunt (0xA5 :: l0 :: l1 :: (part ++ [b])) (more ++ rest) := by
      simp only [hunt, huntByte, List.cons_ne_nil, false_and, if_false, List.cons_append, hj]
    rw [List.cons_append, step, ih (part ++ [b]) (by simp; omega)]
    simp

/-- The part of a frame held, and the bytes that follow it. -/
theorem hunt_resumes (l0 l1 : Byte) (h2 : 2 ≤ l0.toNat + 256 * l1.toNat) (h502 : l0.toNat + 256 * l1.toNat ≤ 502)
    (part rest : List Byte) (h : part.length < l0.toNat + 256 * l1.toNat + 2) :
    hunt (0xA5 :: l0 :: l1 :: part) rest = hunt [] (0xA5 :: l0 :: l1 :: part ++ rest) := by
  have := hunt_part l0 l1 h2 h502 part rest [] (by simpa using h)
  rw [List.nil_append] at this
  rw [List.cons_append, List.cons_append, List.cons_append, hunt_start, hunt_low, hunt_length _ _ _ h2 h502, this]

/-- The content of a frame of the right length with a CRC behind it, as the port reads it. -/
theorem acceptedContent_frame (l0 l1 : Byte) (content crc : List Byte) (h2 : 2 ≤ l0.toNat + 256 * l1.toNat)
    (h502 : l0.toNat + 256 * l1.toNat ≤ 502) (hc : content.length = l0.toNat + 256 * l1.toNat) (hr : crc.length = 2) :
    acceptedContent (0xA5 :: l0 :: l1 :: (content ++ crc)) =
      if crc = crcBytes (l0 :: l1 :: content) then
        match content with
        | kind :: tag :: body => some (kind, tag, body)
        | _ => none
      else none := by
  have ht : (content ++ crc).take (l0.toNat + 256 * l1.toNat) = content := by rw [← hc]; simp
  have hd : (content ++ crc).drop (l0.toNat + 256 * l1.toNat) = crc := by rw [← hc]; simp
  have hl : (content ++ crc).length = l0.toNat + 256 * l1.toNat + 2 := by simp [hc, hr]
  by_cases h : crc = crcBytes (l0 :: l1 :: content)
  · have h' : (0xA5 : Byte) = hostStart ∧ 2 ≤ l0.toNat + 256 * l1.toNat ∧ l0.toNat + 256 * l1.toNat ≤ 502 ∧
        (content ++ crc).length = l0.toNat + 256 * l1.toNat + 2 ∧ crc = crcBytes (l0 :: l1 :: content) :=
      ⟨rfl, h2, h502, hl, h⟩
    simp only [acceptedContent, length_field, ht, hd]
    rw [if_pos h', if_pos h]
    all_goals rcases content with _ | ⟨kind, _ | ⟨tag, body⟩⟩ <;> rfl
  · simp only [acceptedContent, length_field, ht, hd]
    rw [if_neg (fun h' => h h'.2.2.2.2), if_neg h]

/-- A whole frame: its CRC decides between the content accepted and a discard behind which hunting goes on. -/
theorem hunt_frame (l0 l1 : Byte) (content crc rest : List Byte) (h2 : 2 ≤ l0.toNat + 256 * l1.toNat)
    (h502 : l0.toNat + 256 * l1.toNat ≤ 502) (hc : content.length = l0.toNat + 256 * l1.toNat) (hr : crc.length = 2) :
    (crc ≠ crcBytes (l0 :: l1 :: content) → hunt [] (0xA5 :: l0 :: l1 :: content ++ crc ++ rest) = { hunt [] rest with
      discarded := (0xA5 :: l0 :: l1 :: content ++ crc) :: (hunt [] rest).discarded }) ∧
    (crc = crcBytes (l0 :: l1 :: content) → ∀ kind tag body, content = kind :: tag :: body →
      hunt [] (0xA5 :: l0 :: l1 :: content ++ crc ++ rest)
        = { buffer := [], discarded := [], accepted := some (kind, tag, body) }) := by
  obtain ⟨c0, c1, rfl⟩ : ∃ c0 c1, crc = [c0, c1] := by
    match crc, hr with
    | [c0, c1], _ => exact ⟨c0, c1, rfl⟩
  have wait : hunt [] (0xA5 :: l0 :: l1 :: content ++ [c0, c1] ++ rest)
      = hunt (0xA5 :: l0 :: l1 :: (content ++ [c0])) (c1 :: rest) := by
    have := hunt_resumes l0 l1 h2 h502 (content ++ [c0]) (c1 :: rest) (by simp [hc])
    rw [this]; simp
  have accept := acceptedContent_frame l0 l1 content [c0, c1] h2 h502 hc rfl
  have judge : judgeFrame (0xA5 :: l0 :: l1 :: (content ++ [c0, c1]))
      = match acceptedContent (0xA5 :: l0 :: l1 :: (content ++ [c0, c1])) with
        | some (kind, tag, body) => .accepted kind tag body
        | none => .discarded (0xA5 :: l0 :: l1 :: (content ++ [c0, c1])) := by
    simp only [judgeFrame, length_field]
    rw [if_neg (by omega), if_neg (by simp [hc])]
    all_goals rcases acceptedContent (0xA5 :: l0 :: l1 :: (content ++ [c0, c1])) with _ | ⟨kind, tag, body⟩ <;> rfl
  constructor
  · intro h
    rw [if_neg h] at accept
    rw [accept] at judge
    rw [wait]
    simp only [hunt, huntByte, List.cons_ne_nil, false_and, if_false, List.cons_append, List.append_assoc,
      List.nil_append, judge]
  · rintro h kind tag body rfl
    rw [if_pos h] at accept
    rw [accept] at judge
    rw [wait]
    simp only [hunt, huntByte, List.cons_ne_nil, false_and, if_false, List.cons_append, List.append_assoc,
      List.nil_append] at judge ⊢
    rw [judge]

/-- A stretch of bytes may be cut anywhere: the hunt goes on with what the first part left under way. -/
theorem hunt_append (x y buffer : List Byte) (h : (hunt buffer x).accepted = none) :
    hunt buffer (x ++ y) = { hunt (hunt buffer x).buffer y with
      discarded := (hunt buffer x).discarded ++ (hunt (hunt buffer x).buffer y).discarded } := by
  induction x generalizing buffer with
  | nil => rfl
  | cons b x ih =>
    rw [List.cons_append]
    simp only [hunt] at h ⊢
    split
    · rename_i e; simp only [e] at h; exact ih _ h
    · rename_i e; simp only [e] at h; rw [ih _ h]; rfl
    · rename_i e; simp only [e] at h; cases h

/-- The bytes of a frame under way, as the hunt leaves them: hunted over they are under way again. -/
def UnderWay (buffer : List Byte) : Prop := hunt [] buffer = { buffer := buffer, discarded := [], accepted := none }

theorem judgeFrame_cases (frame : List Byte) : judgeFrame frame = .waiting frame ∨ judgeFrame frame = .discarded frame ∨
    ∃ kind tag body, judgeFrame frame = .accepted kind tag body := by
  unfold judgeFrame
  split
  · dsimp only
    split_ifs
    · exact .inr (.inl rfl)
    · exact .inl rfl
    · split
      · exact .inr (.inr ⟨_, _, _, rfl⟩)
      · exact .inr (.inl rfl)
  · exact .inl rfl

theorem huntByte_waiting {buffer next : List Byte} {b : Byte} (h : huntByte buffer b = .waiting next) :
    next = [] ∨ next = buffer ++ [b] := by
  unfold huntByte at h
  split at h
  · cases h; exact .inl rfl
  · rcases judgeFrame_cases (buffer ++ [b]) with e | e | ⟨_, _, _, e⟩ <;> rw [e] at h <;> cases h
    exact .inr rfl

theorem huntByte_discarded {buffer frame : List Byte} {b : Byte} (h : huntByte buffer b = .discarded frame) :
    frame = buffer ++ [b] := by
  unfold huntByte at h
  split at h
  · cases h
  · rcases judgeFrame_cases (buffer ++ [b]) with e | e | ⟨_, _, _, e⟩ <;> rw [e] at h <;> cases h
    rfl

theorem UnderWay.append {buffer : List Byte} (h : UnderWay buffer) (y : List Byte) : hunt [] (buffer ++ y) = hunt buffer y := by
  have k : hunt [] buffer = { buffer := buffer, discarded := [], accepted := none } := h
  rw [hunt_append _ _ _ (by rw [k]), k]
  rfl

/-- From a frame under way, what the hunt leaves is under way, and each frame it discards is one on its own. -/
theorem hunt_leaves (received buffer : List Byte) (u : UnderWay buffer) (h : (hunt buffer received).accepted = none) :
    UnderWay (hunt buffer received).buffer ∧ ∀ frame ∈ (hunt buffer received).discarded,
      hunt [] frame = { buffer := [], discarded := [frame], accepted := none } := by
  induction received generalizing buffer with
  | nil => exact ⟨u, fun f hf => by cases hf⟩
  | cons b rest ih =>
    have one : hunt [] (buffer ++ [b]) = hunt buffer [b] := u.append [b]
    simp only [hunt] at h one ⊢
    split
    · rename_i next e
      simp only [e] at h one
      refine ih _ ?_ h
      rcases huntByte_waiting e with rfl | rfl
      · rfl
      · exact one
    · rename_i frame e
      simp only [e] at h one
      obtain ⟨k1, k2⟩ := ih [] rfl h
      refine ⟨k1, fun f hf => ?_⟩
      rcases List.mem_cons.mp hf with rfl | hf
      · rw [← huntByte_discarded e] at one; exact one
      · exact k2 f hf
    · rename_i e; simp only [e] at h; cases h

/-- The operand of the last discard of a stretch: the frame discarded and what is then under way. -/
theorem hunt_last (received buffer last : List Byte) (frames : List (List Byte)) (u : UnderWay buffer)
    (h : (hunt buffer received).accepted = none) (hd : (hunt buffer received).discarded = frames ++ [last]) :
    hunt [] (last ++ (hunt buffer received).buffer)
      = { buffer := (hunt buffer received).buffer, discarded := [last], accepted := none } := by
  obtain ⟨k1, k2⟩ := hunt_leaves received buffer u h
  have k2 := k2 last (by rw [hd]; simp)
  have k1 : hunt [] (hunt buffer received).buffer
      = { buffer := (hunt buffer received).buffer, discarded := [], accepted := none } := k1
  rw [hunt_append _ _ _ (by rw [k2]), k2]
  dsimp only
  rw [k1]
  rfl

theorem discardOperands_last (frames : List (List Byte)) (last rest : List Byte) :
    discardOperands (frames ++ [last]) rest = frames ++ [last ++ rest] := by
  induction frames with
  | nil => rfl
  | cons f frames ih =>
    cases frames with
    | nil => rfl
    | cons g l => rw [List.cons_append, List.cons_append]; unfold discardOperands; rw [← List.cons_append, ih]; rfl

end Sys2Proof.Machine
end

