-- ==== Sys2Proof/Laws/Panels.lean ====
section
/-! SUPPORT. What the panel's fields and rows are: decimal digits, widths, and the size of a frame (R160, R161). -/

namespace Sys2Proof.Machine

set_option Elab.async false

/-- A number in decimal: its digits, the first of them 0 only for 0. -/
theorem decimal_digits (fuel n : Nat) (h : n < 10 ^ fuel) (hf : 0 < fuel) : ∃ digits : List (Fin 10),
    decimal fuel n = digits.map (fun d => Fin.ofNat 64 (d.val + 1)) ∧ digits ≠ [] ∧
    digits.foldl (fun sum d => 10 * sum + d.val) 0 = n ∧ (digits.head? = some 0 → digits = [0]) := by
  induction fuel generalizing n with
  | zero => omega
  | succ k ih =>
    unfold decimal
    by_cases hn : n < 10
    · rw [if_pos hn]
      refine ⟨[⟨n, hn⟩], ?_, by simp, by simp, ?_⟩
      · unfold digitGlyph; simp [Nat.mod_eq_of_lt hn]
      · intro e; simpa using e
    · rw [if_neg hn]
      have hk : 0 < k := by
        rcases Nat.eq_zero_or_pos k with h0 | h0
        · subst h0; simp at h; omega
        · exact h0
      obtain ⟨ds, e1, e2, e3, e4⟩ := ih (n / 10) (by rw [Nat.pow_succ] at h; omega) hk
      refine ⟨ds ++ [⟨n % 10, Nat.mod_lt _ (by omega)⟩], ?_, by simp, ?_, ?_⟩
      · rw [e1, List.map_append]; rfl
      · rw [List.foldl_append, e3]; simp; omega
      · intro hh
        exfalso
        cases ds with
        | nil => exact e2 rfl
        | cons d l =>
          have := e4 (by simpa using hh)
          rw [this] at e3
          simp at e3
          omega

theorem fillField_len (w : Nat) (v : Option FieldValue) : (fillField w v).length = w := by
  unfold fillField
  cases v with
  | none => simp
  | some v =>
    dsimp only
    split
    · simp
    · split <;> simp <;> omega

theorem fillCells_len (s : State) (b : BayId) (e : Emphasis) (l : List Cell) : (s.fillCells b e l).length = (l.map fun c => match c with | .field _ w => w | _ => 1).sum := by
  induction l generalizing e with
  | nil => simp [State.fillCells]
  | cons c l ih =>
    cases c <;> unfold State.fillCells <;> simp [ih, fillField_len] <;> omega

/-- Lines of 20 columns fill `n` rows of 20 cells. -/
theorem layLines_len (s : State) (b : BayId) (n : Nat) (l : List Line) (hl : ∀ x ∈ l, x.columns = 20) :
    (s.layLines b n l).length = n ∧ ((s.layLines b n l).flatMap (·.cells)).length = 20 * n := by
  induction l generalizing n with
  | nil =>
    have : ∀ n, ((List.replicate n Row.free).flatMap (·.cells)).length = 20 * n := by
      intro n; induction n with
      | zero => rfl
      | succ n ih => rw [List.replicate_succ, List.flatMap_cons, List.length_append, ih]; simp [Row.free]; omega
    unfold State.layLines
    exact ⟨by simp, this n⟩
  | cons x l ih =>
    have ih' := fun n => ih n (fun y hy => hl y (List.mem_cons_of_mem _ hy))
    have hx : (s.fillCells b x.emphasis x.cells).length = 20 := by
      rw [fillCells_len]
      rw [← hl x (List.mem_cons_self ..)]
      unfold Line.columns
      congr 1
      apply List.map_congr_left
      intro c _; cases c <;> rfl
    unfold State.layLines
    split
    · exact ih' n
    · dsimp only
      split
      · exact ⟨rfl, rfl⟩
      · rename_i k _
        rw [List.length_cons, (ih' k).1, List.flatMap_cons, List.length_append, (ih' k).2, hx]; exact ⟨rfl, by omega⟩
      · exact ⟨rfl, rfl⟩
      · rename_i k _
        simp only [List.length_cons, (ih' k).1, List.flatMap_cons, List.length_append, (ih' k).2, hx]; exact ⟨trivial, by omega⟩

end Sys2Proof.Machine
end

