-- ==== Sys2Proof/Laws/Recovery.lean ====
section
/-! SUPPORT. The recovery of ACTIVE orders at a reset (R56): which slots it takes in which order, what it makes of one
order, and what a reset that a loss of power has cut leaves. -/

namespace Sys2Proof.Machine

set_option Elab.async false

/-! ### The slots of the ACTIVE orders -/

theorem State.activeAt_iff (s : State) (b : BayId) (i : SlotId) : s.activeAt b i = true ↔
    ∃ o part, s.orderIn i = some o ∧ o.stage = .active part ∧ part.bay = b := by
  unfold State.activeAt
  cases s.orderIn i with
  | none => simp
  | some o =>
    dsimp only
    cases h : o.stage <;> simp [h]

theorem State.mem_activeSlots (s : State) (i : SlotId) :
    i ∈ s.activeSlots ↔ ∃ o part, s.orderIn i = some o ∧ o.stage = .active part := by
  unfold State.activeSlots
  simp only [List.mem_flatMap, List.mem_finRange, true_and, List.mem_filter, State.activeAt_iff, allSlots]
  constructor
  · rintro ⟨b, o, part, h, k, -⟩; exact ⟨o, part, h, k⟩
  · rintro ⟨o, part, h, k⟩; exact ⟨part.bay, o, part, h, k, rfl⟩

theorem State.nodup_activeSlots (s : State) : s.activeSlots.Nodup := by
  unfold State.activeSlots
  rw [List.nodup_flatMap]
  refine ⟨fun b _ => (List.nodup_finRange 64).filter _, (List.nodup_finRange 4).imp fun {b c} hne => ?_⟩
  intro i hb hc
  obtain ⟨o, part, h, k, rfl⟩ := (s.activeAt_iff b i).mp (List.mem_filter.mp hb).2
  obtain ⟨o', part', h', k', rfl⟩ := (s.activeAt_iff c i).mp (List.mem_filter.mp hc).2
  rw [h] at h'; cases h'
  rw [k] at k'; cases k'
  exact hne rfl

/-- The slots stand in ascending order of the bay in the session parts of their orders (R56). -/
theorem State.activeSlots_ascending (s : State) : s.activeSlots.Pairwise fun i j => ∀ o part o' part',
    s.orderIn i = some o → o.stage = .active part → s.orderIn j = some o' → o'.stage = .active part' →
      part.bay ≤ part'.bay := by
  have bay : ∀ b i, i ∈ allSlots.filter (s.activeAt b) → ∀ o part, s.orderIn i = some o → o.stage = .active part →
      part.bay = b := by
    intro b i m o part h k
    obtain ⟨o', part', h', k', e⟩ := (s.activeAt_iff b i).mp (List.mem_filter.mp m).2
    rw [h] at h'; cases h'
    rw [k] at k'; cases k'
    exact e
  unfold State.activeSlots
  rw [List.pairwise_flatMap]
  refine ⟨fun b _ => ?_, (List.pairwise_lt_finRange 4).imp fun {b c} lt i hi j hj => ?_⟩
  · rw [List.pairwise_iff_forall_sublist]
    intro i j m o part o' part' h k h' k'
    rw [bay b i (m.subset (by simp)) o part h k, bay b j (m.subset (by simp)) o' part' h' k']
  · intro o part o' part' h k h' k'
    rw [bay b i hi o part h k, bay c j hj o' part' h' k']
    exact Fin.le_of_lt lt

theorem State.length_activeSlots (s : State) : s.activeSlots.length
    = ((List.finRange 64).filter fun i => (s.orderIn i).any fun o => o.isActive).length := by
  refine List.Perm.length_eq ((List.perm_ext_iff_of_nodup s.nodup_activeSlots ((List.nodup_finRange 64).filter _)).mpr ?_)
  intro i
  rw [State.mem_activeSlots]
  simp only [List.mem_filter, List.mem_finRange, true_and]
  cases h : s.orderIn i with
  | none => simp
  | some o =>
    simp only [Option.some.injEq, exists_eq_left', Option.any_some]
    unfold Order.isActive
    cases k : o.stage <;> simp [k]

/-! ### The recovery of one order -/

/-- A recovery writes its slot, and else only permits, the note counter and the flags. -/
theorem State.recoverOrder_eq (s : State) (i : SlotId) : s.recoverOrder i = { s with
      orders := (s.recoverOrder i).orders, noteCounter := (s.recoverOrder i).noteCounter
      permits := (s.recoverOrder i).permits, flags := (s.recoverOrder i).flags } ∧
    ∀ j, j ≠ i → (s.recoverOrder i).orderIn j = s.orderIn j := by
  unfold State.recoverOrder
  generalize hu : s.modOrder i _ = u
  have k := settleOrder_eq u i [.powerInterrupted]
  refine ⟨?_, fun j hj => ?_⟩
  · conv_lhs => rw [k.1]
    rw [← hu]; rfl
  · rw [k.2 j hj, ← hu, State.orderIn_modOrder, if_neg hj]

theorem find_map_number (l : List Compartment) (f : Compartment → Compartment) (hf : ∀ c, (f c).number = c.number)
    (n : CompNo) : (l.map f).find? (fun c => decide (c.number = n))
      = (l.find? fun c => decide (c.number = n)).map f := by
  rw [List.find?_map]
  congr 1
  congr 1
  funext c
  simp [hf]

theorem Compartment.recovered_sums (l : List Compartment) :
    ((l.map Compartment.recovered).map (·.gross)).sum = (l.map (·.gross)).sum ∧
    ((l.map Compartment.recovered).map (·.net)).sum = (l.map (·.net)).sum := by
  have g : ∀ c : Compartment, c.recovered.gross = c.gross := fun c => by unfold Compartment.recovered; split <;> rfl
  have n : ∀ c : Compartment, c.recovered.net = c.net := fun c => by unfold Compartment.recovered; split <;> rfl
  simp only [List.map_map, Function.comp_def, g, n, and_self]

/-- A compartment as recovery and, where a note is issued, its dose check leave it (R56, R154). -/
theorem Compartment.recovered_marks (c d : Compartment) (hd : d = c.recovered ∨ d = c.recovered.doseChecked) :
    d.gross = c.gross ∧ d.net = c.net ∧ d.planned = c.planned ∧ d.product = c.product ∧
    ((c.state = .loading ∨ c.state = .held) →
      CompFlag.powerInterrupted ∈ d.flags ∧ d.state = (if c.planned ≤ c.gross then .filled else .partly)) ∧
    (c.state ≠ .loading → c.state ≠ .held → d.state = c.state ∧ d.flags = c.flags) := by
  have key : ∀ d, d = c.recovered → d.gross = c.gross ∧ d.net = c.net ∧ d.planned = c.planned ∧ d.product = c.product ∧
      ((c.state = .loading ∨ c.state = .held) →
        CompFlag.powerInterrupted ∈ d.flags ∧ d.state = (if c.planned ≤ c.gross then .filled else .partly)) ∧
      (c.state ≠ .loading → c.state ≠ .held → d.state = c.state ∧ d.flags = c.flags) := by
    rintro d rfl
    unfold Compartment.recovered
    by_cases h : c.state = .loading ∨ c.state = .held
    · rw [if_pos h]
      refine ⟨rfl, rfl, rfl, rfl, fun _ => ⟨?_, rfl⟩, fun a b => absurd h (by simp [a, b])⟩
      exact (mem_addTo (CompFlag.mem_all _)).mpr (.inl rfl)
    · rw [if_neg h]
      exact ⟨rfl, rfl, rfl, rfl, fun k => absurd k h, fun _ _ => ⟨rfl, rfl⟩⟩
  rcases hd with rfl | rfl
  · exact key _ rfl
  · exact ⟨(key _ rfl).1, (key _ rfl).2.1, (key _ rfl).2.2.1, (key _ rfl).2.2.2.1, (key _ rfl).2.2.2.2.1, (key _ rfl).2.2.2.2.2⟩

/-- The recovery of an ACTIVE order (R56): a note at the state's clock where something was delivered, else OPEN. -/
theorem State.recoverOrder_recovered (s : State) (i : SlotId) : s.OrderRecovered (s.recoverOrder i) i s.clock := by
  intro o part ho hs
  unfold State.recoverOrder
  generalize hu : s.modOrder i _ = u
  have hi : u.orderIn i = some { o with comps := o.comps.map Compartment.recovered } := by
    rw [← hu, State.orderIn_modOrder, if_pos rfl, ho]; rfl
  have hc : u.clock = s.clock := by rw [← hu]; rfl
  have sums := Compartment.recovered_sums o.comps
  have comp : ∀ n c, o.comp n = some c →
      ((o.comps.map Compartment.recovered).find? fun c => decide (c.number = n)) = some c.recovered := by
    intro n c h
    rw [find_map_number _ _ (fun c => by unfold Compartment.recovered; split <;> rfl)]
    unfold Order.comp at h; rw [h]; rfl
  by_cases hg : o.totalGross = 0
  · have hg' : Order.totalGross { o with comps := o.comps.map Compartment.recovered } = 0 := by
      unfold Order.totalGross; exact sums.1.trans hg
    rw [settleOrder_open _ hi hg']
    refine ⟨{ o with stage := .opened, comps := o.comps.map Compartment.recovered }, by simp [State.orderIn], ?_, ?_,
      fun _ => rfl, fun h => absurd hg (by omega), fun n c h => ⟨c.recovered, ?_, Compartment.recovered_marks c _ (.inl rfl)⟩⟩
    · exact sums.1
    · exact sums.2
    · exact comp n c h
  · have hg' : 0 < Order.totalGross { o with comps := o.comps.map Compartment.recovered } := by
      have : 0 < o.totalGross := by omega
      unfold Order.totalGross at this ⊢; dsimp only; rw [sums.1]; exact this
    rw [settleOrder_noted _ hi hs hg']
    have dose : ∀ c : Compartment, c.doseChecked.number = c.number ∧ c.doseChecked.gross = c.gross ∧
        c.doseChecked.net = c.net := fun c => ⟨rfl, rfl, rfl⟩
    refine ⟨_, by simp [State.orderIn]; rfl, ?_, ?_, fun h => absurd h hg, fun _ => ⟨_, by rw [hc]; rfl, rfl, ?_⟩,
      fun n c h => ⟨c.recovered.doseChecked, ?_, Compartment.recovered_marks c _ (.inr rfl)⟩⟩
    · unfold Order.totalGross Order.noted
      dsimp only
      rw [List.map_map]
      exact sums.1
    · unfold Order.totalNet Order.noted
      dsimp only
      rw [List.map_map]
      exact sums.2
    · exact (mem_addTo (EventFlag.mem_all _)).mpr (.inl rfl)
    · show ((o.comps.map Compartment.recovered).map Compartment.doseChecked).find? _ = _
      rw [find_map_number _ Compartment.doseChecked (fun _ => rfl), comp n c h]; rfl

/-! ### Resets cut by a loss of power -/

/-- An order recovered stays so over later recoveries of other slots. -/
theorem State.OrderRecovered.over {s t u : State} {i : SlotId} {now : Option Time} (h : s.OrderRecovered t i now)
    (ho : u.orderIn i = t.orderIn i) (hf : ∀ f ∈ t.flags, f ∈ u.flags) : s.OrderRecovered u i now := by
  intro o part h1 h2
  obtain ⟨o', k1, k2, k3, k4, k5, k6⟩ := h o part h1 h2
  refine ⟨o', ho.trans k1, k2, k3, k4, fun g => ?_, k6⟩
  obtain ⟨n, e1, e2, e3⟩ := k5 g
  exact ⟨n, e1, e2, hf _ e3⟩

/-- Recoveries one after the other: those of the list are recovered, the other slots stay. -/
theorem State.recoverOrders_each (l : List SlotId) (s : State) (nd : l.Nodup) : ∀ t, t = l.foldl State.recoverOrder s →
    (∀ i ∈ l, s.OrderRecovered t i s.clock) ∧ (∀ i, i ∉ l → t.orderIn i = s.orderIn i) ∧ (∀ f ∈ s.flags, f ∈ t.flags) ∧
    t = { s with orders := t.orders, permits := t.permits, noteCounter := t.noteCounter, flags := t.flags } := by
  induction l generalizing s with
  | nil => rintro t rfl; exact ⟨fun _ m => (by cases m), fun _ _ => rfl, fun _ m => m, rfl⟩
  | cons k l ih =>
    intro t ht
    have nd' := List.nodup_cons.mp nd
    have one := s.recoverOrder_eq k
    have clock : (s.recoverOrder k).clock = s.clock := by rw [one.1]
    obtain ⟨h1, h2, h3, h4⟩ := ih (s.recoverOrder k) nd'.2 t ht
    refine ⟨fun i m => ?_, fun i m => ?_, fun f m => h3 f ?_, ?_⟩
    · rcases List.mem_cons.mp m with rfl | m
      · exact (s.recoverOrder_recovered i).over (h2 i nd'.1) h3
      · have ne : i ≠ k := fun e => nd'.1 (e ▸ m)
        intro o part ho hs
        have := h1 i m o part (by rw [one.2 i ne]; exact ho) hs
        rw [clock] at this
        exact this
    · simp only [List.mem_cons, not_or] at m
      rw [h2 i m.2, one.2 i m.1]
    · exact settleOrder_flags _ _ _ m
    · rw [h4, one.1]

/-- What a reset that a loss of power has cut leaves (R56, R174). -/
theorem State.cutReset_cutTo (s : State) (c : CutReset) : ∃ first, s.CutTo (s.cutReset c) c first := by
  unfold State.cutReset
  generalize hv : (if c.byRackReset then s else { s with clock := none }) = v
  have vo : v.orders = s.orders := by rw [← hv]; split <;> rfl
  have vi : ∀ i, v.orderIn i = s.orderIn i := fun i => by unfold State.orderIn; rw [vo]
  have vc : v.clock = if c.byRackReset then s.clock else none := by rw [← hv]; split <;> rfl
  have ve : v = { s with clock := v.clock } := by rw [← hv]; split <;> rfl
  have nd := v.nodup_activeSlots
  have up := v.activeSlots_ascending
  have len := v.length_activeSlots
  obtain ⟨h1, h2, -, h4⟩ := State.recoverOrders_each (v.activeSlots.take c.recovered) v (nd.sublist (List.take_sublist _ _)) _ rfl
  have keeps := (Keeps.refl v).recoverFirst c.recovered
  refine ⟨v.activeSlots.take c.recovered, nd.sublist (List.take_sublist _ _), ?_, fun i m => ?_, fun i m => ?_,
    fun i m => (h2 i m).trans (vi i), ?_, ?_⟩
  · rw [List.length_take, len]; simp only [vi]
  · obtain ⟨o, part, ho, hs⟩ := (v.mem_activeSlots i).mp (List.mem_of_mem_take m)
    refine ⟨o, part, (vi i) ▸ ho, hs, fun j o' part' hj ho' hs' => ?_⟩
    have hj' : j ∈ v.activeSlots := (v.mem_activeSlots j).mpr ⟨o', part', (vi j).trans ho', hs'⟩
    rw [← List.take_append_drop c.recovered v.activeSlots] at up hj'
    have hd := (List.mem_append.mp hj').resolve_left hj
    exact (List.pairwise_append.mp up).2.2 i m j hd o part o' part' ho hs ((vi j).trans ho') hs'
  · have := h1 i m
    rw [vc] at this
    intro o part ho hs
    exact this o part ((vi i).trans ho) hs
  · have := keeps.same.permits
    rw [show v.permits = s.permits by rw [← hv]; split <;> rfl] at this
    exact this
  · unfold State.recoverFirst
    rw [h4, ve]

end Sys2Proof.Machine
end

