-- ==== Sys2Proof/Laws/Responds.lean ====
section
/-! SUPPORT. The response of the arms that an event at one bay does not reach (R97, R98, log entry 11): one lemma per
event that can take several of the bay's arms out of their drawing sets. -/

namespace Sys2Proof.Machine

set_option Elab.async false

/-! ### Ends of a session reach no arm -/

theorem closeSession_arms (s : State) (b : BayId) :
    (s.closeSession b).arms = s.arms ∧ (s.closeSession b).headers = s.headers := by
  rw [(closeSession_spec s b).eq]; exact ⟨rfl, rfl⟩

theorem endBeforeLoading_arms (s : State) (b : BayId) :
    (s.endBeforeLoading b).arms = s.arms ∧ (s.endBeforeLoading b).headers = s.headers := by
  unfold State.endBeforeLoading
  rw [returnToIdle_eq]
  split
  · exact ⟨rfl, rfl⟩
  · exact ⟨rfl, rfl⟩

theorem closeIfDone_arms (s : State) (b : BayId) :
    (s.closeIfDone b).arms = s.arms ∧ (s.closeIfDone b).headers = s.headers := by
  unfold State.closeIfDone; split
  · exact closeSession_arms s b
  · exact ⟨rfl, rfl⟩

theorem arm_of {s t : State} (h : t.arms = s.arms) (a : ArmId) : t.arm a = s.arm a := by unfold State.arm; rw [h]

/-! ### The events of a bay -/

section
variable {s : State} {bay : BayId} {a : ArmId}

theorem loseTerminal_respondsOnce (ha : (s.arm a).bay ≠ some bay) : s.RespondsOnce (s.loseTerminal bay) a := by
  unfold State.loseTerminal
  split
  · exact State.respondsOnce_same rfl rfl
  · generalize hu : (State.raise _ _) = u
    have h1 : u.arms = s.arms := by rw [← hu]; rfl
    have h2 : u.headers = s.headers := by rw [← hu]; rfl
    have before := State.respondsOnce_same (arm_of ((endBeforeLoading_arms u bay).1.trans h1) a)
      ((endBeforeLoading_arms u bay).2.trans h2)
    have hand : s.RespondsOnce (u.handCauses (u.bayArms bay) .terminalLost) a := by
      refine (State.handCauses_respondsOnce u _ _ a fun m => ha ?_).congr (arm_of h1 a).symm h2.symm rfl rfl
      rw [← arm_of h1 a]; exact (State.mem_bayArms u bay a).mp m
    dsimp only
    split
    · exact State.respondsOnce_same (arm_of h1 a) h2
    · exact before
    · exact before
    · exact before
    · exact hand
    · exact hand

theorem permissiveFall_respondsOnce (w : Permissive) (ha : (s.arm a).bay ≠ some bay) :
    s.RespondsOnce (s.permissiveFall bay w) a := by
  unfold State.permissiveFall
  generalize hu : (State.modSession _ _ _) = u
  have h1 : u.arms = s.arms := by rw [← hu]; rfl
  have h2 : u.headers = s.headers := by rw [← hu]; rfl
  dsimp only
  split
  · split
    · refine (State.handCauses_respondsOnce u _ _ a fun m => ha ?_).congr (arm_of h1 a).symm h2.symm rfl rfl
      rw [← arm_of h1 a]; exact (State.mem_bayArms u bay a).mp m
    · exact State.respondsOnce_same (arm_of h1 a) h2
  · exact State.respondsOnce_same rfl rfl

/-- The shape of a FINISH and of a close by the host: several entries to CLOSING, then what the session makes of it. -/
theorem closings_respondOnce (u v : State) (p : ArmId → Bool) (f : Session → Session) (ha : (u.arm a).bay ≠ some bay)
    (h1 : u.arm a = s.arm a) (h2 : u.headers = s.headers)
    (hv : v = ((u.enterClosings ((u.bayArms bay).filter p) .stopped).modSession bay f).closeIfDone bay) :
    s.RespondsOnce v a := by
  subst hv
  refine (State.enterClosings_respondsOnce u _ .stopped a fun m => ha ?_).congr h1.symm h2.symm
    (arm_of (closeIfDone_arms _ _).1 a) (closeIfDone_arms _ _).2
  exact (State.mem_bayArms _ _ _).mp (List.mem_of_mem_filter m)

theorem finish_respondsOnce (ha : (s.arm a).bay ≠ some bay) :
    s.RespondsOnce ((s.keyed bay).loadingKey bay fun s => s.finish bay .driver) a := by
  have k := s.keyed_woken bay
  have ka : (s.keyed bay).arm a = s.arm a := by
    rw [k.arm a]; refine (Arm.map_id fun b => ?_); simp [ha]
  unfold State.loadingKey
  split
  · generalize hu : (State.dropPending _ _) = u
    have h1 : u.arm a = s.arm a := by rw [← hu]; exact ka
    have h2 : u.headers = s.headers := by rw [← hu]; exact k.headers
    dsimp only
    unfold State.finish
    split
    · exact State.respondsOnce_same h1 h2
    · exact closings_respondOnce u _ _ _ (by rw [h1]; exact ha) h1 h2 rfl
  · exact State.respondsOnce_same ka k.headers

theorem hostClose_respondsOnce (ha : (s.arm a).bay ≠ some bay) : s.RespondsOnce (s.hostClose bay) a :=
  closings_respondOnce s _ _ _ ha rfl rfl rfl

theorem endBeforeLoading_respondsOnce : s.RespondsOnce (s.endBeforeLoading bay) a :=
  State.respondsOnce_same (arm_of (endBeforeLoading_arms s bay).1 a) (endBeforeLoading_arms s bay).2

theorem resetSession_respondsOnce (ha : (s.arm a).bay ≠ some bay) : s.RespondsOnce (s.resetSession bay) a := by
  have ends : s.RespondsOnce (((s.endAtOnce (s.bayArms bay)).modSession bay fun x =>
      { x with closeCause := some .reset }).closeSession bay) a :=
    (State.endAtOnce_respondsOnce s _ a fun m => ha ((State.mem_bayArms _ _ _).mp m)).congr rfl rfl
      (arm_of (closeSession_arms _ _).1 a) (closeSession_arms _ _).2
  unfold State.resetSession
  split
  · exact State.respondsOnce_same rfl rfl
  · exact endBeforeLoading_respondsOnce
  · exact endBeforeLoading_respondsOnce
  · exact endBeforeLoading_respondsOnce
  · exact ends
  · exact ends

theorem bayClose_respondsOnce (ha : (s.arm a).bay ≠ some bay) {n : Nat} (hn : numbered 4 n = some bay) :
    s.RespondsOnce (s.bayClose n).state a := by
  unfold State.bayClose
  rw [hn]
  dsimp only
  split
  · exact State.respondsOnce_same rfl rfl
  · exact endBeforeLoading_respondsOnce
  · exact endBeforeLoading_respondsOnce
  · exact endBeforeLoading_respondsOnce
  · exact hostClose_respondsOnce ha
  · exact State.respondsOnce_same rfl rfl

theorem request_respondsOnce {kind tag n : Byte} {act : State → Nat → Reply}
    (h : s.RespondsOnce (act s n.toNat).state a) :
    s.RespondsOnce (s.request kind tag [n] readByte act) a := by
  unfold State.request
  split
  · exact State.respondsOnce_same rfl rfl
  · rw [readByte_one]
    exact h.congr rfl rfl rfl rfl
end

end Sys2Proof.Machine
end

