-- ==== Sys2Proof/Laws/Spelling.lean ====
section
/-! SUPPORT. What the readers of request bodies read, as bytes of Table 11-4: a reader spells a value where it reads the
value off exactly those bodies that begin with the bytes of the value. One lemma per reader of Operands.lean that other
readers are made of; `Spells.bind_iff` puts them together. -/

namespace Sys2Proof.Machine

set_option Elab.async false

/-- A reader reads exactly the values that meet `ok`, each off the bytes `enc` of it. -/
def Spells {α : Type} (r : Reader α) (ok : α → Prop) (enc : α → List Byte) : Prop :=
  ∀ bs a rest, r bs = some (a, rest) ↔ ok a ∧ bs = enc a ++ rest

theorem Spells.whole {α : Type} {r : Reader α} {ok enc} (h : Spells r ok enc) (body : List Byte) (a : α) :
    Machine.whole r body = some a ↔ ok a ∧ body = enc a := by
  have k := h body a []
  rw [List.append_nil] at k
  rw [← k]
  unfold Machine.whole
  cases r body with
  | none => simp
  | some x =>
    obtain ⟨a', rest⟩ := x
    cases rest <;> simp

/-- A value read off the front, and the rest of the fields off the bytes behind it. -/
theorem Spells.bind_iff {α β : Type} {r : Reader α} {ok enc} (h : Spells r ok enc) {k : α × List Byte → Option β}
    {bs : List Byte} {y : β} :
    (r bs).bind k = some y ↔ ∃ a rest, ok a ∧ bs = enc a ++ rest ∧ k (a, rest) = some y := by
  rw [Option.bind_eq_some_iff]
  constructor
  · rintro ⟨⟨a, rest⟩, h1, h2⟩
    obtain ⟨o, e⟩ := (h _ _ _).mp h1
    exact ⟨a, rest, o, e, h2⟩
  · rintro ⟨a, rest, o, e, h2⟩
    exact ⟨(a, rest), (h _ _ _).mpr ⟨o, e⟩, h2⟩

/-- A value read off the front, one way. -/
theorem Spells.unbind {α β : Type} {r : Reader α} {ok enc} (h : Spells r ok enc) {k : α × List Byte → Option β}
    {bs : List Byte} {y : β} (e : (r bs).bind k = some y) :
    ∃ a rest, ok a ∧ bs = enc a ++ rest ∧ k (a, rest) = some y := h.bind_iff.mp e

/-- A value read off the front, the other way. -/
theorem Spells.rebind {α β : Type} {r : Reader α} {ok enc} (h : Spells r ok enc) {k : α × List Byte → Option β}
    {a : α} {rest : List Byte} {y : β} (o : ok a) (e : k (a, rest) = some y) :
    (r (enc a ++ rest)).bind k = some y := h.bind_iff.mpr ⟨a, rest, o, rfl, e⟩

/-! ### Numbers and named values -/

theorem word_spells (n : Nat) : Spells (word n) (fun v => v < 256 ^ n) (littleEndian n) := by
  intro bs v rest
  constructor
  · intro h
    unfold word at h
    split at h
    · cases h
    · rename_i hl
      cases h
      have hb : (bs.take n).length = n := by rw [List.length_take]; omega
      refine ⟨?_, ?_⟩
      · have := ofLittleEndian_lt (bs.take n); rw [hb] at this; exact this
      · have := littleEndian_ofLittleEndian (bs.take n)
        rw [hb] at this
        rw [this, List.take_append_drop]
  · rintro ⟨h, rfl⟩; exact word_littleEndian n v rest h

/-- A number of one byte. -/
theorem byte_spells : Spells (word 1) (fun v => v < 256) (fun v => [byteOf v]) := by
  intro bs v rest
  rw [word_spells 1 bs v rest]
  simp [littleEndian]

theorem named_spells {α : Type} [DecidableEq α] (values : List α) (nd : values.Nodup) (hl : values.length ≤ 256) :
    Spells (named values) (· ∈ values) (fun x => [placeByte values x]) := by
  intro bs x rest
  constructor
  · intro h
    cases bs with
    | nil => cases h
    | cons b bs =>
      obtain ⟨y, hy, he⟩ := Option.map_eq_some_iff.mp (show values[b.toNat]?.map (fun v => (v, bs)) = some (x, rest) from h)
      cases he
      obtain ⟨hb, hx⟩ := List.getElem?_eq_some_iff.mp hy
      refine ⟨hx ▸ List.getElem_mem hb, ?_⟩
      have : values.idxOf x = b.toNat := by rw [← hx]; exact nd.idxOf_getElem _ hb
      show b :: rest = placeByte values x :: rest
      unfold placeByte byteOf; rw [this, BitVec.ofNat_toNat, BitVec.setWidth_eq]
  · rintro ⟨hm, rfl⟩
    have hi := List.idxOf_lt_length_iff.mpr hm
    show values[(placeByte values x).toNat]?.map (fun v => (v, rest)) = _
    have : (placeByte values x).toNat = values.idxOf x := by
      unfold placeByte byteOf; rw [BitVec.toNat_ofNat]; exact Nat.mod_eq_of_lt (by omega)
    rw [this, List.getElem?_eq_getElem hi, List.getElem_idxOf]; rfl

theorem yesNo_spells : Spells yesNo (fun _ => True) (fun b => [if b then 1 else 0]) := by
  intro input b rest
  have nd : [false, true].Nodup := by decide
  rw [yesNo, named_spells [false, true] nd (by decide) input b rest]
  cases b <;> simp [placeByte, byteOf, List.idxOf, List.findIdx, List.findIdx.go]

theorem signedWord_spells : Spells signedWord (fun v => -32768 ≤ v ∧ v < 32768) (signedBytes 2) := by
  intro bs v rest
  unfold signedWord
  constructor
  · intro h
    obtain ⟨⟨w, bs'⟩, h1, h2⟩ := Option.map_eq_some_iff.mp h
    obtain ⟨hw, e⟩ := (word_spells 2 _ _ _).mp h1
    cases h2
    replace hw : w < 65536 := hw
    dsimp only
    refine ⟨by split <;> omega, ?_⟩
    rw [e]
    unfold signedBytes
    congr 2
    split
    · show w = ((w : Int) % (65536 : Nat)).toNat; omega
    · show w = (((w : Int) - 65536) % (65536 : Nat)).toNat; omega
  · rintro ⟨hv, rfl⟩
    have hw : (v % (256 ^ 2 : Nat)).toNat < 256 ^ 2 := by
      show (v % (65536 : Nat)).toNat < 65536; omega
    unfold signedBytes
    rw [word_littleEndian 2 _ rest hw, Option.map_some]
    congr 2
    show (if (v % (65536 : Nat)).toNat < 32768 then (((v % (65536 : Nat)).toNat : Nat) : Int) else _) = v
    split <;> omega

theorem requirement_spells : Spells (named [Requirement.required, .optional]) (fun _ => True)
    (fun x => [placeByte [Requirement.required, .optional] x]) := by
  intro bs x rest
  rw [named_spells [Requirement.required, .optional] (by decide) (by decide) bs x rest]
  cases x <;> simp

theorem service_spells : Spells (named [Service.inService, .outOfService]) (fun _ => True)
    (fun x => [placeByte [Service.inService, .outOfService] x]) := by
  intro bs x rest
  rw [named_spells [Service.inService, .outOfService] (by decide) (by decide) bs x rest]
  cases x <;> simp

theorem assigned_spells : Spells (named [true, false]) (fun _ => True) (fun b => [if b then 0 else 1]) := by
  intro input b rest
  have nd : [true, false].Nodup := by decide
  rw [named_spells [true, false] nd (by decide) input b rest]
  cases b <;> simp [placeByte, byteOf, List.idxOf, List.findIdx, List.findIdx.go]

/-! ### Optional fields and lists -/

theorem optional_spells {α : Type} {r : Reader α} {ok enc} (h : Spells r ok enc) :
    Spells (optional r) (fun o => ∀ x ∈ o, ok x) (markedBytes enc) := by
  intro bs o rest
  constructor
  · intro k
    unfold optional at k
    split at k
    · cases k; exact ⟨by simp, rfl⟩
    · obtain ⟨⟨a, bs'⟩, h1, h2⟩ := Option.map_eq_some_iff.mp k
      cases h2
      obtain ⟨ha, e⟩ := (h _ _ _).mp h1
      refine ⟨by simpa using ha, ?_⟩
      rw [e]; rfl
    · cases k
  · rintro ⟨ho, rfl⟩
    cases o with
    | none => rfl
    | some a =>
      show (r (enc a ++ rest)).map (fun x => (some x.1, x.2)) = _
      rw [(h _ a rest).mpr ⟨ho a rfl, rfl⟩]; rfl

theorem times_spells {α : Type} {r : Reader α} {ok enc} (h : Spells r ok enc) (n : Nat) :
    Spells (times r n) (fun l => l.length = n ∧ ∀ x ∈ l, ok x) (fun l => l.flatMap enc) := by
  induction n with
  | zero =>
    intro bs l rest
    show some (([] : List α), bs) = some (l, rest) ↔ _
    constructor
    · intro k; cases k; exact ⟨⟨rfl, by simp⟩, rfl⟩
    · rintro ⟨⟨hl, -⟩, rfl⟩
      rw [List.length_eq_zero_iff] at hl; subst hl; rfl
  | succ n ih =>
    intro bs l rest
    constructor
    · intro k
      unfold times at k
      split at k
      · cases k
      · rename_i a bs1 h1
        obtain ⟨⟨l', bs2⟩, h2, h3⟩ := Option.map_eq_some_iff.mp k
        cases h3
        obtain ⟨ha, e1⟩ := (h _ _ _).mp h1
        obtain ⟨⟨hl, hm⟩, e2⟩ := (ih _ _ _).mp h2
        refine ⟨⟨by simp [hl], by simpa using ⟨ha, hm⟩⟩, ?_⟩
        rw [e1, e2]
        exact (List.append_assoc _ _ _).symm
    · rintro ⟨⟨hl, hm⟩, rfl⟩
      cases l with
      | nil => cases hl
      | cons a l =>
        show times r (n + 1) (enc a ++ l.flatMap enc ++ rest) = _
        rw [List.append_assoc]
        unfold times
        rw [(h _ a _).mpr ⟨hm a (by simp), rfl⟩]
        show (times r n (l.flatMap enc ++ rest)).map _ = _
        rw [(ih _ l rest).mpr ⟨⟨by simpa using hl, fun x hx => hm x (by simp [hx])⟩, rfl⟩]; rfl

theorem counted_spells {α : Type} {r : Reader α} {ok enc} (h : Spells r ok enc) :
    Spells (counted r) (fun l => l.length < 256 ∧ ∀ x ∈ l, ok x) (countedBytes enc) := by
  intro bs l rest
  cases bs with
  | nil =>
    constructor
    · intro k; cases k
    · rintro ⟨-, e⟩; cases e
  | cons b bs =>
    show times r b.toNat bs = some (l, rest) ↔ _ ∧ b :: bs = byteOf l.length :: (l.flatMap enc ++ rest)
    rw [times_spells h b.toNat bs l rest, List.cons.injEq]
    have hb := b.isLt
    constructor
    · rintro ⟨⟨hl, hm⟩, e⟩
      refine ⟨⟨by omega, hm⟩, ?_, e⟩
      unfold byteOf; rw [hl, BitVec.ofNat_toNat, BitVec.setWidth_eq]
    · rintro ⟨⟨hl, hm⟩, rfl, e⟩
      refine ⟨⟨?_, hm⟩, e⟩
      unfold byteOf; rw [BitVec.toNat_ofNat]; exact (Nat.mod_eq_of_lt hl).symm

theorem text_spells : Spells text (fun l => l.length < 256 ∧ ∀ x ∈ l, x < 256) (countedBytes fun g => [byteOf g]) :=
  counted_spells byte_spells

/-! ### Sets -/

/-- The bits of a number as a sum of powers of two. -/
theorem sum_bits_eq_ofBits (m : Nat) (f : Fin m → Bool) :
    ((List.finRange m).map fun i => if f i then 2 ^ i.val else 0).sum = Nat.ofBits f := by
  induction m with
  | zero => rfl
  | succ m ih =>
    have h : ((fun i : Fin (m + 1) => if f i then 2 ^ i.val else 0) ∘ Fin.succ)
        = fun i : Fin m => 2 * (if (f ∘ Fin.succ) i then 2 ^ i.val else 0) := by
      funext i
      by_cases k : f i.succ <;> simp [k, Nat.pow_succ, Nat.mul_comm]
    rw [Nat.ofBits_succ, ← ih, List.finRange_succ, List.map_cons, List.sum_cons, List.map_map, h, List.sum_map_mul_left]
    cases f 0 <;> simp [Nat.add_comm]

theorem setOf_spells (n m : Nat) (hm : m = 8 * n) :
    Spells (setOf n (List.finRange m)) (fun set => (List.finRange m).filter (fun i => decide (i ∈ set)) = set)
      (memberBytes n (List.finRange m)) := by
  subst hm
  have pow : (256 : Nat) ^ n = 2 ^ (8 * n) := by rw [Nat.pow_mul]
  have zip : (List.finRange (8 * n)).zipIdx = (List.finRange (8 * n)).map fun i => (i, i.val) := by
    apply List.ext_getElem <;> simp
  have enc : ∀ set : List (Fin (8 * n)), memberBytes n (List.finRange (8 * n)) set
      = littleEndian n (Nat.ofBits fun i : Fin (8 * n) => decide (i ∈ set)) := by
    intro set
    rw [← sum_bits_eq_ofBits]
    simp [memberBytes, List.idxOf_finRange]
  have read : ∀ bs, setOf n (List.finRange (8 * n)) bs
      = (word n bs).map fun x => ((List.finRange (8 * n)).filter fun i => x.1.testBit i.val, x.2) := by
    intro bs
    unfold setOf
    congr 1; funext x
    rw [zip, List.filter_map, List.map_map]
    simp [Function.comp_def]
  intro bs set rest
  rw [read, enc]
  constructor
  · intro h
    obtain ⟨⟨w, bs'⟩, h1, h2⟩ := Option.map_eq_some_iff.mp h
    obtain ⟨hw, e⟩ := (word_spells n _ _ _).mp h1
    cases h2
    have mem : ∀ i : Fin (8 * n), decide (i ∈ (List.finRange (8 * n)).filter fun i => w.testBit i.val) = w.testBit i.val := by
      intro i; simp
    refine ⟨by simp only [mem], ?_⟩
    simp only [mem]
    rw [e, Nat.ofBits_testBit, Nat.mod_eq_of_lt (by rw [← pow]; exact hw)]
  · rintro ⟨hs, rfl⟩
    rw [word_littleEndian n _ rest (by rw [pow]; exact Nat.ofBits_lt_two_pow _), Option.map_some]
    have : (List.finRange (8 * n)).filter (fun i => (Nat.ofBits fun i : Fin (8 * n) => decide (i ∈ set)).testBit i.val)
        = (List.finRange (8 * n)).filter fun i => decide (i ∈ set) := by
      apply List.filter_congr
      intro i _
      rw [Nat.testBit_ofBits_lt _ _ i.isLt]
    simp only [this, hs]
theorem allClasses_spells : Spells (setOf 1 allClasses)
    (fun set => allClasses.filter (fun c => decide (c ∈ set)) = set) (memberBytes 1 allClasses) :=
  setOf_spells 1 8 rfl

theorem allProducts_spells : Spells (setOf 4 allProducts)
    (fun set => allProducts.filter (fun p => decide (p ∈ set)) = set) (memberBytes 4 allProducts) :=
  setOf_spells 4 32 rfl

/-! ### The parts of records -/

theorem additiveFields_spells : Spells additiveFields
    (fun e => e.injector < 256 ∧ e.rate < 256 ^ 2 ∧ e.tolerance < 256)
    (fun e => byteOf e.injector :: littleEndian 2 e.rate
      ++ [placeByte [Requirement.required, .optional] e.requirement, byteOf e.tolerance]) := by
  intro bs e rest
  unfold additiveFields
  simp only [bind, byte_spells.bind_iff, (word_spells 2).bind_iff, requirement_spells.bind_iff]
  constructor
  · intro h
    obtain ⟨i, _, hi, rfl, r, _, hr, rfl, q, _, -, rfl, z, _, hz, rfl, e⟩ := h
    cases e
    exact ⟨⟨hi, hr, hz⟩, by simp⟩
  · rintro ⟨⟨hi, hr, hz⟩, rfl⟩
    simp only [List.append_assoc, List.cons_append, List.nil_append]
    exact ⟨_, _, hi, rfl, _, _, hr, rfl, _, _, trivial, rfl, _, _, hz, rfl, rfl⟩

theorem blendFields_spells : Spells blendFields
    (fun b => b.1 < 256 ∧ b.2.1 < 256 ^ 2 ∧ b.2.2 < 256)
    (fun b => byteOf b.1 :: littleEndian 2 b.2.1 ++ [byteOf b.2.2]) := by
  intro bs b rest
  unfold blendFields
  simp only [bind, byte_spells.bind_iff, (word_spells 2).bind_iff]
  constructor
  · intro h
    obtain ⟨i, _, hi, rfl, r, _, hr, rfl, z, _, hz, rfl, e⟩ := h
    cases e
    exact ⟨⟨hi, hr, hz⟩, by simp⟩
  · rintro ⟨⟨hi, hr, hz⟩, rfl⟩
    simp only [List.append_assoc, List.cons_append, List.nil_append]
    exact ⟨_, _, hi, rfl, _, _, hr, rfl, _, _, hz, rfl, rfl⟩

theorem correctionPoint_spells : Spells correctionPoint
    (fun p => (-32768 ≤ p.temperature ∧ p.temperature < 32768) ∧ p.factor < 256 ^ 2)
    (fun p => signedBytes 2 p.temperature ++ littleEndian 2 p.factor) := by
  intro bs p rest
  unfold correctionPoint
  simp only [bind, signedWord_spells.bind_iff, (word_spells 2).bind_iff]
  constructor
  · intro h
    obtain ⟨i, _, hi, rfl, r, _, hr, rfl, e⟩ := h
    cases e
    exact ⟨⟨hi, hr⟩, by simp⟩
  · rintro ⟨⟨hi, hr⟩, rfl⟩
    simp only [List.append_assoc]
    exact ⟨_, _, hi, rfl, _, _, hr, rfl, rfl⟩

theorem compFields_spells : Spells compFields
    (fun c => c.number < 256 ∧ c.capacity < 256 ^ 4 ∧ c.planned < 256 ^ 4 ∧ (∀ x ∈ c.product, x < 256) ∧
      ∀ x ∈ c.prevGroup, x < 256)
    (fun c => byteOf c.number :: littleEndian 4 c.capacity ++ littleEndian 4 c.planned
      ++ markedBytes (fun x => [byteOf x]) c.product ++ markedBytes (fun x => [byteOf x]) c.prevGroup) := by
  intro bs c rest
  unfold compFields
  simp only [bind, byte_spells.bind_iff, (word_spells 4).bind_iff, (optional_spells byte_spells).bind_iff]
  constructor
  · intro h
    obtain ⟨n, _, hn, rfl, k, _, hk, rfl, p, _, hp, rfl, q, _, hq, rfl, g, _, hg, rfl, e⟩ := h
    cases e
    exact ⟨⟨hn, hk, hp, hq, hg⟩, by simp⟩
  · rintro ⟨⟨hn, hk, hp, hq, hg⟩, rfl⟩
    simp only [List.append_assoc, List.cons_append, List.nil_append]
    exact ⟨_, _, hn, rfl, _, _, hk, rfl, _, _, hp, rfl, _, _, hq, rfl, _, _, hg, rfl, rfl⟩

theorem armFields_spells : Spells armFields
    (fun f => f.bay < 256 ∧ f.mainMeter < 256 ∧ (∀ x ∈ f.blendMeter, x < 256) ∧
      allProducts.filter (fun p => decide (p ∈ f.products)) = f.products ∧ f.maxFlow < 256 ^ 2 ∧ f.lowFlow < 256 ^ 2 ∧
      f.startupVolume < 256 ^ 4 ∧ f.rampStep < 256 ^ 2 ∧ f.rampInterval < 256 ∧ f.toppingFlow < 256 ^ 2 ∧
      f.toppingVolume < 256 ^ 4 ∧ f.closingAllowance < 256 ^ 4)
    (fun f => byteOf f.bay :: byteOf f.mainMeter :: markedBytes (fun m => [byteOf m]) f.blendMeter
      ++ memberBytes 4 allProducts f.products ++ littleEndian 2 f.maxFlow ++ littleEndian 2 f.lowFlow
      ++ littleEndian 4 f.startupVolume ++ littleEndian 2 f.rampStep ++ [byteOf f.rampInterval]
      ++ littleEndian 2 f.toppingFlow ++ littleEndian 4 f.toppingVolume ++ littleEndian 4 f.closingAllowance
      ++ [placeByte [Service.inService, .outOfService] f.service]) := by
  intro bs f rest
  constructor
  · intro h
    unfold armFields at h
    obtain ⟨b, _, hb, e1, h⟩ := byte_spells.unbind h
    obtain ⟨m, _, hm, e2, h⟩ := byte_spells.unbind h
    obtain ⟨l, _, hl, e3, h⟩ := (optional_spells byte_spells).unbind h
    obtain ⟨p, _, hp, e4, h⟩ := allProducts_spells.unbind h
    obtain ⟨x1, _, h1, e5, h⟩ := (word_spells 2).unbind h
    obtain ⟨x2, _, h2, e6, h⟩ := (word_spells 2).unbind h
    obtain ⟨x3, _, h3, e7, h⟩ := (word_spells 4).unbind h
    obtain ⟨x4, _, h4, e8, h⟩ := (word_spells 2).unbind h
    obtain ⟨x5, _, h5, e9, h⟩ := byte_spells.unbind h
    obtain ⟨x6, _, h6, e10, h⟩ := (word_spells 2).unbind h
    obtain ⟨x7, _, h7, e11, h⟩ := (word_spells 4).unbind h
    obtain ⟨x8, _, h8, e12, h⟩ := (word_spells 4).unbind h
    obtain ⟨v, _, -, e13, h⟩ := service_spells.unbind h
    cases h
    refine ⟨⟨hb, hm, hl, hp, h1, h2, h3, h4, h5, h6, h7, h8⟩, ?_⟩
    rw [e1, e2, e3, e4, e5, e6, e7, e8, e9, e10, e11, e12, e13]
    simp only [List.append_assoc, List.cons_append, List.nil_append]
  · rintro ⟨⟨hb, hm, hl, hp, h1, h2, h3, h4, h5, h6, h7, h8⟩, rfl⟩
    simp only [List.append_assoc, List.cons_append]
    unfold armFields
    refine byte_spells.rebind hb ?_
    refine byte_spells.rebind hm ?_
    refine (optional_spells byte_spells).rebind hl ?_
    refine allProducts_spells.rebind hp ?_
    refine (word_spells 2).rebind h1 ?_
    refine (word_spells 2).rebind h2 ?_
    refine (word_spells 4).rebind h3 ?_
    refine (word_spells 2).rebind h4 ?_
    refine byte_spells.rebind h5 ?_
    refine (word_spells 2).rebind h6 ?_
    refine (word_spells 4).rebind h7 ?_
    refine (word_spells 4).rebind h8 ?_
    exact service_spells.rebind trivial rfl

/-! ### The whole-record bodies -/

theorem readPermit_iff (body : List Byte) (f : PermitFields) : readPermit body = some f ↔
    (f.card < 256 ^ 4 ∧ (f.name.length < 256 ∧ ∀ g ∈ f.name, g < 256) ∧ (f.code.length = 4 ∧ ∀ d ∈ f.code, d < 256) ∧
      allClasses.filter (fun c => decide (c ∈ f.classes)) = f.classes ∧ f.validFrom < 256 ^ 2 ∧ f.expiry < 256 ^ 2 ∧
      ∀ a ∈ f.allowance, a < 256 ^ 2) ∧
    body = littleEndian 4 f.card ++ countedBytes (fun g => [byteOf g]) f.name ++ f.code.flatMap (fun d => [byteOf d])
      ++ memberBytes 1 allClasses f.classes ++ littleEndian 2 f.validFrom ++ littleEndian 2 f.expiry
      ++ markedBytes (littleEndian 2) f.allowance := by
  unfold readPermit
  apply Spells.whole
  intro bs f rest
  simp only [bind, (word_spells 4).bind_iff, text_spells.bind_iff, (times_spells byte_spells 4).bind_iff,
    allClasses_spells.bind_iff, (word_spells 2).bind_iff, (optional_spells (word_spells 2)).bind_iff]
  constructor
  · rintro ⟨c, _, hc, rfl, n, _, hn, rfl, d, _, hd, rfl, k, _, hk, rfl, x, _, hx, rfl, y, _, hy, rfl, a, _, ha, rfl, e⟩
    cases e
    exact ⟨⟨hc, hn, hd, hk, hx, hy, ha⟩, by simp only [List.append_assoc]⟩
  · rintro ⟨⟨hc, hn, hd, hk, hx, hy, ha⟩, rfl⟩
    simp only [List.append_assoc]
    exact ⟨_, _, hc, rfl, _, _, hn, rfl, _, _, hd, rfl, _, _, hk, rfl, _, _, hx, rfl, _, _, hy, rfl, _, _, ha, rfl, rfl⟩

theorem readProduct_iff (body : List Byte) (f : ProductFields) : readProduct body = some f ↔
    (f.code < 256 ∧ (f.name.length < 256 ∧ ∀ g ∈ f.name, g < 256) ∧ f.cls < 256 ∧ f.group < 256 ∧ f.mainHeader < 256 ∧
      (∀ b ∈ f.blend, b.1 < 256 ∧ b.2.1 < 256 ^ 2 ∧ b.2.2 < 256) ∧
      (f.additives.length < 256 ∧ ∀ e ∈ f.additives, e.injector < 256 ∧ e.rate < 256 ^ 2 ∧ e.tolerance < 256) ∧
      (f.correction.length < 256 ∧ ∀ p ∈ f.correction,
        (-32768 ≤ p.temperature ∧ p.temperature < 32768) ∧ p.factor < 256 ^ 2)) ∧
    body = byteOf f.code :: countedBytes (fun g => [byteOf g]) f.name
      ++ [byteOf f.cls, byteOf f.group, byteOf f.mainHeader]
      ++ markedBytes (fun b => byteOf b.1 :: littleEndian 2 b.2.1 ++ [byteOf b.2.2]) f.blend
      ++ countedBytes (fun e => byteOf e.injector :: littleEndian 2 e.rate
        ++ [placeByte [Requirement.required, .optional] e.requirement, byteOf e.tolerance]) f.additives
      ++ countedBytes (fun p => signedBytes 2 p.temperature ++ littleEndian 2 p.factor) f.correction := by
  unfold readProduct
  apply Spells.whole
  intro bs f rest
  simp only [bind, byte_spells.bind_iff, text_spells.bind_iff, (optional_spells blendFields_spells).bind_iff,
    (counted_spells additiveFields_spells).bind_iff, (counted_spells correctionPoint_spells).bind_iff]
  constructor
  · rintro ⟨c, _, hc, rfl, n, _, hn, rfl, k, _, hk, rfl, g, _, hg, rfl, m, _, hm, rfl, b, _, hb, rfl, a, _, ha, rfl,
      p, _, hp, rfl, e⟩
    cases e
    exact ⟨⟨hc, hn, hk, hg, hm, hb, ha, hp⟩, by simp only [List.append_assoc, List.cons_append, List.nil_append]⟩
  · rintro ⟨⟨hc, hn, hk, hg, hm, hb, ha, hp⟩, rfl⟩
    simp only [List.append_assoc, List.cons_append, List.nil_append]
    exact ⟨_, _, hc, rfl, _, _, hn, rfl, _, _, hk, rfl, _, _, hg, rfl, _, _, hm, rfl, _, _, hb, rfl, _, _, ha, rfl,
      _, _, hp, rfl, rfl⟩

theorem readOrder_iff (body : List Byte) (f : OrderFields) : readOrder body = some f ↔
    (f.number < 256 ^ 4 ∧ f.card < 256 ^ 4 ∧ (∀ x ∈ f.bay, x < 256) ∧
      (f.tanker.length < 256 ∧ ∀ g ∈ f.tanker, g < 256) ∧
      (f.comps.length < 256 ∧ ∀ c ∈ f.comps, c.number < 256 ∧ c.capacity < 256 ^ 4 ∧ c.planned < 256 ^ 4 ∧
        (∀ x ∈ c.product, x < 256) ∧ ∀ x ∈ c.prevGroup, x < 256)) ∧
    body = littleEndian 4 f.number ++ littleEndian 4 f.card ++ markedBytes (fun x => [byteOf x]) f.bay
      ++ countedBytes (fun g => [byteOf g]) f.tanker
      ++ countedBytes (fun c => byteOf c.number :: littleEndian 4 c.capacity ++ littleEndian 4 c.planned
        ++ markedBytes (fun x => [byteOf x]) c.product ++ markedBytes (fun x => [byteOf x]) c.prevGroup) f.comps := by
  unfold readOrder
  apply Spells.whole
  intro bs f rest
  simp only [bind, (word_spells 4).bind_iff, (optional_spells byte_spells).bind_iff, text_spells.bind_iff,
    (counted_spells compFields_spells).bind_iff]
  constructor
  · rintro ⟨n, _, hn, rfl, c, _, hc, rfl, b, _, hb, rfl, t, _, ht, rfl, k, _, hk, rfl, e⟩
    cases e
    exact ⟨⟨hn, hc, hb, ht, hk⟩, by simp only [List.append_assoc]⟩
  · rintro ⟨⟨hn, hc, hb, ht, hk⟩, rfl⟩
    simp only [List.append_assoc]
    exact ⟨_, _, hn, rfl, _, _, hc, rfl, _, _, hb, rfl, _, _, ht, rfl, _, _, hk, rfl, rfl⟩

theorem readAmend_iff (body : List Byte) (f : AmendFields) : readAmend body = some f ↔
    (f.number < 256 ^ 4 ∧ f.comp < 256 ∧ f.planned < 256 ^ 4 ∧ ∀ x ∈ f.product, x < 256) ∧
    body = littleEndian 4 f.number ++ byteOf f.comp :: littleEndian 4 f.planned
      ++ markedBytes (fun x => [byteOf x]) f.product := by
  unfold readAmend
  apply Spells.whole
  intro bs f rest
  simp only [bind, (word_spells 4).bind_iff, byte_spells.bind_iff, (optional_spells byte_spells).bind_iff]
  constructor
  · rintro ⟨n, _, hn, rfl, c, _, hc, rfl, p, _, hp, rfl, q, _, hq, rfl, e⟩
    cases e
    exact ⟨⟨hn, hc, hp, hq⟩, by simp only [List.append_assoc, List.cons_append, List.nil_append]⟩
  · rintro ⟨⟨hn, hc, hp, hq⟩, rfl⟩
    simp only [List.append_assoc, List.cons_append]
    exact ⟨_, _, hn, rfl, _, _, hc, rfl, _, _, hp, rfl, _, _, hq, rfl, rfl⟩

theorem readInjectorPut_iff (body : List Byte) (f : InjectorFields) : readInjectorPut body = some f ↔
    (f.injector < 256 ∧ f.shotVolume < 256 ^ 2 ∧ f.k < 256 ^ 2 ∧ f.window < 256 ∧ (∀ x ∈ f.follower, x < 256) ∧
      f.mark < 256 ^ 4) ∧
    body = byteOf f.injector :: placeByte [Service.inService, .outOfService] f.service :: littleEndian 2 f.shotVolume
      ++ littleEndian 2 f.k ++ byteOf f.window :: markedBytes (fun x => [byteOf x]) f.follower
      ++ littleEndian 4 f.mark := by
  unfold readInjectorPut
  apply Spells.whole
  intro bs f rest
  simp only [bind, byte_spells.bind_iff, service_spells.bind_iff, (word_spells 2).bind_iff,
    (optional_spells byte_spells).bind_iff, (word_spells 4).bind_iff]
  constructor
  · rintro ⟨i, _, hi, rfl, v, _, -, rfl, x, _, hx, rfl, k, _, hk, rfl, w, _, hw, rfl, l, _, hl, rfl, m, _, hm, rfl, e⟩
    cases e
    exact ⟨⟨hi, hx, hk, hw, hl, hm⟩, by simp only [List.append_assoc, List.cons_append, List.nil_append]⟩
  · rintro ⟨⟨hi, hx, hk, hw, hl, hm⟩, rfl⟩
    simp only [List.append_assoc, List.cons_append]
    exact ⟨_, _, hi, rfl, _, _, trivial, rfl, _, _, hx, rfl, _, _, hk, rfl, _, _, hw, rfl, _, _, hl, rfl,
      _, _, hm, rfl, rfl⟩

theorem readArmPut_iff (body : List Byte) (x : Nat × Option ArmFields) : readArmPut body = some x ↔
    (x.1 < 256 ∧ ∀ f ∈ x.2, f.bay < 256 ∧ f.mainMeter < 256 ∧ (∀ x ∈ f.blendMeter, x < 256) ∧
      allProducts.filter (fun p => decide (p ∈ f.products)) = f.products ∧ f.maxFlow < 256 ^ 2 ∧ f.lowFlow < 256 ^ 2 ∧
      f.startupVolume < 256 ^ 4 ∧ f.rampStep < 256 ^ 2 ∧ f.rampInterval < 256 ∧ f.toppingFlow < 256 ^ 2 ∧
      f.toppingVolume < 256 ^ 4 ∧ f.closingAllowance < 256 ^ 4) ∧
    body = byteOf x.1 :: x.2.elim [1] fun f => 0 :: byteOf f.bay :: byteOf f.mainMeter
      :: markedBytes (fun m => [byteOf m]) f.blendMeter
      ++ memberBytes 4 allProducts f.products ++ littleEndian 2 f.maxFlow ++ littleEndian 2 f.lowFlow
      ++ littleEndian 4 f.startupVolume ++ littleEndian 2 f.rampStep ++ [byteOf f.rampInterval]
      ++ littleEndian 2 f.toppingFlow ++ littleEndian 4 f.toppingVolume ++ littleEndian 4 f.closingAllowance
      ++ [placeByte [Service.inService, .outOfService] f.service] := by
  unfold readArmPut
  apply Spells.whole
  intro bs x rest
  simp only [bind, byte_spells.bind_iff, assigned_spells.bind_iff]
  constructor
  · rintro ⟨n, _, hn, rfl, d, _, -, rfl, h⟩
    cases d with
    | false => cases h; exact ⟨⟨hn, by simp⟩, rfl⟩
    | true =>
      obtain ⟨f, _, hf, rfl, e⟩ := armFields_spells.unbind h
      cases e
      exact ⟨⟨hn, by simpa using hf⟩, by simp only [Option.elim, if_true, List.append_assoc, List.cons_append, List.nil_append]⟩
  · obtain ⟨n, o⟩ := x
    rintro ⟨⟨hn, hf⟩, rfl⟩
    cases o with
    | none => exact ⟨n, _, hn, rfl, false, _, trivial, rfl, rfl⟩
    | some f =>
      exact ⟨n, _, hn, rfl, true, _, trivial, rfl, armFields_spells.rebind (hf f rfl) rfl⟩

/-! ### Screens and the prompt map -/

theorem emphasis_spells : Spells (named Emphasis.all) (fun _ => True)
    (fun x => [placeByte [Emphasis.normal, .inverse, .flashing] x]) := by
  intro bs x rest
  rw [named_spells Emphasis.all (by decide) (by decide) bs x rest]
  cases x <;> simp [Emphasis.all]

theorem fieldCode_spells : Spells (named FieldCode.all) (fun _ => True) (fun x => [placeByte FieldCode.all x]) := by
  intro bs x rest
  rw [named_spells FieldCode.all (by decide) (by decide) bs x rest]
  cases x <;> simp [FieldCode.all]

theorem situation_spells : Spells (named Situation.all) (fun _ => True) (fun x => [placeByte Situation.all x]) := by
  intro bs x rest
  rw [named_spells Situation.all (by decide) (by decide) bs x rest]
  cases x <;> simp [Situation.all]

theorem columnCell_spells : Spells columnCell
    (fun c => match c with
      | .field _ w => 1 ≤ w ∧ w ≤ 16
      | _ => True)
    (fun c => match c with
      | .character g => [1, byteOf g.val]
      | .attr e => [2, placeByte [Emphasis.normal, .inverse, .flashing] e]
      | .field f w => [3, placeByte FieldCode.all f, byteOf w]) := by
  intro bs c rest
  constructor
  · intro h
    unfold columnCell at h
    split at h
    · rename_i g bs
      obtain ⟨y, hy, e⟩ := Option.map_eq_some_iff.mp h
      cases e
      refine ⟨trivial, ?_⟩
      have : g = byteOf y.val := by
        unfold byteOf; rw [← coded_eq_some.mp hy, BitVec.ofNat_toNat, BitVec.setWidth_eq]
      rw [this]; rfl
    · obtain ⟨⟨y, _⟩, hy, e⟩ := Option.map_eq_some_iff.mp h
      obtain ⟨-, rfl⟩ := (emphasis_spells _ _ _).mp hy
      cases e
      exact ⟨trivial, rfl⟩
    · obtain ⟨f, _, -, e1, h⟩ := fieldCode_spells.unbind h
      obtain ⟨w, _, hw, e2, h⟩ := byte_spells.unbind h
      dsimp only at h
      split at h
      · cases h
        rename_i hr _
        rw [e1, e2]
        exact ⟨by simpa [inRange] using hr, rfl⟩
      · cases h
    · cases h
  · rintro ⟨hc, rfl⟩
    cases c with
    | character g =>
      have : (byteOf g.val).toNat = g.val := by
        unfold byteOf; rw [BitVec.toNat_ofNat]; exact Nat.mod_eq_of_lt (by omega)
      show (coded 64 (byteOf g.val).toNat).map _ = _
      rw [coded_eq_some.mpr this]; rfl
    | attr e =>
      show (named Emphasis.all ([placeByte [Emphasis.normal, .inverse, .flashing] e] ++ rest)).map _ = _
      rw [(emphasis_spells _ e rest).mpr ⟨trivial, rfl⟩]; rfl
    | field f w =>
      refine fieldCode_spells.rebind trivial ?_
      refine byte_spells.rebind (a := w) (by omega) ?_
      have : inRange 1 16 w = true := by simpa [inRange] using hc
      show (if inRange 1 16 w = true then _ else _) = _
      rw [if_pos this]

theorem screenLine_spells : Spells screenLine
    (fun l => l.cells.length < 256 ∧ ∀ c ∈ l.cells, match c with
      | .field _ w => 1 ≤ w ∧ w ≤ 16
      | _ => True)
    (fun l => [0, if l.hidden then 1 else 0, if l.double then 1 else 0,
          placeByte [Emphasis.normal, .inverse, .flashing] l.emphasis]
        ++ countedBytes (fun c => match c with
          | .character g => [1, byteOf g.val]
          | .attr e => [2, placeByte [Emphasis.normal, .inverse, .flashing] e]
          | .field f w => [3, placeByte FieldCode.all f, byteOf w]) l.cells) := by
  intro bs l rest
  constructor
  · intro h
    unfold screenLine at h
    split at h
    · obtain ⟨x, _, -, e1, h⟩ := yesNo_spells.unbind h
      obtain ⟨y, _, -, e2, h⟩ := yesNo_spells.unbind h
      obtain ⟨z, _, -, e3, h⟩ := emphasis_spells.unbind h
      obtain ⟨c, _, hc, e4, h⟩ := (counted_spells columnCell_spells).unbind h
      cases h
      rw [e1, e2, e3, e4]
      exact ⟨hc, rfl⟩
    · cases h
  · rintro ⟨hc, rfl⟩
    refine yesNo_spells.rebind trivial ?_
    refine yesNo_spells.rebind trivial ?_
    refine emphasis_spells.rebind trivial ?_
    exact (counted_spells columnCell_spells).rebind hc rfl

theorem readScreenPut_iff (body : List Byte) (x : Nat × List Line) : readScreenPut body = some x ↔
    (x.1 < 256 ∧ x.2.length = 4 ∧ ∀ l ∈ x.2, l.cells.length < 256 ∧ ∀ c ∈ l.cells, match c with
      | .field _ w => 1 ≤ w ∧ w ≤ 16
      | _ => True) ∧
    body = byteOf x.1 :: x.2.flatMap fun l => [0, if l.hidden then 1 else 0, if l.double then 1 else 0,
          placeByte [Emphasis.normal, .inverse, .flashing] l.emphasis]
        ++ countedBytes (fun c => match c with
          | .character g => [1, byteOf g.val]
          | .attr e => [2, placeByte [Emphasis.normal, .inverse, .flashing] e]
          | .field f w => [3, placeByte FieldCode.all f, byteOf w]) l.cells := by
  unfold readScreenPut
  apply Spells.whole
  intro bs x rest
  simp only [bind, byte_spells.bind_iff, (times_spells screenLine_spells 4).bind_iff]
  constructor
  · rintro ⟨n, _, hn, rfl, l, _, hl, rfl, e⟩
    cases e
    exact ⟨⟨hn, hl⟩, rfl⟩
  · rintro ⟨⟨hn, hl⟩, rfl⟩
    exact ⟨_, _, hn, rfl, _, _, hl, rfl, rfl⟩

theorem mapChange_spells : Spells mapChange (fun c => c.2.1 < 256)
    (fun c => [placeByte Situation.all c.1, byteOf c.2.1, if c.2.2 then 1 else 0]) := by
  intro bs c rest
  unfold mapChange
  simp only [bind, situation_spells.bind_iff, byte_spells.bind_iff, yesNo_spells.bind_iff]
  constructor
  · rintro ⟨z, _, -, rfl, n, _, hn, rfl, p, _, -, rfl, e⟩
    cases e
    exact ⟨hn, rfl⟩
  · rintro ⟨hn, rfl⟩
    exact ⟨_, _, trivial, rfl, _, _, hn, rfl, _, _, trivial, rfl, rfl⟩

theorem readMapPut_iff (body : List Byte) (changes : List (Situation × Nat × Bool)) :
    readMapPut body = some changes ↔ (changes.length < 256 ∧ ∀ c ∈ changes, c.2.1 < 256) ∧
    body = countedBytes (fun c => [placeByte Situation.all c.1, byteOf c.2.1, if c.2.2 then 1 else 0]) changes :=
  (counted_spells mapChange_spells).whole body changes

end Sys2Proof.Machine
end

