-- ==== Sys2Proof/Tests/Slice0.lean ====
section
/-! SUPPORT. The model's own tests: one ill-formed command for each check of WellFormed, the frames and figures that
the manual works out, small steps of the commands, and for every statement with hypotheses a state and operands that
meet them. All run on one small rack with one permit, one product, one order and one loading session. -/

namespace Sys2Proof.Tests

set_option Elab.async false

open Sys2Proof Sys2Proof.Machine

/-! ### A small rack -/

/-- The permit of card 77, code 1234, every class, days 0 to 200. -/
def permit : Permit :=
  { card := 77, name := glyphs "KIM", code := [1, 2, 3, 4], classes := allClasses, validFrom := 0, expiry := 200,
    allowance := none, strikes := 0, persistent := false, dynamic := .none, sessionBay := some 0 }

/-- Product 1: no blend, one REQUIRED additive of 400 mL per 1000 L on injector 1, the table of section 2.3. -/
def product : Product :=
  { name := glyphs "DIESEL", cls := 1, group := 2, mainHeader := 0, blend := none
    additives := [{ injector := 0, rate := 400, requirement := .required, tolerance := 10 }]
    correction := [⟨-200, 10250⟩, ⟨150, 10000⟩, ⟨400, 9790⟩] }

/-- Compartment 1, 3000.0 L planned of product 1, clean. -/
def comp : Compartment :=
  { number := 0, capacity := 50000, planned := 30000, product := some 0, prevGroup := none, state := .planned, gross := 0,
    net := 0, tempSum := 0, batchCount := 0, lastArm := none, results := [], flags := [] }

/-- Order 9 of card 77, ACTIVE at bay 1. -/
def order : Order :=
  { number := 9, seq := 1, stage := .active { bay := 0, startTime := some ⟨100, 1000⟩, endTime := none }, card := 77,
    bay := none, tanker := glyphs "T1", comps := [comp] }

/-- Bay 1 in LOADING on order 9, compartment 1 selected, both permissives PRESENT. -/
def session : Session :=
  { Session.atReset with
    state := .loading, card := some 77, bound := some 9, selected := some 0, timer := some 600000
    bond := { input := true, present := true, debounce := none }
    overfill := { input := true, present := true, debounce := none } }

/-- Arm 1 at bay 1 on meter 1, serving product 1, coupled. -/
def arm : Arm := { Arm.default with bay := some 0, mainMeter := some 0, products := [0], connected := true }

/-- The rack in the midst of a visit, before its first START. -/
def rack : State :=
  { State.reset with
    permits := [permit]
    products := vset State.reset.products 0 (some product)
    orders := vset State.reset.orders 0 (some order)
    creationCounter := 2
    bays := vset State.reset.bays 0 session
    arms := vset State.reset.arms 0 arm
    injectors := vset State.reset.injectors 0 { Injector.default with stock := 100000, mark := 5000 }
    clock := some ⟨100, 1000⟩
    clockPhase := some 1000
    esd := { active := false, input := false, debounce := none } }

/-- The state a command leaves. -/
def after (c : Instr) (s : State) : State :=
  match exec c s with
  | .next t => t
  | .fault _ => s
  | .refused _ => s

/-- The rack with the batch of arm 1 under way. -/
def running : State := after (.start 0) rack

/-- The rack with one field of the session at bay 1 changed. -/
def atBay (f : Session → Session) (s : State) : State := s.modSession 0 f

/-- The rack with one field of the batch of arm 1 changed. -/
def atBatch (f : Batch → Batch) (s : State) : State := s.modBatch 0 f

/-- The batch held by the host. -/
def held : State := running.handCause 0 .host

/-- The batch in CLOSING after STOP. -/
def closing : State := after (.stop 0) running

/-- Bay 1 in IDLE and its order OPEN. -/
def quiet : State :=
  { rack with
    bays := vset rack.bays 0 { Session.atReset with bond := session.bond, overfill := session.overfill }
    permits := [{ permit with sessionBay := none }]
    orders := vset rack.orders 0 (some { order with stage := .opened }) }

/-! ### WellFormed: one ill-formed command for each check -/

theorem test_wellFormed_body_too_long : (Instr.statusGet 0 (List.replicate 501 0)).wellFormed = false := by decide +kernel
theorem test_wellFormed_body_longest : (Instr.permitPut 0 (List.replicate 500 0)).wellFormed = true := by decide +kernel
theorem test_wellFormed_discard_of_a_good_frame :
    (Instr.hostFrameDiscard (hostFrame [0x01, 0x07])).wellFormed = false ∧
    (Instr.hostFrameTimeout (hostFrame [0x01, 0x07])).wellFormed = false := by decide +kernel
theorem test_wellFormed_discard_of_a_bad_frame :
    (Instr.hostFrameDiscard [0xA5, 0x02, 0x00, 0x01, 0x07, 0x00, 0x00]).wellFormed = true := by decide +kernel
theorem test_wellFormed_known_kind_is_not_unknown : (Instr.unknownKind 0x01 0 []).wellFormed = false := by decide +kernel
theorem test_wellFormed_unknown_kind : (Instr.unknownKind 0x07 0 []).wellFormed = true := by decide +kernel
theorem test_wellFormed_discard_of_a_good_terminal_frame :
    (Instr.bayFrameDiscard 0 [0x5A, 0x01, 0xD1, 0xF1]).wellFormed = false ∧
    (Instr.bayFrameTimeout 0 [0x5A, 0x01, 0xD1, 0xF1]).wellFormed = false := by decide +kernel
theorem test_wellFormed_reading_out_of_range :
    (Instr.probeReading 0 (.temperature 10000)).wellFormed = false ∧
    (Instr.probeReading 0 (.temperature (-10000))).wellFormed = false ∧
    (Instr.probeReading 0 (.temperature (-9999))).wellFormed = true := by decide +kernel

/-! ### Frames -/

/-- The check value of the CRC named in section 11.1. -/
theorem test_crc_check_value :
    crc16 [0x31, 0x32, 0x33, 0x34, 0x35, 0x36, 0x37, 0x38, 0x39] = 0x29B1 := by decide +kernel
theorem test_status_get_frame :
    hostCommands [] [0xA5, 0x02, 0x00, 0x01, 0x07, 0x7E, 0x2A] = [.statusGet 0x07 []] := by decide +kernel
theorem test_bad_crc_is_discarded :
    hostCommands [] [0xA5, 0x02, 0x00, 0x01, 0x07, 0x7E, 0x2B]
      = [.hostFrameDiscard [0xA5, 0x02, 0x00, 0x01, 0x07, 0x7E, 0x2B]] := by decide +kernel
/-- Noise, a bad length and a bad CRC before a good frame: the hunt goes on behind each. -/
theorem test_hunt_goes_on_behind_a_discard :
    hostCommands [] ([0x11, 0xA5, 0x01, 0x00, 0xA5, 0x02, 0x00, 0x01, 0x07, 0x7E, 0x2B, 0x22] ++ hostFrame [0x01, 0x07])
      = [.hostFrameDiscard [0xA5, 0x01, 0x00], .hostFrameDiscard [0xA5, 0x02, 0x00, 0x01, 0x07, 0x7E, 0x2B],
         .statusGet 0x07 []] := by decide +kernel
theorem test_a_frame_in_two_parts :
    hostCommands [] [0x11, 0xA5, 0x02, 0x00, 0x01] = [] ∧ (hunt [] [0x11, 0xA5, 0x02, 0x00, 0x01]).buffer = [0xA5, 0x02, 0x00, 0x01] ∧
    hostCommands [0xA5, 0x02, 0x00, 0x01] [0x07, 0x7E, 0x2A] = [.statusGet 0x07 []] := by decide +kernel
/-- The port in the midst of a frame. -/
def cut : State := { rack with port := { rack.port with rx := [0xA5, 0x02, 0x00] } }
/-- A frame cut over two stretches; one of them discarded, nothing of it left for the next good frame to be lost behind; a
further frame under way behind a discard. -/
theorem test_receive_over_two_stretches :
    (rack.receive [0xA5, 0x02, 0x00]).port = cut.port ∧ (cut.receive [0x01, 0x07, 0x7E, 0x2A]).pending = [.statusGet 0x07 []] ∧
    (cut.receive [0x01, 0xA5, 0x02, 0x00]).pending = [.hostFrameDiscard [0xA5, 0x02, 0x00, 0x01, 0xA5, 0x02, 0x00]] ∧
    ((after (.hostFrameDiscard [0xA5, 0x02, 0x00, 0x01, 0xA5, 0x02, 0x00]) cut).receive (hostFrame [0x01, 0x07])).pending
      = [.statusGet 0x07 []] ∧
    (cut.receive [0x01, 0x07, 0x7E, 0x2B, 0xA5, 0x02]).pending
      = [.hostFrameDiscard [0xA5, 0x02, 0x00, 0x01, 0x07, 0x7E, 0x2B, 0xA5, 0x02]] ∧
    (after (.hostFrameDiscard [0xA5, 0x02, 0x00, 0x01, 0x07, 0x7E, 0x2B, 0xA5, 0x02]) cut).port.rx = [0xA5, 0x02] := by
  decide +kernel
theorem test_short_length_is_discarded : acceptedContent (0xA5 :: 0x01 :: 0x00 :: [0x01, 0x00, 0x00]) = none := by
  decide +kernel
theorem test_terminal_frames :
    terminalCommand 2 [0x5A, 0x01, 0xD1, 0xF1] = .heartbeat 2 ∧
    terminalCommand 2 [0x5A, 0x03, 0x09, 0x75, 0xD9] = .digitKey 2 9 ∧
    terminalCommand 2 [0x5A, 0x03, 0x0A, 0x16, 0xE9] = .enter 2 ∧
    terminalCommand 2 [0x5A, 0x03, 0x0A, 0x16, 0xE8] = .bayFrameDiscard 2 [0x5A, 0x03, 0x0A, 0x16, 0xE8] := by
  decide +kernel
theorem test_key_code_17_is_not_well_formed :
    terminalContent (0x5A :: [0x03, 17] ++ crcBytes [0x03, 17]) = none := by decide +kernel
theorem test_no_word_spells_a_command : decodeTableWord 16 0x1234 = none ∧ State.reset.withFetchWord 8 5 = State.reset :=
  ⟨rfl, rfl⟩

/-! ### Figures of the manual -/

/-- Table 2-4. -/
theorem test_correction_factors :
    correctionFactor product.correction (-315) = 10250 ∧ correctionFactor product.correction 50 = 10071 ∧
    correctionFactor product.correction 237 = 9927 ∧ correctionFactor product.correction 520 = 9790 := by decide +kernel
/-- Table 5-3. -/
theorem test_learned_allowances :
    learnedAllowance 50 30033 30000 = 66 ∧ learnedAllowance 66 45011 45000 = 71 ∧ learnedAllowance 71 21986 22000 = 64 := by
  decide +kernel
/-- Table 7-4. -/
theorem test_dose_figures : expectedDose 74368 400 = 2975 ∧ expectedDose 9553 25 = 24 := by decide +kernel
/-- Table 8-2. -/
def run : Proving := { requested := 10, remaining := 0, totalShots := 10, totalPulses := 1008, oldK := 1000 }
theorem test_proving_figures :
    run.newK 870 = 1159 ∧ run.accepts 1159 = false ∧ run.newK 1062 = 949 ∧ run.accepts 949 = true := by decide +kernel
/-- After 973 pulses at K 97.250 a residue of 5000 stands, 100 tenths having been produced. -/
theorem test_conversion_residue : 973 * 10000 % 97250 = 5000 ∧ 973 * 10000 / 97250 = 100 := by decide +kernel
/-- The note counter passes from 999 999 to 1. -/
theorem test_next_note_wraps : nextNumber 999999 = 1 ∧ skipHeld [999999, 1] 64 999999 = 2 := by decide +kernel

/-! ### Hypotheses that are met: port, frames, status, resets -/

/-- No timer at 0; one at 0 at the head of the order; one behind others that do not stand at 0. -/
theorem witness_IdleStepLetsTimePass :
    State.reset.pending = [] ∧ State.reset.dueCommand = none ∧ (State.reset.timers.all fun e => decide (e.1 ≠ some 0)) = true ∧
    ({ State.reset with clockPhase := some 0 } : State).timers.head? = some (some 0, .clockTick) ∧
    ({ State.reset with clockPhase := some 0 } : State).dueCommand = some .clockTick ∧
    (rack.modSession 0 fun x => { x with silence := some 0 }).dueCommand = some (.terminalLost 0) := by decide +kernel

/-- The rack while a response is under way. -/
def busy : State := { rack with port := { rack.port with phase := .responding } }

theorem witness_PortAndResponses :
    (Instr.statusGet 7 []).request.isSome ∧ busy.port.phase = .responding ∧ rack.port.phase = .hunting ∧
    (Instr.statusGet 7 [1]).request = some (0x01, 7, [1]) ∧ (Instr.statusGet 7 [1]).bodyMatches = false ∧
    hostCommands rack.port.rx [0xA5, 0x02] = [] ∧ hostCommands rack.port.rx (hostFrame [0x01, 0x07]) ≠ [] := by
  decide +kernel

/-- Each clause on the hunt at the ends of the length; each clause on a terminal frame at the ends of the key codes. -/
theorem witness_FramesOfBothLinks :
    (Instr.permitGet 3 [1, 0, 0, 0]).request = some (0x11, 3, [1, 0, 0, 0]) ∧
    (Instr.permitGet 3 [1, 0, 0, 0]).wellFormed = true ∧ (0x5A : Byte) ≠ 0xA5 ∧ 1 < 2 ∧
    (0xF7 : Byte).toNat + 256 * (0x01 : Byte).toNat = 503 ∧ (0xF6 : Byte).toNat + 256 * (0x01 : Byte).toNat = 502 ∧
    (2 : Byte).toNat + 256 * (0 : Byte).toNat = 2 ∧ [0x7E, 0x2A] = littleEndian 2 (crc16 (0x02 :: 0x00 :: [0x01, 0x07])).toNat ∧
    [0x7E, 0x2B] ≠ littleEndian 2 (crc16 (0x02 :: 0x00 :: [0x01, 0x07])).toNat ∧ ([0x01, 0x07, 0x7E] : List Byte).length < 2 + 2 ∧
    terminalContent [0x5A, 0x01, 0xD1, 0xF1] = some .heartbeat ∧
    terminalContent (0x5A :: [0x02, 77, 0, 0, 0] ++ crcBytes [0x02, 77, 0, 0, 0]) = some (.card 77) ∧
    terminalContent (0x5A :: [0x03, 0] ++ crcBytes [0x03, 0]) = some (.key 0) ∧
    terminalContent (0x5A :: [0x03, 9] ++ crcBytes [0x03, 9]) = some (.key 9) ∧
    terminalContent (0x5A :: [0x03, 10] ++ crcBytes [0x03, 10]) = some (.key 10) ∧
    terminalContent (0x5A :: [0x03, 16] ++ crcBytes [0x03, 16]) = some (.key 16) ∧
    terminalContent [0x5A, 0x04] = none ∧ hunt [] [0xA5, 0x02, 0x00] = ⟨[0xA5, 0x02, 0x00], [], none⟩ ∧
    (hunt [0xA5, 0x02, 0x00] [0x01, 0xA5, 0x02, 0x00]).discarded = [] ++ [[0xA5, 0x02, 0x00, 0x01, 0xA5, 0x02, 0x00]] := by
  decide +kernel

/-- The rack with the terminal of bay 1 LOST. -/
def lost : State := atBay (fun x => { x with terminal := .lost, silence := none }) rack

/-- A rack whose terminal at bay 1 has been silent for 3 s. -/
def silent (s : State) : State := atBay (fun x => { x with silence := some 0 }) s

theorem witness_TerminalLiveness :
    (rack.session 0).terminal = .present ∧ (lost.session 0).terminal = .lost ∧ ((silent rack).session 0).silence = some 0 ∧
    (rack.session 0).silence ≠ some 0 ∧ (rack.session 0).state = .loading ∧
    (rack.session 1).state = .idle ∧ (rack.session 1).terminal = .present ∧
    ((atBay (fun x => { x with state := .codeEntry, bound := none }) rack).session 0).state = .codeEntry ∧
    ((atBay (fun x => { x with state := .waitBond }) rack).session 0).bound = some 9 ∧
    rack.findOrder 9 = some (0, order) ∧ (running.arm 0).bay = some 0 ∧ running.batchIs 0 .lowStart = true ∧
    closing.batchIs 0 .closing = true ∧ held.batchIs 0 .held = true ∧ (running.arm 1).bay ≠ some 0 := by decide +kernel

/-- What a trip reaches (`State.TripReached`): a flowing batch and one in CLOSING, each with its order and compartment. -/
theorem witness_TripReached :
    (running.batch 0).any (fun b => b.state.flowing && decide (b.ref = ⟨0, 9, 0⟩)) = true ∧
    (closing.batch 0).any (fun b => decide (b.state = .closing ∧ b.ref = ⟨0, 9, 0⟩)) = true ∧
    (running.compOf ⟨0, 9, 0⟩).isSome ∧ (closing.compOf ⟨0, 9, 0⟩).isSome := by decide +kernel

/-- Two flags named; CLOCK_SET at the last second and past it; ticks due and not due, before, at and after the last second
of a day. -/
theorem witness_StatusEventFlagsAndClock :
    rack.port.phase = .hunting ∧ 65535 < 65536 ∧ 0 < 65536 ∧
    EventFlag.all.filter (fun f => Nat.testBit 0x8001 (EventFlag.all.idxOf f)) = [.restart, .terminalLost] ∧
    86399 ≤ 86399 ∧ ¬ 86400 ≤ 86399 ∧ State.reset.clock = none ∧ rack.clockPhase ≠ some 0 ∧
    ({ rack with clockPhase := some 0 } : State).clockPhase = some 0 ∧
    ({ rack with clock := some ⟨5, 86398⟩ } : State).clock = some { day := 5, second := 86398 } ∧
    ({ rack with clock := some ⟨65534, 86399⟩ } : State).clock = some { day := 65534, second := 86399 } ∧
    ({ rack with clock := some ⟨65535, 86399⟩ } : State).clock = some { day := 65535, second := 86399 } := by
  decide +kernel

/-- The order with 10.0 L delivered, its compartment LOADING. -/
def part : State :=
  running.modComp ⟨0, 9, 0⟩ fun c => { c with gross := 100, net := 100 }

/-- Two ACTIVE orders with 10.0 L delivered each: order 8 at bay 2 in the first slot, order 9 at bay 1 in the second. -/
def partAtTwoBays : State :=
  let loaded : Order := { order with comps := [{ comp with gross := 100, net := 100, state := .held }] }
  { rack with orders := vset (vset rack.orders 0 (some { loaded with
      number := 8, stage := .active { bay := 1, startTime := some ⟨100, 900⟩, endTime := none } })) 1 (some loaded) }

/-- What a power-up finds where no input is active but the BOND of bay 1 and the couplings, after the resets given. -/
def foundAfter (cuts : List CutReset) : Found :=
  { strapHigh := true, esdActive := false, bond := #v[true, false, false, false]
    overfill := Vector.replicate 4 false, connected := Vector.replicate 12 true, cuts := cuts }

/-- Orders of each kind, and compartments; a rack reset cut after the first of two recoveries. -/
theorem witness_ResetsLeaveTheRackIdleAndRecoverOrders :
    running.port.phase = .hunting ∧ (running.orderIn 0).any (fun o => o.isActive && decide (o.totalGross = 0)) = true ∧
    (part.orderIn 0).any (fun o => o.isActive && decide (0 < o.totalGross)) = true ∧
    (quiet.orderIn 0).any (fun o => !o.isActive) = true ∧ running.orderIn 1 = none ∧
    (running.compOf ⟨0, 9, 0⟩).any (fun c => decide (c.state = .loading ∧ c.gross < c.planned)) = true ∧
    (held.compOf ⟨0, 9, 0⟩).any (fun c => decide (c.state = .held)) = true ∧
    (rack.compOf ⟨0, 9, 0⟩).any (fun c => decide (c.state ≠ .loading ∧ c.state ≠ .held)) = true ∧
    (foundAfter []).cuts = [] ∧ (foundAfter [⟨true, 1⟩, ⟨false, 0⟩]).cuts = ⟨true, 1⟩ :: [⟨false, 0⟩] ∧
    partAtTwoBays.activeSlots = [1, 0] := by decide +kernel

theorem witness_ClearAllReturnsTablesToDefaults :
    rack.port.phase = .hunting ∧ (rack.session 0).state ≠ .idle ∧ (∀ b, (quiet.session b).state = .idle) ∧
    (∀ i, (quiet.injector i).state ≠ .proving ∧ (quiet.injector i).state ≠ .proveWait) ∧
    ((quiet.modInjector 0 fun x => { x with state := .proveWait }).injector 0).state = .proveWait := by decide +kernel

/-- The rack under ESD, its input active; and in the release debounce. -/
def shut : State := after .esdInputActive running
def releasing : State := after .esdInputInactive shut
def released : State := { releasing with esd := { releasing.esd with debounce := some 0 } }

/-- The same with an entry in the queue of injector 1, which is IDLE. -/
def releasedQueued : State :=
  released.modInjector 0 fun x =>
    { x with queue := [{ arm := 0, ref := ⟨0, 9, 0⟩, index := 1, owed := 1, inService := false }] }

theorem witness_EsdInput :
    shut.esd.active = true ∧ running.esd.active = false ∧ running.esd.input = false ∧ shut.esd.input = true ∧
    shut.esd.debounce = none ∧ releasing.esd.active = true ∧ releasing.esd.debounce = some 2000 ∧
    released.esd.active = true ∧ released.esd.debounce = some 0 ∧ closing.batchIs 0 .closing = true ∧
    shut.batchIs 0 .held = true ∧ ((running.modInjector 1 fun x => { x with state := .proving }).injector 1).state = .proving ∧
    released.batchIs 0 .held = true ∧ (∀ i, (released.injector i).queue = [] ∨ (released.injector i).state ≠ .idle) ∧
    releasedQueued.esd.active = true ∧ releasedQueued.esd.debounce = some 0 ∧
    (releasedQueued.injector 0).queue ≠ [] ∧ (releasedQueued.injector 0).state = .idle := by decide +kernel

/-! ### Hypotheses that are met: permits -/

/-- A PERMIT_PUT for a card, valid days 0 to 200, no allowance. -/
def permitBytes (card : Byte) : List Byte := [card, 0, 0, 0, 1, 11, 1, 2, 3, 4, 0xFF, 0, 0, 200, 0, 0]

def permitFields (card : Nat) : PermitFields :=
  { card, name := [11], code := [1, 2, 3, 4], classes := allClasses, validFrom := 0, expiry := 200, allowance := none }

def newPermit (card : Nat) : Permit :=
  { card, name := [11], code := [1, 2, 3, 4], classes := allClasses, validFrom := 0, expiry := 200, allowance := none,
    strikes := 0, persistent := false, dynamic := .none, sessionBay := none }

/-- A Permit Table of 512 records. -/
def full : State := { rack with permits := (List.range 512).map fun k => newPermit (k + 1) }

theorem witness_PermitPut :
    rack.port.phase = .hunting ∧ readPermit (permitBytes 77) = some (permitFields 77) ∧
    (permitFields 77).checked = some (newPermit 77) ∧ (rack.findPermit 77).isSome ∧
    readPermit (permitBytes 0) = some (permitFields 0) ∧ (permitFields 0).checked = none ∧
    (permitFields 78).checked = some (newPermit 78) ∧ rack.findPermit 78 = none ∧ rack.permits.length < 512 ∧
    full.findPermit 513 = none ∧ 512 ≤ full.permits.length := by decide +kernel

/-- A Permit Table of cards 1 to 20. -/
def twenty : State := { rack with permits := (List.range 20).map fun k => newPermit (k + 1) }

/-- The ends of the starting card; a table in order; a card past the sixteen listed, and none. -/
theorem witness_PermitList : twenty.PermitsOrdered ∧
    rack.port.phase = .hunting ∧ 100000000 < 4294967296 ∧ 99999999 < 100000000 ∧ 99999999 ≤ 99999999 ∧
    ((twenty.permits.map (·.card)).filter fun c => decide (3 < c)).take 16 = (List.range 16).map (· + 4) ∧
    (twenty.permits.any fun p => decide (3 < p.card ∧ p.card ∉ (List.range 16).map (· + 4))) = true ∧
    ((twenty.permits.map (·.card)).filter fun c => decide (4 < c)).length = 16 := by
  refine ⟨by unfold State.PermitsOrdered; decide +kernel, ?_⟩
  decide +kernel

theorem witness_PermitGetHoldReleaseRetire :
    rack.port.phase = .hunting ∧ 76 < 4294967296 ∧ rack.findPermit 76 = none ∧ rack.findPermit 77 = some permit ∧
    (2 : Byte) ≠ 0 ∧ (2 : Byte) ≠ 1 ∧ permit.sessionBay.isSome ∧
    quiet.findPermit 77 = some { permit with sessionBay := none } ∧ (quiet.orderIn 0).any (fun o => decide (o.card = 77)) ∧
    full.findPermit 1 = some (newPermit 1) ∧ (newPermit 1).sessionBay = none ∧
    (full.heldOrders.all fun e => decide (e.2.card ≠ 1)) = true := by decide +kernel



/-- A card of the rack at rest: taken; the same card while ESD is active, and while bay 1 loads: refused, ignored. -/
theorem witness_CardPresentation :
    exec (.heartbeat 0) quiet = .next (after (.heartbeat 0) quiet) ∧
    ((after (.heartbeat 0) quiet).session 0).state = .idle ∧ (BitVec.ofNat 32 77).toNat = 77 ∧
    quiet.presentation 77 = none ∧ quiet.presentation 78 = some .unknownCard ∧
    ((after (.heartbeat 0) rack).session 0).state ≠ .idle := by
  refine ⟨rfl, ?_⟩
  decide +kernel

/-! ### Hypotheses that are met: products, matrix, orders -/

/-- A PRODUCT_PUT for a code: name A, class 1, group 2, header 1, no blend, no additive, two points. -/
def productBytes (code : Byte) : List Byte :=
  [code, 1, 11, 1, 2, 1, 0, 0, 2, 0x38, 0xFF, 0x0A, 0x28, 0x90, 0x01, 0x3E, 0x26]

def productFields (code : Nat) : ProductFields :=
  { code, name := [11], cls := 1, group := 2, mainHeader := 1, blend := none, additives := []
    correction := [⟨-200, 10250⟩, ⟨400, 9790⟩] }

/-- Code 0 fails the checks; codes 1 and 32, the ends of the range, pass. Row 8, an entry of 4 and a LOW_FLOW in the row's
own column are refused; row 7 with KEEP there is taken. -/
theorem witness_ProductAndMatrixPut :
    rack.port.phase = .hunting ∧ readProduct (productBytes 0) = some (productFields 0) ∧ (productFields 0).checked = none ∧
    readProduct (productBytes 32) = some (productFields 32) ∧ (productFields 32).checked.isSome ∧
    (productFields 1).checked.isSome ∧ (productFields 33).checked = none ∧
    7 < (8 : Byte).toNat ∧ 3 < (vget (#v[4, 0, 0, 0, 0, 0, 0, 0] : Vector Byte 8) 0).toNat ∧
    vget (#v[1, 0, 0, 0, 0, 0, 0, 0] : Vector Byte 8) 0 ≠ 0 ∧ (7 : Byte).toNat = (7 : GroupCode).val ∧
    (∀ i, (vget (#v[2, 1, 0, 3, 0, 0, 0, 3] : Vector Byte 8) i).toNat ≤ 3) ∧
    vget (#v[2, 1, 0, 3, 0, 0, 0, 3] : Vector Byte 8) 7 = 3 := by decide +kernel

theorem witness_ProductGetAndDelete :
    rack.port.phase = .hunting ∧ (0 : Byte) = 0 ∧ 32 < (33 : Byte).toNat ∧ (32 : Byte).toNat = (31 : ProductId).val + 1 ∧
    rack.product 31 = none ∧ (1 : Byte).toNat = (0 : ProductId).val + 1 ∧ rack.product 0 = some product := by decide +kernel



theorem witness_CorrectionFactor :
    (product.correction.map (·.temperature)).Pairwise (· < ·) ∧ (∀ p ∈ product.correction, 9000 ≤ p.factor ∧ p.factor ≤ 11000) ∧
    product.correction = [] ++ ⟨-200, 10250⟩ :: ⟨150, 10000⟩ :: [⟨400, 9790⟩] ∧ (-200 : Int) ≤ 149 ∧ (149 : Int) < 150 ∧
    (rack.arm 0).mainMeter = some 0 ∧ (rack.meter 0).probe = false ∧
    (Meter.read { Meter.default with probe := true } (.temperature 237)).lastTemp = some 237 ∧
    (Meter.read { Meter.default with probe := true } (.temperature 237)).probeState = .valid := by decide +kernel

/-- An ORDER_CREATE of one compartment, 500 L planned of a product. -/
def orderBytes (number card prod : Byte) : List Byte :=
  [number, 0, 0, 0, card, 0, 0, 0, 0, 1, 11, 1, 1, 0xE8, 0x03, 0, 0, 0xF4, 0x01, 0, 0, 1, prod, 0]

def orderFields (number card prod : Nat) : OrderFields :=
  { number, card, bay := none, tanker := [11]
    comps := [{ number := 1, capacity := 1000, planned := 500, product := some prod, prevGroup := none }] }

def newOrder (number card : Nat) (p : ProductId) : Order :=
  { number, seq := 0, stage := .opened, card, bay := none, tanker := [11]
    comps := [{ number := 0, capacity := 1000, planned := 500, product := some p, prevGroup := none, state := .planned, gross := 0,
                net := 0, tempSum := 0, batchCount := 0, lastArm := none, results := [], flags := [] }] }

/-- The rack with every order slot taken. -/
def fullOrders : State := { rack with orders := Vector.ofFn fun i => some { order with number := 100 + i.val } }

theorem witness_OrderCreate :
    rack.port.phase = .hunting ∧ readOrder (orderBytes 10 77 1) = some (orderFields 10 77 1) ∧
    (orderFields 0 77 1).checked = none ∧ (orderFields 10 77 1).checked = some (newOrder 10 77 0) ∧
    (rack.orderIn 0).any (fun o => decide (o.number = 9)) = true ∧ (orderFields 9 77 1).checked = some (newOrder 9 77 0) ∧
    (rack.heldOrders.all fun e => decide (e.2.number ≠ 10)) = true ∧ rack.findPermit 78 = none ∧ (rack.findPermit 77).isSome ∧
    (rack.product 0).isSome ∧ rack.product 1 = none ∧ (orderFields 10 77 2).checked = some (newOrder 10 77 1) ∧
    (∀ i, (fullOrders.orderIn i).isSome) ∧ rack.orderIn 1 = none ∧ (∀ j : SlotId, j < 1 → (rack.orderIn j).isSome) := by
  decide +kernel

/-- An ORDER_AMEND of compartment 1 of an order to a plan of product 1. -/
def amendBytes (number comp plan : Byte) : List Byte := [number, 0, 0, 0, comp, plan, 0x02, 0, 0, 1, 1]

def amendFields (number comp plan : Nat) : AmendFields := { number, comp, planned := 512 + plan, product := some 1 }

theorem witness_OrderAmend :
    rack.port.phase = .hunting ∧ readAmend (amendBytes 9 1 0) = some (amendFields 9 1 0) ∧ (amendFields 0 1 0).checked = none ∧
    (amendFields 9 9 0).checked = none ∧ (amendFields 9 1 0).checked = some (0, some 0) ∧ rack.findOrder 8 = none ∧
    rack.findOrder 9 = some (0, order) ∧ order.comp 0 = some comp ∧ order.comp 7 = none ∧
    (amendFields 9 8 0).checked = some (7, some 0) := by decide +kernel

/-- The order NOTED with note 5. -/
def noted : State :=
  { quiet with orders := vset quiet.orders 0 (some { order with
      stage := .noted { bay := 0, startTime := none, endTime := none } { number := 5, holder := [], flags := [] } }) }

theorem witness_OrderCancelGetListCollect :
    rack.port.phase = .hunting ∧ 0 < 1 ∧ 999999 < 1000000 ∧ (0 : Byte).toNat < 1 ∧ 8 < (9 : Byte).toNat ∧
    rack.findOrder 999999 = none ∧ rack.findOrder 9 = some (0, order) ∧ order.stage ≠ .opened ∧
    quiet.findOrder 9 = some (0, { order with stage := .opened }) ∧ (noted.findOrder 9).any (fun e => decide (e.2.stage.code = 2)) ∧
    (8 : Byte).toNat ≤ 8 ∧ 3 < (4 : Byte).toNat ∧ (3 : Byte).toNat ≤ 3 := by decide +kernel

/-! ### Hypotheses that are met: sessions -/

/-- Bay 1 asking for the code, with digits keyed; at the selection of order 9; waiting for bonding. -/
def asking (digits : List (Fin 10)) : State :=
  atBay (fun x => { x with state := .codeEntry, bound := none, selected := none, digits := digits, timer := some 30000 })
    { rack with orders := quiet.orders }
def choosing : State :=
  atBay (fun x => { x with state := .orderSelect, bound := none, selected := none, candidates := [9], timer := some 60000 })
    { rack with orders := quiet.orders }
def waiting : State :=
  atBay (fun x => { x with
    state := .waitBond, selected := none, timer := some 300000
    bond := { input := true, present := false, debounce := some 5 } }) rack

theorem witness_KeysFirstEffectAndDigits :
    exec (.heartbeat 0) rack = .next (after (.heartbeat 0) rack) ∧ (rack.session 0).state = .loading ∧
    (∀ a, (rack.arm a).bay = some 0 → rack.batch a = none) ∧ (running.arm 0).bay = some 0 ∧ (running.batch 0).isSome ∧
    (quiet.session 0).state = .idle ∧ ((atBay (fun x => { x with state := .closing }) rack).session 0).state = .closing ∧
    (((asking [1, 2, 3]).keyed 0).session 0).state = .codeEntry ∧ ((rack.keyed 0).session 0).state = .loading ∧
    ((rack.keyed 0).session 0).armPending = false ∧ (8 : Fin 10).val = (7 : CompNo).val + 1 ∧ (9 : Fin 10).val = 9 ∧
    (((atBay (fun x => { x with armPending := true }) rack).keyed 0).session 0).armPending = true ∧
    (1 : Fin 10).val = (0 : Fin 6).val + 1 ∧ (rack.bayArms 0)[0]? = some 0 ∧ (rack.bayArms 0).length < (2 : Fin 10).val ∧
    6 < (7 : Fin 10).val := by
  refine ⟨rfl, ?_⟩
  decide +kernel

theorem witness_OrderSelection :
    ((choosing.keyed 0).session 0).state = .orderSelect ∧ ((choosing.keyed 0).session 0).card = some 77 ∧
    ((choosing.keyed 0).session 0).candidates.length < (2 : Fin 10).val ∧
    ((choosing.keyed 0).session 0).candidates[(1 : Fin 10).val - 1]? = some 9 ∧
    choosing.findOrder 9 = some (0, { order with stage := .opened }) ∧
    ({ choosing with orders := rack.orders } : State).findOrder 9 = some (0, order) ∧ order.isOpen = false ∧
    ({ choosing with orders := rack.orders } : State).candidates 77 0 = [] ∧
    ({ choosing with orders := vset rack.orders 1 (some { order with number := 8, stage := .opened }) } : State).candidates 77 0
      = [8] := by decide +kernel

/-- Three and four digits; strikes 1 and 2; no candidate, one, and two. -/
theorem witness_EnterKey :
    (((asking [1, 2, 3]).keyed 0).session 0).digits.length < 4 ∧ 4 ≤ (((asking [1, 2, 3, 4]).keyed 0).session 0).digits.length ∧
    (((asking [1, 2, 3, 4]).keyed 0).session 0).card = some 77 ∧ (asking [1, 2, 3, 4]).findPermit 77 = some permit ∧
    (((asking [1, 2, 3, 4]).keyed 0).session 0).digits = permit.code ∧ (((asking [1, 2, 3, 5]).keyed 0).session 0).digits ≠ permit.code ∧
    1 < 2 ∧ 2 ≤ 2 ∧ (asking [1, 2, 3, 4]).candidates 77 0 = [9] ∧
    ({ asking [1, 2, 3, 4] with orders := rack.orders } : State).candidates 77 0 = [] ∧
    2 ≤ (({ asking [1, 2, 3, 4] with
        orders := vset quiet.orders 1 (some { order with number := 8, stage := .opened }) } : State).candidates 77 0).length ∧
    ((rack.keyed 0).session 0).state = .loading := by decide +kernel

theorem witness_CancelAndArmKeysAndReturnToIdle :
    ((quiet.keyed 0).session 0).state = .idle ∧ (((asking []).keyed 0).session 0).state = .codeEntry ∧
    (((asking []).keyed 0).session 0).bound = none ∧ ((waiting.keyed 0).session 0).state = .waitBond ∧
    ((waiting.keyed 0).session 0).bound = some 9 ∧ waiting.findOrder 9 = some (0, order) ∧
    ((rack.keyed 0).session 0).state = .loading := by decide +kernel

/-- The reason START gives on a rack. -/
def reasonOf (s : State) : Option Reason :=
  match (s.keyed 0).startChecks 0 with
  | .error r => some r
  | .ok _ => none

/-- START without a focus arm, with each of the thirteen checks failing, with none. -/
theorem witness_StartChecks :
    reasonOf (rack.modArm 0 fun r => { r with bay := none }) = some .noSuchArm ∧ reasonOf shut = some .esdActive ∧
    reasonOf (atBay (fun x => { x with bond := { x.bond with present := false } }) rack) = some .permissiveMissing ∧
    reasonOf (rack.modArm 0 fun r => { r with service := .outOfService }) = some .armOutOfService ∧
    reasonOf running = some .armBusy ∧ reasonOf (rack.modArm 0 fun r => { r with connected := false }) = some .armNotConnected ∧
    reasonOf (atBay (fun x => { x with selected := none }) rack) = some .compNotLoadable ∧
    reasonOf (rack.modComp ⟨0, 9, 0⟩ fun c => { c with batchCount := 15 }) = some .compNotLoadable ∧
    reasonOf { rack with products := vset rack.products 0 none } = some .productNotOnArm ∧
    reasonOf (rack.modArm 0 fun r => { r with products := [] }) = some .productNotOnArm ∧
    reasonOf (rack.modMeter 0 fun m => { m with header := 1 }) = some .productNotOnArm ∧
    reasonOf (rack.modPermit 77 fun p => { p with persistent := true }) = some .permitHeld ∧
    reasonOf (rack.modPermit 77 fun p => { p with validFrom := 101 }) = some .notYetValid ∧
    reasonOf { rack with clock := some ⟨201, 0⟩ } = some .permitExpired ∧
    reasonOf (rack.modPermit 77 fun p => { p with classes := [] }) = some .classNotPermitted ∧
    reasonOf { rack.modComp ⟨0, 9, 0⟩ (fun c => { c with prevGroup := some 0 }) with
      matrix := vset rack.matrix 0 (vset (vget rack.matrix 0) 2 .forbid) } = some .incompatible ∧
    reasonOf (rack.modMeter 0 fun m => { m with state := .fault }) = some .meterFault ∧
    reasonOf (rack.modInjector 0 fun i => { i with service := .outOfService }) = some .injectorUnavailable ∧
    reasonOf (rack.modInjector 0 fun i => { i with shotVolume := 7 }) = some .doseUnworkable ∧
    reasonOf (rack.modInjector 0 fun i => { i with stock := 1249 }) = some .additiveShort ∧
    reasonOf (rack.modInjector 0 fun i => { i with stock := 1250 }) = none ∧ rack.focusArm 0 = some 0 ∧
    rack.loadableComp 0 = some (⟨0, 9, 0⟩, comp) ∧ rack.sessionPermit 0 = some permit := by decide +kernel

/-- Where every batch is IDLE and no header is drawn from, drawing sets are exact. -/
theorem drawingExact_of_idle (s : State) (h : ∀ a, s.batch a = none) (k : ∀ x, (s.header x).drawing = []) : s.DrawingExact := by
  intro x a
  simp [k, h]

theorem witness_StartTaken :
    (rack.session 0).state = .loading ∧ rack.DrawingExact ∧ reasonOf rack = none := by
  refine ⟨by decide +kernel, drawingExact_of_idle _ ?_ ?_, by decide +kernel⟩ <;> decide +kernel

theorem witness_StopKey :
    ((rack.keyed 0).session 0).state = .loading ∧ (rack.modArm 0 fun r => { r with bay := none }).focusArm 0 = none ∧
    rack.focusArm 0 = some 0 ∧ rack.batch 0 = none ∧ closing.batchIs 0 .closing = true ∧ running.focusArm 0 = some 0 ∧
    (running.keyed 0).batchIs 0 .lowStart = true ∧ (held.keyed 0).batchIs 0 .held = true ∧ (0 : ArmId) ∈ (running.header 0).drawing := by
  decide +kernel

/-- A batch held by ESD, which stands; by the host; and by the loss of the coupling, which has been made good. -/
def heldByEsd : State := shut
def heldAndReady : State := atBatch (fun b => { b with holdSet := [.armDisconnected] }) held

/-- Drawing sets are exact where each arm in them has a flowing batch of their header, and no other arm. -/
theorem drawingExact_of_drawn (s : State) (k : ∀ (h : HeaderId) (a : ArmId), a ∈ (s.header h).drawing
    ↔ (s.batch a).any (fun b => b.state.flowing && decide (b.snapshot.mainHeader = h)) = true) : s.DrawingExact := by
  intro h a
  rw [k]
  cases s.batch a <;> simp

theorem drawingExact_held : heldAndReady.DrawingExact := drawingExact_of_drawn _ (by decide +kernel)

theorem witness_TripReached_ceilings : running.DrawingExact ∧ closing.DrawingExact :=
  ⟨drawingExact_of_drawn _ (by decide +kernel), drawingExact_of_drawn _ (by decide +kernel)⟩

theorem witness_ResumeKey :
    ((held.keyed 0).session 0).state = .loading ∧ heldAndReady.DrawingExact ∧ held.focusArm 0 = some 0 ∧
    running.batchIs 0 .held = false ∧ (held.batch 0).any (fun b => decide (b.holdSet = [.host])) = true ∧
    (heldByEsd.batch 0).any (fun b => decide (b.holdSet = [.esd]) && !heldByEsd.conditionHolds 0 b .esd) = true ∧
    (heldAndReady.batch 0).any (fun b => heldAndReady.conditionHolds 0 b .armDisconnected) = true := by
  refine ⟨by decide +kernel, drawingExact_held, ?_⟩
  decide +kernel

/-- FINISH while arm 1 flows; with every arm IDLE and nothing or 10.0 L delivered; with arm 1 HELD. -/
theorem witness_FinishKey :
    ((rack.keyed 0).session 0).state = .loading ∧ running.batchIs 0 .held = false ∧ (running.batch 0).isSome ∧
    (∀ a, (rack.arm a).bay = some 0 → rack.batch a = none) ∧ ((rack.keyed 0).session 0).bound = some 9 ∧
    rack.findOrder 9 = some (0, order) ∧ order.totalGross = 0 ∧
    ((rack.modComp ⟨0, 9, 0⟩ fun c => { c with gross := 100 }).findOrder 9).any (fun e => decide (0 < e.2.totalGross)) = true ∧
    (∀ a, (held.arm a).bay = some 0 → (held.batch a).all (fun b => decide (b.state = .held)) = true) ∧ (held.batch 0).isSome := by
  decide +kernel

/-- A rack at whose bay 1 the time limit has run out. -/
def overdue (s : State) : State := atBay (fun x => { x with timer := some 0 }) s

theorem witness_SessionTimers :
    ((overdue (asking [])).session 0).state = .codeEntry ∧ ((overdue (asking [])).session 0).timer = some 0 ∧
    ((overdue (asking [])).session 0).bound = none ∧ ((overdue waiting).session 0).state = .waitBond ∧
    ((overdue waiting).session 0).bound = some 9 ∧ (overdue waiting).findOrder 9 = some (0, order) ∧
    ((overdue rack).session 0).state = .loading ∧ order.isActive = true ∧
    (∀ a, ((overdue rack).arm a).bay = some 0 → (overdue rack).batch a = none) ∧ (rack.session 0).timer ≠ some 0 ∧
    (rack.session 0).reasonTimer ≠ some 0 ∧
    ((atBay (fun x => { x with reasonTimer := some 0 }) rack).session 0).reasonTimer = some 0 ∧
    ((overdue rack).session 0).bound = some 9 ∧ (overdue rack).findOrder 9 = some (0, order) ∧ order.totalGross = 0 ∧
    ((overdue (rack.modComp ⟨0, 9, 0⟩ fun c => { c with gross := 100 })).findOrder 9).any
      (fun e => e.2.isActive && decide (0 < (e.2.comps.map (·.gross)).sum)) = true := by decide +kernel

/-! ### Hypotheses that are met: field inputs, host requests to bays and arms -/

/-- Bay 1 waiting for bonding, the debounce of its input at its end. -/
def bonded : State := atBay (fun x => { x with bond := { x.bond with debounce := some 0 } }) waiting

theorem witness_Permissives :
    ((rack.session 0).permissive .bond).input = true ∧ ((rack.session 1).permissive .bond).input = false ∧
    ((bonded.session 0).permissive .bond).debounce = some 0 ∧ ((rack.session 0).permissive .bond).debounce ≠ some 0 ∧
    ((rack.session 0).permissive .overfill).present = true ∧ ((waiting.session 0).permissive .bond).present = false ∧
    (running.arm 0).bay = some 0 ∧ running.batchIs 0 .lowStart = true ∧ closing.batchIs 0 .closing = true ∧
    (running.arm 1).bay ≠ some 0 := by decide +kernel

theorem witness_ConnectedInput :
    (running.arm 0).connected = true ∧ (running.arm 1).connected = false ∧ running.batchIs 0 .lowStart = true ∧
    (closing.arm 0).connected = true ∧ closing.batchIs 0 .closing = true ∧ (rack.arm 0).connected = true ∧ rack.batch 0 = none ∧
    (closing.orderOf ⟨0, 9, 0⟩).any (fun o => (o.comp 0).isSome) = true := by decide +kernel

theorem witness_BatchHoldAndResume :
    running.port.phase = .hunting ∧ 12 < (13 : Byte).toNat ∧ (12 : Byte).toNat = (11 : ArmId).val + 1 ∧
    (1 : Byte).toNat = (0 : ArmId).val + 1 ∧ running.batch 11 = none ∧ closing.batchIs 0 .closing = true ∧
    held.batchIs 0 .held = true ∧ running.flowing 0 = true ∧ (0 : ArmId) ∈ (running.header 0).drawing ∧
    (heldByEsd.batch 0).any (fun b => decide (b.holdSet = [.esd]) && !heldByEsd.conditionHolds 0 b .esd) = true := by
  decide +kernel

theorem witness_BatchResume_taken : heldAndReady.port.phase = .hunting ∧ heldAndReady.DrawingExact ∧
    (heldAndReady.batch 0).any (fun b => heldAndReady.conditionHolds 0 b .armDisconnected) = true := by
  refine ⟨by decide +kernel, drawingExact_held, ?_⟩
  decide +kernel

/-- Bay 4 in IDLE; bay 1 in each state of a visit, with its arms IDLE or not, nothing and something delivered. -/
theorem witness_BayClose :
    rack.port.phase = .hunting ∧ 4 < (5 : Byte).toNat ∧ (4 : Byte).toNat = (3 : BayId).val + 1 ∧ (rack.session 3).state = .idle ∧
    ((asking []).session 0).state = .codeEntry ∧ ((asking []).session 0).bound = none ∧ (waiting.session 0).bound = some 9 ∧
    (running.session 0).state = .loading ∧ (running.arm 0).bay = some 0 ∧ (running.batch 0).isSome ∧
    (∀ a, (rack.arm a).bay = some 0 → rack.batch a = none) ∧ (rack.session 0).bound = some 9 ∧
    waiting.findOrder 9 = some (0, order) ∧ rack.findOrder 9 = some (0, order) ∧ order.isActive = true ∧ order.totalGross = 0 ∧
    ((rack.modComp ⟨0, 9, 0⟩ fun c => { c with gross := 100 }).findOrder 9).any (fun e => decide (0 < e.2.totalGross)) = true ∧
    ((atBay (fun x => { x with state := .closing }) closing).session 0).state = .closing := by decide +kernel

theorem witness_BayResetAndMessage :
    running.port.phase = .hunting ∧ 4 < (5 : Byte).toNat ∧ (4 : Byte).toNat = (3 : BayId).val + 1 ∧
    (running.session 3).state = .idle ∧ ((asking []).session 0).state = .codeEntry ∧ ((asking []).session 0).bound = none ∧
    (waiting.session 0).state = .waitBond ∧ (waiting.session 0).bound = some 9 ∧ waiting.findOrder 9 = some (0, order) ∧
    (running.session 0).state = .loading ∧ (running.arm 0).bay = some 0 ∧ (running.batch 0).isSome ∧
    (∀ d, d ≠ 0 → running.batch d = none) ∧ (running.batch 0).any (fun b => (running.compOf b.ref).isSome) = true ∧
    (running.session 0).bound = some 9 ∧ (running.findOrder 9).any (fun e => e.2.isActive) = true ∧
    (24 : Byte).toNat = (23 : ScreenId).val + 1 ∧ 24 < (25 : Byte).toNat ∧ (255 : Byte) ≠ 0 := by decide +kernel

/-- An ASSIGNED ARM_PUT at the defaults for bay 1 and a main meter; a main meter of 0 fails the checks. -/
def armPutBytes (arm meter : Byte) : List Byte :=
  [arm, 0, 1, meter, 0, 1, 0, 0, 0, 0xE8, 0x03, 200, 0, 0xF4, 0x01, 0, 0, 200, 0, 2, 200, 0, 0xE8, 0x03, 0, 0, 50, 0, 0, 0, 0]

def armFieldsOf (meter : Nat) : ArmFields :=
  { bay := 1, mainMeter := meter, blendMeter := none, products := [0], maxFlow := 1000, lowFlow := 200, startupVolume := 500,
    rampStep := 200, rampInterval := 2, toppingFlow := 200, toppingVolume := 1000, closingAllowance := 50, service := .inService }

/-- Bay 1 with six arms. -/
def crowded : State := { rack with arms := vmap (fun r => { r with bay := some 0 }) rack.arms }

theorem witness_ArmAndHeaderRequests :
    rack.port.phase = .hunting ∧ readArmPut (armPutBytes 12 16) = some (12, some (armFieldsOf 16)) ∧
    (armFieldsOf 16).checked.isSome ∧ (armFieldsOf 17).checked = none ∧ readArmPut [12, 1] = some (12, none) ∧
    (12 : Nat) = (11 : ArmId).val + 1 ∧ rack.batch 11 = none ∧ (running.batch 0).isSome ∧ (rack.arm 0).mainMeter = some 0 ∧
    6 ≤ ((crowded.bayArms 0).filter fun x => decide (x ≠ 11)).length ∧ 12 < (13 : Byte).toNat ∧
    (12 : Byte).toNat = (11 : ArmId).val + 1 ∧ (rack.arm 11).service = .inService ∧
    ((rack.modArm 11 fun r => { r with service := .outOfService }).arm 11).service = .outOfService ∧
    65535 < 65536 ∧ 4 < (5 : Byte).toNat ∧ (4 : Byte).toNat = (3 : HeaderId).val + 1 ∧ 499 < 500 ∧
    8000 < 8001 ∧ 500 ≤ 500 ∧ 8000 ≤ 8000 ∧ (running.header 0).capacity = 2000 ∧ (500 : Nat) ≠ (running.header 0).capacity ∧
    (0 : ArmId) ∈ (running.header 0).drawing ∧ (11 : ArmId) ∉ (running.header 0).drawing := by decide +kernel



/-! ### Hypotheses that are met: the run of a batch -/

/-- The batch of arm 1 with its gross set, in tenths. -/
def atGross (g : Nat) (st : BatchState) : State := atBatch (fun b => { b with gross := g, sinceStart := g, state := st }) running

/-- Out of a flowing state; at the closing allowance and one tenth before it; at the topping volume and one before it;
at the startup volume and one before it. -/
theorem witness_VolumeCredit :
    closing.flowing 0 = false ∧ (running.batch 0).any (fun b => b.state.flowing && decide (b.target = 30000)) ∧
    (running.arm 0).closingAllowance = 50 ∧ (running.arm 0).toppingVolume = 1000 ∧ (running.arm 0).startupVolume = 500 ∧
    ((atGross 29949 .topping).batch 0).any (fun b => decide (b.target ≤ b.gross + 1 + 50)) ∧
    ((atGross 29948 .topping).batch 0).any (fun b => decide (b.gross + 1 + 50 < b.target)) ∧
    ((atGross 28999 .high).batch 0).any (fun b => decide (b.state ≠ .topping ∧ b.target ≤ b.gross + 1 + 1000)) ∧
    ((atGross 28998 .high).batch 0).any (fun b => decide (b.gross + 1 + 1000 < b.target)) ∧
    ((atGross 499 .lowStart).batch 0).any (fun b => decide (500 ≤ b.sinceStart + 1 ∧ b.ceiling = some 1000 ∧
      b.snapshot.verdict ≠ .lowFlow)) ∧
    ((atGross 498 .lowStart).batch 0).any (fun b => decide (b.sinceStart + 1 < 500)) := by decide +kernel

/-- The batch of a blended product, and one RAMPING. -/
def blended : State :=
  atBatch (fun b => { b with snapshot := { b.snapshot with blend := some { header := 1, ratio := 100, tolerance := 10 } } }) running
def ramping : State := atBatch (fun b => { b with state := .ramping }) running

/-- The same ceiling and another one; each batch state; a drawing set that changes; a stopped batch. -/
theorem witness_CeilingResponseAndValveDemands : rack.DrawingExact ∧
    (running.batch 0).any (fun b => decide (b.ceiling = some 1000 ∧ b.ceiling ≠ some 500 ∧ b.state = .lowStart)) = true ∧
    (ramping.batch 0).any (fun b => decide (b.state = .ramping ∧ b.mainDemand = 200)) = true ∧
    ((atGross 1 .high).batch 0).any (fun b => decide (b.state = .high)) = true ∧
    ((atGross 1 .topping).batch 0).any (fun b => decide (b.state = .topping)) = true ∧
    closing.batchIs 0 .closing = true ∧ held.batchIs 0 .held = true ∧
    (rack.header 0).drawing ≠ (running.header 0).drawing ∧
    (∀ k, k ≠ 0 → (rack.header k).drawing = (running.header k).drawing) ∧ rack.batch 0 = none ∧
    (running.arm 0).service = .inService ∧
    (held.batch 0).all (fun b => decide (b.mainDemand = 0 ∧ b.blendDemand = 0)) = true := by
  refine ⟨drawingExact_of_idle _ ?_ ?_, ?_⟩ <;> decide +kernel

/-- Two drawing sets that change; the five commands of a bay while its arm draws, and an arm out of their reach; a close of
bay 4. -/
theorem witness_CeilingResponse_once :
    let two := running.modHeader 1 fun h => { h with drawing := [5] }
    (rack.header 0).drawing ≠ (two.header 0).drawing ∧ (rack.header 1).drawing ≠ (two.header 1).drawing ∧
    (running.arm 0).bay = some 0 ∧ (running.arm 5).bay ≠ some 0 ∧ (1 : Byte).toNat = (0 : BayId).val + 1 ∧
    (4 : Byte).toNat = (3 : BayId).val + 1 ∧ (5 : ArmId) ∉ ([0] : List ArmId) ∧
    exec (.bayClose 1 [1]) running = .next (after (.bayClose 1 [1]) running) ∧
    exec (.finish 0) running = .next (after (.finish 0) running) ∧
    (running.header 0).drawing ≠ ((after (.bayClose 1 [1]) running).header 0).drawing := by
  refine ⟨?_, ?_, ?_, ?_, ?_, ?_, ?_, rfl, rfl, ?_⟩ <;> decide +kernel

/-- The timers of a batch that have run out. -/
def rampDue : State := atBatch (fun b => { b with ramp := some 0 }) ramping
def blendDue : State := atBatch (fun b => { b with metering := { b.metering with blendTimer := some 0 } }) blended
def noFlowDue : State := atBatch (fun b => { b with metering := { b.metering with noFlow := some 0 } }) running
def settled : State := atBatch (fun b => { b with settle := some 0 }) closing
def leaking : State := atBatch (fun b => { b with leak := some 0 }) closing

theorem witness_BatchTimers :
    running.batchIs 0 .ramping = false ∧ rampDue.batchIs 0 .ramping = true ∧
    (rampDue.batch 0).any (fun b => decide (b.ramp = some 0 ∧ b.ceiling = some 1000)) ∧ rack.flowing 0 = false ∧
    (running.batch 0).any (fun b => b.snapshot.blend.isNone && decide (b.ramp ≠ some 0)) ∧
    (blendDue.batch 0).any (fun b => b.snapshot.blend.isSome && b.state.flowing && decide (b.metering.blendTimer = some 0)) ∧
    (noFlowDue.batch 0).any (fun b => b.state.flowing && decide (0 < b.mainDemand ∧ b.metering.noFlow = some 0)) ∧
    ((atBatch (fun b => { b with mainDemand := 0 }) running).batch 0).all (fun b => decide (b.mainDemand = 0)) := by decide +kernel

/-- Settle and leak at 0; a batch at its target, overruns of +3, −3 and 1 tenths; a line temperature; a session in CLOSING. -/
theorem witness_BatchEnd :
    running.batchIs 0 .closing = false ∧ closing.batchIs 0 .closing = true ∧
    (closing.batch 0).all (fun b => decide (b.settle ≠ some 0 ∧ b.leak ≠ some 0)) = true ∧
    (settled.batch 0).any (fun b => decide (b.state = .closing ∧ b.settle = some 0 ∧ b.closeKind = some .stopped)) = true ∧
    (leaking.batch 0).any (fun b => decide (b.state = .closing ∧ b.leak = some 0)) = true ∧
    ((atBatch (fun b => { b with closeKind := some .target }) settled).batch 0).any (fun b => decide (b.closeKind = some .target)) ∧
    2 * (1 : Int).natAbs ≤ ((30003 : Int) - 30000).natAbs ∧ ((30003 : Int) - 30000).natAbs < 2 * (1 : Int).natAbs + 2 ∧
    2 * (-1 : Int).natAbs ≤ ((29997 : Int) - 30000).natAbs ∧ ((29997 : Int) - 30000).natAbs < 2 * (-1 : Int).natAbs + 2 ∧
    2 * (0 : Int).natAbs ≤ ((30001 : Int) - 30000).natAbs ∧
    (closing.orderOf ⟨0, 9, 0⟩).any (fun o => (o.comp 0).isSome) = true ∧ (closing.arm 0).bay = some 0 ∧
    (∀ y, y ≠ 0 → (closing.arm y).bay = some 0 → closing.batch y = none) ∧ (closing.session 0).state = .loading ∧
    ((atBay (fun x => { x with state := .closing }) closing).session 0).state = .closing ∧
    (closing.session 0).bound = some 9 ∧ (closing.findOrder 9).any (fun e => e.2.isActive) = true := by decide +kernel

/-! ### Hypotheses that are met: meters and injectors -/

/-- Meter 1 in FAULT, and the batch of arm 1 held for it. -/
def faulty : State :=
  atBatch (fun b => { b with holdSet := [.meter] }) (held.modMeter 0 fun m => { m with state := .fault })

theorem witness_MeterRequestsAndReadings :
    rack.port.phase = .hunting ∧ 16 < (17 : Byte).toNat ∧ 4 < (5 : Byte).toNat ∧ 999 < 1000 ∧ 1000000 < 1000001 ∧
    1 < (2 : Byte).toNat ∧ (16 : Byte).toNat = (15 : MeterId).val + 1 ∧ (4 : Byte).toNat = (3 : HeaderId).val + 1 ∧
    (running.boundTo 0).isSome ∧ running.boundTo 15 = none ∧ (faulty.meter 0).state = .fault ∧
    faulty.boundTo 0 = some (0, .main) ∧ faulty.batchIs 0 .held = true ∧
    (∀ x ∈ faulty.boundMeters 0, x ≠ 0 → (faulty.meter x).state = .ok) ∧ (rack.meter 0).probe = false ∧
    ((rack.modMeter 0 fun m => { m with probe := true }).meter 0).probe = true ∧ faulty.port.phase = .hunting ∧
    (faulty.boundTo 0).map (·.1) = some 0 ∧ (faulty.boundTo 0).map (·.1) ≠ some 1 := by decide +kernel

/-- Counts one before the check and at it, with a difference of 10 and of 11. -/
theorem witness_MeterPulses :
    0 < (running.meter 0).k ∧ running.boundTo 0 = some (0, .main) ∧ rack.boundTo 0 = none ∧ (running.batch 0).isSome ∧
    1000 ≤ 999 + 1 ∧ ¬ (998 + 1 ≥ 1000) ∧ (989 : Nat) + 10 < 1000 ∧ (1000 : Nat) ≤ 990 + 10 ∧
    (rack.meter 0).state = .ok ∧ (faulty.meter 0).state = .fault ∧ 50 < min 9999999 (50 + 1) := by decide +kernel

/-- A blended batch after its first step, 100 tenths on, with its blend gross and its count out of tolerance. -/
def stepping (blend count : Nat) : State :=
  atBatch (fun b => { b with
    gross := 1000, blendGross := blend, metering := { b.metering with stepMain := 100, steps := 1, outOfTolerance := count } }) blended

/-- Meter 1 bound as main meter, meter 2 as blend meter, meter 3 by none; a step before its 100th tenth and at it; with
and without a line temperature; blend at the ends of the tolerance and past them; a second and a third step out of it. -/
theorem witness_TenthsAndMeteringSteps :
    running.boundTo 0 = some (0, .main) ∧ running.boundTo 2 = none ∧
    (blended.modArm 0 fun r => { r with blendMeter := some 1 }).boundTo 1 = some (0, .blend) ∧
    (running.batch 0).any (fun b => decide (b.metering.stepMain + 1 < 100 ∧ b.metering.steps = 0)) = true ∧
    ((stepping 100 0).batch 0).any (fun b => decide (100 ≤ b.metering.stepMain ∧ 1 ≤ b.metering.steps) && b.state.flowing) = true ∧
    (running.meter 0).probe = false ∧
    (Meter.read { Meter.default with probe := true } (.temperature 237)).probeState = .valid ∧
    110 * 1000 ≤ 100 * 1000 + 10 * 1000 ∧ 100 * 1000 ≤ 90 * 1000 + 10 * 1000 ∧ 100 * 1000 + 10 * 1000 < 111 * 1000 ∧
    89 * 1000 + 10 * 1000 < 100 * 1000 ∧
    ((stepping 111 1).batch 0).any (fun b => decide (b.metering.outOfTolerance < 2)) = true ∧
    ((stepping 111 2).batch 0).any (fun b => decide (2 ≤ b.metering.outOfTolerance)) = true := by decide +kernel

/-- An INJECTOR_PUT with a follower. -/
def injectorBytes (i f : Byte) : List Byte := [i, 0, 50, 0, 0xE8, 0x03, 5, 1, f, 0, 0, 0, 0]

def injectorFieldsOf (i f : Nat) : InjectorFields :=
  { injector := i, service := .inService, shotVolume := 50, k := 1000, window := 5, follower := some f, mark := 0 }

/-- The chain of followers from an injector on. -/
def chainFrom (s : State) (i : Option InjectorId) : Nat → Option InjectorId
  | 0 => i
  | k + 1 => (chainFrom s i k).bind fun j => (s.injector j).follower

/-- A rack on which injector 7 is followed by 6, and 6 by 8. -/
def chained : State :=
  (rack.modInjector 6 fun x => { x with follower := some 5 }).modInjector 5 fun x => { x with follower := some 7 }

/-- A chain that returns to injector 8 after two links, and one that never does. -/
theorem witness_InjectorRequests_chains :
    chainFrom chained (some 6) 2 = some 7 ∧ chainFrom running (some 6) 0 = some 6 ∧
    (∀ k, chainFrom running (some 6) (k + 1) = none) ∧ ∀ k, chainFrom running (some 6) k ≠ some 7 := by
  have none_on : ∀ k, chainFrom running (some 6) (k + 1) = none := by
    intro k
    induction k with
    | zero => decide +kernel
    | succ k ih => rw [chainFrom, ih]; rfl
  refine ⟨by decide +kernel, rfl, none_on, fun k => ?_⟩
  cases k with
  | zero => decide +kernel
  | succ k => rw [none_on]; decide

theorem witness_InjectorRequests :
    running.port.phase = .hunting ∧ readInjectorPut (injectorBytes 8 7) = some (injectorFieldsOf 8 7) ∧
    (injectorFieldsOf 8 7).checked = some (7, some 6) ∧ (injectorFieldsOf 9 7).checked = none ∧
    (injectorFieldsOf 8 8).checked = some (7, some 7) ∧ (injectorFieldsOf 1 7).checked = some (0, some 6) ∧
    0 < (running.injector 0).reserved ∧
    (running.injector 7).state = .idle ∧ (running.injector 7).queue = [] ∧ (running.injector 7).reserved = 0 ∧
    8 < (9 : Byte).toNat ∧ (8 : Byte).toNat = (7 : InjectorId).val + 1 ∧
    ((running.modInjector 0 fun x => { x with state := .fault }).injector 0).state = .fault ∧
    ((running.modInjector 0 fun x => { x with state := .proving }).injector 0).state = .proving ∧
    (held.batch 0).any (fun b => b.snapshot.requires 0) ∧ (held.batch 0).any (fun b => held.requiredAvailable b.snapshot) ∧
    (injectorFieldsOf 8 7).service = (running.injector 7).service ∧
    ((running.modInjector 7 fun x => { x with service := .outOfService }).injector 7).service
      ≠ (injectorFieldsOf 8 7).service := by decide +kernel

/-- Amounts at the ends of the range; a stock at the limit and one millilitre past it; a set across the mark. -/
theorem witness_StockRequests :
    rack.port.phase = .hunting ∧ 2000000 < 4294967296 ∧ 8 < (9 : Byte).toNat ∧ (1 : Byte).toNat = (0 : InjectorId).val + 1 ∧
    0 < 1 ∧ 2000000 < 2000001 ∧ (rack.injector 0).stock + 1900000 ≤ 2000000 ∧ 2000000 < (rack.injector 0).stock + 1900001 ∧
    (rack.injector 0).mark ≤ (rack.injector 0).stock ∧ 4999 < (rack.injector 0).mark := by decide +kernel

/-- Injector 2 in a proving run: a shot under way, and waiting for the result. -/
def proving : State := after (.proveStart 1 [2, 10]) rack
def provedOut : State :=
  rack.modInjector 1 fun x => { x with state := .proveWait, proving := some run }

theorem witness_ProvingRequests :
    rack.port.phase = .hunting ∧ 8 < (9 : Byte).toNat ∧ (2 : Byte).toNat = (1 : InjectorId).val + 1 ∧ (255 : Byte) ≠ 0 ∧
    (rack.injector 1).service = .inService ∧ (rack.injector 1).state = .idle ∧ rack.esd.active = false ∧ shut.esd.active = true ∧
    0 < (running.injector 0).reserved ∧ (rack.injector 1).queue = [] ∧ (rack.injector 1).reserved = 0 ∧ 2000000 < 2000001 ∧
    (provedOut.injector 1).state = .proveWait ∧ (provedOut.injector 1).proving = some run ∧ 0 < 1062 ∧
    (2 * (run.totalPulses * 1000) + 1062) / (2 * 1062) = 949 ∧ 949 * 100 ≤ 110 * run.oldK ∧ 90 * run.oldK ≤ 949 * 100 ∧
    110 * run.oldK < (2 * (run.totalPulses * 1000) + 870) / (2 * 870) * 100 ∧
    (proving.injector 1).state = .proving ∧ (proving.injector 1).shot.all (fun y => y.owner.isNone) = true ∧
    (proving.injector 1).shot.isSome ∧ (provedOut.injector 1).shot = none := by decide +kernel

/-- The entry of the product's additive on injector 1, and an OPTIONAL one. -/
def entry : SnapshotEntry := { entry := ⟨0, 400, .required, 10⟩, index := 1, skipped := false }
def optional : SnapshotEntry := { entry with entry := ⟨0, 400, .optional, 10⟩ }

/-- The batch of arm 1 with an entry in the queue of injector 1, owed so many shots. -/
def queued (owed : Nat) : State :=
  running.modInjector 0 fun x =>
    { x with queue := [{ arm := 0, ref := ⟨0, 9, 0⟩, index := 1, owed := owed, inService := false }] }

/-- Injector 1 with a shot for the batch of arm 1, its window at its end, and the same shot at the end of its tail. -/
def shooting (n : Nat) : State :=
  (running.post 0 ⟨0, 9, 0⟩ entry).modInjector 0 fun x => { x with shot := x.shot.map fun y => { y with counted := n } }
def windowDue : State :=
  (shooting 20).modInjector 0 fun x => { x with shot := x.shot.map fun y => { y with window := some 0 } }
def tailOf (o : ShotOutcome) (failures : Nat) : State :=
  (shooting 50).modInjector 0 fun x =>
    { x with failures := failures, shot := x.shot.map fun y => { y.close o with tail := some 0 } }
def provingTail (o : ShotOutcome) (left : Nat) : State :=
  proving.modInjector 1 fun x =>
    { x with shot := x.shot.map fun y => { y.close o with counted := 50, tail := some 0 }
             proving := x.proving.map fun p => { p with remaining := left } }

/-- What ESD finds at an injector: a shot open for a batch, its tail under way, a proving run with pulses counted. -/
theorem witness_EsdInput_injectors :
    ((shooting 20).injector 0).shot.any (fun y => decide (y.phase = .opened)) = true ∧ ((shooting 20).injector 0).state = .shot ∧
    ((tailOf .completed 0).injector 0).shot.any (fun y => decide (y.phase = .tail)) = true ∧ (shooting 20).esd.active = false ∧
    ((provingTail .completed 1).injector 1).shot.any (fun y => y.owner.isNone && decide (y.counted = 50)) = true ∧
    ((provingTail .completed 1).injector 1).state = .proving := by decide +kernel

/-- A batch gross one tenth before its first shot point and at it; injector 1 out of service and in service, without and
with an entry of the arm, owed 3 and 4 shots. -/
theorem witness_ShotPointsAndPendingQueue :
    rack.flowing 0 = false ∧ running.flowing 0 = true ∧
    (running.batch 0).any (fun b => decide (b.snapshot.entryAt 1 = some entry ∧ b.metering.points.map (·.shotVolume) = [50])) ∧
    1 * (50 * 10000) ≤ 1250 * 400 ∧ 1250 * 400 < (1 + 1) * (50 * 10000) ∧ 0 * (50 * 10000) ≤ 1249 * 400 ∧
    1249 * 400 < (0 + 1) * (50 * 10000) ∧
    ((running.modInjector 0 fun x => { x with service := .outOfService }).injector 0).service = .outOfService ∧
    ((running.modInjector 0 fun x => { x with state := .fault }).injector 0).state = .fault ∧
    entry.entry.requirement = .required ∧ optional.entry.requirement = .optional ∧
    (running.injector 0).service = .inService ∧ (running.injector 0).state = .idle ∧ (running.injector 0).queue = [] ∧
    ((queued 3).injector 0).queue.any (fun y => decide (y.arm = 0 ∧ y.owed < 4)) = true ∧
    ((queued 4).injector 0).queue.any (fun y => decide (y.arm = 0 ∧ 4 ≤ y.owed)) = true := by decide +kernel

/-- No start: ESD, a shot under way, an empty queue. A start from the reservation, and one from the free stock; neither. -/
theorem witness_ShotStart :
    shut.esd.active = true ∧ ((shooting 0).injector 0).state ≠ .idle ∧ (running.injector 0).queue = [] ∧
    running.esd.active = false ∧ ((queued 1).injector 0).state = .idle ∧
    50 ≤ ((queued 1).injector 0).reservation ⟨0, 9, 0⟩ ∧ (((queued 1).injector 0).reservations.map (·.ref)).Nodup ∧
    (((queued 1).modInjector 0 fun x => { x with reservations := [] }).injector 0).stock = 100000 ∧
    (((queued 1).modInjector 0 fun x => { x with reservations := [], stock := 49 }).injector 0).stock < 50 ∧
    ((queued 1).batch 0).any (fun b => decide (b.snapshot.entryAt 1 = some entry)) = true := by decide +kernel

/-- One pulse short of the target and at it; the window and the tail run out; a follower with a usable entry, and none; a
shot not completed but ended. -/
theorem witness_ShotPulsesAndCompletedShots :
    (rack.injector 0).shot = none ∧
    ((shooting 49).injector 0).shot.any (fun y => decide (y.phase = .opened ∧ y.target ≤ y.counted + 1)) ∧
    ((shooting 48).injector 0).shot.any (fun y => decide (y.counted + 1 < y.target ∧ y.window ≠ some 0)) ∧
    (windowDue.injector 0).shot.any (fun y => decide (y.phase = .opened ∧ y.window = some 0)) ∧
    ((tailOf .completed 0).injector 0).shot.any
      (fun y => decide (y.phase = .tail ∧ y.tail = some 0 ∧ y.outcome = .completed ∧ y.owner = some ⟨0, ⟨0, 9, 0⟩, 1⟩ ∧ y.queued = true)) ∧
    ((tailOf .completed 0).injector 0).state = .shot ∧ ((tailOf .completed 0).injector 0).proving = none ∧
    ((tailOf .completed 0).injector 0).follower = none ∧
    (((tailOf .completed 0).modInjector 0 fun x => { x with follower := some 0 }).injector 0).follower = some 0 ∧
    ((tailOf .completed 0).batch 0).any (fun b => b.state.flowing && decide (b.ref = ⟨0, 9, 0⟩ ∧
      b.snapshot.entries.find? (fun e => !e.skipped && decide (e.entry.injector = 0)) = some entry)) ∧
    ((tailOf .ended 0).injector 0).shot.any (fun y => decide (y.outcome = .ended)) := by decide +kernel

/-- The second and the third failure; a REQUIRED entry; drawing sets as they are after the start. -/
theorem witness_FailedShots :
    (∀ a, a ≠ 0 → (tailOf .failed 2).batch a = none) ∧
    ((tailOf .failed 1).injector 0).shot.any (fun y => decide (y.phase = .tail ∧ y.tail = some 0 ∧ y.outcome = .failed ∧
      y.owner = some ⟨0, ⟨0, 9, 0⟩, 1⟩)) ∧
    ((tailOf .failed 1).injector 0).failures = 1 ∧ ((tailOf .failed 2).injector 0).failures = 2 ∧
    ((tailOf .failed 2).injector 0).state = .shot ∧ ((tailOf .failed 2).injector 0).proving = none ∧
    ((tailOf .failed 2).batch 0).any (fun b => b.snapshot.requires 0 && b.state.flowing) ∧
    (∀ (h : HeaderId) (a : ArmId), a ∈ ((tailOf .failed 2).header h).drawing ↔
      ((tailOf .failed 2).batch a).any (fun b => b.state.flowing && decide (b.snapshot.mainHeader = h)) = true) ∧
    ((tailOf .failed 2).orderOf ⟨0, 9, 0⟩).any (fun o => o.isActive && (o.comp 0).any fun c => decide (c.results.length = 1)) := by
  decide +kernel

/-- The last shot of a run and one before it; a failed one; a total at its limit and past it. -/
theorem witness_ProvingShots :
    ((provingTail .completed 2).injector 1).shot.any (fun y => decide (y.phase = .tail ∧ y.tail = some 0 ∧
      y.outcome = .completed ∧ y.owner = none)) ∧ ((provingTail .completed 2).injector 1).state = .proving ∧
    ((provingTail .completed 2).injector 1).proving.any (fun p => decide (1 < p.remaining ∧ p.totalPulses + 50 ≤ 2550000)) ∧
    ((provingTail .completed 1).injector 1).proving.any (fun p => decide (p.remaining ≤ 1)) ∧ ¬ 2550000 + 1 ≤ 2550000 ∧
    ((provingTail .failed 1).injector 1).shot.any (fun y => decide (y.outcome = .failed ∧ y.owner = none)) := by decide +kernel

/-- The next note number from both ends of the counter; an expected dose of 0 with a delivery. -/
theorem witness_FinishKey_DoseFigures :
    1 ≤ rack.noteCounter ∧ rack.noteCounter ≤ 999999 ∧ ({ rack with noteCounter := 999999 } : State).noteCounter ≤ 999999 ∧
    20000 * 0 ≤ 2 * (0 * 400) + 10000 ∧ 2 * (0 * 400) + 10000 < 20000 * (0 + 1) ∧ 0 < 1 := by decide +kernel

/-! ### Hypotheses that are met: panels and laws of every step -/

/-- A line of one field and spaces, and its bytes; a line of 19 columns. -/
def lineBytes (spaces : Nat) : List Byte :=
  [0, 0, 0, 0, BitVec.ofNat 8 (1 + spaces), 3, 13, 8] ++ (List.replicate spaces [1, 0]).flatten

/-- The panel of bay 1 due for a refresh. -/
def refreshing (s : State) : State := s.modDisplay 0 fun d => { d with refresh := some 0 }

theorem witness_ScreensAndPromptMap :
    rack.port.phase = .hunting ∧
    (readScreenPut (24 :: (List.replicate 4 (lineBytes 12)).flatten)).any
      (fun f => decide (f.1 = (23 : ScreenId).val + 1) && f.2.all fun l => decide (l.columns = 20)) = true ∧
    (readScreenPut (24 :: (List.replicate 4 (lineBytes 11)).flatten)).any
      (fun f => f.2.any fun l => decide (l.columns ≠ 20)) = true ∧
    (∀ b, (rack.display b).current ≠ some 23) ∧ ((after (.panelRefresh 0) (refreshing rack)).display 0).current = some 0 ∧
    24 < (25 : Byte).toNat ∧ readMapPut [1, 8, 24, 1] = some [(.closing, 24, true)] ∧
    readMapPut [1, 8, 25, 1] = some [(.closing, 25, true)] ∧
    readMapPut [2, 8, 1, 0, 8, 2, 0] = some [(.closing, 1, false), (.closing, 2, false)] := by decide +kernel

/-- The situations; a refresh, an override and a restored time that have run out, and one that has not. -/
theorem witness_PanelRefresh :
    (rack.display 0).restored.any (fun t => decide (0 < t)) = false ∧ (rack.session 0).reason = none ∧
    (rack.session 0).state = .loading ∧ ((held.focusArm 0).bind held.batch).any (fun b => decide (b.state = .held)) = true ∧
    (∀ l ∈ (vget rack.screens 0).lines.toList, l.columns = 20) ∧ ((refreshing rack).display 0).refresh = some 0 ∧
    ((rack.modDisplay 0 fun d => { d with override := some { screen := 5, remaining := 0 } }).display 0).override.map (·.remaining)
      = some 0 ∧
    ((rack.modDisplay 0 fun d => { d with restored := some 0 }).display 0).restored = some 0 ∧
    ((rack.modDisplay 0 fun d => { d with refresh := some 1 }).display 0).refresh ≠ some 0 := by decide +kernel

/-- A hidden and a double line; a number that fits its field and one that does not; the first and the last digit and
letter; a HELD focus arm with one cause; the clock set to the last second of a day, and UNSET. -/
theorem witness_PanelLayoutAndFields :
    ({ hidden := true, double := true, emphasis := .normal, cells := [] } : Line).hidden = true ∧ (FieldValue.number 31800).glyphs.length = 5 ∧
    ¬ 5 < 5 ∧ 4 < 5 ∧ 31800 < 10 ^ 20 ∧ 9 < 10 ∧ 25 < 26 ∧
    ((held.focusArm 0).bind held.batch).any (fun b => decide (b.state = .held ∧ b.holdSet = [.host])) = true ∧
    ((running.focusArm 0).bind running.batch).all (fun b => decide (b.state ≠ .held)) = true ∧ State.reset.clock = none ∧
    86399 = 3600 * 23 + 60 * 59 + 59 ∧ (rack.session 0).bound = some 9 ∧ (rack.findOrder 9).isSome := by decide +kernel

/-- A body of each kind that carries a whole record, and one that matches none of them; an arm that is not ASSIGNED. -/
theorem witness_RequestBodiesAsBytes :
    readPermit (permitBytes 77) = some (permitFields 77) ∧ readProduct (productBytes 32) = some (productFields 32) ∧
    readOrder (orderBytes 10 77 1) = some (orderFields 10 77 1) ∧ readAmend (amendBytes 9 1 0) = some (amendFields 9 1 0) ∧
    readArmPut (armPutBytes 12 16) = some (12, some (armFieldsOf 16)) ∧ readArmPut [12, 1] = some (12, none) ∧
    readInjectorPut (injectorBytes 8 7) = some (injectorFieldsOf 8 7) ∧
    (readScreenPut (24 :: (List.replicate 4 (lineBytes 12)).flatten)).isSome ∧
    readMapPut [1, 8, 24, 1] = some [(.closing, 24, true)] ∧
    readPermit [0] = none ∧ readProduct [0] = none ∧ readOrder [0] = none ∧ readAmend [0] = none ∧ readArmPut [0] = none ∧
    readInjectorPut [0] = none ∧ readScreenPut [0] = none ∧ readMapPut [1] = none := by decide +kernel

theorem witness_FieldCommandsKeepHostRecords :
    (Instr.stop 0).request = none ∧ (∀ found, Instr.stop 0 ≠ .powerUp found) ∧ Instr.stop 0 ≠ .clockTick ∧
    Instr.stop 0 ≠ .responseSent ∧ (∀ l, Instr.stop 0 ≠ .hostFrameDiscard l) ∧ (∀ l, Instr.stop 0 ≠ .hostFrameTimeout l) :=
  ⟨rfl, nofun, nofun, nofun, nofun, nofun⟩

/-- A step of the rack answers a next state, and its tables are in order before it. -/
theorem witness_StepKeepsTablesInOrder :
    step { rack with pending := [.stop 0] } = .next (after (.stop 0) rack) ∧
    (rack.permits.map (·.card)).Pairwise (· < ·) ∧ rack.permits.length ≤ Config.permitCapacity ∧
    (rack.heldOrders.map (·.2.number)).Nodup ∧ rack.heldNotes = [] ∧ 1 ≤ rack.noteCounter := by
  refine ⟨rfl, ?_⟩
  decide +kernel

theorem witness_StepKeepsFlowLaws : rack.DrawingExact ∧ heldAndReady.DrawingExact ∧
    (∀ a, (running.batch a).all (fun b => b.state.flowing || decide (b.mainDemand = 0)) = true) ∧
    (∀ a, (shut.batch a).all (fun b => decide (b.state = .closing) || decide (.esd ∈ b.holdSet)) = true) := by
  refine ⟨drawingExact_of_idle _ ?_ ?_, drawingExact_held, ?_⟩ <;> decide +kernel

theorem witness_StepKeepsCountersInRange :
    (∀ m, (rack.meter m).residue < (rack.meter m).k) ∧ rack.clock = some ⟨100, 1000⟩ := by decide +kernel

/-! ### One step of the commands -/

/-- The result code of the response a request left: the byte after start, length, kind and tag. -/
def answer (s : State) : Option Byte := s.port.response.bind fun f => f[5]?

/-- The body of the response: the bytes after the status byte, without the CRC. -/
def answerBody (s : State) : List Byte := (s.port.response.getD []).drop 7 |>.dropLast.dropLast

theorem test_power_up :
    let t := after (.powerUp (foundAfter [])) running
    t.batch 0 = none ∧ t.clock = none ∧ t.esd = { active := true, input := false, debounce := some 2000 } ∧
    (t.session 0).bond = { input := true, present := false, debounce := some 2000 } ∧
    (t.orderIn 0).any (fun o => o.isOpen) = true := by decide +kernel
/-- The end times and note numbers of the orders that a loss of power leaves: one recovered by the rack reset that it cut, at
the clock that stood, the other by the power-up, without a clock. -/
theorem test_power_up_after_a_cut_rack_reset :
    let noted (t : State) (i : SlotId) : Option (Option Time × Nat) := (t.orderIn i).bind fun o =>
      match o.stage with
      | .noted part note => some (part.endTime, note.number)
      | _ => none
    let t := after (.powerUp (foundAfter [⟨true, 1⟩])) partAtTwoBays
    noted t 1 = some (some ⟨100, 1000⟩, 1) ∧ noted t 0 = some (none, 2) := by decide +kernel
theorem test_rack_reset_notes_a_part_load :
    ((after (.rackReset 1 []) part).orderIn 0).any (fun o => decide (o.stage.code = 2)) = true ∧
    (after (.rackReset 1 []) part).noteCounter = 2 ∧
    (after (.rackReset 1 []) part).flags = [.restart, .orderNoted] := by decide +kernel
theorem test_clear_all : (after (.clearAll 1 []) quiet).permits = [] ∧ answer (after (.clearAll 1 []) rack) = some 6 := by
  decide +kernel
theorem test_status_get : answer (after (.statusGet 7 []) rack) = some 0 ∧ (after (.statusGet 7 []) busy) = busy := by
  decide +kernel
theorem test_unknown_kind : answer (after (.unknownKind 0x07 1 []) rack) = some 4 := by decide +kernel
theorem test_malformed_body : answer (after (.permitGet 1 [1]) rack) = some 4 := by decide +kernel
theorem test_events_ack : (after (.eventsAck 1 [1, 0]) rack).flags = [] ∧ (after (.eventsMask 1 [0, 128]) rack).mask = [.terminalLost] := by
  decide +kernel
theorem test_clock_set : (after (.clockSet 1 [7, 0, 0x7F, 0x51, 1, 0]) rack).clock = some ⟨7, 86399⟩ := by decide +kernel
theorem test_permit_put : (after (.permitPut 1 (permitBytes 78)) rack).permits.map (·.card) = [77, 78] ∧
    answer (after (.permitPut 1 (permitBytes 78)) full) = some 0 ∧ answer (after (.permitPut 1 (0xFF :: (permitBytes 0).drop 1)) full) = some 0 := by
  decide +kernel
theorem test_permit_retire_in_use : answer (after (.permitRetire 1 [77, 0, 0, 0]) rack) = some 5 := by decide +kernel
theorem test_matrix_put :
    answerBody (after (.matrixPut 1 [7, 2, 1, 0, 3, 0, 0, 0, 3]) rack) = [2, 1, 0, 0, 0, 0, 0, 0] := by decide +kernel
theorem test_order_create : (after (.orderCreate 1 (orderBytes 10 77 1)) rack).orderIn 1 = some { newOrder 10 77 0 with seq := 2 } ∧
    answer (after (.orderCreate 1 (orderBytes 9 77 1)) rack) = some 2 := by decide +kernel
theorem test_order_amend : (((after (.orderAmend 1 (amendBytes 9 1 0)) rack).compOf ⟨0, 9, 0⟩).map (·.planned)) = some 512 := by
  decide +kernel
theorem test_order_cancel : (after (.orderCancel 1 [9, 0, 0, 0]) quiet).orderIn 0 = none ∧
    answer (after (.orderCancel 1 [9, 0, 0, 0]) rack) = some 6 := by decide +kernel
theorem test_order_collect : (after (.orderCollect 1 [9, 0, 0, 0, 5, 0, 0, 0]) noted).orderIn 0 = none ∧
    answer (after (.orderCollect 1 [9, 0, 0, 0, 6, 0, 0, 0]) noted) = some 4 := by decide +kernel
/-- 33 orders in ascending creation sequence: with the sequence of the 32nd left over, and with a greater one (R48). -/
theorem test_order_list_more :
    let listed (last : Nat) : List (SlotId × Order) :=
      (List.range 33).map fun k => (0, { order with seq := if k = 32 then last else k + 1 })
    moreBeyond ((listed 32).take 32) (listed 32) = false ∧ moreBeyond ((listed 33).take 32) (listed 33) = true := by
  decide +kernel
theorem test_card_event : ((after (.cardEvent 0 77) quiet).session 0).state = .codeEntry ∧
    ((after (.cardEvent 0 78) quiet).session 0).reason = some .unknownCard := by decide +kernel
theorem test_enter_right_code : ((after (.enter 0) (asking [1, 2, 3, 4])).session 0).state = .loading := by decide +kernel
theorem test_enter_wrong_code : ((after (.enter 0) (asking [1, 2, 3, 5])).findPermit 77).map (·.strikes) = some 1 := by
  decide +kernel
theorem test_digit_selects_the_order : ((after (.digitKey 0 1) choosing).session 0).bound = some 9 := by decide +kernel
theorem test_cancel_returns_the_order : (((after (.cancel 0) waiting).orderIn 0).map (·.stage)) = some .opened := by
  decide +kernel
theorem test_start : (running.batch 0).map (fun b => (b.state, b.mainDemand, b.ceiling)) = some (.lowStart, 200, some 1000) ∧
    (running.injector 0).reserved = 1250 ∧ ((running.compOf ⟨0, 9, 0⟩).map (·.state)) = some .loading := by decide +kernel
theorem test_stop : (closing.batch 0).map (fun b => (b.state, b.closeKind, b.settle, b.leak)) = some (.closing, some .stopped, some 2000, some 30000) ∧
    (closing.header 0).drawing = [] := by decide +kernel
theorem test_resume : (after (.resume 0) heldAndReady).batchIs 0 .lowStart = true ∧
    ((after (.resume 0) held).session 0).reason = some .hostHold := by decide +kernel
theorem test_finish_notes_the_order :
    ((after (.finish 0) (rack.modComp ⟨0, 9, 0⟩ fun c => { c with gross := 100 })).orderIn 0).any
      (fun o => decide (o.stage.code = 2)) = true ∧
    ((after (.finish 0) running).session 0).reason = some .armsFlowing := by decide +kernel
theorem test_inactivity_limit : ((after (.inactivityLimitExpiry 0) (overdue rack)).session 0).state = .idle := by decide +kernel
/-- A key queued before the expiry restarts the limit, and the expiry is no longer taken (R59). -/
theorem test_expiry_that_no_longer_applies :
    after (.inactivityLimitExpiry 0) (after (.digitKey 0 1) (overdue rack)) = after (.digitKey 0 1) (overdue rack) ∧
    after (.sessionTimeout 0) (after (.cancel 0) (overdue waiting)) = after (.cancel 0) (overdue waiting) := by
  decide +kernel
theorem test_terminal_lost : ((after (.terminalLost 0) (silent running)).batch 0).map (·.holdSet) = some [.terminalLost] := by
  decide +kernel
theorem test_permissive_absent : ((after (.permissiveInputAbsent 0 .bond) running).batch 0).map (·.holdSet) = some [.permissive] := by
  decide +kernel
theorem test_permissive_debounce_end : ((after (.permissiveDebounceEnd 0 .bond) bonded).session 0).state = .loading := by
  decide +kernel
theorem test_connected_absent : ((after (.connectedAbsent 0) running).batch 0).map (·.holdSet) = some [.armDisconnected] := by
  decide +kernel
theorem test_esd_release : ((after .esdDebounceEnd released).batch 0).map (fun b => (b.state, b.holdSet)) = some (.held, []) := by
  decide +kernel
theorem test_a_pulse_credits_the_batch : ((after (.meterAPulse 0) (running.modMeter 0 fun m => { m with residue := 90000 })).batch 0).map
      (fun b => (b.gross, b.metering.stepMain)) = some (1, 1) ∧
    ((after (.meterAPulse 0) (running.modMeter 0 fun m => { m with residue := 90000 })).meter 0).totalizer = 1 := by decide +kernel
theorem test_integrity_check : ((after (.meterBPulse 0) (running.modMeter 0 fun m => { m with aCount := 988, bCount := 999 })).meter 0).state = .fault ∧
    ((after (.meterBPulse 0) (running.modMeter 0 fun m => { m with aCount := 990, bCount := 999 })).meter 0).state = .ok := by
  decide +kernel
theorem test_probe_reading : ((after (.probeReading 0 (.temperature 601)) (rack.modMeter 0 fun m => { m with probe := true })).meter 0).probeState
    = .outOfRange := by decide +kernel
theorem test_ramp : ((after (.rampTimerExpiry 0) rampDue).batch 0).map (fun b => (b.state, b.mainDemand, b.ramp)) = some (.ramping, 400, some 2000) := by
  decide +kernel
/-- A trip on a flowing batch: HELD with that one cause, demands 0, compartment HELD, BATCH_HOLD set. -/
theorem test_a_trip_holds : (shut.batch 0).map (fun b => (b.state, b.holdSet, b.mainDemand, b.ceiling)) = some (.held, [.esd], 0, none) ∧
    (shut.compOf ⟨0, 9, 0⟩).map (·.state) = some .held ∧ shut.flags.contains .batchHold = true := by decide +kernel
theorem test_no_flow : ((after (.noFlowTimerExpiry 0) noFlowDue).batch 0).map (·.holdSet) = some [.noFlow] := by decide +kernel
theorem test_settle_ends_the_batch : (after (.settleTimerExpiry 0) settled).batch 0 = none ∧
    ((after (.settleTimerExpiry 0) settled).compOf ⟨0, 9, 0⟩).map (·.state) = some .partly ∧
    ((after (.settleTimerExpiry 0) settled).injector 0).reservations = [] := by decide +kernel
theorem test_leak : ((after (.leakTimerExpiry 0) leaking).arm 0).service = .outOfService := by decide +kernel
theorem test_bay_close : ((after (.bayClose 1 [1]) running).session 0).state = .closing ∧
    answerBody (after (.bayClose 1 [1]) running) = [5] := by decide +kernel
theorem test_bay_reset : (after (.bayReset 1 [1]) running).batch 0 = none ∧
    ((after (.bayReset 1 [1]) running).session 0).state = .idle := by decide +kernel
theorem test_batch_hold : answerBody (after (.batchHold 1 [1]) running) = [6, 0, 1] ∧
    answer (after (.batchResume 1 [1]) heldByEsd) = some 6 := by decide +kernel
theorem test_stock_set : (after (.stockSet 1 [1, 0x87, 0x13, 0, 0]) rack).flags = [.restart, .stockLow] := by decide +kernel
theorem test_prove_start : (proving.injector 1).shot.map (·.target) = some 50 ∧ proving.solenoid 1 = true := by decide +kernel
theorem test_prove_result : answer (after (.proveResult 1 [2, 0x26, 0x04, 0, 0]) provedOut) = some 0 ∧
    ((after (.proveResult 1 [2, 0x26, 0x04, 0, 0]) provedOut).injector 1).k = 949 := by decide +kernel
/-- In PROVE_WAIT a volume out of range is answered with the figures too (R147). -/
theorem test_prove_result_out_of_range :
    answer (after (.proveResult 1 [2, 0x81, 0x84, 0x1E, 0]) provedOut) = some 4 ∧
    (answerBody (after (.proveResult 1 [2, 0x81, 0x84, 0x1E, 0]) provedOut)).length = 12 ∧
    answerBody (after (.proveResult 1 [2, 0x81, 0x84, 0x1E, 0]) rack) = [] := by decide +kernel
theorem test_shot_completes : ((after (.additiveMeterPulse 0) (shooting 49)).injector 0).shot.map (fun y => (y.phase, y.outcome, y.tail))
    = some (.tail, .completed, some 1000) := by decide +kernel
theorem test_tail_credits : ((after (.shotTailEnd 0) (tailOf .completed 1)).injector 0).stock = 99950 ∧
    ((after (.shotTailEnd 0) (tailOf .completed 1)).compOf ⟨0, 9, 0⟩).map (fun c => c.results.map (·.delivered)) = some [50] ∧
    ((after (.shotTailEnd 0) (tailOf .completed 1)).injector 0).reserved = 1200 := by decide +kernel
theorem test_third_failure : ((after (.shotTailEnd 0) (tailOf .failed 2)).injector 0).state = .fault ∧
    ((after (.shotTailEnd 0) (tailOf .failed 2)).batch 0).map (·.holdSet) = some [.additive] := by decide +kernel
theorem test_proving_tail : ((after (.shotTailEnd 1) (provingTail .completed 1)).injector 1).state = .proveWait := by decide +kernel

/-- The line of section 10.3 with a remaining volume of 3180.0 L and a flow of 1500 L/min. -/
theorem test_panel_fields :
    glyphs "REM" ++ fillField 9 (some (.volume 31800)) ++ fillField 5 (some (.number 1500)) ++ glyphs "L/M"
      = glyphs "REM   3180.0 1500L/M" := by decide +kernel
theorem test_panel_refresh : ((after (.panelRefresh 0) (refreshing rack)).display 0).frame.map List.length = some 88 := by decide +kernel
theorem test_clock_tick : (after .clockTick { rack with clockPhase := some 0 }).clock = some ⟨100, 1001⟩ := by decide +kernel
/-- On an empty queue the step passes a millisecond. -/
theorem test_idle_step : step rack = .next rack.advance ∧ rack.advance.clockPhase = some 999 := ⟨rfl, by decide +kernel⟩


end Sys2Proof.Tests
end

section
/-! SUPPORT. Permits in card order, order numbers and note numbers distinct along every step (R1, R35, R37, R151): what
each command's block leaves of the Permit Table and the Order Table, and that every command keeps every law of
Safety.lean but the clock's (`exec_orderly`). -/

namespace Sys2Proof.Machine

/-! ### Operations that keep the tables in order -/

/-- The laws of the Permit Table and of order numbers, kept. -/
structure KeepsTables (s t : State) : Prop where
  permits : s.PermitsOrdered → t.PermitsOrdered
  orders : s.OrdersDistinct → t.OrdersDistinct

theorem KeepsTables.refl (s : State) : KeepsTables s s := ⟨id, id⟩

theorem KeepsTables.trans {s t u : State} (h : KeepsTables s t) (k : KeepsTables t u) : KeepsTables s u :=
  ⟨fun q => k.permits (h.permits q), fun q => k.orders (h.orders q)⟩

/-- The laws speak of nothing but the list of cards and the number in each slot; a slot may also become FREE. -/
theorem KeepsTables.of {s t : State} (hp : t.cards = s.cards)
    (ho : ∀ i, (t.orderIn i).map (·.number) = (s.orderIn i).map (·.number) ∨ t.orderIn i = none) : KeepsTables s t where
  permits q := by
    have hl : t.permits.length = s.permits.length := by simpa [State.cards] using congrArg List.length hp
    exact ⟨by rw [show t.permits.map (·.card) = s.permits.map (·.card) from hp]; exact q.1, hl ▸ q.2⟩
  orders q := by
    have held : ∀ i o, t.orderIn i = some o → ∃ o', s.orderIn i = some o' ∧ o'.number = o.number := by
      intro i o e
      rcases ho i with h | h
      · rw [e] at h
        exact Option.map_eq_some_iff.mp h.symm
      · rw [h] at e; cases e
    intro i j o p hi hj hn
    obtain ⟨o', ei, ni⟩ := held i o hi
    obtain ⟨p', ej, nj⟩ := held j p hj
    exact q i j o' p' ei ej (by rw [ni, nj, hn])

theorem KeepsTables.same {s t : State} (hp : t.permits = s.permits) (ho : t.orders = s.orders) : KeepsTables s t :=
  .of (by rw [State.cards, hp]; rfl) fun i => .inl (by rw [State.orderIn, ho]; rfl)

/-- The host's records carry the cards and the order numbers. -/
theorem State.SameHostRecords.keepsTables {s t : State} (h : s.SameHostRecords t) : KeepsTables s t := by
  have cards : ∀ l : List Permit, l.map (·.card) = (l.map Permit.fixedPart).map (·.card) := fun l => by
    rw [List.map_map]; rfl
  have number : ∀ o : Option Order, o.map (·.number) = (o.map Order.fixedPart).map (·.number) := fun o => by
    rw [Option.map_map]; rfl
  refine .of ?_ fun i => .inl ?_
  · rw [State.cards, State.cards, cards t.permits, cards s.permits, h.permits]
  · rw [number (t.orderIn i), number (s.orderIn i), h.orders]

theorem Keeps.keepsTables {s t : State} (h : Keeps s t) : KeepsTables s t := h.same.keepsTables

/-- An operation made on a state whose tables are those of `s`. -/
theorem Keeps.keepsTablesOf {s u t : State} (h : Keeps u t) (hp : u.permits = s.permits) (ho : u.orders = s.orders) :
    KeepsTables s t := (KeepsTables.same hp ho).trans h.keepsTables

/-! ### The Permit Table -/

theorem insertPermit_perm (p : Permit) (l : List Permit) : (insertPermit p l).Perm (p :: l) := by
  induction l with
  | nil => exact .refl _
  | cons q rest ih =>
    unfold insertPermit
    split
    · exact .refl _
    · exact (ih.cons q).trans (.swap p q rest)

/-- A new card inserted at its place keeps the ascending order (R1). -/
theorem insertPermit_ascending {p : Permit} {l : List Permit} (h : (l.map (·.card)).Pairwise (· < ·))
    (hp : ∀ q ∈ l, q.card ≠ p.card) : ((insertPermit p l).map (·.card)).Pairwise (· < ·) := by
  induction l with
  | nil => simp [insertPermit]
  | cons q rest ih =>
    obtain ⟨hq, hr⟩ := List.pairwise_cons.mp h
    have hqp := hp q (by simp)
    unfold insertPermit
    split
    · rename_i hlt
      refine List.pairwise_cons.mpr ⟨fun c hc => ?_, h⟩
      rcases List.mem_cons.mp hc with rfl | hc
      · exact hlt
      · exact hlt.trans (hq c hc)
    · rename_i hlt
      refine List.pairwise_cons.mpr ⟨fun c hc => ?_, ih hr fun x hx => hp x (by simp [hx])⟩
      rw [((insertPermit_perm p rest).map _).mem_iff] at hc
      rcases List.mem_cons.mp hc with rfl | hc
      · exact lt_of_le_of_ne (Nat.le_of_not_lt hlt) hqp
      · exact hq c hc

theorem State.findPermit_eq_none {s : State} {card : Nat} :
    s.findPermit card = none ↔ ∀ p ∈ s.permits, p.card ≠ card := by
  simp [State.findPermit]

theorem State.permitPut_keepsTables (s : State) (f : PermitFields) : KeepsTables s (s.permitPut f).state := by
  unfold State.permitPut
  split
  · exact .refl s
  · rename_i new _
    split
    · exact .of (s.cards_modPermit _ _ fun p => rfl) fun i => .inl rfl
    · rename_i hnone
      split
      · rename_i hroom
        refine ⟨fun q => ⟨insertPermit_ascending q.1 (State.findPermit_eq_none.mp (by simpa using hnone)), ?_⟩, id⟩
        show (insertPermit new s.permits).length ≤ _
        rw [(insertPermit_perm new s.permits).length_eq]
        exact hroom
      · exact .refl s

theorem State.permitChange_keepsTables (s : State) (n : Nat) (f : Permit → Permit) (hf : ∀ p, (f p).card = p.card) :
    KeepsTables s (s.permitChange n f).state := by
  unfold State.permitChange
  split
  · exact .of (s.cards_modPermit _ _ hf) fun i => .inl rfl
  · exact .refl s

theorem State.permitRetire_keepsTables (s : State) (n : Nat) : KeepsTables s (s.permitRetire n).state := by
  unfold State.permitRetire
  split
  · exact .refl s
  · split
    · exact .refl s
    · refine ⟨fun q => ⟨?_, (List.length_filter_le _ _).trans q.2⟩, id⟩
      exact q.1.sublist (List.filter_sublist.map _)

/-! ### The Order Table -/

theorem State.findOrder_eq_none {s : State} {n : Nat} :
    s.findOrder n = none ↔ ∀ i o, s.orderIn i = some o → o.number ≠ n := by
  simp only [State.findOrder, List.findSome?_eq_none_iff]
  constructor
  · intro h i o ho hn
    simpa [ho, hn] using h i (mem_allSlots i)
  · intro h i _
    split
    · rename_i o ho; simp [h i o ho]
    · rfl

/-- An order placed under a number that no slot holds keeps the numbers distinct (R35). -/
theorem State.OrdersDistinct.place {s : State} (q : s.OrdersDistinct) {o : Order} (h : s.findOrder o.number = none)
    (i : SlotId) : (s.placeOrder i o).OrdersDistinct := by
  have fresh := State.findOrder_eq_none.mp h
  have held : ∀ k x, (s.placeOrder i o).orderIn k = some x →
      (k = i ∧ x.number = o.number) ∨ (k ≠ i ∧ s.orderIn k = some x) := by
    intro k x e
    simp only [State.placeOrder, State.orderIn, vget_vset] at e
    split at e
    · cases e; exact .inl ⟨by assumption, rfl⟩
    · exact .inr ⟨by assumption, e⟩
  intro j k x y hj hk hn
  rcases held j x hj with ⟨rfl, ex⟩ | ⟨-, ex⟩ <;> rcases held k y hk with ⟨rfl, ey⟩ | ⟨-, ey⟩
  · rfl
  · exact absurd (hn.symm.trans ex) (fresh k y ey)
  · exact absurd (hn.trans ey) (fresh j x ex)
  · exact q j k x y ex ey hn

theorem State.orderCreate_keepsTables (s : State) (f : OrderFields) : KeepsTables s (s.orderCreate f).state := by
  unfold State.orderCreate
  split
  · exact .refl s
  · split
    · exact .refl s
    · rename_i hfree
      repeat' split
      all_goals try exact .refl s
      exact ⟨id, fun q => q.place (by simpa using hfree) _⟩

theorem State.freeOrder_keepsTables (s : State) (i : SlotId) : KeepsTables s (s.freeOrder i) :=
  .of rfl fun j => by
    simp only [State.freeOrder, State.orderIn, vget_vset]
    split
    · exact .inr rfl
    · exact .inl rfl

theorem State.modOrder_keepsTables (s : State) (i : SlotId) (f : Order → Order) (hf : ∀ o, (f o).number = o.number) :
    KeepsTables s (s.modOrder i f) :=
  .of rfl fun j => .inl <| by
    rw [State.orderIn_modOrder]
    split
    · rename_i e; subst e; cases s.orderIn j <;> simp [hf]
    · rfl

theorem State.orderAmend_keepsTables (s : State) (f : AmendFields) : KeepsTables s (s.orderAmend f).state := by
  unfold State.orderAmend
  repeat' split
  all_goals try exact .refl s
  exact s.modOrder_keepsTables _ _ fun _ => rfl

theorem State.orderCancel_keepsTables (s : State) (n : Nat) : KeepsTables s (s.orderCancel n).state := by
  unfold State.orderCancel
  repeat' split
  all_goals try exact .refl s
  exact s.freeOrder_keepsTables _

theorem State.orderCollect_keepsTables (s : State) (f : Nat × Nat) : KeepsTables s (s.orderCollect f).state := by
  unfold State.orderCollect
  repeat' split
  all_goals try exact .refl s
  exact s.freeOrder_keepsTables _

/-! ### The other requests -/

theorem State.productPut_keepsTables (s : State) (f : ProductFields) : KeepsTables s (s.productPut f).state := by
  unfold State.productPut; split <;> exact .same rfl rfl

theorem State.productDelete_keepsTables (s : State) (n : Nat) : KeepsTables s (s.productDelete n).state := by
  unfold State.productDelete; repeat' split
  all_goals exact .same rfl rfl

theorem State.matrixPut_keepsTables (s : State) (f : Nat × List (Option Verdict)) :
    KeepsTables s (s.matrixPut f).state := by
  unfold State.matrixPut; repeat' split
  all_goals exact .same rfl rfl

theorem State.clockSet_keepsTables (s : State) (t : Time) : KeepsTables s (s.clockSet t).state := by
  unfold State.clockSet; split <;> exact .same rfl rfl

theorem State.putArm_keepsTables (s : State) (a : ArmId) (r : Arm) : KeepsTables s (s.putArm a r).state := by
  unfold State.putArm; repeat' split
  all_goals exact .same rfl rfl

theorem State.armPut_keepsTables (s : State) (f : Nat × Option ArmFields) : KeepsTables s (s.armPut f).state := by
  unfold State.armPut; repeat' split
  · exact .refl s
  · exact s.putArm_keepsTables _ _
  · exact .refl s
  · exact s.putArm_keepsTables _ _

theorem State.armReturn_keepsTables (s : State) (n : Nat) : KeepsTables s (s.armReturn n).state := by
  unfold State.armReturn; repeat' split
  all_goals exact .same rfl rfl

theorem State.headerPut_keepsTables (s : State) (f : Nat × Nat) : KeepsTables s (s.headerPut f).state := by
  have set : ∀ h n, KeepsTables s (s.setCapacity h n) := by
    intro h n
    have k : KeepsTables s (s.modHeader h fun r => { r with capacity := n }) := .same rfl rfl
    unfold State.setCapacity; dsimp only; split
    · exact k
    · exact k.trans ((Keeps.refl _).computeCeilings h).keepsTables
  unfold State.headerPut; repeat' split
  · exact .refl s
  · exact set _ _
  · exact .refl s

theorem State.meterPut_keepsTables (s : State) (f : Nat × Nat × Nat × Bool) : KeepsTables s (s.meterPut f).state := by
  unfold State.meterPut; repeat' split
  all_goals exact .same rfl rfl

theorem State.injectorPut_keepsTables (s : State) (f : InjectorFields) : KeepsTables s (s.injectorPut f).state := by
  have set : ∀ i follower, KeepsTables s (s.configureInjector i f follower) := by
    intro i follower
    unfold State.configureInjector; dsimp only; split
    · exact .same rfl rfl
    · exact ((Keeps.refl _).injectorChanged i).keepsTablesOf rfl rfl
  unfold State.injectorPut; repeat' split
  · exact .refl s
  · exact .refl s
  · exact set _ _
  · exact .refl s

theorem State.injectorClear_keepsTables (s : State) (n : Nat) : KeepsTables s (s.injectorClear n).state := by
  have clear : ∀ i, KeepsTables s (s.clearFailures i) := fun i => .same rfl rfl
  unfold State.injectorClear; repeat' split
  · exact .refl s
  · exact (clear _).trans ((Keeps.refl _).setInjectorState _ _).keepsTables
  · exact clear _
  · exact clear _
  · exact .refl s
  · exact .refl s

theorem State.proveResult_keepsTables (s : State) (f : Nat × Nat) : KeepsTables s (s.proveResult f).state := by
  have install : ∀ (u : State) i k, KeepsTables u (u.installK i k) := fun u i k =>
    ((Keeps.refl _).setInjectorState i .idle).keepsTablesOf rfl rfl
  unfold State.proveResult
  split
  · exact .refl s
  · split
    · exact .refl s
    · rename_i p _
      have computed : KeepsTables s (s.computedK p f.2).2 := by
        obtain ⟨-, k, e⟩ := s.computedK_spec p f.2
        rw [e]; exact .same rfl rfl
      dsimp only
      split
      · exact computed.trans (install _ _ _)
      · exact computed

theorem State.screenPut_keepsTables (s : State) (f : Nat × List Line) : KeepsTables s (s.screenPut f).state := by
  unfold State.screenPut; repeat' split
  all_goals exact .same rfl rfl

theorem State.promptMapPut_keepsTables (s : State) (l : List (Situation × Nat × Bool)) :
    KeepsTables s (s.promptMapPut l).state := by
  unfold State.promptMapPut; split <;> exact .same rfl rfl

/-! ### Requests that read -/

theorem State.permitGet_state (s : State) (f : Nat) : (s.permitGet f).state = s := by
  unfold State.permitGet; repeat' split
  all_goals rfl

theorem State.permitList_state (s : State) (f : Nat) : (s.permitList f).state = s := by
  unfold State.permitList; repeat' split
  all_goals rfl

theorem State.productGet_state (s : State) (f : Nat) : (s.productGet f).state = s := by
  unfold State.productGet; repeat' split
  all_goals rfl

theorem State.orderGet_state (s : State) (f : Nat × Nat) : (s.orderGet f).state = s := by
  unfold State.orderGet; repeat' split
  all_goals rfl

theorem State.armGet_state (s : State) (f : Nat) : (s.armGet f).state = s := by
  unfold State.armGet; repeat' split
  all_goals rfl

theorem State.headerGet_state (s : State) (f : Nat) : (s.headerGet f).state = s := by
  unfold State.headerGet; repeat' split
  all_goals rfl

theorem State.meterGet_state (s : State) (f : Nat) : (s.meterGet f).state = s := by
  unfold State.meterGet; repeat' split
  all_goals rfl

theorem State.injectorGet_state (s : State) (f : Nat) : (s.injectorGet f).state = s := by
  unfold State.injectorGet; repeat' split
  all_goals rfl

theorem State.screenGet_state (s : State) (f : Nat) : (s.screenGet f).state = s := by
  unfold State.screenGet; repeat' split
  all_goals rfl

/-! ### Resets and the port -/

theorem State.clearAll_keepsTables (s : State) : KeepsTables s s.clearAll.state := by
  unfold State.clearAll
  split
  · refine ⟨fun _ => ⟨.nil, Nat.zero_le _⟩, fun _ i j o p hi => ?_⟩
    have : s.cleared.orderIn i = none := vget_replicate none i
    rw [show (Reply.ok s.cleared []).state = s.cleared from rfl, this] at hi
    cases hi
  · exact .refl s

theorem State.rackReset_keepsTables (s : State) : KeepsTables s s.rackReset := by
  have sessions : ∀ u : State, KeepsTables u u.resetSessions := fun u =>
    .of (by simp [State.cards, State.resetSessions, Permit.reset]) fun _ => .inl rfl
  have flow : KeepsTables s s.resetFlow := .same rfl rfl
  exact (flow.trans (Keeps.refl _).recoverOrders.keepsTables).trans (sessions _)

theorem State.cutReset_keepsTables (s : State) (c : CutReset) : KeepsTables s (s.cutReset c) := by
  unfold State.cutReset
  split
  · exact ((Keeps.refl _).recoverFirst _).keepsTables
  · exact ((Keeps.refl _).recoverFirst _).keepsTablesOf rfl rfl

theorem State.cutResets_keepsTables (s : State) (l : List CutReset) : KeepsTables s (l.foldl State.cutReset s) := by
  induction l generalizing s with
  | nil => exact .refl s
  | cons c l ih => exact (s.cutReset_keepsTables c).trans (ih _)

theorem State.keepHunting_keepsTables (s : State) (buffer : List Byte) : KeepsTables s (s.keepHunting buffer) := by
  unfold State.keepHunting; split <;> exact .same rfl rfl

/-! ### Every command -/

/-- Every law of Safety.lean but the clock's, kept. -/
structure Orderly (s t : State) : Prop extends Lawful s t, KeepsTables s t

theorem Keeps.orderly {s t : State} (h : Keeps s t) : Orderly s t := ⟨h.lawful, h.keepsTables⟩

theorem Orderly.refl (s : State) : Orderly s s := (Keeps.refl s).orderly

theorem Orderly.respond {s t : State} (h : Orderly s t) (k tag : Byte) (rq : List Byte) (r : ResultCode) (b : List Byte) :
    Orderly s (t.respond k tag rq r b) := ⟨h.toLawful.respond k tag rq r b, h.toKeepsTables.trans (.same rfl rfl)⟩

theorem Orderly.of_eq {s t : State} (h : t = s) : Orderly s t := h ▸ .refl s

/-- A request keeps what its block keeps. -/
theorem Orderly.request {α : Type} {s : State} {kind tag : Byte} {body : List Byte} {read : List Byte → Option α}
    {act : State → α → Reply} (h : ∀ f, Orderly s (act s f).state) : Orderly s (s.request kind tag body read act) :=
  State.request_rule (P := Orderly s) (.refl s) (fun _ k tg rq r b q => q.respond k tg rq r b) fun f _ => h f

theorem Orderly.expire {s : State} {timer : Timer} {act : State → State} (h : Orderly s (act s)) :
    Orderly s (s.expire timer act) := by
  unfold State.expire
  split
  · exact h
  · exact .refl s

theorem Orderly.next {s u : State} (h : Orderly s u) :
    ∀ t, (Host.Outcome.next u : Host.Outcome State Fault Refusal) = .next t → Orderly s t := by
  rintro t ⟨⟩; exact h

/-- An action taken under a condition. -/
theorem Orderly.ite {s u v : State} {c : Prop} [Decidable c] (h : c → Keeps s u) (k : ¬ c → Keeps s v) :
    Orderly s (if c then u else v) := by
  split
  · exact (h ‹_›).orderly
  · exact (k ‹_›).orderly

theorem Orderly.powerUp (s : State) (found : Found) :
    Orderly s ((found.cuts.foldl State.cutReset s).powerOn found).rackReset where
  toLawful := (s.cutResets_lawful found.cuts).trans (State.powerOn_lawful _ found)
  toKeepsTables := by
    have on : KeepsTables (found.cuts.foldl State.cutReset s) ((found.cuts.foldl State.cutReset s).powerOn found) :=
      .same rfl rfl
    exact ((s.cutResets_keepsTables found.cuts).trans on).trans (State.rackReset_keepsTables _)

theorem Orderly.clockTick (s : State) : Orderly s (match s.clock with
    | some t => { s with clock := some t.tick, clockPhase := seconds 1 }
    | none => s) := by
  split
  · exact ⟨.of (fun _ => rfl) (fun _ => rfl) rfl id rfl fun _ => .inl rfl, .same rfl rfl⟩
  · exact .refl s

theorem Orderly.esdInput (s : State) :
    Orderly s (if s.esd.active then { s with esd := { s.esd with input := true, debounce := none } }
      else ({ s with esd := { s.esd with input := true } } : State).esdActivate) :=
  .ite (fun _ => (Keeps.refl s).setEsd { s.esd with input := true, debounce := none } id)
    fun _ => ((Keeps.refl s).setEsd { s.esd with input := true } id).esdActivate

/-- Every command keeps the laws. -/
theorem exec_orderly (c : Instr) (s : State) : ∀ t, exec c s = .next t → Orderly s t := by
  cases c with
  | powerUp found => exact .next (.powerUp s found)
  | hostFrameDiscard received => exact .next ⟨s.keepHunting_lawful _, s.keepHunting_keepsTables _⟩
  | hostFrameTimeout received => exact .next ⟨s.keepHunting_lawful _, s.keepHunting_keepsTables _⟩
  | unknownKind kind tag body => exact .next (.request fun _ => .refl s)
  | responseSent => exact .next ⟨.of (fun _ => rfl) (fun _ => rfl) rfl id rfl fun _ => .inl rfl, .same rfl rfl⟩
  | statusGet tag body => exact .next (.request fun _ => .refl s)
  | eventsAck tag body => exact .next (.request fun f => ⟨s.eventsAck_lawful f, .same rfl rfl⟩)
  | eventsMask tag body => exact .next (.request fun f => ⟨s.eventsMask_lawful f, .same rfl rfl⟩)
  | clockSet tag body => exact .next (.request fun f => ⟨s.clockSet_lawful f, s.clockSet_keepsTables f⟩)
  | rackReset tag body => exact .next (.request fun _ => ⟨s.rackReset_lawful, s.rackReset_keepsTables⟩)
  | clearAll tag body => exact .next (.request fun _ => ⟨s.clearAll_lawful, s.clearAll_keepsTables⟩)
  | permitPut tag body => exact .next (.request fun f => ⟨s.permitPut_lawful f, s.permitPut_keepsTables f⟩)
  | permitGet tag body => exact .next (.request fun f => .of_eq (s.permitGet_state f))
  | permitList tag body => exact .next (.request fun f => .of_eq (s.permitList_state f))
  | permitHold tag body =>
    exact .next (.request fun f => ⟨s.permitChange_lawful _ _, s.permitChange_keepsTables _ _
      fun p => by cases f.2 <;> rfl⟩)
  | permitRelease tag body =>
    exact .next (.request fun f => ⟨s.permitChange_lawful _ _, s.permitChange_keepsTables _ _
      fun p => by cases f.2 <;> rfl⟩)
  | permitRetire tag body => exact .next (.request fun f => ⟨s.permitRetire_lawful f, s.permitRetire_keepsTables f⟩)
  | productPut tag body => exact .next (.request fun f => ⟨s.productPut_lawful f, s.productPut_keepsTables f⟩)
  | productGet tag body => exact .next (.request fun f => .of_eq (s.productGet_state f))
  | productDelete tag body => exact .next (.request fun f => ⟨s.productDelete_lawful f, s.productDelete_keepsTables f⟩)
  | matrixPut tag body => exact .next (.request fun f => ⟨s.matrixPut_lawful f, s.matrixPut_keepsTables f⟩)
  | orderCreate tag body => exact .next (.request fun f => ⟨s.orderCreate_lawful f, s.orderCreate_keepsTables f⟩)
  | orderAmend tag body => exact .next (.request fun f => ⟨s.orderAmend_lawful f, s.orderAmend_keepsTables f⟩)
  | orderCancel tag body => exact .next (.request fun f => ⟨s.orderCancel_lawful f, s.orderCancel_keepsTables f⟩)
  | orderGet tag body => exact .next (.request fun f => .of_eq (s.orderGet_state f))
  | orderList tag body => exact .next (.request fun _ => .refl s)
  | orderCollect tag body => exact .next (.request fun f => ⟨s.orderCollect_lawful f, s.orderCollect_keepsTables f⟩)
  | bayClose tag body => exact .next (.request fun f => (s.bayClose_keeps f).orderly)
  | bayReset tag body => exact .next (.request fun f => (s.bayReset_keeps f).orderly)
  | bayMessage tag body => exact .next (.request fun f => (s.bayMessage_keeps f).orderly)
  | armPut tag body => exact .next (.request fun f => ⟨s.armPut_lawful f, s.armPut_keepsTables f⟩)
  | armGet tag body => exact .next (.request fun f => .of_eq (s.armGet_state f))
  | armReturn tag body => exact .next (.request fun f => ⟨s.armReturn_lawful f, s.armReturn_keepsTables f⟩)
  | headerPut tag body => exact .next (.request fun f => ⟨s.headerPut_lawful f, s.headerPut_keepsTables f⟩)
  | headerGet tag body => exact .next (.request fun f => .of_eq (s.headerGet_state f))
  | batchHold tag body => exact .next (.request fun f => (s.batchHold_keeps f).orderly)
  | batchResume tag body => exact .next (.request fun f => (s.batchResume_keeps f).orderly)
  | meterPut tag body => exact .next (.request fun f => ⟨s.meterPut_lawful f, s.meterPut_keepsTables f⟩)
  | meterGet tag body => exact .next (.request fun f => .of_eq (s.meterGet_state f))
  | meterClear tag body => exact .next (.request fun f => (s.meterClear_keeps f).orderly)
  | injectorPut tag body => exact .next (.request fun f => ⟨s.injectorPut_lawful f, s.injectorPut_keepsTables f⟩)
  | injectorGet tag body => exact .next (.request fun f => .of_eq (s.injectorGet_state f))
  | injectorClear tag body => exact .next (.request fun f => ⟨s.injectorClear_lawful f, s.injectorClear_keepsTables f⟩)
  | stockAdd tag body => exact .next (.request fun f => (s.stockAdd_keeps f).orderly)
  | stockSet tag body => exact .next (.request fun f => (s.stockSet_keeps f).orderly)
  | proveStart tag body => exact .next (.request fun f => (s.proveStart_keeps f).orderly)
  | proveResult tag body => exact .next (.request fun f => ⟨s.proveResult_lawful f, s.proveResult_keepsTables f⟩)
  | proveAbort tag body => exact .next (.request fun f => (s.proveAbort_keeps f).orderly)
  | screenPut tag body => exact .next (.request fun f => ⟨s.screenPut_lawful f, s.screenPut_keepsTables f⟩)
  | screenGet tag body => exact .next (.request fun f => .of_eq (s.screenGet_state f))
  | promptMapPut tag body => exact .next (.request fun f => ⟨s.promptMapPut_lawful f, s.promptMapPut_keepsTables f⟩)
  | heartbeat bay => exact .next ((Keeps.refl s).signOfLife bay).orderly
  | bayFrameDiscard bay received => exact .next (.refl s)
  | bayFrameTimeout bay received => exact .next (.refl s)
  | cardEvent bay card => exact .next (((Keeps.refl s).signOfLife bay).presentCard bay card.toNat).orderly
  | digitKey bay digit => exact .next (((Keeps.refl s).keyed bay).digitKey bay digit).orderly
  | enter bay => exact .next (((Keeps.refl s).keyed bay).enterKey bay).orderly
  | cancel bay => exact .next (((Keeps.refl s).keyed bay).cancelKey bay).orderly
  | arm bay =>
    exact .next (((Keeps.refl s).keyed bay).loadingKey bay _ fun u => (Keeps.refl u).modSession bay _).orderly
  | start bay => exact .next (((Keeps.refl s).keyed bay).loadingKey bay _ fun u => (Keeps.refl u).startKey bay).orderly
  | stop bay => exact .next (((Keeps.refl s).keyed bay).loadingKey bay _ fun u => (Keeps.refl u).stopKey bay).orderly
  | resume bay =>
    exact .next (((Keeps.refl s).keyed bay).loadingKey bay _ fun u => (Keeps.refl u).resumeKey bay).orderly
  | finish bay =>
    exact .next (((Keeps.refl s).keyed bay).loadingKey bay _ fun u => (Keeps.refl u).finish bay .driver).orderly
  | sessionTimeout bay =>
    exact .next (.expire (.ite (fun _ => ((Keeps.refl s).refuse bay _).endBeforeLoading bay) fun _ => .refl s))
  | inactivityLimitExpiry bay =>
    exact .next (.expire (.ite (fun _ => (Keeps.refl s).finish bay .timeout) fun _ => .refl s))
  | refusalDisplayExpiry bay => exact .next (.expire ((Keeps.refl s).clearReason bay).orderly)
  | terminalLost bay => exact .next (.expire ((Keeps.refl s).loseTerminal bay).orderly)
  | permissiveInputPresent bay which => exact .next ((Keeps.refl s).modSession bay _).orderly
  | permissiveDebounceEnd bay which => exact .next (.expire ((Keeps.refl s).debounceEnd bay which).orderly)
  | permissiveInputAbsent bay which => exact .next ((Keeps.refl s).permissiveFall bay which).orderly
  | connectedAbsent a => exact .next (.ite (fun _ => ((Keeps.refl s).connect a false).handCause a _) fun _ => .refl s)
  | connectedPresent a => exact .next (.ite (fun _ => .refl s) fun _ => ((Keeps.refl s).connect a true).removeCause _ a)
  | esdInputActive => exact .next (.esdInput s)
  | esdInputInactive => exact .next (.ite (fun _ => (Keeps.refl s).setEsd _ id) fun _ => .refl s)
  | esdDebounceEnd => exact .next (.expire (.ite (fun _ => (Keeps.refl s).esdRelease) fun _ => .refl s))
  | meterAPulse m => exact .next ((Keeps.refl s).pulseA m).orderly
  | meterBPulse m => exact .next ((Keeps.refl s).pulseB m).orderly
  | probeReading m x =>
    exact .next ((Keeps.refl s).modMeter m _ (fun y => y.read_fixedPart x)
      fun h => by rw [(Meter.read_residue x _).1, (Meter.read_residue x _).2]; exact h).orderly
  | blendTimerExpiry a => exact .next (.expire ((Keeps.refl s).modBatch a _ fun b _ => b.blendExpiry_kept).orderly)
  | noFlowTimerExpiry a => exact .next (.expire ((Keeps.refl s).noFlowExpiry a).orderly)
  | rampTimerExpiry a => exact .next (.expire ((Keeps.refl s).rampExpiry a).orderly)
  | settleTimerExpiry a => exact .next (.expire (.ite (fun h => (Keeps.refl s).endBatch a false h) fun _ => .refl s))
  | leakTimerExpiry a => exact .next (.expire (.ite (fun h => (Keeps.refl s).endBatch a true h) fun _ => .refl s))
  | additiveMeterPulse i => exact .next ((Keeps.refl s).modInjector i _).orderly
  | shotWindowExpiry i => exact .next (.expire ((Keeps.refl s).modInjector i _).orderly)
  | shotTailEnd i => exact .next (.expire ((Keeps.refl s).tailEnd i).orderly)
  | panelRefresh b => exact .next (.expire ((Keeps.refl s).modDisplay b _).orderly)
  | overrideExpiry b => exact .next (.expire ((Keeps.refl s).modDisplay b _).orderly)
  | restoredTimeExpiry b => exact .next (.expire ((Keeps.refl s).modDisplay b _).orderly)
  | clockTick => exact .next (.expire (.clockTick s))

/-- Every step keeps the laws: the command at the front of the queue, or the expiry that is due, or a millisecond. -/
theorem step_orderly {s t : State} (h : step s = .next t) : Orderly s t := by
  unfold step at h
  split at h
  · unfold State.idle at h
    split at h
    · exact exec_orderly _ s t h
    · cases h; exact ⟨s.advance_lawful, .same rfl rfl⟩
  · rename_i c rest _
    have taken : Orderly s { s with pending := rest } :=
      ⟨.of (fun _ => rfl) (fun _ => rfl) rfl id rfl fun _ => .inl rfl, .same rfl rfl⟩
    have k := exec_orderly c { s with pending := rest } t h
    exact ⟨taken.toLawful.trans k.toLawful, taken.toKeepsTables.trans k.toKeepsTables⟩

/-- Settles O58: the laws that every step keeps, from `step_orderly`. -/
theorem stepKeepsTablesInOrder : Obligations.StepKeepsTablesInOrder := by
  intro s t h
  have k := step_orderly h
  exact ⟨k.permits, k.orders, k.notes⟩

end Sys2Proof.Machine
end

section
/-! SUPPORT. The requests to the Permit Table (R1 to R9): the checks of PERMIT_PUT, the place of a new record, the pages
of PERMIT_LIST, the two kinds of hold, and the use of a card. -/

namespace Sys2Proof.Machine

/-! ### PERMIT_PUT -/

theorem mapM_coded_eq_some {n : Nat} {l : List Nat} {m : List (Fin n)} :
    l.mapM (coded n) = some m ↔ m.map (·.val) = l := by
  induction l generalizing m with
  | nil =>
    constructor
    · rintro ⟨⟩; rfl
    · intro h; rw [List.map_eq_nil_iff.mp h]; rfl
  | cons k l ih =>
    simp only [List.mapM_cons, bind, Option.bind_eq_some_iff, coded_eq_some, pure, Option.some.injEq, ih]
    constructor
    · rintro ⟨i, rfl, m', rfl, rfl⟩; rfl
    · intro h
      cases m with
      | nil => cases h
      | cons i m => cases h; exact ⟨i, rfl, m, rfl, rfl⟩

/-- Numbers below `n` are codes of `Fin n`, and no others are. -/
theorem exists_map_val_iff {n : Nat} {l : List Nat} : (∃ m : List (Fin n), m.map (·.val) = l) ↔ ∀ k ∈ l, k < n := by
  constructor
  · rintro ⟨m, rfl⟩ k hk
    obtain ⟨i, -, rfl⟩ := List.mem_map.mp hk
    exact i.isLt
  · intro h
    exact ⟨l.pmap (fun k hk => ⟨k, hk⟩) h, by rw [List.map_pmap]; simp⟩

theorem glyphsOf_eq_some {max : Nat} {raw : List Nat} {t : List Glyph} :
    glyphsOf max raw = some t ↔ (1 ≤ raw.length ∧ raw.length ≤ max) ∧ t.map (·.val) = raw := by
  unfold glyphsOf
  split
  · rename_i h; rw [mapM_coded_eq_some]; exact ⟨fun e => ⟨h, e⟩, fun e => e.2⟩
  · rename_i h; exact ⟨nofun, fun e => absurd e.1 h⟩

/-- The record that the fields of a PERMIT_PUT spell, their name and code as glyphs and digits (R2, R3). -/
def PermitFields.record (f : PermitFields) (name : List Glyph) (code : List (Fin 10)) : Permit :=
  { card := f.card, name, code, classes := f.classes, validFrom := f.validFrom, expiry := f.expiry,
    allowance := f.allowance, strikes := 0, persistent := false, dynamic := .none, sessionBay := none }

/-- The checks of R2 and the record they give. -/
theorem PermitFields.checked_eq_some {f : PermitFields} {new : Permit} : f.checked = some new ↔
    ((1 ≤ f.card ∧ f.card ≤ 99999999) ∧ f.validFrom ≤ f.expiry ∧ ∀ a, f.allowance = some a → a ≤ 9999) ∧
    ∃ name code, ((1 ≤ f.name.length ∧ f.name.length ≤ 24) ∧ name.map (·.val) = f.name) ∧
      code.map (·.val) = f.code ∧ new = f.record name code := by
  have ranges : (inRange 1 99999999 f.card && decide (f.validFrom ≤ f.expiry) &&
      f.allowance.all fun a => decide (a ≤ 9999)) = true ↔
      (1 ≤ f.card ∧ f.card ≤ 99999999) ∧ f.validFrom ≤ f.expiry ∧ ∀ a, f.allowance = some a → a ≤ 9999 := by
    cases f.allowance <;> simp [inRange_eq_true, and_assoc]
  unfold PermitFields.checked
  split
  · rename_i hr
    have texts : ∀ name code, glyphsOf 24 f.name = some name ∧ f.code.mapM (coded 10) = some code ↔
        ((1 ≤ f.name.length ∧ f.name.length ≤ 24) ∧ name.map (·.val) = f.name) ∧ code.map (·.val) = f.code :=
      fun name code => by rw [glyphsOf_eq_some, mapM_coded_eq_some]
    split
    · rename_i name code hn hc
      constructor
      · rintro ⟨⟩
        obtain ⟨kn, kc⟩ := (texts name code).mp ⟨hn, hc⟩
        exact ⟨ranges.mp hr, name, code, kn, kc, rfl⟩
      · rintro ⟨-, name', code', kn, kc, rfl⟩
        obtain ⟨hn', hc'⟩ := (texts name' code').mpr ⟨kn, kc⟩
        cases hn.symm.trans hn'; cases hc.symm.trans hc'; rfl
    · rename_i none
      refine ⟨nofun, ?_⟩
      rintro ⟨-, name, code, kn, kc, -⟩
      obtain ⟨hn, hc⟩ := (texts name code).mpr ⟨kn, kc⟩
      exact absurd hc (none name code hn)
  · rename_i hr
    exact ⟨nofun, fun e => absurd (ranges.mpr e.1) hr⟩

theorem PermitFields.checked_isSome (f : PermitFields) : f.checked.isSome = true ↔
    (1 ≤ f.card ∧ f.card ≤ 99999999) ∧ (1 ≤ f.name.length ∧ f.name.length ≤ 24 ∧ ∀ g ∈ f.name, g < 64) ∧
    (∀ d ∈ f.code, d < 10) ∧ f.validFrom ≤ f.expiry ∧ (∀ a, f.allowance = some a → a ≤ 9999) := by
  rw [Option.isSome_iff_exists]
  constructor
  · rintro ⟨new, h⟩
    obtain ⟨⟨card, valid, allowance⟩, name, code, ⟨⟨one, most⟩, hn⟩, hc, -⟩ := PermitFields.checked_eq_some.mp h
    exact ⟨card, ⟨one, most, exists_map_val_iff.mp ⟨name, hn⟩⟩, exists_map_val_iff.mp ⟨code, hc⟩, valid, allowance⟩
  · rintro ⟨card, ⟨one, most, glyphs⟩, digits, valid, allowance⟩
    obtain ⟨name, hn⟩ := exists_map_val_iff.mpr glyphs
    obtain ⟨code, hc⟩ := exists_map_val_iff.mpr digits
    exact ⟨_, PermitFields.checked_eq_some.mpr
      ⟨⟨card, valid, allowance⟩, name, code, ⟨⟨one, most⟩, hn⟩, hc, rfl⟩⟩

/-- The place of a new record: behind the cards not above its own, before the first that is (R1). -/
theorem insertPermit_place (p : Permit) (l : List Permit) : ∃ before after, l = before ++ after ∧
    (∀ q ∈ before, q.card ≤ p.card) ∧ (∀ q ∈ after.head?, p.card < q.card) ∧
    insertPermit p l = before ++ p :: after := by
  induction l with
  | nil => exact ⟨[], [], rfl, by simp, by simp, rfl⟩
  | cons q rest ih =>
    unfold insertPermit
    split
    · rename_i h
      exact ⟨[], q :: rest, rfl, by simp, by simpa using h, rfl⟩
    · rename_i h
      obtain ⟨before, after, rfl, hb, ha, e⟩ := ih
      refine ⟨q :: before, after, rfl, ?_, ha, by rw [e]; rfl⟩
      intro x hx
      rcases List.mem_cons.mp hx with rfl | hx
      · exact Nat.le_of_not_lt h
      · exact hb x hx

/-- Settles O12: the checks, and the table by what it holds of the card (R2, R3). -/
theorem permitPut : Obligations.PermitPut := by
  intro s tag body f hp hr
  have taken : exec (.permitPut tag body) s = .next ((s.permitPut f).send 0x10 tag body) :=
    congrArg _ (State.request_taken hp hr)
  refine ⟨f.checked_isSome, fun h => ?_, fun new h => ⟨?_, fun held => ?_, fun free room => ?_, fun free full => ?_⟩⟩
  · rw [taken, State.permitPut, h]; rfl
  · obtain ⟨-, name, code, ⟨-, hn⟩, hc, rfl⟩ := PermitFields.checked_eq_some.mp h
    exact ⟨rfl, hn, hc, rfl, rfl, rfl, rfl, rfl, rfl, rfl, rfl⟩
  · rw [taken, State.permitPut, h]
    simp only [held, if_true]; rfl
  · obtain ⟨before, after, e, hb, ha, hi⟩ := insertPermit_place new s.permits
    refine ⟨before, after, e, hb, ha, ?_⟩
    rw [taken, State.permitPut, h, ← hi]
    simp only [free, Option.isSome_none, Bool.false_eq_true, if_false, Config.permitCapacity, room, if_true]; rfl
  · rw [taken, State.permitPut, h]
    simp only [free, Option.isSome_none, Bool.false_eq_true, if_false, Config.permitCapacity, Nat.not_lt.mpr full]; rfl

/-! ### PERMIT_LIST -/

/-- In an ascending list more than `k` are held exactly where one lies beyond the last of the first `k` (R6). -/
theorem beyond_take_iff {l : List Nat} (h : l.Pairwise (· < ·)) {k : Nat} (hk : 0 < k) :
    k < l.length ↔ ∃ last ∈ (l.take k).getLast?, ∃ c ∈ l, last < c := by
  have split := h
  rw [← List.take_append_drop k l, List.pairwise_append] at split
  obtain ⟨front, -, across⟩ := split
  constructor
  · intro long
    obtain ⟨last, hl⟩ := Option.isSome_iff_exists.mp (show (l.take k).getLast?.isSome from by
      rw [List.getLast?_isSome, Ne, List.take_eq_nil_iff]
      rintro (rfl | rfl) <;> simp at hk long)
    have hc : l[k] ∈ l.drop k := List.mem_drop_iff_getElem.mpr ⟨0, by omega, by simp⟩
    exact ⟨last, hl, l[k], List.getElem_mem long, across last (List.mem_of_getLast? hl) _ hc⟩
  · rintro ⟨last, hl, c, hc, hlt⟩
    by_contra short
    rw [List.take_of_length_le (Nat.le_of_not_lt short)] at hl
    obtain ⟨init, rfl⟩ := List.getLast?_eq_some_iff.mp hl
    rcases List.mem_append.mp hc with hc | hc
    · exact absurd ((List.pairwise_append.mp h).2.2 c hc last (by simp)) (by omega)
    · simp only [List.mem_singleton] at hc; omega

/-- A member of an ascending list that is not among the first `k` lies beyond `k` others. -/
theorem not_mem_take {l : List Nat} (h : l.Pairwise (· < ·)) {k c : Nat} (hc : c ∈ l) (hn : c ∉ l.take k) :
    (l.take k).length = k ∧ ∀ x ∈ l.take k, x < c := by
  rw [← List.take_append_drop k l, List.pairwise_append] at h
  rw [← List.take_append_drop k l] at hc
  have hd := (List.mem_append.mp hc).resolve_left hn
  have := List.length_pos_of_mem hd
  rw [List.length_drop] at this
  exact ⟨by rw [List.length_take]; omega, fun x hx => h.2.2 x hx c hd⟩

/-- Settles O13: the page is the front of the cards beyond the starting one (R6). -/
theorem permitList : Obligations.PermitList := by
  intro s tag n hp hn
  have taken : exec (.permitList tag (littleEndian 4 n)) s
      = .next ((s.permitList n).send 0x12 tag (littleEndian 4 n)) :=
    congrArg _ (State.request_taken hp (readLong_littleEndian n hn))
  refine ⟨fun h => ?_, fun h => ?_⟩
  · rw [taken, State.permitList, if_neg (by omega)]; rfl
  · obtain ⟨beyond, hb⟩ : ∃ l, l = (s.permits.map (·.card)).filter fun c => decide (n < c) := ⟨_, rfl⟩
    refine ⟨beyond.take 16, decide (16 < beyond.length), ?_, by rw [hb], List.length_take_le _ _, fun q => ?_⟩
    · rw [taken, State.permitList, if_pos h, permitListBody, ← hb]; rfl
    · have ascending : beyond.Pairwise (· < ·) := hb ▸ q.1.sublist List.filter_sublist
      have mem : ∀ c, c ∈ beyond ↔ n < c ∧ ∃ p ∈ s.permits, p.card = c := by
        intro c; simp [hb, and_comm]
      refine ⟨ascending.sublist (List.take_sublist _ _), fun c hc => (mem c).mp (List.mem_of_mem_take hc),
        fun p hm hlt hnot => not_mem_take ascending ((mem _).mpr ⟨hlt, p, hm, rfl⟩) hnot, ?_⟩
      rw [decide_eq_true_iff, beyond_take_iff ascending (by decide)]
      constructor
      · rintro ⟨last, hl, c, hc, hlt⟩
        obtain ⟨-, p, hm, rfl⟩ := (mem c).mp hc
        exact ⟨last, hl, p, hm, hlt⟩
      · rintro ⟨last, hl, p, hm, hlt⟩
        have := (mem last).mp (List.mem_of_mem_take (List.mem_of_getLast? hl))
        exact ⟨last, hl, p.card, (mem _).mpr ⟨by omega, p, hm, rfl⟩, hlt⟩

/-! ### PERMIT_GET, PERMIT_HOLD, PERMIT_RELEASE, PERMIT_RETIRE -/

theorem State.mem_heldOrders (s : State) (i : SlotId) (o : Order) : (i, o) ∈ s.heldOrders ↔ s.orderIn i = some o := by
  simp [State.heldOrders, mem_allSlots]

theorem Order.inUse_iff (o : Order) : o.inUse = true ↔ ∀ part note, o.stage ≠ .noted part note := by
  unfold Order.inUse; split <;> simp_all

/-- A card is in use where an order OPEN or ACTIVE names it (R55). -/
theorem State.cardInUse_iff (s : State) (card : Nat) : s.cardInUse card = true ↔
    ∃ i o, s.orderIn i = some o ∧ o.card = card ∧ ∀ part note, o.stage ≠ .noted part note := by
  simp only [State.cardInUse, List.any_eq_true, Prod.exists, State.mem_heldOrders, Bool.and_eq_true,
    Order.inUse_iff, decide_eq_true_iff]
  exact ⟨fun ⟨i, o, h, u, c⟩ => ⟨i, o, h, c, u⟩, fun ⟨i, o, h, c, u⟩ => ⟨i, o, h, u, c⟩⟩

theorem readHold_bytes {n : Nat} (h : n < 4294967296) (k : Byte) : readHold (littleEndian 4 n ++ [k])
    = [HoldKind.persistent, .dynamic][k.toNat]?.map fun kind => (n, kind) := by
  unfold readHold whole
  simp only [bind, word_littleEndian 4 n [k] h, Option.bind_some, named]
  cases [HoldKind.persistent, .dynamic][k.toNat]? <;> rfl

/-- A request that changes the record of a card, by what the table holds of it. -/
theorem State.permitChange_none {s : State} {n : Nat} (h : s.findPermit n = none) (f : Permit → Permit) :
    s.permitChange n f = .refused s .notFound := by simp [State.permitChange, h]

theorem State.permitChange_some {s : State} {n : Nat} (h : (s.findPermit n).isSome) (f : Permit → Permit) :
    s.permitChange n f = .ok (s.modPermit n f) [] := by
  obtain ⟨p, e⟩ := Option.isSome_iff_exists.mp h
  simp [State.permitChange, e]

/-- A hold or a release whose kind is spelled, taken by the table (R8, R9). -/
theorem exec_hold_taken {s : State} {tag k : Byte} {n : Nat} {kind : HoldKind} (hp : s.port.phase = .hunting)
    (hn : n < 4294967296) (hk : [HoldKind.persistent, .dynamic][k.toNat]? = some kind) :
    exec (.permitHold tag (littleEndian 4 n ++ [k])) s
      = .next ((s.permitChange n fun p => p.hold kind).send 0x13 tag (littleEndian 4 n ++ [k])) ∧
    exec (.permitRelease tag (littleEndian 4 n ++ [k])) s
      = .next ((s.permitChange n fun p => p.release kind).send 0x14 tag (littleEndian 4 n ++ [k])) := by
  have hr : readHold (littleEndian 4 n ++ [k]) = some (n, kind) := by rw [readHold_bytes hn, hk]; rfl
  exact ⟨congrArg _ (State.request_taken hp hr), congrArg _ (State.request_taken hp hr)⟩

theorem exec_hold_malformed {s : State} {tag k : Byte} {n : Nat} (hp : s.port.phase = .hunting)
    (hn : n < 4294967296) (h0 : k ≠ 0) (h1 : k ≠ 1) :
    exec (.permitHold tag (littleEndian 4 n ++ [k])) s
      = .next (s.respond 0x13 tag (littleEndian 4 n ++ [k]) .invalid []) ∧
    exec (.permitRelease tag (littleEndian 4 n ++ [k])) s
      = .next (s.respond 0x14 tag (littleEndian 4 n ++ [k]) .invalid []) := by
  have past : 2 ≤ k.toNat := by
    have h0' : k.toNat ≠ 0 := fun e => h0 (BitVec.eq_of_toNat_eq e)
    have h1' : k.toNat ≠ 1 := fun e => h1 (BitVec.eq_of_toNat_eq e)
    omega
  have hr : readHold (littleEndian 4 n ++ [k]) = none := by
    rw [readHold_bytes hn, List.getElem?_eq_none (by simpa using past)]; rfl
  exact ⟨congrArg _ (State.request_malformed hp hr), congrArg _ (State.request_malformed hp hr)⟩

/-- Settles O14: each request by what the table holds of the card. -/
theorem permitGetHoldReleaseRetire : Obligations.PermitGetHoldReleaseRetire := by
  intro s tag n hp hn
  have read := readLong_littleEndian n hn
  have get : exec (.permitGet tag (littleEndian 4 n)) s
      = .next ((s.permitGet n).send 0x11 tag (littleEndian 4 n)) := congrArg _ (State.request_taken hp read)
  have retire : exec (.permitRetire tag (littleEndian 4 n)) s
      = .next ((s.permitRetire n).send 0x15 tag (littleEndian 4 n)) := congrArg _ (State.request_taken hp read)
  have persistent := exec_hold_taken (tag := tag) (k := 0) hp hn rfl
  have dynamic := exec_hold_taken (tag := tag) (k := 1) hp hn rfl
  refine ⟨fun h => ?_, fun p h => ?_, fun h k hk => ?_, fun k h0 h1 => exec_hold_malformed hp hn h0 h1, fun h => ?_,
    fun h => ?_, fun p h used => ?_, fun p h free unused => ?_⟩
  · rw [get, State.permitGet, h]; rfl
  · rw [get, State.permitGet, h, ← Permit.body_eq]; rfl
  · rcases hk with rfl | rfl
    · rw [persistent.1, persistent.2, State.permitChange_none h, State.permitChange_none h]; exact ⟨rfl, rfl⟩
    · rw [dynamic.1, dynamic.2, State.permitChange_none h, State.permitChange_none h]; exact ⟨rfl, rfl⟩
  · rw [persistent.1, persistent.2, dynamic.1, dynamic.2, State.permitChange_some h, State.permitChange_some h,
      State.permitChange_some h, State.permitChange_some h]
    exact ⟨rfl, rfl, rfl, rfl⟩
  · rw [retire, State.permitRetire, h]; rfl
  · rw [retire, State.permitRetire, h]
    dsimp only
    rw [if_pos (by rwa [State.cardInUse_iff])]; rfl
  · have idle : ¬ (p.sessionBay.isSome = true ∨ s.cardInUse n = true) := by
      rw [State.cardInUse_iff]
      rintro (k | ⟨i, o, ho, hc, hs⟩)
      · simp [free] at k
      · obtain ⟨part, note, e⟩ := unused i o ho hc
        exact hs part note e
    rw [retire, State.permitRetire, h]
    dsimp only
    rw [if_neg idle]; rfl

end Sys2Proof.Machine
end

section
/-! SUPPORT. The bodies that carry whole records, as bytes (Tables 11-4 and 11-6). -/

namespace Sys2Proof.Machine

/-- A text or code whose characters take one byte each. -/
theorem flatMap_byteOf (l : List Nat) : l.flatMap (fun d => [byteOf d]) = l.map byteOf := List.map_eq_flatMap.symm

/-- The widths of a line's fields (R160), said of the field cells alone. -/
theorem cells_widths_iff (cells : List Cell) : (∀ c ∈ cells, match c with
      | .field _ w => 1 ≤ w ∧ w ≤ 16
      | _ => True) ↔ ∀ f w, .field f w ∈ cells → 1 ≤ w ∧ w ≤ 16 := by
  constructor
  · intro h f w hm; exact h _ hm
  · intro h c hm
    cases c with
    | field f w => exact h f w hm
    | character g => trivial
    | attr e => trivial

/-- Settles O5: each reader by what it spells. -/
theorem requestBodiesAsBytes : Obligations.RequestBodiesAsBytes := by
  intro body
  refine ⟨fun f => ?_, readProduct_iff body, readOrder_iff body, readAmend_iff body,
    fun arm assigned => readArmPut_iff body (arm, assigned), readInjectorPut_iff body, fun screen lines => ?_,
    readMapPut_iff body⟩
  · rw [readPermit_iff, flatMap_byteOf]; rfl
  · rw [readScreenPut_iff]
    exact and_congr (and_congr_right fun _ => and_congr_right fun _ => forall₂_congr fun l _ =>
      and_congr_right fun _ => cells_widths_iff l.cells) .rfl

end Sys2Proof.Machine
end

section
/-! SUPPORT. Resets and CLEAR_ALL (R17, R56, R174, R175): what the recovery of orders writes outside the Order Table, and
what a reset and a clearing leave of each table. -/

namespace Sys2Proof.Machine

/-! ### What recoveries leave of permits and flags -/

/-- The release of an order leaves permits and flags, or counts one load and sets ORDER_NOTED (R54, R150). -/
theorem settleOrder_writes (s : State) (i : SlotId) (f : List NoteFlag) :
    ((s.settleOrder i f).permits = s.permits ∧ (s.settleOrder i f).flags = s.flags) ∨
    ∃ card, (s.settleOrder i f).permits = s.permits.map (fun p => if p.card = card then p.countLoad else p) ∧
      (s.settleOrder i f).flags = addTo EventFlag.all .orderNoted s.flags := by
  unfold State.settleOrder
  split
  · exact .inl ⟨rfl, rfl⟩
  · split
    · unfold State.issueNote
      split
      · exact .inl ⟨rfl, rfl⟩
      · split
        · exact .inr ⟨_, rfl, rfl⟩
        · exact .inl ⟨rfl, rfl⟩
    · exact .inl ⟨rfl, rfl⟩

/-- The parts of a permit that no reset and no visit's close writes. -/
def Permit.keptPart (p : Permit) : Permit × Nat := (p.fixedPart, p.strikes)

/-- Recoveries count loads and set ORDER_NOTED, and write nothing else of permits and flags (R56). -/
theorem recoverOrders_writes (l : List SlotId) (s : State) :
    (l.foldl State.recoverOrder s).permits.map Permit.keptPart = s.permits.map Permit.keptPart ∧
    ∀ f ∈ (l.foldl State.recoverOrder s).flags, f ∈ s.flags ∨ f = .orderNoted := by
  induction l generalizing s with
  | nil => exact ⟨rfl, fun f hf => .inl hf⟩
  | cons i l ih =>
    obtain ⟨hp, hf⟩ := ih (s.recoverOrder i)
    rw [List.foldl_cons]
    rcases settleOrder_writes (s.modOrder i fun o => { o with comps := o.comps.map Compartment.recovered }) i
      [.powerInterrupted] with ⟨ep, ef⟩ | ⟨card, ep, ef⟩
    · exact ⟨hp.trans (congrArg _ ep), fun f m => (hf f m).imp_left fun k => ef ▸ k⟩
    · refine ⟨hp.trans ?_, fun f m => ?_⟩
      · rw [State.recoverOrder, ep, List.map_map]
        refine List.map_congr_left fun p _ => ?_
        dsimp only [Function.comp]
        split <;> rfl
      · rcases hf f m with k | k
        · rw [State.recoverOrder, ef, mem_addTo (EventFlag.mem_all f)] at k
          exact k.symm
        · exact .inr k

/-! ### Every ACTIVE order recovered -/

theorem State.recoverOrders_eq (s : State) : s.recoverOrders = s.activeSlots.foldl State.recoverOrder s := by
  unfold State.recoverOrders State.recoverFirst; rw [List.take_length]

/-- What the recovery of every ACTIVE order is (R56). -/
theorem State.recoverOrders_recovered (s : State) : s.OrdersRecovered s.recoverOrders s.clock ∧
    ∀ i o, s.recoverOrders.orderIn i = some o → o.isActive = false := by
  rw [State.recoverOrders_eq]
  obtain ⟨each, others, -, -⟩ := State.recoverOrders_each s.activeSlots s s.nodup_activeSlots _ rfl
  have active : ∀ i o, s.orderIn i = some o → i ∉ s.activeSlots → o.isActive = false := by
    intro i o ho hi
    unfold Order.isActive
    split
    · rename_i part hs; exact absurd ((s.mem_activeSlots i).mpr ⟨o, part, ho, hs⟩) hi
    · rfl
  refine ⟨fun i => ?_, fun i o ho => ?_⟩
  · by_cases hi : i ∈ s.activeSlots
    · obtain ⟨o, part, ho, hs⟩ := (s.mem_activeSlots i).mp hi
      refine ⟨fun o' ho' idle => ?_, fun hn => (by rw [ho] at hn; cases hn), each i hi⟩
      cases ho.symm.trans ho'
      simp [Order.isActive, hs] at idle
    · have same := others i hi
      refine ⟨fun o ho _ => same.trans ho, fun hn => same.trans hn, fun o part ho hs => ?_⟩
      exact absurd ((s.mem_activeSlots i).mpr ⟨o, part, ho, hs⟩) hi
  · by_cases hi : i ∈ s.activeSlots
    · obtain ⟨p, part, hp, hs⟩ := (s.mem_activeSlots i).mp hi
      obtain ⟨o', ho', -, -, opened, noted, -⟩ := each i hi p part hp hs
      cases ho'.symm.trans ho
      rcases Nat.eq_zero_or_pos p.totalGross with hg | hg
      · simp [Order.isActive, opened hg]
      · obtain ⟨note, e, -, -⟩ := noted hg
        simp [Order.isActive, e]
    · exact active i o ((others i hi) ▸ ho) hi

/-! ### What a reset leaves -/

/-- A rack reset, record by record (R174): what the recovery of the orders writes, and the records of `s` reset. -/
theorem State.rackReset_eq (s : State) : s.rackReset = { s with
    orders := s.resetFlow.recoverOrders.orders
    noteCounter := s.resetFlow.recoverOrders.noteCounter
    permits := s.resetFlow.recoverOrders.permits.map Permit.reset
    flags := s.resetFlow.recoverOrders.flags
    mask := []
    arms := vmap (fun r => { r with batch := none }) s.arms
    headers := vmap (fun h => { h with drawing := [] }) s.headers
    meters := vmap Meter.reset s.meters
    injectors := vmap Injector.reset s.injectors
    bays := vmap Session.reset s.bays
    displays := vmap Display.reset s.displays } := by
  obtain ⟨-, -, -, h⟩ := State.recoverOrders_each s.resetFlow.activeSlots s.resetFlow s.resetFlow.nodup_activeSlots _ rfl
  rw [← State.recoverOrders_eq] at h
  unfold State.rackReset State.resetSessions
  rw [h]; rfl

theorem State.rackReset_recovered (s : State) : s.OrdersRecovered s.rackReset s.clock ∧
    ∀ i o, s.rackReset.orderIn i = some o → o.isActive = false := s.resetFlow.recoverOrders_recovered

theorem State.rackReset_writes (s : State) : s.rackReset.permits.map Permit.keptPart = s.permits.map Permit.keptPart ∧
    EventFlag.restart ∈ s.rackReset.flags ∧ ∀ f ∈ s.rackReset.flags, f = .restart ∨ f = .orderNoted := by
  have writes := recoverOrders_writes s.resetFlow.activeSlots s.resetFlow
  obtain ⟨-, -, flags, -⟩ := State.recoverOrders_each s.resetFlow.activeSlots s.resetFlow
    s.resetFlow.nodup_activeSlots _ rfl
  rw [← State.recoverOrders_eq] at writes flags
  refine ⟨?_, flags _ (List.mem_singleton.mpr rfl), fun f m => (writes.2 f m).imp_left List.mem_singleton.mp⟩
  have reset : ∀ l : List Permit, (l.map Permit.reset).map Permit.keptPart = l.map Permit.keptPart := fun l => by
    rw [List.map_map]; rfl
  exact (reset _).trans writes.1

/-- What a rack reset leaves (R17, R81, R106, R122, R142, R149, R166, R172, R174). -/
theorem State.rackReset_resetTo (s : State) : s.ResetTo s.rackReset where
  restart := s.rackReset_writes.2.1
  flags := s.rackReset_writes.2.2
  mask := by rw [State.rackReset_eq]
  arms a := by rw [State.rackReset_eq]; simp [State.arm]
  headers h := by rw [State.rackReset_eq]; simp [State.header]
  meters m := by rw [State.rackReset_eq]; simp [State.meter, Meter.reset]
  injectors i := by rw [State.rackReset_eq]; simp [State.injector, Injector.reset]
  orders := s.rackReset_recovered.2
  permits := s.rackReset_writes.1
  permitsFree p hp := by
    rw [State.rackReset_eq] at hp
    obtain ⟨q, -, rfl⟩ := List.mem_map.mp hp
    exact ⟨rfl, rfl⟩
  sessions b := by rw [State.rackReset_eq]; simp [State.session, Session.reset, Session.toIdle, seconds]
  permissives b := by rw [State.rackReset_eq]; simp [State.session, Session.reset, PermissiveUnit.atReset, seconds]
  displays b := by rw [State.rackReset_eq]; simp [State.display, Display.reset]
  products := by rw [State.rackReset_eq]
  matrix := by rw [State.rackReset_eq]
  screens := by rw [State.rackReset_eq]
  promptMap := by rw [State.rackReset_eq]
  creationCounter := by rw [State.rackReset_eq]
  pending := by rw [State.rackReset_eq]

/-! ### Power-up -/

/-- What cut resets leave retained (R56): orders, permits, note counter, flags and clock apart, the records of `s`, and
of each permit all that no close of a visit writes. -/
theorem State.cutResets_writes (l : List CutReset) (s : State) :
    (l.foldl State.cutReset s).permits.map Permit.keptPart = s.permits.map Permit.keptPart ∧
    ∃ orders permits noteCounter flags clock, l.foldl State.cutReset s
      = { s with orders := orders, permits := permits, noteCounter := noteCounter, flags := flags, clock := clock } := by
  induction l generalizing s with
  | nil => exact ⟨rfl, _, _, _, _, _, rfl⟩
  | cons c l ih =>
    obtain ⟨first, cut⟩ := s.cutReset_cutTo c
    obtain ⟨hp, orders, permits, noteCounter, flags, clock, e⟩ := ih (s.cutReset c)
    have kept : (s.cutReset c).permits.map Permit.keptPart = s.permits.map Permit.keptPart := by
      unfold State.cutReset State.recoverFirst
      refine (recoverOrders_writes _ _).1.trans ?_
      split <;> rfl
    exact ⟨hp.trans kept, orders, permits, noteCounter, flags, clock, by rw [List.foldl_cons, e, cut.rest]⟩

/-- What a reset leaves of a state that differs in nothing that a reset keeps. -/
theorem State.ResetTo.before {s u t : State} (h : u.ResetTo t) (arms : ∀ a, ∃ c, u.arm a = { s.arm a with connected := c })
    (headers : u.headers = s.headers) (meters : u.meters = s.meters) (injectors : u.injectors = s.injectors)
    (permits : u.permits.map Permit.keptPart = s.permits.map Permit.keptPart) (products : u.products = s.products)
    (matrix : u.matrix = s.matrix) (screens : u.screens = s.screens) (promptMap : u.promptMap = s.promptMap)
    (creationCounter : u.creationCounter = s.creationCounter) (pending : u.pending = s.pending) : s.ResetTo t :=
  { h with
    arms := fun a => by obtain ⟨c, e⟩ := arms a; rw [h.arms a, e]
    headers := fun i => by rw [h.headers i, State.header, State.header, headers]
    meters := fun i => by rw [h.meters i, State.meter, State.meter, meters]
    injectors := fun i => by rw [h.injectors i, State.injector, State.injector, injectors]
    permits := h.permits.trans permits
    products := h.products.trans products
    matrix := h.matrix.trans matrix
    screens := h.screens.trans screens
    promptMap := h.promptMap.trans promptMap
    creationCounter := h.creationCounter.trans creationCounter
    pending := h.pending.trans pending }

theorem State.powerUp_resetTo (s : State) (found : Found) :
    s.ResetTo ((found.cuts.foldl State.cutReset s).powerOn found).rackReset := by
  obtain ⟨permits, _, _, _, _, _, e⟩ := State.cutResets_writes found.cuts s
  refine (State.rackReset_resetTo _).before (fun a => ?_) ?_ ?_ ?_ permits ?_ ?_ ?_ ?_ ?_ ?_ <;> rw [e]
  all_goals try rfl
  exact ⟨_, by simp [State.arm, State.powerOn]; rfl⟩

/-- Settles O8: a rack reset, a power-up as the reset of the levels found, and a cut reset as the state it leaves. -/
theorem resetsLeaveTheRackIdleAndRecoverOrders : Obligations.ResetsLeaveTheRackIdleAndRecoverOrders := by
  refine ⟨fun s tag hp => ?_, fun s found => ?_, fun s found c later h => ?_⟩
  · refine ⟨s.rackReset, congrArg _ (State.request_taken (read := noFields) hp rfl), s.rackReset_resetTo,
      s.rackReset_recovered.1, ?_⟩
    rw [State.rackReset_eq]
    exact ⟨rfl, rfl, rfl, rfl, fun a => by simp [State.arm],
      fun b => by simp [State.session, Session.reset, PermissiveUnit.atReset]⟩
  · refine ⟨_, rfl, s.powerUp_resetTo found, fun none => ?_, ?_⟩
    · rw [none]; exact (s.powerOn found).rackReset_recovered.1
    · rw [State.rackReset_eq]
      refine ⟨rfl, rfl, rfl, rfl, ?_, rfl, fun a => by simp [State.arm, State.powerOn],
        fun b => by simp [State.session, State.powerOn, Session.reset, PermissiveUnit.atReset, Session.withInputs]⟩
      rfl
  · obtain ⟨first, cut⟩ := s.cutReset_cutTo c
    refine ⟨s.cutReset c, first, cut, ?_⟩
    show execPowerUp found s = execPowerUp { found with cuts := later } (s.cutReset c)
    unfold execPowerUp
    rw [h]; rfl

/-! ### CLEAR_ALL -/

theorem State.clearable_iff (s : State) : s.clearable = true ↔ (∀ b, (s.session b).state = .idle) ∧
    ∀ i, (s.injector i).state ≠ .proving ∧ (s.injector i).state ≠ .proveWait := by
  simp [State.clearable, mem_allInjectors]

/-- Settles O9: refused with nothing changed, or every table at its default. -/
theorem clearAllReturnsTablesToDefaults : Obligations.ClearAllReturnsTablesToDefaults := by
  intro s tag hp
  have taken : exec (.clearAll tag []) s = .next (s.clearAll.send 0x06 tag []) :=
    congrArg _ (State.request_taken (read := noFields) hp rfl)
  refine ⟨fun h => ?_, fun hb hi => ⟨s.cleared, ?_, ?_⟩⟩
  · have busy : ¬ s.clearable = true := by
      rw [State.clearable_iff]
      rintro ⟨hb, hi⟩
      rcases h with ⟨b, k⟩ | ⟨i, k⟩
      · exact k (hb b)
      · exact k.elim (hi i).1 (hi i).2
    rw [taken, State.clearAll, if_neg busy]; rfl
  · rw [taken, State.clearAll, if_pos (s.clearable_iff.mpr ⟨hb, hi⟩)]; rfl
  · unfold State.cleared
    refine ⟨rfl, ?_, ?_, ?_, rfl, rfl, ?_, ?_, ?_, ?_, ?_, ?_, ?_, rfl, rfl, rfl, rfl, rfl, rfl, rfl, rfl⟩
    · intro p; simp [State.product]
    · intro g h; simp
    · intro i; simp [State.orderIn]
    · intro a; simp [State.arm]
    · intro h; simp [State.header, Header.default]
    · intro m; exact vget_vmap Meter.cleared s.meters m
    · intro i; simp [State.injector]
    · intro n; simp
    · intro i; simp [MapEntry.default]
    · intro b; simp [State.display]

end Sys2Proof.Machine
end

section
/-! SUPPORT. Cards and keys before LOADING (R10 to R14, R58 to R64): the presentation check as the list of Table 1-3, and
what ENTER and CANCEL do by the session's state. -/

namespace Sys2Proof.Machine

section
variable {s u : State} {bay : BayId} (h : Woken s u bay)
include h
theorem Woken.clock : u.clock = s.clock := by rw [h.eq]
theorem Woken.esd : u.esd = s.esd := by rw [h.eq]
theorem Woken.findPermit (card : Nat) : u.findPermit card = s.findPermit card := by
  unfold State.findPermit; rw [h.permits]
theorem Woken.candidates (card : Nat) (b : BayId) : u.candidates card b = s.candidates card b := by
  unfold State.candidates State.heldOrders State.orderIn; rw [h.orders]
end

/-! ### The card -/

theorem firstFailing_cons {α : Type} (b : Bool) (r : α) (l : List (Bool × α)) :
    (((b, r) :: l).find? (·.1)).map (·.2) = if b = true then some r else (l.find? (·.1)).map (·.2) := by
  cases b <;> rfl

/-- The presentation check is the first failing test of Table 1-3 (R11). -/
theorem State.presentation_eq (s : State) (card day : Nat) (p : Option Permit)
    (hp : p = if 1 ≤ card ∧ card ≤ 99999999 then s.findPermit card else none) (hd : day = (s.clock.map (·.day)).getD 0) :
    s.presentation card = ([(s.clock.isNone, Reason.clockUnset), (s.esd.active, .esdActive), (p.isNone, .unknownCard),
      (p.any (·.sessionBay.isSome), .inSessionElsewhere),
      (p.any (fun p => p.persistent || decide (p.dynamic ≠ .none)), .permitHeld),
      (p.any (fun p => decide (day < p.validFrom)), .notYetValid),
      (p.any (fun p => decide (p.expiry < day)), .permitExpired),
      (p.any (fun p => decide (p.allowance = some 0)), .allowanceUsed)].find? (·.1)).map (·.2) := by
  have hp' : (if inRange 1 99999999 card then s.findPermit card else none) = p := by
    rw [hp]; simp only [inRange_eq_true]
  unfold State.presentation
  rw [hp']
  cases hc : s.clock with
  | none => rfl
  | some now =>
    have : day = now.day := by rw [hd, hc]; rfl
    subst this
    cases s.esd.active with
    | true => rfl
    | false =>
      cases p with
      | none => rfl
      | some p =>
        simp only [firstFailing_cons, Option.isNone_some, Option.any_some, Bool.or_eq_true, decide_eq_true_eq,
          Bool.false_eq_true, if_false]
        rfl

/-- Settles O15: the sign of life, and in IDLE the presentation. -/
theorem cardPresentation : Obligations.CardPresentation := by
  rintro s u bay card x p day failed hu rfl hp hd hf
  cases hu
  have w := s.signOfLife_woken bay
  have event : exec (.cardEvent bay card) s = .next ((s.signOfLife bay).presentCard bay card.toNat) := rfl
  have check : (s.signOfLife bay).presentation card.toNat = failed.map (·.2) := by
    rw [hf, State.presentation_eq _ _ day p (by rw [w.findPermit]; exact hp) (by rw [w.clock]; exact hd), w.clock, w.esd]
  rw [event]
  unfold State.presentCard
  rw [check]
  refine ⟨fun h => ?_, fun b r h e => ?_, fun h e => ?_⟩
  · rw [if_neg h]
  · rw [if_pos h, e]; rfl
  · rw [if_pos h, e, ← w.permits, ← w.flags]; rfl

/-! ### ENTER -/

theorem State.enterCode_short {u : State} {bay : BayId} (h : (u.session bay).digits.length < 4) :
    u.enterCode bay = { u with
      bays := vset u.bays bay { u.session bay with
        digits := [], reason := some .codeIncomplete, reasonTimer := some 5000 } } := by
  unfold State.enterCode
  rw [if_pos h]
  exact refuse_set _

/-- Four digits are compared with the code of the session's permit (R61). -/
theorem State.enterCode_full {u : State} {bay : BayId} {card : Nat} {p : Permit}
    (h : 4 ≤ (u.session bay).digits.length) (hc : (u.session bay).card = some card) (hp : u.findPermit card = some p) :
    u.enterCode bay = u.checkCode bay p := by
  unfold State.enterCode State.sessionPermit
  rw [if_neg (by omega), hc, Option.bind_some, hp]

/-- A wrong code with strikes 0 or 1 (R14). -/
theorem State.checkCode_wrong {u : State} {bay : BayId} {p : Permit} (h : (u.session bay).digits ≠ p.code)
    (hs : p.strikes < 2) : u.checkCode bay p = { u with
      permits := u.permits.map (fun q => if q.card = p.card then { q with strikes := q.strikes + 1 } else q)
      bays := vset u.bays bay { u.session bay with
        digits := [], timer := some 30000, reason := some .wrongCode, reasonTimer := some 5000 } } := by
  unfold State.checkCode
  dsimp only
  rw [if_neg h, if_pos hs]
  exact refuse_set _

/-- A wrong code with strikes 2 or 3: the strike-out (R14). -/
theorem State.checkCode_strikeOut {u : State} {bay : BayId} {p : Permit} (h : (u.session bay).digits ≠ p.code)
    (hs : 2 ≤ p.strikes) : u.checkCode bay p = ({ u with
      permits := u.permits.map (fun q => if q.card = p.card then { q with strikes := 3, dynamic := .strike } else q)
      bays := vset u.bays bay { u.session bay with reason := some .struckOut, reasonTimer := some 5000 }
      flags := addTo EventFlag.all .strikeout u.flags } : State).returnToIdle bay := by
  unfold State.checkCode
  dsimp only
  rw [if_neg h, if_neg (by omega)]
  rfl

theorem State.checkCode_right {u : State} {bay : BayId} {p : Permit} (h : (u.session bay).digits = p.code) :
    u.checkCode bay p = ({ u with
      permits := u.permits.map fun q => if q.card = p.card then { q with strikes := 0 } else q } : State).rightCode bay
        p.card := by
  unfold State.checkCode
  dsimp only
  rw [if_pos h]
  rfl

theorem State.rightCode_none {v : State} {bay : BayId} {card : Nat} (h : v.candidates card bay = []) :
    v.rightCode bay card = ({ v with
      bays := vset v.bays bay { v.session bay with
        reason := some .noOrder, reasonTimer := some 5000 } } : State).returnToIdle bay := by
  unfold State.rightCode
  rw [h]
  rfl

theorem State.rightCode_many {v : State} {bay : BayId} {card : Nat} (h : 2 ≤ (v.candidates card bay).length) :
    v.rightCode bay card = { v with
      bays := vset v.bays bay { v.session bay with
        state := .orderSelect, candidates := v.candidates card bay, timer := some 60000 } } := by
  unfold State.rightCode
  split
  · rename_i e; simp [e] at h
  · rename_i e; simp [e] at h
  · rfl

/-- An OPEN order of the card that allows the bay is bindable (R51). -/
theorem State.bindable_of {s : State} {n card : Nat} {bay : BayId} {i : SlotId} {o : Order}
    (ho : s.findOrder n = some (i, o)) (hs : o.stage = .opened) (hc : o.card = card)
    (hb : o.bay = none ∨ o.bay = some bay) : s.bindable n card bay = some i := by
  have open_ : o.isOpen = true := by simp [Order.isOpen, hs]
  have allows : o.allowsBay bay = true := by rcases hb with e | e <;> simp [Order.allowsBay, e]
  unfold State.bindable
  rw [ho]
  simp [open_, hc, allows]

/-- A bind and what follows it: WAIT_BOND, or LOADING at once with both permissives PRESENT (R51, R66). -/
theorem State.bindOrder_eq {s : State} {bay : BayId} {i : SlotId} {o : Order} (n : Nat) (ho : s.orderIn i = some o) :
    s.bindOrder bay i n = { s with
      orders := vset s.orders i (some { o with stage := .active { bay := bay, startTime := s.clock, endTime := none } })
      bays := vset s.bays bay
        (if (s.session bay).bond.present && (s.session bay).overfill.present then
          { s.session bay with state := .loading, bound := some n, focus := 0, armPending := false, selected := none,
                               timer := if s.allIdle bay then some 600000 else none }
        else { s.session bay with state := .waitBond, bound := some n, timer := some 300000 }) } := by
  unfold State.bindOrder
  rw [passToLoading_eq]
  simp only [State.session_modSession_same, true_and, ← Bool.and_eq_true]
  unfold State.modOrder
  rw [ho]
  show ({ s with orders := _, bays := vset (vset _ _ _) _ _ } : State) = _
  rw [vset_vset]
  rfl

theorem State.rightCode_one {v : State} {bay : BayId} {card n : Nat} {i : SlotId} {o : Order}
    (h : v.candidates card bay = [n]) (ho : v.findOrder n = some (i, o)) (hs : o.stage = .opened) (hc : o.card = card)
    (hb : o.bay = none ∨ o.bay = some bay) : v.rightCode bay card = { v with
      orders := vset v.orders i (some { o with stage := .active { bay := bay, startTime := v.clock, endTime := none } })
      bays := vset v.bays bay
        (if (v.session bay).bond.present && (v.session bay).overfill.present then
          { v.session bay with state := .loading, candidates := [n], bound := some n, focus := 0, armPending := false,
                               selected := none, timer := if v.allIdle bay then some 600000 else none }
        else { v.session bay with state := .waitBond, candidates := [n], bound := some n, timer := some 300000 }) } := by
  unfold State.rightCode
  rw [h]
  dsimp only
  have bindable : (v.modSession bay fun x => { x with candidates := [n] }).bindable n card bay = some i :=
    State.bindable_of (s := v) ho hs hc hb
  rw [bindable]
  dsimp only
  rw [State.bindOrder_eq (s := v.modSession bay fun x => { x with candidates := [n] }) n (findOrder_in ho).1]
  simp only [State.session_modSession_same, State.modSession_bays, vset_vset]
  rfl

/-- Settles O24: ENTER by the session's state, the code and the candidates. -/
theorem enterKey : Obligations.EnterKey := by
  rintro s u bay x hu rfl
  have w : Woken s u bay := hu ▸ s.keyed_woken bay
  have key : exec (.enter bay) s = .next (u.enterKey bay) := by rw [hu]; rfl
  have code : (u.session bay).state = .codeEntry → u.enterKey bay = u.enterCode bay := fun h => if_pos h
  rw [key]
  refine ⟨fun h hd => ?_, fun h => ?_, fun card p h hd hc hp => ⟨fun wrong => ⟨fun hs => ?_, fun hs => ?_⟩,
    fun right v hv => ⟨fun none => ?_, fun n i o one ho hs hcard hb => ?_, fun many => ?_⟩⟩⟩
  · rw [code h, State.enterCode_short hd]
  · unfold State.enterKey
    rw [if_neg (by rw [h]; decide), State.loadingKey_eq rfl h]; rfl
  all_goals
    obtain rfl := State.findPermit_card hp
    rw [← w.findPermit] at hp
    rw [code h, State.enterCode_full hd hc hp]
  · rw [State.checkCode_wrong wrong hs, w.permits]
  · rw [State.checkCode_strikeOut wrong hs, w.permits, w.flags]
  all_goals
    rw [← w.permits] at hv
    rw [State.checkCode_right right, ← hv]
    have candidates : v.candidates p.card bay = s.candidates p.card bay := by
      rw [← w.candidates, hv]; rfl
    have session : v.session bay = u.session bay := by rw [hv]; rfl
    have bays : v.bays = u.bays := by rw [hv]
  · rw [State.rightCode_none (candidates.trans none), session, bays]
  · have ho' : v.findOrder n = some (i, o) := by rw [← ho, ← w.findOrder, hv]; rfl
    have idle : v.allIdle bay = s.allIdle bay := by rw [← w.allIdle, hv]; rfl
    have clock : v.clock = s.clock := by rw [← w.clock, hv]
    have orders : v.orders = s.orders := by rw [← w.orders, hv]
    rw [State.rightCode_one (candidates.trans one) ho' hs hcard hb, session, bays, idle, clock, orders]
  · rw [State.rightCode_many (candidates ▸ many), session, bays, candidates]

/-! ### CANCEL and ARM -/

/-- Settles O25: the return to IDLE as one equation, and the two keys by the session's state. -/
theorem cancelAndArmKeysAndReturnToIdle : Obligations.CancelAndArmKeysAndReturnToIdle := by
  refine ⟨fun s bay => returnToIdle_eq s bay, ?_⟩
  rintro s u bay x hu rfl
  have w : Woken s u bay := hu ▸ s.keyed_woken bay
  have cancel : exec (.cancel bay) s = .next (u.cancelKey bay) := by rw [hu]; rfl
  have arm : exec (.arm bay) s
      = .next (u.loadingKey bay fun s => s.modSession bay fun x => { x with armPending := true }) := by rw [hu]; rfl
  have before : ((u.session bay).state = .codeEntry ∨ (u.session bay).state = .orderSelect ∨
      (u.session bay).state = .waitBond) → u.cancelKey bay = u.endBeforeLoading bay := by
    rintro (h | h | h) <;> simp [State.cancelKey, h]
  rw [cancel, arm]
  refine ⟨fun h => ?_, fun h => ⟨fun none => ?_, fun n i o hb ho => ?_⟩, fun h => ⟨?_, ?_⟩⟩
  · have clear : u.cancelKey bay = u.clearReason bay := by simp [State.cancelKey, h]
    rw [clear]; rfl
  · rw [before h, endBeforeLoading_none none]
  · rw [before h, endBeforeLoading_some hb ((w.findOrder n).trans ho), w.orders]
  · have stop : u.cancelKey bay =
        u.modSession bay fun x => { x with armPending := false, selected := none } := by simp [State.cancelKey, h]
    rw [stop]; rfl
  · rw [State.loadingKey_eq rfl h, modSession_eq, session_set, vset_vset]

end Sys2Proof.Machine
end

section
/-! SUPPORT. The end of a visit (R64, R75 to R78): the next note number, and a bay's session closed with every arm
IDLE, with HELD batches and with flowing ones. -/

namespace Sys2Proof.Machine

/-! ### The next note number -/

/-- The skipping stops at the first number not held, or at the end of its fuel (R151). -/
theorem skipHeld_first (held : List Nat) (fuel n : Nat) : ∃ k, skipHeld held fuel n = nextNumber^[k] n ∧ k ≤ fuel ∧
    (∀ j < k, nextNumber^[j] n ∈ held) ∧ (k < fuel → nextNumber^[k] n ∉ held) := by
  induction fuel generalizing n with
  | zero => exact ⟨0, rfl, le_rfl, fun j h => absurd h (Nat.not_lt_zero j), fun h => absurd h (lt_irrefl 0)⟩
  | succ fuel ih =>
    unfold skipHeld
    by_cases hn : n ∈ held
    · obtain ⟨k, e, le, before, stop⟩ := ih (nextNumber n)
      rw [if_pos hn]
      refine ⟨k + 1, e, Nat.succ_le_succ le, fun j hj => ?_, fun h => stop (Nat.lt_of_succ_lt_succ h)⟩
      cases j with
      | zero => exact hn
      | succ j => exact before j (Nat.lt_of_succ_lt_succ hj)
    · rw [if_neg hn]
      exact ⟨0, rfl, Nat.zero_le _, fun j h => absurd h (Nat.not_lt_zero j), fun _ => hn⟩

/-- 64 slots cannot hold 65 numbers in a row. -/
theorem State.not_all_held (s : State) (range : 1 ≤ s.noteCounter ∧ s.noteCounter ≤ 999999) :
    ¬ ∀ j < 65, nextNumber^[j] s.noteCounter ∈ s.heldNotes := by
  intro all
  choose slot at_slot using fun j : Fin 65 => (s.mem_heldNotes _).mp (all j.val j.isLt)
  obtain ⟨i, j, ne, same⟩ := Fintype.exists_ne_map_eq_of_card_lt slot (by simp)
  have equal := (at_slot i).symm.trans (same ▸ at_slot j)
  simp only [Option.some.injEq, nextNumber_iterate range] at equal
  apply ne
  apply Fin.ext
  omega

/-- The next note number is the first number from the counter that no order holds (R151). -/
theorem State.nextNote_first (s : State) (range : 1 ≤ s.noteCounter ∧ s.noteCounter ≤ 999999) : ∃ k,
    s.nextNote = (s.noteCounter - 1 + k) % 999999 + 1 ∧ k ≤ 64 ∧ (∀ i, s.noteAt i ≠ some s.nextNote) ∧
    ∀ j, j < k → ∃ i, s.noteAt i = some ((s.noteCounter - 1 + j) % 999999 + 1) := by
  obtain ⟨k, next, le, before, stop⟩ := skipHeld_first s.heldNotes 64 s.noteCounter
  have free : nextNumber^[k] s.noteCounter ∉ s.heldNotes := by
    intro held
    rcases Nat.lt_or_ge k 64 with h | h
    · exact stop h held
    · obtain rfl : k = 64 := le_antisymm le h
      refine s.not_all_held range fun j hj => ?_
      rcases Nat.lt_or_ge j 64 with h' | h'
      · exact before j h'
      · obtain rfl : j = 64 := by omega
        exact held
  refine ⟨k, next.trans (nextNumber_iterate range k), le, fun i hi => free ?_, fun j hj => ?_⟩
  · exact (s.mem_heldNotes _).mpr ⟨i, hi.trans (congrArg some next)⟩
  · rw [← nextNumber_iterate range]
    exact (s.mem_heldNotes _).mp (before j hj)

/-! ### The dose check and the permits, as the obligations spell them -/

theorem lt_distance_iff {t a b : Nat} : t < distance a b * 100 ↔ t < (a - b) * 100 ∨ t < (b - a) * 100 := by
  unfold distance; omega

theorem AdditiveResult.doseChecked_spelled (gross : Nat) (r : AdditiveResult) : r.doseChecked gross = { r with
    expected := (2 * (gross * r.rate) + 10000) / 20000
    flags :=
      if r.tolerance * ((2 * (gross * r.rate) + 10000) / 20000)
          < (r.delivered - (2 * (gross * r.rate) + 10000) / 20000) * 100 ∨
        r.tolerance * ((2 * (gross * r.rate) + 10000) / 20000)
          < ((2 * (gross * r.rate) + 10000) / 20000 - r.delivered) * 100
      then addTo ResultFlag.all .outOfTolerance r.flags else r.flags } := by
  rw [← if_congr lt_distance_iff rfl rfl]
  have expected : expectedDose gross r.rate = (2 * (gross * r.rate) + 10000) / 20000 := rfl
  unfold AdditiveResult.doseChecked
  dsimp only
  rw [expected]
  split <;> rfl

theorem Order.noted_spelled (o : Order) (part : SessionPart) (now : Option Time) (note : NotePart) :
    o.noted part now note = { o with
    stage := .noted { part with endTime := now } note
    comps := o.comps.map fun c => { c with results := c.results.map fun r => { r with
      expected := (2 * (c.gross * r.rate) + 10000) / 20000
      flags :=
        if r.tolerance * ((2 * (c.gross * r.rate) + 10000) / 20000)
            < (r.delivered - (2 * (c.gross * r.rate) + 10000) / 20000) * 100 ∨
          r.tolerance * ((2 * (c.gross * r.rate) + 10000) / 20000)
            < ((2 * (c.gross * r.rate) + 10000) / 20000 - r.delivered) * 100
        then addTo ResultFlag.all .outOfTolerance r.flags else r.flags } } } := by
  unfold Order.noted Compartment.doseChecked
  rw [funext fun g => funext (AdditiveResult.doseChecked_spelled g)]

theorem State.holderOf_spelled (s : State) (card : Nat) :
    s.holderOf card = ((s.findPermit card).map (·.name)).getD [] := by
  unfold State.holderOf; cases s.findPermit card <;> rfl

theorem freed_permits (card : Option Nat) (l : List Permit) :
    (l.map fun p => if card = some p.card then { p with sessionBay := none } else p)
      = l.map fun p => { p with sessionBay := if card = some p.card then none else p.sessionBay } := by
  refine List.map_congr_left fun p _ => ?_
  split <;> rfl

theorem counted_freed_permits (card : Option Nat) (n : Nat) (l : List Permit) :
    ((l.map fun p => if p.card = n then p.countLoad else p).map fun p =>
        if card = some p.card then { p with sessionBay := none } else p)
      = l.map fun p => { p with sessionBay := if card = some p.card then none else p.sessionBay
                                allowance := if p.card = n then p.allowance.map (· - 1) else p.allowance } := by
  rw [freed_permits, List.map_map]
  refine List.map_congr_left fun p _ => ?_
  dsimp only [Function.comp]
  split <;> rfl

/-! ### A visit closed with every arm IDLE -/

/-- A session that closes, with the cause of its close. -/
def Session.closingFor (x : Session) (cause : CloseCause) : Session :=
  { x with state := .closing, closeCause := some cause, timer := none }

/-- A state with the session of one bay replaced. -/
def State.setSession (s : State) (bay : BayId) (x : Session) : State := { s with bays := vset s.bays bay x }

theorem State.session_setSession (s : State) (bay : BayId) (x : Session) : (s.setSession bay x).session bay = x := session_set

theorem State.session_setSession_other (s : State) {bay c : BayId} (x : Session) (h : c ≠ bay) :
    (s.setSession bay x).session c = s.session c := vget_vset_ne _ _ h

theorem State.setSession_setSession (s : State) (bay : BayId) (x y : Session) :
    (s.setSession bay x).setSession bay y = s.setSession bay y := by
  unfold State.setSession; rw [vset_vset]

/-- What the close of a session leaves with every arm of its bay IDLE (R76, R77), as FINISH and the inactivity limit
spell it: `s` is the state before the event, `u` the state that its key or its timer found, `x` its session. -/
def State.VisitClosed (s u t : State) (bay : BayId) (x : Session) : Prop :=
  (t.session bay).state = .idle ∧ (t.session bay).card = none ∧ (t.session bay).bound = none ∧
  sessionFlag bay ∈ t.flags ∧ (∀ p ∈ t.permits, x.card = some p.card → p.sessionBay = none) ∧
  (∀ n i o, x.bound = some n → s.findOrder n = some (i, o) →
    ((o.comps.map (·.gross)).sum = 0 → t.orderIn i = some { o with stage := .opened } ∧
      t.permits = s.permits.map fun p =>
        { p with sessionBay := if x.card = some p.card then none else p.sessionBay }) ∧
    (∀ part, o.stage = .active part → 0 < (o.comps.map (·.gross)).sum →
      t.orderIn i = some { o with
        stage := .noted { part with endTime := s.clock }
          { number := s.nextNote, holder := ((s.findPermit o.card).map (·.name)).getD [], flags := [] }
        comps := o.comps.map fun c => { c with results := c.results.map fun r => { r with
          expected := (2 * (c.gross * r.rate) + 10000) / 20000
          flags :=
            if r.tolerance * ((2 * (c.gross * r.rate) + 10000) / 20000)
                < (r.delivered - (2 * (c.gross * r.rate) + 10000) / 20000) * 100 ∨
              r.tolerance * ((2 * (c.gross * r.rate) + 10000) / 20000)
                < ((2 * (c.gross * r.rate) + 10000) / 20000 - r.delivered) * 100
            then addTo ResultFlag.all .outOfTolerance r.flags else r.flags } } } ∧
      t.noteCounter = (if s.nextNote = 999999 then 1 else s.nextNote + 1) ∧
      (t.display bay).lastNote = some s.nextNote ∧ EventFlag.orderNoted ∈ t.flags ∧
      t.permits = s.permits.map fun p =>
        { p with sessionBay := if x.card = some p.card then none else p.sessionBay
                 allowance := if p.card = o.card then p.allowance.map (· - 1) else p.allowance }) ∧
    (∀ j, j ≠ i → t.orderIn j = s.orderIn j)) ∧
  (∀ c, c ≠ bay → t.session c = s.session c) ∧ t.arms = u.arms ∧ t.headers = s.headers ∧ t.meters = s.meters ∧
  t.injectors = u.injectors ∧ u.SameHostRecords t

theorem closeSession_visitClosed {s u : State} {bay : BayId} {cause : CloseCause} (x : Session)
    (hu : u = { s with arms := u.arms, bays := u.bays, displays := u.displays })
    (others : ∀ c, c ≠ bay → u.session c = s.session c) (unflagged : noteFlagsOf (some cause) = []) :
    s.VisitClosed u ((u.setSession bay (x.closingFor cause)).closeSession bay) bay x := by
  have same : u.SameHostRecords ((u.setSession bay (x.closingFor cause)).closeSession bay) :=
    (((Keeps.refl u).modSession bay fun _ => x.closingFor cause).closeSession bay).same
  have k := closeSession_spec (u.setSession bay (x.closingFor cause)) bay
  have session := u.session_setSession bay (x.closingFor cause)
  have orders : (u.setSession bay (x.closingFor cause)).orders = s.orders := by rw [hu]; rfl
  have found := findOrder_orders orders
  have next := nextNote_orders orders (by rw [hu]; rfl)
  have at_slot : ∀ j, (u.setSession bay (x.closingFor cause)).orderIn j = s.orderIn j := fun j => by
    unfold State.orderIn; rw [orders]
  have holder : ∀ card, (u.setSession bay (x.closingFor cause)).holderOf card = s.holderOf card := fun card => by
    rw [hu]; rfl
  have clock : u.clock = s.clock := by rw [hu]
  have permits : u.permits = s.permits := by rw [hu]
  have headers : u.headers = s.headers := by rw [hu]
  have meters : u.meters = s.meters := by rw [hu]
  generalize State.closeSession _ bay = t at k same
  refine ⟨by rw [k.session]; rfl, by rw [k.session]; rfl, by rw [k.session]; rfl, k.flag, fun p hp hc => ?_,
    fun n i o hb ho => ?_, fun c hc => ?_, by rw [k.eq]; rfl, by rw [k.eq]; exact headers, by rw [k.eq]; exact meters,
    by rw [k.eq]; rfl, same⟩
  · exact k.permit p hp (by rw [session]; exact hc)
  · rw [← found] at ho
    have bound : ((u.setSession bay (x.closingFor cause)).session bay).bound = some n := by rw [session]; exact hb
    refine ⟨fun hg => ⟨k.opened n i o bound ho hg, ?_⟩, fun part hs hg => ?_, fun j hj => ?_⟩
    · rw [k.permitsOpened n i o bound ho hg, session, ← freed_permits, ← permits]; rfl
    · obtain ⟨order, counter, last, flag⟩ := k.noted n i o part bound ho hs hg
      rw [session] at order
      refine ⟨?_, ?_, ?_, flag, ?_⟩
      · rw [order, Order.noted_spelled, next, holder, State.holderOf_spelled, ← clock]
        rw [show (x.closingFor cause).closeCause = some cause from rfl, unflagged]; rfl
      · rw [counter, next]; rfl
      · rw [last, next]
      · rw [k.permitsNoted n i o part bound ho hs hg, session, ← counted_freed_permits, ← permits]; rfl
    · rw [k.others n i o j bound ho hj, at_slot]
  · rw [k.sessions c hc, ← others c hc, u.session_setSession_other _ hc]

/-! ### FINISH by the batches of the bay -/

theorem closeIfDone_idle {s : State} {bay : BayId} (h : (s.session bay).state = .closing)
    (idle : ∀ a, (s.arm a).bay = some bay → s.batch a = none) : s.closeIfDone bay = s.closeSession bay :=
  if_pos ⟨h, (allIdle_iff s bay).mpr idle⟩

theorem closeIfDone_busy {s : State} {bay : BayId} (busy : ∃ a, (s.arm a).bay = some bay ∧ (s.batch a).isSome) :
    s.closeIfDone bay = s := by
  obtain ⟨a, ha, hs⟩ := busy
  refine if_neg fun ⟨_, idle⟩ => ?_
  rw [(allIdle_iff s bay).mp idle a ha] at hs
  cases hs

theorem State.filter_bayArms_idle {s : State} {bay : BayId} {p : ArmId → Bool}
    (h : ∀ a, (s.arm a).bay = some bay → p a = false) : (s.bayArms bay).filter p = [] :=
  List.filter_eq_nil_iff.mpr fun a ha => by rw [h a ((s.mem_bayArms bay a).mp ha)]; decide

theorem State.batchIs_of_none {s : State} {a : ArmId} (h : s.batch a = none) (st : BatchState) :
    s.batchIs a st = false := by
  unfold State.batchIs; rw [h]; rfl

theorem State.flowing_of_none {s : State} {a : ArmId} (h : s.batch a = none) : s.flowing a = false := by
  unfold State.flowing; rw [h]; rfl

/-- A batch is HELD, or it is among those that FINISH refuses for. -/
theorem State.refusesFinish_iff {s : State} {a : ArmId} : (s.flowing a || s.batchIs a .closing) = true ↔
    ∃ b, s.batch a = some b ∧ b.state ≠ .held := by
  unfold State.flowing State.batchIs
  cases s.batch a with
  | none => simp
  | some b => cases hs : b.state <;> simp [hs, BatchState.flowing]

theorem State.finish_refused {s : State} {bay : BayId} (cause : CloseCause)
    (h : ∃ a b, (s.arm a).bay = some bay ∧ s.batch a = some b ∧ b.state ≠ .held) :
    s.finish bay cause = s.refuse bay .armsFlowing := by
  obtain ⟨a, b, ha, hb, hs⟩ := h
  refine if_pos (List.any_eq_true.mpr ⟨a, (s.mem_bayArms bay a).mpr ha, State.refusesFinish_iff.mpr ⟨b, hb, hs⟩⟩)

/-- FINISH with every batch of the bay HELD: the batches enter CLOSING, and so does the session (R76). -/
theorem State.finish_taken {s : State} {bay : BayId} (cause : CloseCause)
    (h : ∀ a b, (s.arm a).bay = some bay → s.batch a = some b → b.state = .held) :
    s.finish bay cause = ((s.enterClosings ((s.bayArms bay).filter fun a => s.batchIs a .held) .stopped).modSession bay
      (·.closingFor cause)).closeIfDone bay := by
  refine if_neg fun any => ?_
  obtain ⟨a, ha, refuses⟩ := List.any_eq_true.mp any
  obtain ⟨b, hb, hs⟩ := State.refusesFinish_iff.mp refuses
  exact hs (h a b ((s.mem_bayArms bay a).mp ha) hb)

theorem State.finish_idle {s : State} {bay : BayId} (cause : CloseCause)
    (idle : ∀ a, (s.arm a).bay = some bay → s.batch a = none) : s.finish bay cause
      = (s.setSession bay ((s.session bay).closingFor cause)).closeSession bay := by
  rw [State.finish_taken cause fun a b ha hb => (by rw [idle a ha] at hb; cases hb),
    State.filter_bayArms_idle fun a ha => State.batchIs_of_none (idle a ha) _, enterClosings_nil]
  exact closeIfDone_idle (by rw [State.session_modSession_same]; rfl) idle

theorem Woken.batch_state {s u : State} {bay : BayId} (h : Woken s u bay) (a : ArmId) :
    (u.batch a).map (·.state) = (s.batch a).map (·.state) := by
  rw [h.batch a, Option.map_map]
  refine Option.map_congr fun b _ => ?_
  dsimp only [Function.comp]
  split <;> rfl

/-! ### Several batches in CLOSING, and the session with them -/

section
variable (s : State) (bay : BayId) (l : List ArmId) (f : Session → Session)

/-- A session does not close while a batch of its bay is in CLOSING (R77). -/
theorem closings_busy (nd : l.Nodup) (busy : ∃ a, (s.arm a).bay = some bay ∧ (s.batch a).isSome) :
    ((s.enterClosings l .stopped).modSession bay f).closeIfDone bay = (s.enterClosings l .stopped).modSession bay f := by
  obtain ⟨a, ha, hs⟩ := busy
  refine closeIfDone_busy ⟨a, ?_, ?_⟩
  · exact (congrArg Arm.bay (enterClosings_arm l s .stopped a)).trans ha
  · exact (enterClosings_isSome l s .stopped nd a).trans hs

theorem closings_eq : (s.enterClosings l .stopped).modSession bay f = { s with
    arms := (s.enterClosings l .stopped).arms, headers := (s.enterClosings l .stopped).headers
    injectors := (s.enterClosings l .stopped).injectors, bays := vset s.bays bay (f (s.session bay)) } := by
  have h := enterClosings_eq l s .stopped
  generalize s.enterClosings l .stopped = t at h ⊢
  rw [h]; rfl

end

theorem Woken.refuses {s u : State} {bay : BayId} (h : Woken s u bay) {a : ArmId} {b : Batch} (hb : s.batch a = some b) :
    ∃ b', u.batch a = some b' ∧ b'.state = b.state := by
  have state := h.batch_state a
  rw [hb] at state
  exact Option.map_eq_some_iff.mp state

theorem Woken.comes {s u : State} {bay : BayId} (h : Woken s u bay) {a : ArmId} {b : Batch} (hb : u.batch a = some b) :
    ∃ b', s.batch a = some b' ∧ b'.state = b.state := by
  have state := h.batch_state a
  rw [hb] at state
  exact Option.map_eq_some_iff.mp state.symm

/-- Settles O30: the next note number, and FINISH by the batches of the bay. -/
theorem finishKey : Obligations.FinishKey := by
  refine ⟨fun s lo hi => s.nextNote_first ⟨lo, hi⟩, ?_⟩
  rintro s u bay x hu hx loading
  have w : Woken s u bay := hu ▸ s.keyed_woken bay
  have key : exec (.finish bay) s = .next (u.loadingKey bay fun s => s.finish bay .driver) := by rw [hu]; rfl
  rw [key, State.loadingKey_eq hx loading]
  have armBay : ∀ a, (s.arm a).bay = some bay ↔ (u.arm a).bay = some bay := fun a => by rw [w.armBay]
  generalize hv : ({ u with bays := vset u.bays bay x } : State) = v
  have changed : v = u.setSession bay x := hv.symm
  have session : v.session bay = x := by rw [changed, u.session_setSession]
  have arm : ∀ a, v.arm a = u.arm a := fun a => by rw [← hv]; rfl
  have batch : ∀ a, v.batch a = u.batch a := fun a => by rw [← hv]; rfl
  have keeps : Keeps u v := hv ▸ (Keeps.refl u).modSession bay fun _ => x
  refine ⟨fun ⟨a, b, ha, hb, hs⟩ => ?_, fun idle => ⟨_, rfl, ?_⟩, fun held ⟨a, ha, out⟩ => ⟨_, rfl, ?_⟩⟩
  · obtain ⟨b', hb', same⟩ := w.refuses hb
    have onBay : (v.arm a).bay = some bay := by rw [arm, w.armBay]; exact ha
    rw [State.finish_refused _ ⟨a, b', onBay, (batch a).trans hb', same ▸ hs⟩, ← hv, refuse_set]
  · rw [State.finish_idle _ fun a ha => by
      rw [batch, w.batch_isNone]; exact idle a (by rw [← w.armBay, ← arm]; exact ha), session, changed,
      u.setSession_setSession]
    exact closeSession_visitClosed x w.eq (fun c hc => w.session_other hc) rfl
  · have same : u.SameHostRecords (v.finish bay .driver) := (keeps.finish bay .driver).same
    have all : ∀ a b, (v.arm a).bay = some bay → v.batch a = some b → b.state = .held := fun a b ha hb => by
      obtain ⟨b', hb', e⟩ := w.comes ((batch a).symm.trans hb)
      exact e ▸ held a b' (by rw [← w.armBay, ← arm]; exact ha) hb'
    have isSome : ∀ a, (v.batch a).isSome = (s.batch a).isSome := fun a => by rw [batch, w.batch a, Option.isSome_map]
    have nodup := (v.bayArms_nodup bay).filter fun a => v.batchIs a .held
    have onBay : (v.arm a).bay = some bay := by rw [arm, w.armBay]; exact ha
    rw [State.finish_taken _ all, closings_busy v bay _ _ nodup ⟨a, onBay, isSome a ▸ out⟩] at same ⊢
    have parts := closings_eq v bay ((v.bayArms bay).filter fun a => v.batchIs a .held) (·.closingFor .driver)
    refine ⟨?_, fun a b ha hb => ?_, fun a => ?_, ?_, ?_, ?_, same⟩
    · rw [parts, session, ← hv, vset_vset]; rfl
    · have some_before : (v.batch a).isSome := by
        rw [← enterClosings_isSome _ v .stopped nodup a]; exact Option.isSome_of_mem hb
      obtain ⟨b₀, hb₀⟩ := Option.isSome_iff_exists.mp some_before
      have ha' : (v.arm a).bay = some bay := by rw [arm, w.armBay]; exact ha
      have listed : a ∈ (v.bayArms bay).filter fun a => v.batchIs a .held :=
        List.mem_filter.mpr ⟨(v.mem_bayArms bay a).mpr ha', by simp [State.batchIs, hb₀, all a b₀ ha' hb₀]⟩
      obtain ⟨d, closed⟩ := enterClosings_in _ v .stopped nodup listed hb₀
      obtain rfl := Option.some.inj (closed.symm.trans hb)
      exact ⟨rfl, rfl, rfl, rfl⟩
    · exact (enterClosings_isSome _ v .stopped nodup a).trans (isSome a)
    · rw [parts, ← w.orders, ← hv]
    · rw [parts, ← w.permits, ← hv]
    · rw [parts, ← w.meters, ← hv]

/-! ### The time limits -/

theorem State.expire_of_due (s : State) {t : Timer} (h : t = some 0) (act : State → State) :
    s.expire t act = act s := by
  rw [h, State.expire_due]

/-- Settles O31: each limit by whether it is due and still applies. -/
theorem sessionTimers : Obligations.SessionTimers := by
  rintro s bay x rfl
  have timeout : exec (.sessionTimeout bay) s = .next (s.expire (s.session bay).timer fun s =>
      if (s.session bay).state.preLoading then (s.refuse bay .sessionTimeout).endBeforeLoading bay else s) := rfl
  have limit : exec (.inactivityLimitExpiry bay) s = .next (s.expire (s.session bay).timer fun s =>
      if (s.session bay).state = .loading then s.finish bay .timeout else s) := rfl
  have display : exec (.refusalDisplayExpiry bay) s = .next (s.expire (s.session bay).reasonTimer fun s =>
      s.clearReason bay) := rfl
  rw [timeout, limit, display]
  refine ⟨fun before due => ?_, fun other => ?_, fun loading due idle => ⟨_, rfl, ?_⟩, fun other => ?_, fun due => ?_,
    fun other => ?_⟩
  · have pre : (s.session bay).state.preLoading = true := by rcases before with e | e | e <;> rw [e] <;> rfl
    have shown : s.refuse bay .sessionTimeout = { s with
        bays := vset s.bays bay { s.session bay with reason := some .sessionTimeout, reasonTimer := some 5000 } } := rfl
    have bound : ((s.refuse bay .sessionTimeout).session bay).bound = (s.session bay).bound := by rw [shown, session_set]
    rw [s.expire_of_due due, if_pos pre]
    refine ⟨fun none => ?_, fun n i o hb ho => ?_⟩
    · rw [endBeforeLoading_none (bound.trans none), shown]
    · rw [endBeforeLoading_some (bound.trans hb) ((findOrder_orders (s := s) rfl n).trans ho), shown]
  · by_cases due : (s.session bay).timer = some 0
    · have past : (s.session bay).state.preLoading = false := by
        rcases other with e | e | e | e
        · rw [e]; rfl
        · rw [e]; rfl
        · rw [e]; rfl
        · exact absurd due e
      rw [s.expire_of_due due, past]; rfl
    · rw [State.expire_not _ due]
  · rw [s.expire_of_due due, if_pos loading, State.finish_idle _ idle]
    exact closeSession_visitClosed _ rfl (fun _ _ => rfl) rfl
  · by_cases due : (s.session bay).timer = some 0
    · rw [s.expire_of_due due, if_neg (other.resolve_right (not_not_intro due))]
    · rw [State.expire_not _ due]
  · rw [s.expire_of_due due]; rfl
  · rw [State.expire_not _ other]

end Sys2Proof.Machine
end

section
/-! SUPPORT. The host's requests to a bay (R78, R79, R164): BAY_CLOSE, BAY_RESET and BAY_MESSAGE by the session's state. -/

namespace Sys2Proof.Machine

/-! ### BAY_CLOSE -/

theorem State.exec_bayClose {s : State} {tag n : Byte} (hunting : s.port.phase = .hunting) :
    exec (.bayClose tag [n]) s = .next ((s.bayClose n.toNat).send 0x40 tag [n]) :=
  congrArg Host.Outcome.next (exec_byte hunting)

/-- BAY_CLOSE before LOADING ends the session as CANCEL does (R64, R78). -/
theorem State.bayClose_before {s : State} {n : Nat} {bay : BayId} (hn : numbered 4 n = some bay)
    (h : (s.session bay).state = .codeEntry ∨ (s.session bay).state = .orderSelect ∨ (s.session bay).state = .waitBond) :
    s.bayClose n = (s.endBeforeLoading bay).sessionReply bay .ok := by
  unfold State.bayClose
  rw [hn]
  rcases h with e | e | e <;> simp [e]

theorem State.bayClose_loading {s : State} {n : Nat} {bay : BayId} (hn : numbered 4 n = some bay)
    (h : (s.session bay).state = .loading) : s.bayClose n = (s.hostClose bay).sessionReply bay .ok := by
  unfold State.bayClose
  rw [hn]
  simp [h]

theorem State.sessionReply_send (s : State) (bay : BayId) (r : ResultCode) (kind tag : Byte) (rq : List Byte) :
    (s.sessionReply bay r).send kind tag rq = s.respond kind tag rq r [byteOf (s.session bay).state.code] := rfl

theorem session_returnToIdle (s : State) (bay : BayId) : (s.returnToIdle bay).session bay = (s.session bay).toIdle := by
  rw [returnToIdle_eq]; exact vget_vset_same _ _ _

theorem State.returnToIdle_reply (s : State) (bay : BayId) (kind tag : Byte) (rq : List Byte) :
    ((s.returnToIdle bay).sessionReply bay .ok).send kind tag rq = (s.returnToIdle bay).respond kind tag rq .ok [0] := by
  rw [State.sessionReply_send, session_returnToIdle]; rfl

/-- BAY_CLOSE with every arm IDLE closes the session at once (R77, R78). -/
theorem State.hostClose_idle {s : State} {bay : BayId} (idle : ∀ a, (s.arm a).bay = some bay → s.batch a = none) :
    s.hostClose bay = (s.setSession bay ((s.session bay).closingFor .host)).closeSession bay := by
  unfold State.hostClose
  dsimp only
  rw [State.filter_bayArms_idle fun a ha => by
    rw [State.flowing_of_none (idle a ha), State.batchIs_of_none (idle a ha)]; rfl, enterClosings_nil]
  exact closeIfDone_idle (by rw [State.session_modSession_same]) idle

/-- The batches that BAY_CLOSE takes to CLOSING: those of the bay not yet there. -/
def State.hostCloses (s : State) (bay : BayId) : List ArmId :=
  (s.bayArms bay).filter fun a => s.flowing a || s.batchIs a .held

theorem State.mem_hostCloses {s : State} {bay : BayId} {a : ArmId} {b : Batch} (hb : s.batch a = some b) :
    a ∈ s.hostCloses bay ↔ (s.arm a).bay = some bay ∧ b.state ≠ .closing := by
  unfold State.hostCloses State.flowing State.batchIs
  rw [List.mem_filter, s.mem_bayArms, hb]
  cases hs : b.state <;> simp [hs, BatchState.flowing]

theorem State.nodup_hostCloses (s : State) (bay : BayId) : (s.hostCloses bay).Nodup := (s.bayArms_nodup bay).filter _

theorem State.hostClose_busy {s : State} {bay : BayId} (busy : ∃ a, (s.arm a).bay = some bay ∧ (s.batch a).isSome) :
    s.hostClose bay = (s.enterClosings (s.hostCloses bay) .stopped).modSession bay (·.closingFor .host) :=
  closings_busy s bay _ _ (s.nodup_hostCloses bay) busy

/-- Settles O35: BAY_CLOSE by the session's state, in LOADING by the bay's arms. -/
theorem bayClose : Obligations.BayClose := by
  rintro s tag n hunting
  rw [State.exec_bayClose hunting]
  refine ⟨fun bad => ?_, ?_⟩
  · rw [State.bayClose, numbered_byte_none bad]; rfl
  rintro bay x number rfl
  have hn : numbered 4 n.toNat = some bay := numbered_byte number
  have same : s.SameHostRecords (s.hostClose bay) := ((Keeps.refl s).hostClose bay).same
  refine ⟨fun h => ?_, fun h => ?_, fun h => ?_, fun loading busy => ?_, fun loading idle => ?_⟩
  · unfold State.bayClose; rw [hn]; simp only [h, State.sessionReply_send]; rfl
  · rw [State.bayClose_before hn h]
    refine ⟨fun none => ?_, fun m i o hb ho => ?_⟩
    · rw [endBeforeLoading_none none, State.returnToIdle_reply]
    · rw [endBeforeLoading_some hb ho, State.returnToIdle_reply]
  · unfold State.bayClose; rw [hn]; simp only [h, State.sessionReply_send]; rfl
  · rw [State.bayClose_loading hn loading, State.sessionReply_send]
    rw [State.hostClose_busy busy] at same ⊢
    have parts := closings_eq s bay (s.hostCloses bay) (·.closingFor .host)
    have nodup := s.nodup_hostCloses bay
    refine ⟨_, ?_, ?_, ?_, ?_, ?_, ?_, ?_, same⟩
    · rw [State.session_modSession_same]; rfl
    · rw [parts]; rfl
    · intro a b ha hb
      by_cases closing : b.state = .closing
      · obtain ⟨d, still⟩ := enterClosings_still _ s .stopped nodup
          (fun h => ((State.mem_hostCloses hb).mp h).2 closing) hb (by rw [closing]; rfl)
        exact ⟨_, still, closing, fun h => absurd closing h⟩
      · obtain ⟨d, closed⟩ := enterClosings_in _ s .stopped nodup ((State.mem_hostCloses hb).mpr ⟨ha, closing⟩) hb
        exact ⟨_, closed, rfl, fun _ => ⟨rfl, rfl, rfl, rfl, rfl⟩⟩
    · intro a ha
      exact enterClosings_others _ s .stopped nodup fun h => ha ((s.mem_bayArms bay a).mp (List.mem_filter.mp h).1)
    · rw [parts]
    · rw [parts]
    · rw [parts]
  · rw [State.bayClose_loading hn loading, State.sessionReply_send]
    have k := closeSession_spec (s.setSession bay ((s.session bay).closingFor .host)) bay
    have freed := closeSession_sessionBays (s.setSession bay ((s.session bay).closingFor .host)) bay
    rw [State.hostClose_idle idle] at same ⊢
    generalize State.closeSession _ bay = t at k same freed
    have session : t.session bay = ((s.session bay).closingFor .host).toIdle := by rw [k.session, s.session_setSession]
    rw [s.session_setSession] at freed
    refine ⟨t, by rw [session]; rfl, by rw [session]; rfl, by rw [session]; rfl, by rw [session]; rfl, k.flag, freed,
      fun m i o part hb ho hs => ?_, fun c hc => ?_, by rw [k.eq]; rfl, by rw [k.eq]; rfl, same⟩
    · have bound : ((s.setSession bay ((s.session bay).closingFor .host)).session bay).bound
          = some m := by rw [s.session_setSession]; exact hb
      have found := (findOrder_orders (s := s) rfl m).trans ho
      refine ⟨fun hg => k.opened m i o bound found hg, fun hg => ?_⟩
      obtain ⟨order, -, last, flag⟩ := k.noted m i o part bound found hs hg
      rw [s.session_setSession] at order
      exact ⟨_, _, order, rfl, rfl, flag, last⟩
    · rw [k.sessions c hc]
      exact s.session_setSession_other _ hc

end Sys2Proof.Machine
end

section
/-! SUPPORT. BAY_RESET and BAY_MESSAGE (R39, R79, R105, R114, R164): what the ends without settle of a bay's batches, the
close of its session and the clearing of its display leave. -/

namespace Sys2Proof.Machine

/-! ### The session's end by a reset -/

/-- The bay's batches ended without settle, before ceilings are computed anew. -/
def State.endedRaw (s : State) (bay : BayId) : State := (s.bayArms bay).foldl State.endAtOnceRaw s

/-- The bay's batches ended, and its session about to close for the reset. -/
def State.atReset (s : State) (bay : BayId) : State :=
  (s.endAtOnce (s.bayArms bay)).modSession bay fun x => { x with closeCause := some .reset }

/-- BAY_RESET in LOADING and in CLOSING. -/
theorem State.resetSession_loading {s : State} {bay : BayId}
    (h : (s.session bay).state = .loading ∨ (s.session bay).state = .closing) :
    s.resetSession bay = (s.atReset bay).closeSession bay := by
  unfold State.resetSession State.atReset
  rcases h with e | e <;> simp [e]

/-- BAY_RESET before LOADING. -/
theorem State.resetSession_before {s : State} {bay : BayId}
    (h : (s.session bay).state = .codeEntry ∨ (s.session bay).state = .orderSelect ∨ (s.session bay).state = .waitBond) :
    s.resetSession bay = s.endBeforeLoading bay := by
  unfold State.resetSession
  rcases h with e | e | e <;> simp [e]

theorem State.resetSession_idle {s : State} {bay : BayId} (h : (s.session bay).state = .idle) :
    s.resetSession bay = s := by
  unfold State.resetSession; simp [h]

theorem SessionState.cases_by_visit (x : SessionState) : x = .idle ∨ (x = .codeEntry ∨ x = .orderSelect ∨ x = .waitBond) ∨
    (x = .loading ∨ x = .closing) := by cases x <;> simp

section
variable (s : State) (bay : BayId)

theorem State.endedRaw_ended : EndedRaw s (s.endedRaw bay) (s.bayArms bay) :=
  (endAtOnce_ended (s.bayArms bay) s (s.bayArms_nodup bay)).1

theorem State.endedRaw_eased : Eased (s.endedRaw bay) (s.endAtOnce (s.bayArms bay)) :=
  (endAtOnce_ended (s.bayArms bay) s (s.bayArms_nodup bay)).2

theorem State.atReset_eq : s.atReset bay = { s.endedRaw bay with
    arms := (s.endAtOnce (s.bayArms bay)).arms
    bays := vset s.bays bay { s.session bay with closeCause := some .reset } } := by
  have raw := (s.endedRaw_ended bay).eq
  have eased := (s.endedRaw_eased bay).eq
  unfold State.atReset
  generalize s.endAtOnce (s.bayArms bay) = t at eased ⊢
  rw [eased]
  generalize s.endedRaw bay = u at raw ⊢
  rw [raw]; rfl

theorem State.session_atReset : (s.atReset bay).session bay = { s.session bay with closeCause := some .reset } := by
  rw [State.atReset_eq]; exact vget_vset_same _ _ _

theorem State.atReset_closed : ClosedFrom (s.atReset bay) ((s.atReset bay).closeSession bay) bay := closeSession_spec _ _

theorem State.atReset_batch {a : ArmId} (h : (s.arm a).bay = some bay) : (s.atReset bay).batch a = none := by
  have eased := (s.endedRaw_eased bay).batch a
  have raw := (s.endedRaw_ended bay).arm a
  rw [if_pos ((s.mem_bayArms bay a).mpr h)] at raw
  rw [show (s.endedRaw bay).batch a = none from congrArg Arm.batch raw] at eased
  exact Option.map_eq_none_iff.mp eased

theorem State.atReset_batch_other {a : ArmId} (h : (s.arm a).bay ≠ some bay) :
    ((s.atReset bay).batch a).map (·.besidesFlow) = (s.batch a).map (·.besidesFlow) := by
  have eased := (s.endedRaw_eased bay).batch a
  have raw := (s.endedRaw_ended bay).arm a
  rw [if_neg fun m => h ((s.mem_bayArms bay a).mp m)] at raw
  rw [show (s.endedRaw bay).batch a = s.batch a from congrArg Arm.batch raw] at eased
  exact eased

end

/-- The end of a visit, whatever state the session was in: the session, the permit, and what is not the visit's. -/
structure SessionEnded (s t : State) (bay : BayId) : Prop where
  session : t.session bay = (s.session bay).toIdle
  sessions : ∀ c, c ≠ bay → t.session c = s.session c
  flag : sessionFlag bay ∈ t.flags
  permits : t.permits.map (fun p => (p.card, p.sessionBay))
    = s.permits.map (fun p => (p.card, if (s.session bay).card = some p.card then none else p.sessionBay))
  meters : t.meters = s.meters
  batches : ∀ a, (s.arm a).bay ≠ some bay → (t.batch a).map (·.besidesFlow) = (s.batch a).map (·.besidesFlow)

theorem endBeforeLoading_orders (s : State) (bay : BayId) :
    ∃ orders, s.endBeforeLoading bay = ({ s with orders := orders } : State).returnToIdle bay := by
  unfold State.endBeforeLoading
  cases s.boundOrder bay with
  | none => exact ⟨s.orders, rfl⟩
  | some io => exact ⟨(s.reopen io.1).orders, rfl⟩

theorem endBeforeLoading_ended (s : State) (bay : BayId) : SessionEnded s (s.endBeforeLoading bay) bay := by
  obtain ⟨orders, e⟩ := endBeforeLoading_orders s bay
  rw [e]
  refine ⟨session_returnToIdle _ bay, fun c hc => ?_, ?_, returnToIdle_sessionBays _ bay, ?_, fun a _ => ?_⟩
  · rw [returnToIdle_eq]; exact vget_vset_ne _ _ hc
  · rw [returnToIdle_eq]; exact (mem_addTo (EventFlag.mem_all _)).mpr (.inl rfl)
  · rw [returnToIdle_eq]
  · rw [returnToIdle_eq]; rfl

theorem closeAtReset_ended (s : State) (bay : BayId) : SessionEnded s ((s.atReset bay).closeSession bay) bay := by
  have k := s.atReset_closed bay
  have freed := closeSession_sessionBays (s.atReset bay) bay
  have kept := s.atReset_eq bay
  have raw := (s.endedRaw_ended bay).eq
  have permits : (s.atReset bay).permits = s.permits := by rw [kept, raw]
  rw [s.session_atReset bay, permits] at freed
  refine ⟨?_, fun c hc => ?_, k.flag, freed, ?_, fun a ha => ?_⟩
  · rw [k.session, s.session_atReset bay]; rfl
  · rw [k.sessions c hc, kept]; exact vget_vset_ne _ _ hc
  · rw [k.eq]; show (s.atReset bay).meters = _; rw [kept, raw]
  · rw [← s.atReset_batch_other bay ha, k.eq]; rfl

theorem resetSession_ended {s : State} {bay : BayId} (h : (s.session bay).state ≠ .idle) :
    SessionEnded s (s.resetSession bay) bay := by
  rcases SessionState.cases_by_visit (s.session bay).state with e | e | e
  · exact absurd e h
  · rw [State.resetSession_before e]; exact endBeforeLoading_ended s bay
  · rw [State.resetSession_loading e]; exact closeAtReset_ended s bay

/-! ### The display and the refusal reason cleared -/

/-- A bay with its refusal reason and its override taken away. -/
def State.clearBay (u : State) (bay : BayId) : State := { u with
  bays := vset u.bays bay { u.session bay with reason := none, reasonTimer := none }
  displays := vset u.displays bay { u.display bay with override := none } }

theorem State.resetBay_eq (s : State) (bay : BayId) : s.resetBay bay = (s.resetSession bay).clearBay bay := rfl

theorem State.session_clearBay (u : State) (bay : BayId) :
    (u.clearBay bay).session bay = { u.session bay with reason := none, reasonTimer := none } := vget_vset_same _ _ _

theorem State.session_clearBay_other (u : State) {bay c : BayId} (h : c ≠ bay) :
    (u.clearBay bay).session c = u.session c := vget_vset_ne _ _ h

theorem State.display_clearBay (u : State) (bay : BayId) :
    (u.clearBay bay).display bay = { u.display bay with override := none } := vget_vset_same _ _ _

theorem State.orderIn_clearBay (u : State) (bay : BayId) (i : SlotId) : (u.clearBay bay).orderIn i = u.orderIn i := rfl
theorem State.flags_clearBay (u : State) (bay : BayId) : (u.clearBay bay).flags = u.flags := rfl
theorem State.batch_clearBay (u : State) (bay : BayId) (a : ArmId) : (u.clearBay bay).batch a = u.batch a := rfl
theorem State.injector_clearBay (u : State) (bay : BayId) (i : InjectorId) :
    (u.clearBay bay).injector i = u.injector i := rfl
theorem State.header_clearBay (u : State) (bay : BayId) (j : HeaderId) : (u.clearBay bay).header j = u.header j := rfl

theorem State.resetSession_state (s : State) (bay : BayId) : ((s.resetSession bay).session bay).state = .idle := by
  by_cases h : (s.session bay).state = .idle
  · rw [State.resetSession_idle h]; exact h
  · rw [(resetSession_ended h).session]; rfl

theorem State.exec_bayReset {s : State} {tag n : Byte} {bay : BayId} (hunting : s.port.phase = .hunting)
    (hn : n.toNat = bay.val + 1) :
    exec (.bayReset tag [n]) s = .next (((s.resetSession bay).clearBay bay).respond 0x41 tag [n] .ok [0]) := by
  have taken : exec (.bayReset tag [n]) s = .next ((s.bayReset n.toNat).send 0x41 tag [n]) :=
    congrArg Host.Outcome.next (exec_byte hunting)
  rw [taken]
  unfold State.bayReset
  rw [numbered_byte hn]
  dsimp only
  rw [State.sessionReply_send, State.resetBay_eq, State.session_clearBay]
  dsimp only
  rw [State.resetSession_state]; rfl

/-! ### The arms, the injectors and the headers -/

section
variable (s : State) (bay : BayId)

theorem closeAtReset_batch {a : ArmId} (h : (s.arm a).bay = some bay) :
    ((s.atReset bay).closeSession bay).batch a = none := by
  rw [← s.atReset_batch bay h, (s.atReset_closed bay).eq]; rfl

theorem closeAtReset_injector (i : InjectorId) :
    ((s.atReset bay).closeSession bay).injector i = (s.endedRaw bay).injector i := by
  rw [(s.atReset_closed bay).eq]
  show (s.atReset bay).injector i = _
  rw [State.atReset_eq]; rfl

theorem closeAtReset_header (j : HeaderId) :
    ((s.atReset bay).closeSession bay).header j = (s.endedRaw bay).header j := by
  rw [(s.atReset_closed bay).eq]
  show (s.atReset bay).header j = _
  rw [State.atReset_eq]; rfl

end

/-! ### The compartments of the batches ended -/

/-- A compartment as the end of its batch by a reset leaves it. -/
def Compartment.resetEnded (c : Compartment) : Prop :=
  CompFlag.endedByReset ∈ c.flags ∧ c.state = if c.planned ≤ c.gross then .filled else .partly

/-- The last step of a batch credited to its compartment (R112 to R114), spelled out. -/
def Compartment.LastStepCredited (c' c : Compartment) (b : Batch) (g : Nat) (temp : Option Int) : Prop :=
  c'.planned = c.planned ∧ (g = 0 → c'.gross = c.gross ∧ c'.net = c.net) ∧
  (0 < g → c'.gross = min 999999 (c.gross + g) ∧ c'.net = min 999999 (c.net + (match temp with
    | some y => (2 * (g * correctionFactor b.snapshot.correction y) + 10000) / 20000
    | none => g))) ∧
  c'.tempSum = c.tempSum + temp.getD 150 * g ∧
  (CompFlag.tempSubstituted ∈ c'.flags ↔ CompFlag.tempSubstituted ∈ c.flags ∨ (0 < g ∧ temp = none))

theorem Compartment.lastStepCredited (s : State) (a : ArmId) (b : Batch) (c : Compartment) {g : Nat} {temp : Option Int}
    (hg : g = b.metering.stepMain + b.metering.stepBlend)
    (ht : temp = ((s.arm a).mainMeter.bind fun m =>
      if (s.meter m).probe = true ∧ (s.meter m).probeState = .valid then (s.meter m).lastTemp else none)) :
    (((c.endCredited s a b).addFlag .endedByReset).endedShort).LastStepCredited c b g temp := by
  have other : ∀ x : Compartment, CompFlag.tempSubstituted ∈ ((x.addFlag .endedByReset).endedShort).flags ↔
      CompFlag.tempSubstituted ∈ x.flags := fun x => by
    show CompFlag.tempSubstituted ∈ addTo _ _ _ ↔ _
    rw [mem_addTo (CompFlag.mem_all _)]; simp
  unfold Compartment.LastStepCredited
  rw [other]
  unfold Compartment.endCredited
  rw [← hg, s.creditNow_eq a b g temp hg ht]
  by_cases zero : g = 0
  · subst zero
    rw [if_pos rfl]
    simp [Compartment.endedShort, Compartment.addFlag]
  · rw [if_neg zero]
    have pos : 0 < g := Nat.pos_of_ne_zero zero
    cases temp <;>
      simp [Compartment.credit, Compartment.endedShort, Compartment.addFlag, zero, pos, maxVolume,
        mem_addTo (CompFlag.mem_all _)]

/-- Two properties of the compartment that a reference names. -/
theorem State.CompHas.and {s : State} {r : CompRef} {P Q : Compartment → Prop} (h : s.CompHas r P) (k : s.CompHas r Q) :
    s.CompHas r fun c => P c ∧ Q c := by
  obtain ⟨o, c, ho, hc, hp⟩ := h
  obtain ⟨o', c', ho', hc', hq⟩ := k
  cases ho.symm.trans ho'
  cases hc.symm.trans hc'
  exact ⟨o, c, ho, hc, hp, hq⟩

/-- A property that the dose check keeps, through the close for a reset and the clearing of the bay. -/
theorem State.CompHas.closeAtReset {s : State} {bay : BayId} {r : CompRef} {P : Compartment → Prop}
    (h : (s.endedRaw bay).CompHas r P) (hP : ∀ c, P c → P c.doseChecked) :
    (((s.atReset bay).closeSession bay).clearBay bay).CompHas r P := by
  have atReset : (s.atReset bay).CompHas r P := h.congr (by rw [State.atReset_eq])
  exact (atReset.closeSession bay hP).congr rfl

/-- The compartment of a batch ended by a reset (R105, R114); the credit is exact where no other batch of the bay
loads it. -/
theorem closeAtReset_comp {s : State} {bay : BayId} {a : ArmId} {b : Batch} {o : Order} {c : Compartment}
    (ha : (s.arm a).bay = some bay) (hb : s.batch a = some b) (ho : s.orderOf b.ref = some o)
    (hc : o.comp b.ref.comp = some c) :
    (((s.atReset bay).closeSession bay).clearBay bay).CompHas b.ref fun c' => c'.resetEnded ∧
      ∀ (g : Nat) (temp : Option Int),
        (∀ d y, d ≠ a → (s.arm d).bay = some bay → s.batch d = some y → y.ref ≠ b.ref) →
        g = b.metering.stepMain + b.metering.stepBlend →
        temp = ((s.arm a).mainMeter.bind fun m =>
          if (s.meter m).probe = true ∧ (s.meter m).probeState = .valid then (s.meter m).lastTemp else none) →
        c'.LastStepCredited c b g temp := by
  obtain ⟨ended, credited, -, -⟩ :=
    endAtOnceRaws_ends (s.bayArms bay) s (s.bayArms_nodup bay) ((s.mem_bayArms bay a).mpr ha) hb _ rfl
  refine State.CompHas.closeAtReset ?_ fun c' h => h
  refine State.CompHas.and (ended ⟨o, c, ho, hc⟩) ?_
  by_cases one : ∀ d y, d ≠ a → (s.arm d).bay = some bay → s.batch d = some y → y.ref ≠ b.ref
  · refine (credited c ⟨o, c, ho, hc, rfl⟩ fun d y hd ne => one d y ne ((s.mem_bayArms bay d).mp hd)).mono ?_
    rintro c' rfl g temp - hg ht
    exact Compartment.lastStepCredited s a b c hg ht
  · exact (ended ⟨o, c, ho, hc⟩).mono fun c' _ g temp h => absurd h one

/-! ### The order of the session -/

theorem Order.noted_totalGross (o : Order) (part : SessionPart) (now : Option Time) (note : NotePart) :
    (o.noted part now note).totalGross = o.totalGross := by
  unfold Order.totalGross Order.noted
  rw [List.map_map]; rfl

/-- The order of a session closed by a reset (R79, R152). -/
theorem closeAtReset_order {s : State} {bay : BayId} {m : Nat} {i : SlotId} {o : Order} {part : SessionPart}
    (hm : (s.session bay).bound = some m) (ho : s.findOrder m = some (i, o)) (hs : o.stage = .active part) :
    ∃ o', ((s.atReset bay).closeSession bay).orderIn i = some o' ∧ ((o'.totalGross = 0 ∧ o'.stage = .opened) ∨
      (0 < o'.totalGross ∧ ∃ note, o'.stage = .noted { part with endTime := s.clock } note ∧
        note.flags = [.bayReset] ∧ (((s.atReset bay).closeSession bay).display bay).lastNote = some note.number ∧
        EventFlag.orderNoted ∈ ((s.atReset bay).closeSession bay).flags)) := by
  have k := s.atReset_closed bay
  have clock : (s.atReset bay).clock = s.clock := by rw [State.atReset_eq, (s.endedRaw_ended bay).eq]
  obtain ⟨p, hp, stage⟩ := endAtOnceRaws_findOrder (s.bayArms bay) ho
  have found : (s.atReset bay).findOrder m = some (i, p) :=
    (findOrder_orders (s := s.endedRaw bay) (by rw [State.atReset_eq]) m).trans hp
  have bound : ((s.atReset bay).session bay).bound = some m := by rw [s.session_atReset bay]; exact hm
  rcases Nat.eq_zero_or_pos p.totalGross with zero | pos
  · exact ⟨_, k.opened m i p bound found zero, .inl ⟨zero, rfl⟩⟩
  · obtain ⟨order, -, last, flag⟩ := k.noted m i p part bound found (stage.trans hs) pos
    rw [clock, s.session_atReset bay] at order
    refine ⟨_, order, .inr ⟨by rw [Order.noted_totalGross]; exact pos, _, rfl, rfl, last, flag⟩⟩

/-! ### The obligation -/

/-- What a reset leaves in every state of the session (R79): its terminal and permissives, the other bays, the meters. -/
structure ResetKept (s t : State) (bay : BayId) : Prop where
  terminal : (t.session bay).terminal = (s.session bay).terminal
  bond : (t.session bay).bond = (s.session bay).bond
  overfill : (t.session bay).overfill = (s.session bay).overfill
  sessions : ∀ c, c ≠ bay → t.session c = s.session c
  meters : t.meters = s.meters
  batches : ∀ a, (s.arm a).bay ≠ some bay → (t.batch a).map (·.besidesFlow) = (s.batch a).map (·.besidesFlow)

theorem resetSession_kept (s : State) (bay : BayId) : ResetKept s (s.resetSession bay) bay := by
  by_cases idle : (s.session bay).state = .idle
  · rw [State.resetSession_idle idle]
    exact ⟨rfl, rfl, rfl, fun _ _ => rfl, rfl, fun _ _ => rfl⟩
  · have ended := resetSession_ended idle
    refine ⟨?_, ?_, ?_, ended.sessions, ended.meters, ended.batches⟩
    · rw [ended.session]; rfl
    · rw [ended.session]; rfl
    · rw [ended.session]; rfl

theorem readMessage_bytes (n screen duration : Byte) :
    readMessage [n, screen, duration] = some (n.toNat, screen.toNat, duration.toNat) := by
  simp [readMessage, whole, word_one]

theorem State.exec_bayMessage {s : State} {tag n screen duration : Byte} (hunting : s.port.phase = .hunting) :
    exec (.bayMessage tag [n, screen, duration]) s
      = .next ((s.bayMessage (n.toNat, screen.toNat, duration.toNat)).send 0x42 tag [n, screen, duration]) :=
  congrArg Host.Outcome.next (State.request_taken hunting (readMessage_bytes n screen duration))

theorem State.bayMessage_invalid (s : State) {n screen duration : Byte}
    (bad : n = 0 ∨ 4 < n.toNat ∨ screen = 0 ∨ 24 < screen.toNat ∨ duration = 0) :
    s.bayMessage (n.toNat, screen.toNat, duration.toNat) = .refused s .invalid := by
  unfold State.bayMessage
  dsimp only
  cases hb : numbered 4 n.toNat with
  | none => rfl
  | some bay =>
    cases hm : numbered 24 screen.toNat with
    | none => rfl
    | some m =>
      rcases bad with h | h | h | h | rfl
      · rw [numbered_byte_none (.inl h)] at hb; cases hb
      · rw [numbered_byte_none (.inr h)] at hb; cases hb
      · rw [numbered_byte_none (.inl h)] at hm; cases hm
      · rw [numbered_byte_none (.inr h)] at hm; cases hm
      · rfl

theorem State.bayMessage_taken (s : State) {n screen duration : Byte} {bay : BayId} {m : ScreenId}
    (hn : n.toNat = bay.val + 1) (hm : screen.toNat = m.val + 1) (hd : duration ≠ 0) :
    s.bayMessage (n.toNat, screen.toNat, duration.toNat) = .ok (s.modDisplay bay fun d =>
      { d with override := some { screen := m, remaining := 1000 * duration.toNat } }) [] := by
  have pos : duration.toNat ≠ 0 := fun e => hd (BitVec.eq_of_toNat_eq e)
  have range : inRange 1 255 duration.toNat = true := by
    rw [inRange_eq_true]; exact ⟨Nat.pos_of_ne_zero pos, Nat.le_of_lt_succ duration.isLt⟩
  unfold State.bayMessage
  rw [numbered_byte hn, numbered_byte hm]
  exact if_pos range

/-- Settles O36: BAY_RESET by the session's state, and BAY_MESSAGE by the fields of its body. -/
theorem bayResetAndMessage : Obligations.BayResetAndMessage := by
  rintro s tag n hunting
  refine ⟨fun bad => ?_, ?_, ?_⟩
  · have taken : exec (.bayReset tag [n]) s = .next ((s.bayReset n.toNat).send 0x41 tag [n]) :=
      congrArg Host.Outcome.next (exec_byte hunting)
    rw [taken, State.bayReset, numbered_byte_none bad]; rfl
  · rintro bay x number rfl
    rw [State.exec_bayReset hunting number]
    refine ⟨fun u hu => ?_, _, rfl, ?_⟩
    · have reset : s.resetSession bay = u := by
        rcases hu with ⟨idle, rfl⟩ | ⟨before, ⟨none, rfl⟩ | ⟨m, i, o, hb, ho, rfl⟩⟩
        · exact State.resetSession_idle idle
        · rw [State.resetSession_before before, endBeforeLoading_none none]
        · rw [State.resetSession_before before, endBeforeLoading_some hb ho]
      rw [reset]; rfl
    have kept := resetSession_kept s bay
    have same : s.SameHostRecords ((s.resetSession bay).clearBay bay) := ((Keeps.refl s).resetBay bay).same
    have session := (s.resetSession bay).session_clearBay bay
    have display := (s.resetSession bay).display_clearBay bay
    refine ⟨by rw [session]; exact s.resetSession_state bay, by rw [session], by rw [session], fun h => ?_,
      by rw [session]; exact kept.terminal, by rw [session]; exact kept.bond, by rw [session]; exact kept.overfill,
      by rw [display], fun h => ?_, kept.batches, fun c hc => ?_, kept.meters, same⟩
    · have ended := resetSession_ended h
      rw [session, ended.session]
      exact ⟨rfl, rfl, ended.flag, ended.permits⟩
    · rw [State.resetSession_loading h] at display ⊢
      simp only [State.orderIn_clearBay, State.flags_clearBay, State.batch_clearBay, State.injector_clearBay,
        State.header_clearBay, display, closeAtReset_injector, closeAtReset_header]
      refine ⟨fun a ha => ⟨closeAtReset_batch s bay ha, fun i e he hea => ?_⟩, fun a b o c ha hb ho hc => ?_,
        fun a b ha hb => ?_, fun m i o part hm ho hs => closeAtReset_order hm ho hs⟩
      · rw [(s.endedRaw_ended bay).queue, List.mem_filter, decide_eq_true_eq, hea, s.mem_bayArms] at he
        exact Option.not_isSome_iff_eq_none.mp fun out => he.2 ⟨ha, out⟩
      · obtain ⟨o', c', ho', hc', ⟨flag, state⟩, credit⟩ := closeAtReset_comp ha hb ho hc
        exact ⟨o', c', ho', hc', flag, state, credit⟩
      · exact (endAtOnceRaws_ends (s.bayArms bay) s (s.bayArms_nodup bay) ((s.mem_bayArms bay a).mpr ha) hb _ rfl).2.2
    · rw [State.session_clearBay_other _ hc]; exact kept.sessions c hc
  · rintro screen duration body rfl
    rw [State.exec_bayMessage hunting]
    refine ⟨fun bad => ?_, fun bay m hn hm hd => ?_⟩
    · rw [s.bayMessage_invalid bad]; rfl
    · rw [s.bayMessage_taken hn hm hd]; rfl

end Sys2Proof.Machine
end

section
/-! SUPPORT. The start checks (Table 4-3) as one list: the first failing test's reason, or the plan of the start. -/

namespace Sys2Proof.Machine

/-! ### Checks in their order -/

/-- The first failing check's reason, or what follows the checks. -/
def checked (l : List (Bool × Reason)) (rest : Except Reason StartPlan) : Except Reason StartPlan :=
  ((l.find? (·.1)).map (·.2)).elim rest .error

theorem checked_cons (b : Bool) (r : Reason) (l : List (Bool × Reason)) (rest : Except Reason StartPlan) :
    checked ((b, r) :: l) rest = if b = true then .error r else checked l rest := by
  cases b <;> rfl

theorem checked_nil (rest : Except Reason StartPlan) : checked [] rest = rest := rfl

theorem checked_append (l m : List (Bool × Reason)) (rest : Except Reason StartPlan) :
    checked (l ++ m) rest = checked l (checked m rest) := by
  induction l with
  | nil => rfl
  | cons e l ih => rw [List.cons_append, checked_cons, checked_cons, ih]

theorem checked_failed {l : List (Bool × Reason)} {b : Bool} {r : Reason} (h : l.find? (·.1) = some (b, r))
    (rest : Except Reason StartPlan) : checked l rest = .error r := by
  unfold checked; rw [h]; rfl

theorem checked_passed {l : List (Bool × Reason)} (h : l.find? (·.1) = none) (rest : Except Reason StartPlan) :
    checked l rest = rest := by
  unfold checked; rw [h]; rfl

/-- Two tests that fail with one reason. -/
theorem either_failed {α : Type} (x y : Bool) (failed rest : α) : (if (!(x && y)) = true then failed else rest)
    = if (!x) = true then failed else if (!y) = true then failed else rest := by
  cases x <;> cases y <;> rfl

/-! ### The first six checks -/

/-- What START does with a loadable compartment on an arm ready for it: the checks from the product on. -/
def State.productChecks (s : State) (bay : BayId) (a : ArmId) (ref : CompRef) (c : Compartment) :
    Except Reason StartPlan :=
  match s.productOf c with
  | none => .error .productNotOnArm
  | some (code, p) =>
    if !s.productOnArm a code p then .error .productNotOnArm
    else
      match s.standingAt bay p.cls with
      | some r => .error r
      | none => s.checkRecipe a ref c code p

theorem State.startChecks_checked {s : State} {bay : BayId} {a : ArmId} (h : s.focusArm bay = some a) : s.startChecks bay =
    checked [(s.esd.active, .esdActive), (!(s.session bay).permissivesPresent, .permissiveMissing),
      (decide ((s.arm a).service ≠ .inService), .armOutOfService), ((s.batch a).isSome, .armBusy),
      (!(s.arm a).connected, .armNotConnected), ((s.loadableComp bay).isNone, .compNotLoadable)]
      ((s.loadableComp bay).elim (.error .compNotLoadable) fun e => s.productChecks bay a e.1 e.2) := by
  unfold State.startChecks
  rw [h]
  simp only [checked_cons, checked_nil, decide_eq_true_eq]
  cases s.loadableComp bay <;> rfl

/-- The compartment that START would load (R52): the selected one of the bound order, in PLANNED or PARTIAL and with a
batch count below 15. -/
theorem State.loadableComp_eq (s : State) (bay : BayId) : s.loadableComp bay =
    (s.boundOrder bay).bind fun io => (s.session bay).selected.bind fun n =>
      ((io.2.comps.find? fun c => decide (c.number = n)).filter Compartment.loadable).map fun c =>
        ({ slot := io.1, order := io.2.number, comp := n }, c) := by
  unfold State.loadableComp
  cases s.boundOrder bay with
  | none => rfl
  | some io =>
    cases (s.session bay).selected with
    | none => rfl
    | some n =>
      simp only [Option.bind_some, Order.comp]
      cases io.2.comps.find? fun c => decide (c.number = n) with
      | none => rfl
      | some c => by_cases hc : c.loadable = true <;> simp [Option.filter, hc]

/-! ### From the product on -/

section
variable (s : State) (a : ArmId) (c : Compartment) (code : ProductId) (p : Product)

/-- Check 7 (R71). -/
def State.productTests : List (Bool × Reason) :=
  [(decide (code ∉ (s.arm a).products), .productNotOnArm),
    (!(s.arm a).mainMeter.any (fun m => decide ((s.meter m).header = p.mainHeader)), .productNotOnArm),
    (p.blend.any (fun q => !(s.arm a).blendMeter.any fun m => decide ((s.meter m).header = q.header)), .productNotOnArm)]

theorem State.productOnArm_eq : s.productOnArm a code p = (decide (code ∈ (s.arm a).products) &&
    (s.arm a).mainMeter.any (fun m => decide ((s.meter m).header = p.mainHeader)) &&
    !p.blend.any (fun q => !(s.arm a).blendMeter.any fun m => decide ((s.meter m).header = q.header))) := by
  unfold State.productOnArm
  cases p.blend <;> simp

theorem State.productOnArm_checked (rest : Except Reason StartPlan) :
    (if (!s.productOnArm a code p) = true then .error .productNotOnArm else rest)
      = checked (s.productTests a code p) rest := by
  rw [s.productOnArm_eq a code p, either_failed, either_failed]
  unfold State.productTests
  simp only [checked_cons, checked_nil, decide_not, Bool.not_not]

/-- Check 8 (R15). -/
def standingTests (permit : Permit) (now : Time) (cls : GroupCode) : List (Bool × Reason) :=
  [(permit.persistent || decide (permit.dynamic ≠ .none), .permitHeld),
    (decide (now.day < permit.validFrom), .notYetValid), (decide (permit.expiry < now.day), .permitExpired),
    (decide (cls ∉ permit.classes), .classNotPermitted)]

theorem standing_first (permit : Permit) (now : Time) (cls : GroupCode) :
    standing permit now cls = ((standingTests permit now cls).find? (·.1)).map (·.2) := by
  unfold standing standingTests
  simp only [firstFailing_cons, Bool.or_eq_true, decide_eq_true_eq]
  by_cases listed : cls ∈ permit.classes <;> simp [listed]

/-- The entries that a start selects (R32): all at the first batch, later those with a result. -/
def Compartment.startEntries : List (AdditiveEntry × Nat) :=
  (p.additives.zipIdx.map fun e => (e.1, e.2 + 1)).filter fun e =>
    c.batchCount == 0 || c.results.any fun r => decide (r.injector = e.1.injector)

theorem selectEntries_eq : selectEntries p c = c.startEntries p := by
  unfold selectEntries Compartment.startEntries
  by_cases first : c.batchCount = 0
  · simp [first]
  · dsimp only
    rw [if_neg first]
    exact List.filter_congr fun e _ => by rw [beq_eq_false_iff_ne.mpr first, Bool.false_or]

/-- The entries that a start uses: an OPTIONAL one whose injector is unavailable is left out. -/
def State.usableEntries (entries : List (AdditiveEntry × Nat)) : List AdditiveEntry :=
  (entries.map (·.1)).filter fun e => decide (e.requirement = .required) || (s.injector e.injector).available

theorem State.markEntries_entries (entries : List (AdditiveEntry × Nat)) :
    (s.markEntries entries).map (fun e => (e.entry, e.index)) = entries := by
  unfold State.markEntries
  rw [List.map_map]
  exact List.map_id _

theorem State.markEntries_usable (entries : List (AdditiveEntry × Nat)) :
    ((s.markEntries entries).filter fun e => !e.skipped).map (·.entry) = s.usableEntries entries := by
  unfold State.markEntries State.usableEntries
  rw [List.filter_map, List.map_map, List.filter_map]
  refine congrArg (List.map Prod.fst) (List.filter_congr fun e _ => ?_)
  dsimp only [Function.comp]
  cases e.1.requirement <;> simp

/-- Checks 9 to 13 (R71, R72). -/
def State.recipeTests : List (Bool × Reason) :=
  [(c.prevGroup.any (fun g => decide (vget (vget s.matrix g) p.group = .forbid)), .incompatible),
    (!(s.arm a).mainMeter.any (fun m => decide ((s.meter m).state = .ok)), .meterFault),
    (p.blend.isSome && !(s.arm a).blendMeter.any (fun m => decide ((s.meter m).state = .ok)), .meterFault),
    ((c.startEntries p).any (fun e => decide (e.1.requirement = .required) && !(s.injector e.1.injector).available),
      .injectorUnavailable),
    ((s.usableEntries (c.startEntries p)).any
      (fun e => decide ((s.injector e.injector).shotVolume * 1000 < 20 * e.rate)), .doseUnworkable),
    ((s.usableEntries (c.startEntries p)).any (fun e =>
      decide ((s.injector e.injector).stock - (s.injector e.injector).reserved
        < ((c.planned - c.gross) * e.rate + 9999) / 10000 + (s.injector e.injector).shotVolume)), .additiveShort)]

/-- The plan of a start that passes its checks. -/
def State.planOf (ref : CompRef) : StartPlan :=
  { arm := a, ref, target := c.planned - c.gross, base := c.gross, firstBatch := decide (c.batchCount = 0)
    snapshot := snapshotOf code p (s.markEntries (c.startEntries p)) (s.verdictFor c p) }

theorem State.metersOk_eq : s.metersOk a p = ((s.arm a).mainMeter.any (fun m => decide ((s.meter m).state = .ok)) &&
    !(p.blend.isSome && !(s.arm a).blendMeter.any (fun m => decide ((s.meter m).state = .ok)))) := by
  unfold State.metersOk
  cases p.blend <;> simp

theorem State.requiredReady_eq (entries : List (AdditiveEntry × Nat)) : (!s.requiredReady entries)
    = entries.any fun e => decide (e.1.requirement = .required) && !(s.injector e.1.injector).available := by
  unfold State.requiredReady
  rw [List.not_all_eq_any_not]
  refine congrArg _ (funext fun e => ?_)
  cases e.1.requirement <;> simp

/-- A test of the usable snapshot entries is one of the usable record entries. -/
theorem State.any_usable (entries : List (AdditiveEntry × Nat)) (test : SnapshotEntry → Bool)
    (failing : AdditiveEntry → Bool)    (h : ∀ e, (!test e) = failing e.entry) :
    (!((s.markEntries entries).filter fun e => !e.skipped).all test) = (s.usableEntries entries).any failing := by
  rw [← s.markEntries_usable entries, List.not_all_eq_any_not, List.any_map]
  exact congrArg _ (funext h)

theorem State.checkRecipe_checked (ref : CompRef) :
    s.checkRecipe a ref c code p = checked (s.recipeTests a c p) (.ok (s.planOf a c code p ref)) := by
  have forbidden : s.verdictFor c p = .forbid ↔
      c.prevGroup.any (fun g => decide (vget (vget s.matrix g) p.group = .forbid)) = true := by
    unfold State.verdictFor; cases c.prevGroup <;> simp
  have workable := s.any_usable (c.startEntries p) s.spacingWorkable
    (fun e => decide ((s.injector e.injector).shotVolume * 1000 < 20 * e.rate)) fun e => by
      unfold State.spacingWorkable; rw [← decide_not, decide_eq_decide, Nat.not_le]
  have stocked := s.any_usable (c.startEntries p)
    (fun e => decide (s.need (c.planned - c.gross) e ≤ (s.injector e.entry.injector).free))
    (fun e => decide ((s.injector e.injector).stock - (s.injector e.injector).reserved
        < ((c.planned - c.gross) * e.rate + 9999) / 10000 + (s.injector e.injector).shotVolume)) fun e => by
      rw [← decide_not, decide_eq_decide, Nat.not_le]; rfl
  unfold State.checkRecipe State.recipeTests
  simp only [checked_cons, checked_nil, selectEntries_eq, forbidden, s.metersOk_eq, either_failed, Bool.not_not,
    s.requiredReady_eq, workable, stocked]
  rfl

end

/-- The checks from the product on, where the record, the permit and the clock stand (R15, R25). -/
theorem State.productChecks_checked {s : State} {bay : BayId} {a : ArmId} {ref : CompRef} {c : Compartment}
    {code : ProductId} {p : Product} {permit : Permit} {now : Time} (hcode : c.product = some code) (hp : s.product code = some p)
    (hpermit : (s.session bay).card.bind s.findPermit = some permit) (hnow : s.clock = some now) :
    s.productChecks bay a ref c = checked
      (s.productTests a code p ++ (standingTests permit now p.cls ++ s.recipeTests a c p)) (.ok (s.planOf a c code p ref)) := by
  have record : s.productOf c = some (code, p) := by unfold State.productOf; rw [hcode, Option.bind_some, hp]; rfl
  have stands : s.standingAt bay p.cls = ((standingTests permit now p.cls).find? (·.1)).map (·.2) := by
    unfold State.standingAt State.sessionPermit
    rw [hpermit, hnow]
    exact standing_first permit now p.cls
  unfold State.productChecks
  rw [record]
  dsimp only
  rw [State.productOnArm_checked, checked_append, checked_append, ← State.checkRecipe_checked]
  refine congrArg (checked _) ?_
  rw [checked, ← stands]
  cases s.standingAt bay p.cls <;> rfl

/-! ### What a key's first effect leaves of the checks -/

section
variable {s u : State} {bay : BayId} (h : Woken s u bay)
include h

theorem Woken.meter (m : MeterId) : u.meter m = s.meter m := by unfold State.meter; rw [h.meters]
theorem Woken.product (code : ProductId) : u.product code = s.product code := by rw [h.eq]; rfl
theorem Woken.matrix : u.matrix = s.matrix := by rw [h.eq]
theorem Woken.batch_isSome (a : ArmId) : (u.batch a).isSome = (s.batch a).isSome := by rw [h.batch a, Option.isSome_map]
theorem Woken.armService (a : ArmId) : (u.arm a).service = (s.arm a).service := by rw [h.arm a]
theorem Woken.armConnected (a : ArmId) : (u.arm a).connected = (s.arm a).connected := by rw [h.arm a]
theorem Woken.armProducts (a : ArmId) : (u.arm a).products = (s.arm a).products := by rw [h.arm a]
theorem Woken.armMainMeter (a : ArmId) : (u.arm a).mainMeter = (s.arm a).mainMeter := by rw [h.arm a]
theorem Woken.armBlendMeter (a : ArmId) : (u.arm a).blendMeter = (s.arm a).blendMeter := by rw [h.arm a]

theorem Woken.boundOrder : u.boundOrder bay = (u.session bay).bound.bind s.findOrder := by
  unfold State.boundOrder; rw [funext h.findOrder]

theorem Woken.verdictFor (c : Compartment) (p : Product) : u.verdictFor c p = s.verdictFor c p := by
  unfold State.verdictFor; rw [h.matrix]

theorem Woken.usableEntries (entries : List (AdditiveEntry × Nat)) :
    u.usableEntries entries = s.usableEntries entries := by
  unfold State.usableEntries; simp only [h.injector]

theorem Woken.productTests (a : ArmId) (code : ProductId) (p : Product) :
    u.productTests a code p = s.productTests a code p := by
  unfold State.productTests
  simp only [h.armProducts, h.armMainMeter, h.armBlendMeter, h.meter]

theorem Woken.recipeTests (a : ArmId) (c : Compartment) (p : Product) : u.recipeTests a c p = s.recipeTests a c p := by
  unfold State.recipeTests
  simp only [h.armMainMeter, h.armBlendMeter, h.meter, h.injector, h.matrix, h.usableEntries]

end

/-- Settles O26: the checks as one list, and the plan where none fails. -/
theorem startChecks : Obligations.StartChecks := by
  rintro s u bay x loadable hu rfl loading hl
  have w : Woken s u bay := hu ▸ s.keyed_woken bay
  have key : exec (.start bay) s = .next (u.loadingKey bay fun s => s.startKey bay) := by rw [hu]; rfl
  have comp : u.loadableComp bay = loadable := by
    rw [hl, State.loadableComp_eq, w.boundOrder]
    cases (u.session bay).bound.bind s.findOrder with
    | none => rfl
    | some io => cases (u.session bay).selected <;> rfl
  refine ⟨fun none => ?_, fun r failed => ?_, fun a b r ha failed => ?_,
    fun a ref c ha esd permissives service idle connected found => ?_⟩
  · unfold State.startChecks
    rw [w.focusArm, none]
  · rw [key, State.loadingKey_eq rfl loading]
    unfold State.startKey
    rw [startChecks_pending _ _ _ rfl, failed]
    exact congrArg Host.Outcome.next (refuse_set r)
  · rw [State.startChecks_checked (w.focusArm.trans ha), w.esd, w.armService, w.batch_isSome, w.armConnected, comp]
    exact checked_failed failed _
  have start : u.startChecks bay = u.productChecks bay a ref c := by
    rw [State.startChecks_checked (w.focusArm.trans ha), w.esd, w.armService, w.batch_isSome, w.armConnected, comp, found]
    simp [checked_cons, checked_nil, esd, permissives, service, idle, connected]
  rw [start]
  refine ⟨fun unknown => ?_, ?_⟩
  · have : u.productOf c = none := by
      unfold State.productOf
      cases hcode : c.product with
      | none => rfl
      | some code => rw [Option.bind_some, w.product, unknown code hcode]; rfl
    unfold State.productChecks
    rw [this]
  rintro code p permit now entries usable failed hcode hp hpermit hnow rfl rfl rfl
  rw [State.productChecks_checked hcode ((w.product code).trans hp) (by rw [funext w.findPermit]; exact hpermit)
    (w.clock.trans hnow), w.productTests, w.recipeTests]
  refine ⟨fun b r first => checked_failed first _, fun passed => ⟨_, checked_passed passed _, rfl, rfl, rfl, rfl,
    decide_eq_true_iff, rfl, rfl, rfl, rfl, rfl, rfl, rfl, u.markEntries_entries _, ?_, ?_⟩⟩
  · exact (u.markEntries_usable _).trans (w.usableEntries _)
  · exact w.verdictFor c p

end Sys2Proof.Machine
end

section
/-! SUPPORT. A START taken (R73, R86): the compartment, the reservations and the batch laid down before the entry to
LOW_START, and what the start makes of the state (`StartedFrom`). -/

namespace Sys2Proof.Machine

/-- A start before its batch's entry to LOW_START: the compartment started, the needs reserved, the batch laid down. -/
def State.laidDown (s : State) (p : StartPlan) : State :=
  ((s.modComp p.ref fun c => c.started p).reserveAll p).modArm p.arm fun r => { r with batch := some (s.newBatch p) }

theorem State.takeStart_eq (s : State) (bay : BayId) (p : StartPlan) : s.takeStart bay p
    = ((s.laidDown p).enterLowStart p.arm (s.newBatch p)).modSession bay fun x => { x with timer := none } := rfl

/-- What a start's reservations leave of an injector (R73, R124). -/
theorem State.reserveAll_injector (s : State) (p : StartPlan) (i : InjectorId) :
    (s.reserveAll p).injector i = { s.injector i with reservations := ((s.reserveAll p).injector i).reservations } ∧
    ((p.snapshot.usable.map (·.entry.injector)).Nodup → ((s.reserveAll p).injector i).reservation p.ref
      = match p.snapshot.usable.find? (fun e => decide (e.entry.injector = i)) with
        | some e => s.need p.target e
        | none => (s.injector i).reservation p.ref) :=
  (reserveAll_fold s p p.snapshot.usable s i).2

theorem State.reserveAll_eq (s : State) (p : StartPlan) :
    s.reserveAll p = { s with injectors := (s.reserveAll p).injectors } :=
  (reserveAll_fold s p p.snapshot.usable s 0).1

/-- The start's own parts, and nothing else. -/
theorem State.laidDown_eq (s : State) (p : StartPlan) : s.laidDown p = { s with
    orders := (s.modComp p.ref fun c => c.started p).orders
    injectors := ((s.modComp p.ref fun c => c.started p).reserveAll p).injectors
    arms := vset s.arms p.arm { s.arm p.arm with batch := some (s.newBatch p) } } := by
  unfold State.laidDown
  have compartment := s.modComp_eq p.ref fun c => c.started p
  generalize s.modComp p.ref (fun c => c.started p) = v at compartment ⊢
  rw [v.reserveAll_eq p, compartment]; rfl

theorem State.laidDown_besides (s : State) (p : StartPlan) : (∀ h, (s.laidDown p).header h = s.header h) ∧
    (s.laidDown p).batch p.arm = some (s.newBatch p) ∧
    (s.laidDown p).arm p.arm = { s.arm p.arm with batch := some (s.newBatch p) } ∧
    ∀ a, a ≠ p.arm → (s.laidDown p).arm a = s.arm a := by
  rw [s.laidDown_eq p]
  have own : vget (vset s.arms p.arm { s.arm p.arm with batch := some (s.newBatch p) }) p.arm
      = { s.arm p.arm with batch := some (s.newBatch p) } := vget_vset_same _ _ _
  exact ⟨fun h => rfl, congrArg Arm.batch own, own, fun a ha => vget_vset_ne _ _ ha⟩

theorem Compartment.started_number (p : StartPlan) (c : Compartment) : (c.started p).number = c.number := by
  unfold Compartment.started; dsimp only; split <;> rfl

/-- A compartment after a start, spelled (R40, R52). -/
theorem Compartment.started_eq (p : StartPlan) (c : Compartment) : c.started p = { c with
    state := .loading, batchCount := c.batchCount + 1, lastArm := some p.arm
    results := startResults p c
    flags := if p.snapshot.verdict = .lowFlow then addTo CompFlag.all .lowFlowOnly c.flags else c.flags } := by
  unfold Compartment.started; dsimp only; split <;> rfl

/-- What a start leaves of an injector: all but the reservation of the compartment, which is the need of its usable
entry there (R73, R124). -/
theorem State.laidDown_injector (s : State) (p : StartPlan) (i : InjectorId) :
    (s.laidDown p).injector i = { s.injector i with reservations := ((s.laidDown p).injector i).reservations } ∧
    ((p.snapshot.usable.map (·.entry.injector)).Nodup → ((s.laidDown p).injector i).reservation p.ref
      = match p.snapshot.usable.find? (fun e => decide (e.entry.injector = i)) with
        | some e => (p.target * e.entry.rate + 9999) / 10000 + (s.injector i).shotVolume
        | none => (s.injector i).reservation p.ref) := by
  have before : ∀ j, (s.modComp p.ref fun c => c.started p).injector j = s.injector j := fun j => by
    rw [s.modComp_eq]; rfl
  obtain ⟨rest, reserved⟩ := (s.modComp p.ref fun c => c.started p).reserveAll_injector p i
  rw [show (s.laidDown p).injector i = ((s.modComp p.ref fun c => c.started p).reserveAll p).injector i from rfl]
  rw [before i] at rest reserved
  refine ⟨rest, fun distinct => (reserved distinct).trans ?_⟩
  cases found : p.snapshot.usable.find? (fun e => decide (e.entry.injector = i)) with
  | none => rfl
  | some e =>
    obtain rfl : e.entry.injector = i := by simpa using List.find?_some found
    exact congrArg (fun j : Injector => _ + j.shotVolume) (before _)

/-- The compartment of the plan is started (R52). -/
theorem State.laidDown_comp (s : State) (p : StartPlan) {o : Order} {c : Compartment} (ho : s.orderOf p.ref = some o)
    (hc : o.comp p.ref.comp = some c) :
    ∃ o', (s.laidDown p).orderOf p.ref = some o' ∧ o'.comp p.ref.comp = some (c.started p) := by
  obtain ⟨order, comp⟩ := s.modComp_at p.ref (fun c => c.started p) (Compartment.started_number p) ho hc
  exact ⟨_, (orderOf_congr (by rw [s.laidDown_eq p]) p.ref).trans order, comp⟩

/-- The state `t` is `s` after a start taken at an arm outside every drawing set (R73, R86, R97). -/
structure State.StartedFrom (t s : State) (bay : BayId) (p : StartPlan) : Prop where
  eq : t = { s with
    orders := t.orders, injectors := t.injectors, arms := t.arms, headers := t.headers
    bays := vset s.bays bay { s.session bay with timer := none } }
  drawing : ∀ h, (t.header h).drawing
    = if h = p.snapshot.mainHeader then addTo allArms p.arm (s.header h).drawing else (s.header h).drawing
  ceilings : t.CeilingsAt p.snapshot.mainHeader
  batch : ∀ c, c = min ((s.header p.snapshot.mainHeader).capacity / (t.header p.snapshot.mainHeader).drawing.length)
      (s.arm p.arm).maxFlow →
    t.batch p.arm = some { (s.newBatch p).atLowStart with ceiling := some c, mainDemand := min (s.arm p.arm).lowFlow c }
  comp : ∀ o c, s.orderOf p.ref = some o → o.comp p.ref.comp = some c →
    ∃ o', t.orderOf p.ref = some o' ∧ o'.comp p.ref.comp = some (c.started p)
  injector : ∀ i, t.injector i = { s.injector i with reservations := (t.injector i).reservations }
  reservation : ∀ i, (p.snapshot.usable.map (·.entry.injector)).Nodup → (t.injector i).reservation p.ref
    = match p.snapshot.usable.find? (fun e => decide (e.entry.injector = i)) with
      | some e => (p.target * e.entry.rate + 9999) / 10000 + (s.injector i).shotVolume
      | none => (s.injector i).reservation p.ref
  others : ∀ a, a ≠ p.arm → State.CeilingResponse s t p.snapshot.mainHeader a

/-- The batch laid down enters LOW_START, and the inactivity limit stops. -/
theorem State.takeStart_spec (s : State) (bay : BayId) (p : StartPlan)
    (outside : p.arm ∉ (s.header p.snapshot.mainHeader).drawing) : (s.takeStart bay p).StartedFrom s bay p := by
  obtain ⟨heads, laid, own, others⟩ := s.laidDown_besides p
  have low := (s.laidDown p).enterLowStart_spec p.arm (s.newBatch p) laid (by rw [heads]; exact outside)
  rw [s.takeStart_eq]
  generalize (s.laidDown p).enterLowStart p.arm (s.newBatch p) = t at low ⊢
  have drawing : ∀ h, (t.header h).drawing = if h = p.snapshot.mainHeader
      then addTo allArms p.arm (s.header h).drawing else (s.header h).drawing := fun h => by
    rw [low.drawing, heads]; rfl
  have injectors : t.injectors = (s.laidDown p).injectors := by rw [low.eq]
  have injector : ∀ i, (t.modSession bay fun x => { x with timer := none }).injector i = (s.laidDown p).injector i :=
    fun i => congrArg (vget · i) injectors
  refine ⟨?_, drawing, low.ceilings, fun c hc => low.batch c ?_ |>.trans (by rw [own]), fun o c ho hc => ?_,
    fun i => ?_, fun i => ?_, fun a ha => (low.others a ha).before (by rw [heads]) (others a ha)⟩
  · unfold State.modSession State.session
    rw [low.eq, s.laidDown_eq p]
  · rw [hc, heads, own]
    show min (_ / (t.header p.snapshot.mainHeader).drawing.length) _ = _
    rw [drawing, if_pos rfl]; rfl
  · obtain ⟨o', order, comp⟩ := s.laidDown_comp p ho hc
    exact ⟨o', (orderOf_congr (by show t.orders = _; rw [low.eq]) p.ref).trans order, comp⟩
  · rw [injector]
    exact (s.laidDown_injector p i).1
  · rw [injector]
    exact (s.laidDown_injector p i).2

/-- Settles O27: the key's first effect reaches neither the plan nor the drawing sets, and the start is taken. -/
theorem startTaken : Obligations.StartTaken := by
  rintro s u bay plan hu loading exactSets taken
  have w : Woken s u bay := hu ▸ s.keyed_woken bay
  have key : exec (.start bay) s = .next (u.loadingKey bay fun s => s.startKey bay) := by rw [hu]; rfl
  have inLoading : (u.session bay).state = .loading := by
    obtain ⟨timer, e⟩ := w.session
    rw [e]; exact loading
  obtain ⟨x, hx⟩ : ∃ x, x = { u.session bay with armPending := false } := ⟨_, rfl⟩
  obtain ⟨v, hv⟩ : ∃ v : State, v = { u with bays := vset u.bays bay x } := ⟨_, rfl⟩
  have passed : v.startChecks bay = .ok plan := by rw [hv, startChecks_pending u bay x hx, taken]
  have started : v.startKey bay = v.takeStart bay plan := by unfold State.startKey; rw [passed]
  obtain ⟨idle, esd⟩ := startChecks_arm passed
  have keeps : Keeps u (v.takeStart bay plan) :=
    (hv ▸ (Keeps.refl u).modSession bay fun _ => x : Keeps u v).takeStart bay plan idle esd
  have header : ∀ h, v.header h = s.header h := fun h => by rw [hv, ← w.header h]; rfl
  have injector : ∀ i, v.injector i = s.injector i := fun i => by rw [hv, ← w.injector i]; rfl
  have arm : ∀ a, v.arm a = u.arm a := fun a => by rw [hv]; rfl
  have orderOf : ∀ r, v.orderOf r = s.orderOf r := orderOf_congr (by rw [hv]; exact w.orders)
  have outside : plan.arm ∉ (v.header plan.snapshot.mainHeader).drawing := by
    rw [header, exactSets]
    rintro ⟨b, hb, -⟩
    have none : s.batch plan.arm = none := by rw [← w.batch_isNone, State.batch, ← arm]; exact idle
    rw [none] at hb; cases hb
  have spec := v.takeStart_spec bay plan outside
  rw [key, State.loadingKey_eq hx (hx ▸ inLoading), ← hv, started]
  generalize v.takeStart bay plan = t at keeps spec ⊢
  obtain ⟨ceiling, hc⟩ : ∃ c, c = min ((s.header plan.snapshot.mainHeader).capacity
      / (t.header plan.snapshot.mainHeader).drawing.length) (s.arm plan.arm).maxFlow := ⟨_, rfl⟩
  refine ⟨t, _, ceiling, rfl, spec.batch ceiling ?_, ?_, fun h => ?_, hc, spec.ceilings, fun o c ho hc => ?_,
    fun i => ?_, ?_, ?_, ?_, ?_, fun a ha => (spec.others a ha).before (by rw [hv]; rfl) (arm a), keeps.same⟩
  · rw [header, arm, w.arm]; exact hc
  · unfold Batch.atLowStart State.newBatch Snapshot.usable
    simp only [injector, arm, w.arm]; rfl
  · rw [spec.drawing, header]
  · obtain ⟨o', order, comp⟩ := spec.comp o c ((orderOf plan.ref).trans ho) hc
    exact ⟨o', order, comp.trans (congrArg some (Compartment.started_eq plan c))⟩
  · have rest := spec.injector i
    have reserved := spec.reservation i
    rw [injector] at rest reserved
    exact ⟨(congrArg Injector.stock rest :), (congrArg Injector.queue rest :), (congrArg Injector.shot rest :),
      (congrArg Injector.state rest :), reserved⟩
  · rw [spec.eq, hv, session_set, hx]
    simp only [vset_vset]
  · rw [spec.eq, hv, ← w.meters]
  · rw [spec.eq, hv, ← w.permits]
  · rw [spec.eq, hv, ← w.flags]

end Sys2Proof.Machine
end

section
/-! SUPPORT. The tenths of a pulse and the metering step (R109, R110, R113, R116, R119): the owner of a tenth, the
credit
of a step, and the blend supervision by its tolerance and its count. -/

namespace Sys2Proof.Machine

/-! ### A batch written -/

/-- The state with the batch of an arm written. -/
def State.setBatch (s : State) (a : ArmId) (b : Batch) : State :=
  { s with arms := vset s.arms a { s.arm a with batch := some b } }

theorem State.arm_setBatch (s : State) (a : ArmId) (b : Batch) :
    (s.setBatch a b).arm a = { s.arm a with batch := some b } :=
  vget_vset_same _ _ _

@[simp] theorem State.batch_setBatch (s : State) (a : ArmId) (b : Batch) : (s.setBatch a b).batch a = some b :=
  congrArg Arm.batch (s.arm_setBatch a b)

theorem State.modBatch_eq_setBatch {s : State} {a : ArmId} {b : Batch} (hb : s.batch a = some b) (f : Batch → Batch) :
    s.modBatch a f = s.setBatch a (f b) := modBatch_set hb f

theorem State.setBatch_setBatch (s : State) (a : ArmId) (b c : Batch) :
    (s.setBatch a b).setBatch a c = s.setBatch a c := by
  unfold State.setBatch
  rw [show ({ s with arms := vset s.arms a { s.arm a with batch := some b } } : State).arm a
    = { s.arm a with batch := some b } from s.arm_setBatch a b]
  simp only [vset_vset]

theorem State.modBatch_setBatch (s : State) (a : ArmId) (b : Batch) (f : Batch → Batch) :
    (s.setBatch a b).modBatch a f = s.setBatch a (f b) := by
  rw [State.modBatch_eq_setBatch (s.batch_setBatch a b), s.setBatch_setBatch]

/-! ### Blend supervision -/

/-- Out of tolerance on either side (R116). -/
theorem outOfRatio_iff (p : BlendPart) (blendGross gross : Nat) : outOfRatio p blendGross gross = true ↔
    p.ratio * gross + p.tolerance * gross < blendGross * 1000 ∨
    blendGross * 1000 + p.tolerance * gross < p.ratio * gross := by
  unfold outOfRatio distance
  rw [decide_eq_true_iff]
  omega

/-- A batch with its count of steps out of tolerance. -/
def Batch.counting (b : Batch) (n : Nat) : Batch := { b with metering := { b.metering with outOfTolerance := n } }

section
variable {s : State} {a : ArmId} {b : Batch} (hb : s.batch a = some b)
include hb

theorem State.superviseBlend_off (off : b.snapshot.blend = none ∨ b.state.flowing = false ∨ b.metering.steps < 2) :
    s.superviseBlend a = s := by
  unfold State.superviseBlend
  rw [hb]
  dsimp only
  split
  · rfl
  · rename_i p blended
    rw [if_neg]
    rintro ⟨flowing, steps⟩
    rcases off with none | still | few
    · rw [none] at blended; cases blended
    · rw [flowing] at still; cases still
    · omega

variable {p : BlendPart} (blended : b.snapshot.blend = some p) (flowing : b.state.flowing = true)
  (steps : 2 ≤ b.metering.steps)
include blended flowing steps

/-- The supervision of a batch that flows past its first step, by the count it comes to (R116). -/
theorem State.superviseBlend_on {n : Nat}
    (hn : n = if outOfRatio p b.blendGross b.gross then b.metering.outOfTolerance + 1 else 0) : s.superviseBlend a
      = if 3 ≤ n then (s.setBatch a (b.counting 0)).handCause a .blend else s.setBatch a (b.counting n) := by
  unfold State.superviseBlend
  rw [hb]
  dsimp only
  rw [blended]
  dsimp only
  rw [if_pos ⟨flowing, steps⟩, ← hn, State.modBatch_eq_setBatch hb, State.modBatch_eq_setBatch hb]; rfl

theorem State.superviseBlend_within (within : outOfRatio p b.blendGross b.gross = false) :
    s.superviseBlend a = s.setBatch a (b.counting 0) := by
  rw [State.superviseBlend_on hb blended flowing steps rfl, within]; rfl

theorem State.superviseBlend_counts (out : outOfRatio p b.blendGross b.gross = true)
    (few : b.metering.outOfTolerance < 2) :
    s.superviseBlend a = s.setBatch a (b.counting (b.metering.outOfTolerance + 1)) := by
  rw [State.superviseBlend_on hb blended flowing steps rfl, out, if_pos rfl, if_neg (by omega)]

theorem State.superviseBlend_holds (out : outOfRatio p b.blendGross b.gross = true)
    (third : 2 ≤ b.metering.outOfTolerance) :
    s.superviseBlend a = (s.setBatch a (b.counting 0)).handCause a .blend := by
  rw [State.superviseBlend_on hb blended flowing steps rfl, out, if_pos rfl, if_pos (by omega)]

end

/-! ### The metering step -/

/-- A batch after the credit of a step: the net added, the step begun anew, one step more (R113). -/
def Batch.stepped (b : Batch) (net : Nat) : Batch :=
  { b with net := b.net + net
           metering := { b.metering with stepMain := 0, stepBlend := 0, steps := b.metering.steps + 1 } }

/-- The state after the credit of a step, before the blend supervision (R113). -/
def State.stepCredited (s : State) (a : ArmId) (b : Batch) : State :=
  ({ s with orders := (s.modComp b.ref fun c => c.credit (s.creditNow a b)).orders } : State).setBatch a
    (b.stepped (s.creditNow a b).net)

theorem State.meteringStep_eq {s : State} {a : ArmId} {b : Batch} (hb : s.batch a = some b) :
    s.meteringStep a = (s.stepCredited a b).superviseBlend a := by
  unfold State.meteringStep State.makeCredit State.stepCredited
  rw [hb]
  dsimp only
  have credit := s.modComp_eq b.ref fun c => c.credit (s.creditNow a b)
  generalize s.modComp b.ref (fun c => c.credit (s.creditNow a b)) = v at credit ⊢
  have hv : v.batch a = some b := by rw [credit]; exact hb
  rw [State.modBatch_eq_setBatch hv, State.modBatch_setBatch]
  exact congrArg (fun w : State => (w.setBatch a (b.stepped _)).superviseBlend a) credit

/-- The credit of a compartment, spelled (R39, R53, R113). -/
theorem Compartment.credit_eq (c : Compartment) (k : Credit) : c.credit k = { c with
    gross := min 999999 (c.gross + k.gross), net := min 999999 (c.net + k.net), tempSum := c.tempSum + k.increment
    flags := if k.substituted then addTo CompFlag.all .tempSubstituted c.flags else c.flags } := by
  unfold Compartment.credit
  dsimp only
  split <;> rfl

/-! ### A tenth and its owner -/

/-- A tenth on a meter that no batch has bound (R119). -/
theorem State.creditUnauthorized_eq (s : State) (m : MeterId) {volume : Nat}
    (hv : volume = min 9999999 ((s.meter m).unauthorized + 1)) : s.creditUnauthorized m = { s with
      meters := vset s.meters m { s.meter m with
        unauthorized := volume, unauthorizedFlag := (s.meter m).unauthorizedFlag || decide (50 < volume) }
      flags := if 50 < volume ∧ (s.meter m).unauthorizedFlag = false then addTo EventFlag.all .unauthFlow s.flags
        else s.flags } := by
  unfold State.creditUnauthorized
  dsimp only
  rw [← hv]
  by_cases first : 50 < volume ∧ (s.meter m).unauthorizedFlag = false
  · obtain ⟨past, unset⟩ := first
    rw [if_pos ⟨past, by rw [unset]; rfl⟩, if_pos ⟨past, unset⟩, decide_eq_true past, Bool.or_true]; rfl
  · have kept : ((s.meter m).unauthorizedFlag || decide (50 < volume)) = (s.meter m).unauthorizedFlag := by
      cases flag : (s.meter m).unauthorizedFlag with
      | true => rfl
      | false => exact decide_eq_false fun past => first ⟨past, flag⟩
    rw [if_neg (by rwa [Bool.not_eq_true']), if_neg first, kept]; rfl

theorem State.produceTenth_unbound {s : State} {m : MeterId} (h : s.boundTo m = none) : s.produceTenth m
    = (s.modMeter m fun x => { x with totalizer := min (2 ^ 48 - 1) (x.totalizer + 1) }).creditUnauthorized m := by
  unfold State.produceTenth
  dsimp only
  rw [show (s.modMeter m _).boundTo m = none from h]

theorem State.produceTenth_bound {s : State} {m : MeterId} {a : ArmId} {role : Role}
    (h : s.boundTo m = some (a, role)) :
    s.produceTenth m
      = (s.modMeter m fun x => { x with totalizer := min (2 ^ 48 - 1) (x.totalizer + 1) }).creditTenth a role := by
  unfold State.produceTenth
  dsimp only
  rw [show (s.modMeter m _).boundTo m = some (a, role) from h]

theorem State.stepComplete_eq {s : State} {a : ArmId} {b : Batch} (hb : s.batch a = some b) :
    s.stepComplete a = decide (100 ≤ b.metering.stepMain) := by
  unfold State.stepComplete
  rw [hb]; rfl

/-- A tenth counted by the role of its meter, taken by the arm, and its shot points tested (R110). -/
def State.tenthTaken (s : State) (a : ArmId) (b : Batch) (role : Role) : State :=
  ((s.setBatch a (b.countTenth role)).addTenth a).testPoints a

theorem State.tenthTaken_batch (s : State) (a : ArmId) (b : Batch) (role : Role) :
    ∃ b', (s.tenthTaken a b role).batch a = some b' := by
  have kept : CoreKept _ (s.tenthTaken a b role) := (coreKept_profile _ a).trans (coreKept_testPoints _ a)
  obtain ⟨b', hb', -⟩ := coreKept_some kept.core (by rw [State.modBatch_setBatch]; exact State.batch_setBatch _ _ _)
  exact ⟨b', hb'⟩

/-- A tenth of a batch, with a metering step where it completes one (R110). -/
theorem State.creditTenth_eq {s : State} {a : ArmId} {b b' : Batch} {role : Role} (hb : s.batch a = some b)
    (hb' : (s.tenthTaken a b role).batch a = some b') : s.creditTenth a role
      = if 100 ≤ b'.metering.stepMain then (s.tenthTaken a b role).meteringStep a else s.tenthTaken a b role := by
  unfold State.creditTenth
  rw [State.modBatch_eq_setBatch hb]
  dsimp only
  rw [show (((s.setBatch a (b.countTenth role)).addTenth a).testPoints a) = s.tenthTaken a b role from rfl,
    State.stepComplete_eq hb']
  simp only [decide_eq_true_iff]

/-! ### The figures of a credit -/

section
variable {s : State} {a : ArmId} {b : Batch} {m : MeterId} {g : Nat} (hm : (s.arm a).mainMeter = some m)
  (hg : g = b.metering.stepMain + b.metering.stepBlend)
include hm hg

/-- A credit under a valid line temperature (R112, R113). -/
theorem State.creditNow_valid {t : Int} (probe : (s.meter m).probe = true) (valid : (s.meter m).probeState = .valid)
    (last : (s.meter m).lastTemp = some t) : s.creditNow a b = {
      gross := g, increment := t * g, substituted := false
      net := (2 * (g * correctionFactor b.snapshot.correction t) + 10000) / 20000 } :=
  s.creditNow_eq a b g (some t) hg (by rw [hm, Option.bind_some, if_pos ⟨probe, valid⟩, last])

/-- A credit substituted: factor 10000 at 15.0 °C (R112, R113). -/
theorem State.creditNow_invalid (invalid : (s.meter m).probe = false ∨ (s.meter m).probeState ≠ .valid) :
    s.creditNow a b = { gross := g, net := g, increment := 150 * g, substituted := true } := by
  refine s.creditNow_eq a b g none hg ?_
  rw [hm, Option.bind_some, if_neg]
  rintro ⟨probe, valid⟩
  rcases invalid with e | e
  · rw [probe] at e; cases e
  · exact e valid

end

/-- Settles O44: the figures of a credit, the tenths one by one, a tenth by its owner, and the step by its
supervision. -/
theorem tenthsAndMeteringSteps : Obligations.TenthsAndMeteringSteps := by
  refine ⟨fun s a b m g hm hg => ⟨fun t => State.creditNow_valid hm hg, State.creditNow_invalid hm hg⟩,
    fun s m => ⟨rfl, fun n => rfl⟩,
    fun s u m x y hx hy hu => ⟨fun unbound volume hv => ?_, fun a role b bound hb => ?_⟩,
    fun s a b g net temp hb hg ht hn => ?_⟩
  · subst hx hy hv
    have total : (s.modMeter m fun x => { x with totalizer := min (2 ^ 48 - 1) (x.totalizer + 1) }) = u := hu.symm
    have own : u.meter m = { s.meter m with totalizer := min (2 ^ 48 - 1) ((s.meter m).totalizer + 1) } := by
      rw [hu]; exact vget_vset_same _ _ _
    rw [State.produceTenth_unbound unbound, total, State.creditUnauthorized_eq u m rfl, own, hu]
    simp only [vset_vset]
  · subst hx hy
    have total : (s.modMeter m fun x => { x with totalizer := min (2 ^ 48 - 1) (x.totalizer + 1) }) = u := hu.symm
    have hb' : u.batch a = some b := hu ▸ hb
    obtain ⟨b', taken⟩ := u.tenthTaken_batch a b role
    rw [State.produceTenth_bound bound, total, State.creditTenth_eq hb' taken]
    refine ⟨b.countTenth role, u.tenthTaken a b role, b', fun e => e ▸ rfl, fun e => e ▸ rfl, ?_, taken,
      fun short => if_neg (Nat.not_le.mpr short), fun complete => if_pos complete⟩
    rw [hu]; rfl
  · have figures : s.creditNow a b
        = { gross := g, net := net, increment := temp.getD 150 * g, substituted := temp.isNone } := by
      rw [s.creditNow_eq a b g temp hg ht, hn]
      cases temp <;> rfl
    have credited : (s.creditNow a b).net = net := congrArg Credit.net figures
    obtain ⟨u, hu⟩ : ∃ u, u = s.stepCredited a b := ⟨_, rfl⟩
    have stepped : u.batch a = some (b.stepped net) := by rw [hu, ← credited]; exact State.batch_setBatch _ _ _
    have written : ∀ n, u.setBatch a ((b.stepped net).counting n) = { u with
        arms := vset s.arms a { s.arm a with batch := some ((b.stepped net).counting n) } } := fun n => by
      rw [hu]; exact State.setBatch_setBatch _ _ _ _
    rw [State.meteringStep_eq hb, ← hu]
    refine ⟨u, fun n => (b.stepped net).counting n, fun n => rfl, ?_, ?_, fun off => ?_, fun p blended flowing second =>
      ⟨fun below above => ?_, fun out => ⟨fun few => ?_, fun third => ?_⟩⟩⟩
    · rw [hu, ← credited]; rfl
    · have changed := (s.compChanged_modComp b.ref fun c => c.credit (s.creditNow a b)).congr (u := u) (by rw [hu]; rfl)
      rw [figures] at changed
      simpa only [Compartment.credit_eq, Option.isNone_iff_eq_none] using changed
    · refine State.superviseBlend_off stepped (off.imp id (Or.imp id fun first => ?_))
      show b.metering.steps + 1 < 2
      omega
    · rw [← written]
      refine State.superviseBlend_within stepped blended flowing (Nat.succ_le_succ second) ?_
      rw [← Bool.not_eq_true, outOfRatio_iff]
      exact not_or.mpr ⟨Nat.not_lt.mpr below, Nat.not_lt.mpr above⟩
    · rw [← written]
      exact State.superviseBlend_counts stepped blended flowing (Nat.succ_le_succ second)
        ((outOfRatio_iff ..).mpr out) few
    · rw [State.superviseBlend_holds stepped blended flowing (Nat.succ_le_succ second) ((outOfRatio_iff ..).mpr out)
        third, ← written]
      exact State.handCause_heldFrom _ a _ .blend (State.batch_setBatch _ _ _) flowing

end Sys2Proof.Machine
end

section
/-! SUPPORT. The volume correction factor of a temperature (R27): its rounding, its value between two points, and where
it lies in the table. -/

namespace Sys2Proof.Machine

/-! ### Rounding a half away from zero -/

/-- The rounded quotient, times the divisor, lies within half a divisor of the number, and past it where it lies at
half (R27). -/
theorem roundHalfAway_nearest (n : Int) {d : Nat} (hd : 0 < d) :
    2 * (roundHalfAway n d * d - n).natAbs ≤ d ∧
    (2 * (roundHalfAway n d * d - n).natAbs = d → n.natAbs < (roundHalfAway n d * d).natAbs) := by
  obtain ⟨q, hq⟩ : ∃ q, q = (2 * n.natAbs + d) / (2 * d) := ⟨_, rfl⟩
  have low : 2 * (q * d) ≤ 2 * n.natAbs + d := by
    have := Nat.div_mul_le_self (2 * n.natAbs + d) (2 * d)
    rw [← hq] at this; linarith
  have high : 2 * n.natAbs + d < 2 * (q * d) + 2 * d := by
    have := Nat.lt_mul_div_succ (2 * n.natAbs + d) (show 0 < 2 * d by omega)
    rw [← hq] at this; linarith
  have product : roundHalfAway n d * d = if 0 ≤ n then ((q * d : Nat) : Int) else -((q * d : Nat) : Int) := by
    unfold roundHalfAway
    rw [← hq]
    split <;> push_cast <;> ring
  rw [product]
  generalize q * d = m at low high
  split <;> omega

/-- A part of a rise, rounded, lies between nothing and the rise. -/
theorem roundHalfAway_between (k m : Int) {d : Nat} (hd : 0 < d) (h0 : 0 ≤ m) (hm : m ≤ d) :
    min 0 k ≤ roundHalfAway (k * m) d ∧ roundHalfAway (k * m) d ≤ max 0 k := by
  obtain ⟨q, hq⟩ : ∃ q, q = (2 * (k * m).natAbs + d) / (2 * d) := ⟨_, rfl⟩
  have bound : q ≤ k.natAbs := by
    rw [hq, Int.natAbs_mul]
    refine Nat.lt_succ_iff.mp ((Nat.div_lt_iff_lt_mul (by omega)).mpr ?_)
    have : k.natAbs * m.natAbs ≤ k.natAbs * d := Nat.mul_le_mul_left _ (by omega)
    rw [Nat.succ_mul]
    nlinarith
  unfold roundHalfAway
  rw [← hq]
  rcases le_or_gt 0 k with up | down
  · rw [if_pos (mul_nonneg up h0)]
    omega
  · split
    · rename_i h
      have : k * m = 0 := le_antisymm (mul_nonpos_of_nonpos_of_nonneg down.le h0) h
      rw [this] at hq
      have : q = 0 := by rw [hq]; exact Nat.div_eq_of_lt (by simp; omega)
      omega
    · omega

/-! ### Between two points -/

/-- The factor that two adjacent points give a temperature between them (R27). -/
def interpolated (lower upper : CorrectionPoint) (t : Int) : Nat :=
  ((lower.factor : Int) + roundHalfAway (((upper.factor : Int) - lower.factor) * (t - lower.temperature))
    (upper.temperature - lower.temperature).toNat).toNat

theorem interpolated_lower (lower upper : CorrectionPoint) :
    interpolated lower upper lower.temperature = lower.factor := by
  have level : roundHalfAway 0 (upper.temperature - lower.temperature).toNat = 0 := by
    unfold roundHalfAway
    rw [if_pos le_rfl]
    rcases Nat.eq_zero_or_pos (upper.temperature - lower.temperature).toNat with h | h
    · rw [h]; rfl
    · rw [Nat.div_eq_of_lt (by simp; omega)]; rfl
  unfold interpolated
  rw [sub_self, mul_zero, level]
  omega

section
variable {lower upper : CorrectionPoint} {t : Int} (above : lower.temperature ≤ t) (below : t < upper.temperature)
include above below

/-- The rise between two points, and its bounds. -/
theorem interpolated_rise : ∃ rise,
    rise = roundHalfAway (((upper.factor : Int) - lower.factor) * (t - lower.temperature))
      (upper.temperature - lower.temperature).toNat ∧ (interpolated lower upper t : Int) = lower.factor + rise ∧
    min lower.factor upper.factor ≤ interpolated lower upper t ∧
    interpolated lower upper t ≤ max lower.factor upper.factor := by
  have bounds := roundHalfAway_between ((upper.factor : Int) - lower.factor) (t - lower.temperature)
    (d := (upper.temperature - lower.temperature).toNat) (by omega) (by omega) (by omega)
  unfold interpolated
  generalize roundHalfAway _ _ = rise at bounds
  refine ⟨rise, rfl, ?_⟩
  omega

end

/-! ### Places in the table -/

/-- Correction points in ascending order of temperature (R21). -/
def Ascending (points : List CorrectionPoint) : Prop := (points.map (·.temperature)).Pairwise (· < ·)

theorem Ascending.tail {p : CorrectionPoint} {rest : List CorrectionPoint} (h : Ascending (p :: rest)) :
    Ascending rest :=
  (List.pairwise_cons.mp h).2

theorem Ascending.head_lt {p q : CorrectionPoint} {rest : List CorrectionPoint} (h : Ascending (p :: rest))
    (hq : q ∈ rest) :
    p.temperature < q.temperature :=
  (List.pairwise_cons.mp h).1 _ (List.mem_map_of_mem hq)

theorem Ascending.head_le {p q : CorrectionPoint} {rest : List CorrectionPoint} (h : Ascending (p :: rest))
    (hq : q ∈ p :: rest) : p.temperature ≤ q.temperature := by
  rcases List.mem_cons.mp hq with rfl | hq
  · exact le_rfl
  · exact (h.head_lt hq).le

/-- Behind a point not above the temperature the search goes on. -/
theorem factorFrom_next {t : Int} {lower upper : CorrectionPoint} {rest : List CorrectionPoint}
    (h : upper.temperature ≤ t) :
    factorFrom t lower (upper :: rest) = factorFrom t upper rest := if_neg (not_lt.mpr h)

theorem factorFrom_between {t : Int} {lower upper : CorrectionPoint} {after : List CorrectionPoint}
    (above : lower.temperature ≤ t) (below : t < upper.temperature) (before : List CorrectionPoint) :
    ∀ first rest, first :: rest = before ++ lower :: upper :: after → Ascending (first :: rest) →
      factorFrom t first rest = interpolated lower upper t := by
  induction before with
  | nil =>
    rintro first rest ⟨⟩ -
    exact if_pos below
  | cons p before ih =>
    rintro first rest e ascending
    have behind : rest = before ++ lower :: upper :: after := (List.cons.inj e).2
    cases rest with
    | nil => simp at behind
    | cons q rest =>
      have next : q.temperature ≤ t := (ascending.tail.head_le (by rw [behind]; simp)).trans above
      rw [factorFrom_next next]
      exact ih q rest behind ascending.tail

theorem factorFrom_last {t : Int} {last : CorrectionPoint} (reached : last.temperature ≤ t)
    (rest : List CorrectionPoint) :
    ∀ first, last ∈ (first :: rest).getLast? → Ascending (first :: rest) → factorFrom t first rest = last.factor := by
  induction rest with
  | nil =>
    rintro first ⟨⟩ -
    rfl
  | cons q rest ih =>
    intro first hl ascending
    rw [List.getLast?_cons_cons] at hl
    rw [factorFrom_next ((ascending.tail.head_le (List.mem_of_getLast? hl)).trans reached)]
    exact ih q hl ascending.tail

theorem factorFrom_range {t : Int} {lo hi : Nat} (rest : List CorrectionPoint) :
    ∀ first : CorrectionPoint, first.temperature ≤ t → (∀ p ∈ first :: rest, lo ≤ p.factor ∧ p.factor ≤ hi) →
      lo ≤ factorFrom t first rest ∧ factorFrom t first rest ≤ hi := by
  induction rest with
  | nil => exact fun first _ range => range first (by simp)
  | cons q rest ih =>
    intro first above range
    by_cases below : t < q.temperature
    · obtain ⟨-, -, -, least, most⟩ := interpolated_rise above below
      have hf := range first (by simp)
      have hq := range q (by simp)
      rw [show factorFrom t first (q :: rest) = interpolated first q t from if_pos below]
      omega
    · rw [factorFrom_next (not_lt.mp below)]
      exact ih q (not_lt.mp below) fun p hp => range p (List.mem_cons_of_mem _ hp)

/-! ### The factor of a table -/

section
variable {points : List CorrectionPoint} {t : Int}

theorem correctionFactor_first {p : CorrectionPoint} (hp : p ∈ points.head?) (h : t ≤ p.temperature) :
    correctionFactor points t = p.factor := by
  cases points with
  | nil => cases hp
  | cons q rest =>
    cases hp
    exact if_pos h

theorem correctionFactor_range {lo hi : Nat} (nonempty : points ≠ [])
    (range : ∀ p ∈ points, lo ≤ p.factor ∧ p.factor ≤ hi) :
    lo ≤ correctionFactor points t ∧ correctionFactor points t ≤ hi := by
  cases points with
  | nil => exact absurd rfl nonempty
  | cons p rest =>
    unfold correctionFactor
    dsimp only
    split
    · exact range p (by simp)
    · exact factorFrom_range rest p (by omega) range

variable (ascending : Ascending points)
include ascending

theorem correctionFactor_last {p : CorrectionPoint} (hp : p ∈ points.getLast?) (h : p.temperature ≤ t) :
    correctionFactor points t = p.factor := by
  cases points with
  | nil => cases hp
  | cons q rest =>
    unfold correctionFactor
    dsimp only
    split
    · rename_i low
      rcases List.mem_cons.mp (List.mem_of_getLast? hp) with rfl | later
      · rfl
      · exact absurd (ascending.head_lt later) (by omega)
    · exact factorFrom_last h rest q hp ascending

theorem correctionFactor_between {before after : List CorrectionPoint} {lower upper : CorrectionPoint}
    (e : points = before ++ lower :: upper :: after) (above : lower.temperature ≤ t) (below : t < upper.temperature) :
    correctionFactor points t = interpolated lower upper t := by
  cases points with
  | nil => simp at e
  | cons q rest =>
    have member : lower ∈ q :: rest := by rw [e]; simp
    unfold correctionFactor
    dsimp only
    split
    · rename_i low
      rcases List.mem_cons.mp member with rfl | later
      · rw [show t = lower.temperature by omega, interpolated_lower]
      · exact absurd (ascending.head_lt later) (by omega)
    · exact factorFrom_between above below before q rest e ascending

theorem correctionFactor_at {p : CorrectionPoint} (hp : p ∈ points) :
    correctionFactor points p.temperature = p.factor := by
  obtain ⟨before, after, e⟩ := List.append_of_mem hp
  cases after with
  | nil => exact correctionFactor_last ascending (by rw [e]; simp) le_rfl
  | cons upper after =>
    have next : p.temperature < upper.temperature := by
      unfold Ascending at ascending
      rw [e, List.map_append, List.pairwise_append] at ascending
      exact (Ascending.head_lt (show Ascending (p :: upper :: after) from ascending.2.1) (by simp))
    rw [correctionFactor_between ascending e le_rfl next, interpolated_lower]

end

/-- Settles O18: the figures of a credit, and the factor by the place of the temperature in the table. -/
theorem correctionFactor_spec : Obligations.CorrectionFactor := by
  refine ⟨fun s a b m g hm hg => ⟨fun t probe valid last => ?_, fun invalid => ?_⟩, fun points t ascending range =>
    ⟨fun p => correctionFactor_first, fun p => correctionFactor_last ascending, fun p => correctionFactor_at ascending,
      fun nonempty => correctionFactor_range nonempty range,
      fun before lower upper after e above below d n hd hn => ?_⟩⟩
  · rw [State.creditNow_valid hm hg probe valid last]
  · rw [State.creditNow_invalid hm hg invalid]
    show g = _
    omega
  · obtain rfl : d = (upper.temperature - lower.temperature).toNat := by omega
    obtain ⟨rise, hr, value, least, most⟩ := interpolated_rise above below
    rw [← hn] at hr
    have nearest := roundHalfAway_nearest n (d := (upper.temperature - lower.temperature).toNat) (by omega)
    rw [← hr] at nearest
    rw [correctionFactor_between ascending e above below]
    exact ⟨rise, value, nearest.1, nearest.2, least, most⟩

end Sys2Proof.Machine
end

section
/-! SUPPORT. The requests to the Product Table (R21 to R24, R28): the checks of a record by its fields, the entries of a
matrix row, and the use of a product. -/

namespace Sys2Proof.Machine

/-! ### Lists and ranges checked -/

theorem mapM_option_eq_some {α β : Type} {g : α → Option β} {l : List α} {m : List β} :
    l.mapM g = some m ↔ l.map g = m.map some := by
  induction l generalizing m with
  | nil => cases m <;> simp
  | cons x l ih =>
    simp only [List.mapM_cons, bind, Option.bind_eq_some_iff, pure, Option.some.injEq, ih]
    cases m with
    | nil => simp
    | cons y m => simp

/-- A list passes where each of its members does. -/
theorem mapM_option_isSome {α β : Type} {g : α → Option β} {l : List α} :
    (l.mapM g).isSome = true ↔ ∀ x ∈ l, (g x).isSome = true := by
  induction l with
  | nil => simp
  | cons x l ih =>
    rw [List.forall_mem_cons, ← ih, List.mapM_cons]
    cases g x with
    | none => simp
    | some y => cases List.mapM g l <;> simp

/-- A check that gives what its fields spell, member by member. -/
theorem map_of_mapM {α β : Type} {g : α → Option β} {spell : β → α} (h : ∀ x y, g x = some y → spell y = x) {l : List α}
    {m : List β} (e : l.mapM g = some m) : m.map spell = l := by
  rw [mapM_option_eq_some] at e
  induction l generalizing m with
  | nil => cases m <;> simp_all
  | cons x l ih =>
    cases m with
    | nil => cases e
    | cons y m =>
      obtain ⟨hx, hl⟩ := List.cons.inj e
      rw [List.map_cons, h x y hx, ih hl]

theorem numbered_isSome {n k : Nat} : (numbered n k).isSome = true ↔ 1 ≤ k ∧ k ≤ n := by
  unfold numbered; split <;> simp_all

theorem coded_isSome {n k : Nat} : (coded n k).isSome = true ↔ k < n := by
  unfold coded; split <;> simp_all

theorem glyphsOf_isSome {max : Nat} {raw : List Nat} :
    (glyphsOf max raw).isSome = true ↔ 1 ≤ raw.length ∧ raw.length ≤ max ∧ ∀ g ∈ raw, g < 64 := by
  rw [Option.isSome_iff_exists]
  simp only [glyphsOf_eq_some, exists_and_left, exists_map_val_iff, and_assoc]

theorem num_injective {n : Nat} : Function.Injective (num : Fin n → Nat) := fun _ _ h => Fin.ext (Nat.succ.inj h)

/-! ### The parts of a product record -/

/-- A blend part as a PRODUCT_PUT spells it. -/
def BlendPart.fields (b : BlendPart) : Nat × Nat × Nat := (num b.header, b.ratio, b.tolerance)

theorem checkedBlend_fields {main : HeaderId} {raw : Option (Nat × Nat × Nat)} {blend : Option BlendPart}
    (h : checkedBlend main raw = some blend) : blend.map BlendPart.fields = raw := by
  unfold checkedBlend at h
  split at h
  · cases h; rfl
  · rename_i k ratio tolerance
    split at h
    · rename_i header hk
      split at h
      · cases h
        rw [numbered_eq_some] at hk
        rw [hk]; rfl
      · cases h
    · cases h

theorem checkedBlend_isSome {main : HeaderId} {raw : Option (Nat × Nat × Nat)} :
    (checkedBlend main raw).isSome = true ↔ ∀ h ratio tol, raw = some (h, ratio, tol) →
      (1 ≤ h ∧ h ≤ 4) ∧ h ≠ num main ∧ (10 ≤ ratio ∧ ratio ≤ 500) ∧ (1 ≤ tol ∧ tol ≤ 50) := by
  unfold checkedBlend
  split
  · simp
  · rename_i k ratio tol
    have raw : (∀ h r t, some (k, ratio, tol) = some (h, r, t) →
        (1 ≤ h ∧ h ≤ 4) ∧ h ≠ num main ∧ (10 ≤ r ∧ r ≤ 500) ∧ (1 ≤ t ∧ t ≤ 50)) ↔
        (1 ≤ k ∧ k ≤ 4) ∧ k ≠ num main ∧ (10 ≤ ratio ∧ ratio ≤ 500) ∧ (1 ≤ tol ∧ tol ≤ 50) :=
      ⟨fun all => all _ _ _ rfl, fun one h r t e => by cases e; exact one⟩
    rw [raw, ← numbered_isSome]
    split
    · rename_i header hk
      rw [numbered_eq_some] at hk
      subst hk
      simp [numbered_num, inRange_eq_true, num_injective.eq_iff]
    · rename_i hk
      simp [hk]

/-- An additive entry as a PRODUCT_PUT spells it. -/
def AdditiveEntry.fields (e : AdditiveEntry) : AdditiveFields :=
  ⟨num e.injector, e.rate, e.requirement, e.tolerance⟩

theorem AdditiveFields.checked_fields {f : AdditiveFields} {e : AdditiveEntry} (h : f.checked = some e) :
    e.fields = f := by
  unfold AdditiveFields.checked at h
  split at h
  · rename_i injector hi
    split at h
    · cases h
      rw [numbered_eq_some] at hi
      unfold AdditiveEntry.fields
      rw [← hi]
    · cases h
  · cases h

theorem AdditiveFields.checked_isSome {f : AdditiveFields} : f.checked.isSome = true ↔
    (1 ≤ f.injector ∧ f.injector ≤ 8) ∧ (1 ≤ f.rate ∧ f.rate ≤ 5000) ∧ (1 ≤ f.tolerance ∧ f.tolerance ≤ 20) := by
  unfold AdditiveFields.checked
  rw [← numbered_isSome]
  split
  · rename_i injector hi
    simp [hi, inRange_eq_true]
  · rename_i hi
    simp [hi]

theorem increasing_iff (points : List CorrectionPoint) : increasing points = true ↔ Ascending points := by
  unfold Ascending
  rw [← List.isChain_iff_pairwise]
  induction points with
  | nil => simp [increasing]
  | cons p rest ih =>
    cases rest with
    | nil => simp [increasing]
    | cons q rest => simp [increasing, ih]

theorem checkedCorrection_eq_some {points table : List CorrectionPoint} : checkedCorrection points = some table ↔
    ((2 ≤ points.length ∧ points.length ≤ 8) ∧ (∀ p ∈ points, (-400 ≤ p.temperature ∧ p.temperature ≤ 600) ∧
      (9000 ≤ p.factor ∧ p.factor ≤ 11000)) ∧ Ascending points) ∧ table = points := by
  have checks : (inRange 2 8 points.length && increasing points && points.all fun p =>
      decide (-400 ≤ p.temperature ∧ p.temperature ≤ 600) && inRange 9000 11000 p.factor) = true ↔
      (2 ≤ points.length ∧ points.length ≤ 8) ∧ (∀ p ∈ points, (-400 ≤ p.temperature ∧ p.temperature ≤ 600) ∧
        (9000 ≤ p.factor ∧ p.factor ≤ 11000)) ∧ Ascending points := by
    simp only [Bool.and_eq_true, inRange_eq_true, increasing_iff, List.all_eq_true, decide_eq_true_iff]
    exact ⟨fun ⟨⟨length, ascending⟩, ranges⟩ => ⟨length, ranges, ascending⟩,
      fun ⟨length, ranges, ascending⟩ => ⟨⟨length, ascending⟩, ranges⟩⟩
  rw [← checks]
  unfold checkedCorrection
  split
  · rename_i passed
    exact ⟨fun h => ⟨passed, (Option.some.inj h).symm⟩, fun h => congrArg some h.2.symm⟩
  · rename_i failed
    exact ⟨nofun, fun h => absurd h.1 failed⟩

/-! ### PRODUCT_PUT -/

/-- The checks of R21, part by part. -/
theorem ProductFields.checked_eq_some {f : ProductFields} {code : ProductId} {p : Product} :
    f.checked = some (code, p) ↔ numbered 32 f.code = some code ∧ glyphsOf 12 f.name = some p.name ∧
      coded 8 f.cls = some p.cls ∧ coded 8 f.group = some p.group ∧ numbered 4 f.mainHeader = some p.mainHeader ∧
      checkedBlend p.mainHeader f.blend = some p.blend ∧ f.additives.mapM AdditiveFields.checked = some p.additives ∧
      checkedCorrection f.correction = some p.correction ∧ p.additives.length ≤ 3 ∧
      (p.additives.map (·.injector)).Nodup := by
  rw [ProductFields.checked]
  simp only [bind, Option.bind_eq_some_iff]
  constructor
  · rintro ⟨code', hcode, name, hname, cls, hcls, group, hgroup, header, hheader, blend, hblend, additives, hadditives,
      correction, hcorrection, h⟩
    split at h
    · rename_i few
      cases h
      exact ⟨hcode, hname, hcls, hgroup, hheader, hblend, hadditives, hcorrection, few⟩
    · cases h
  · rintro ⟨hcode, hname, hcls, hgroup, hheader, hblend, hadditives, hcorrection, few⟩
    exact ⟨code, hcode, _, hname, _, hcls, _, hgroup, _, hheader, _, hblend, _, hadditives, _, hcorrection, if_pos few⟩

/-- The injectors of additive entries, one each, and one each as their fields spell them. -/
theorem nodup_injectors {entries : List AdditiveEntry} {raw : List AdditiveFields}
    (h : entries.map AdditiveEntry.fields = raw) :
    (entries.map (·.injector)).Nodup ↔ (raw.map (·.injector)).Nodup := by
  rw [← h, List.map_map, show (fun f : AdditiveFields => f.injector) ∘ AdditiveEntry.fields
    = num ∘ (·.injector) from rfl, ← List.map_map, List.nodup_map_iff num_injective]

theorem ProductFields.checked_isSome (f : ProductFields) : f.checked.isSome = true ↔
    (1 ≤ f.code ∧ f.code ≤ 32) ∧ (1 ≤ f.name.length ∧ f.name.length ≤ 12 ∧ ∀ g ∈ f.name, g < 64) ∧
    f.cls ≤ 7 ∧ f.group ≤ 7 ∧ (1 ≤ f.mainHeader ∧ f.mainHeader ≤ 4) ∧
    (∀ h ratio tol, f.blend = some (h, ratio, tol) →
      (1 ≤ h ∧ h ≤ 4) ∧ h ≠ f.mainHeader ∧ (10 ≤ ratio ∧ ratio ≤ 500) ∧ (1 ≤ tol ∧ tol ≤ 50)) ∧
    f.additives.length ≤ 3 ∧ (∀ e ∈ f.additives, (1 ≤ e.injector ∧ e.injector ≤ 8) ∧ (1 ≤ e.rate ∧ e.rate ≤ 5000) ∧
      (1 ≤ e.tolerance ∧ e.tolerance ≤ 20)) ∧ (f.additives.map (·.injector)).Nodup ∧
    (2 ≤ f.correction.length ∧ f.correction.length ≤ 8) ∧
    (∀ p ∈ f.correction, (-400 ≤ p.temperature ∧ p.temperature ≤ 600) ∧ (9000 ≤ p.factor ∧ p.factor ≤ 11000)) ∧
    Ascending f.correction := by
  constructor
  · intro h
    obtain ⟨⟨code, p⟩, h⟩ := Option.isSome_iff_exists.mp h
    obtain ⟨hcode, hname, hcls, hgroup, hheader, hblend, hadditives, hcorrection, few, once⟩ :=
      ProductFields.checked_eq_some.mp h
    have spelled := map_of_mapM (fun _ _ => AdditiveFields.checked_fields) hadditives
    obtain ⟨⟨length, ranges, ascending⟩, -⟩ := checkedCorrection_eq_some.mp hcorrection
    refine ⟨numbered_isSome.mp (Option.isSome_of_mem hcode), glyphsOf_isSome.mp (Option.isSome_of_mem hname),
      Nat.lt_succ_iff.mp (coded_isSome.mp (Option.isSome_of_mem hcls)),
      Nat.lt_succ_iff.mp (coded_isSome.mp (Option.isSome_of_mem hgroup)),
      numbered_isSome.mp (Option.isSome_of_mem hheader), ?_, ?_,
      fun e he => AdditiveFields.checked_isSome.mp (mapM_option_isSome.mp (Option.isSome_of_mem hadditives) e he),
      (nodup_injectors spelled).mp once, length, ranges, ascending⟩
    · rw [numbered_eq_some.mp hheader]
      exact checkedBlend_isSome.mp (Option.isSome_of_mem hblend)
    · rw [← spelled, List.length_map]; exact few
  · rintro ⟨hcode, hname, hcls, hgroup, hheader, hblend, few, hadditives, once, length, ranges, ascending⟩
    obtain ⟨code, hcode⟩ := Option.isSome_iff_exists.mp (numbered_isSome.mpr hcode)
    obtain ⟨name, hname⟩ := Option.isSome_iff_exists.mp (glyphsOf_isSome.mpr hname)
    obtain ⟨cls, hcls⟩ := Option.isSome_iff_exists.mp (coded_isSome.mpr (Nat.lt_succ_iff.mpr hcls))
    obtain ⟨group, hgroup⟩ := Option.isSome_iff_exists.mp (coded_isSome.mpr (Nat.lt_succ_iff.mpr hgroup))
    obtain ⟨mainHeader, hheader⟩ := Option.isSome_iff_exists.mp (numbered_isSome.mpr hheader)
    rw [numbered_eq_some.mp hheader] at hblend
    obtain ⟨blend, hblend⟩ := Option.isSome_iff_exists.mp (checkedBlend_isSome.mpr hblend)
    obtain ⟨additives, hadditives⟩ := Option.isSome_iff_exists.mp
      (mapM_option_isSome.mpr fun e he => AdditiveFields.checked_isSome.mpr (hadditives e he))
    have spelled := map_of_mapM (fun _ _ => AdditiveFields.checked_fields) hadditives
    refine Option.isSome_iff_exists.mpr
      ⟨(code, { name, cls, group, mainHeader, blend, additives, correction := f.correction }),
      ProductFields.checked_eq_some.mpr ⟨hcode, hname, hcls, hgroup, hheader, hblend, hadditives,
        checkedCorrection_eq_some.mpr ⟨⟨length, ranges, ascending⟩, rfl⟩, ?_, (nodup_injectors spelled).mpr once⟩⟩
    rw [← List.length_map AdditiveEntry.fields, spelled]; exact few

/-- A record that passes is what its fields spell (R22). -/
theorem ProductFields.checked_fields {f : ProductFields} {code : ProductId} {p : Product}
    (h : f.checked = some (code, p)) :
    f.code = num code ∧ p.name.map (·.val) = f.name ∧ p.cls.val = f.cls ∧ p.group.val = f.group ∧
    num p.mainHeader = f.mainHeader ∧ p.correction = f.correction ∧
    p.additives.map AdditiveEntry.fields = f.additives ∧ p.blend.map BlendPart.fields = f.blend := by
  obtain ⟨hcode, hname, hcls, hgroup, hheader, hblend, hadditives, hcorrection, -⟩ := ProductFields.checked_eq_some.mp h
  exact ⟨numbered_eq_some.mp hcode, (glyphsOf_eq_some.mp hname).2, (coded_eq_some.mp hcls).symm,
    (coded_eq_some.mp hgroup).symm, (numbered_eq_some.mp hheader).symm, (checkedCorrection_eq_some.mp hcorrection).2,
    map_of_mapM (fun _ _ => AdditiveFields.checked_fields) hadditives, checkedBlend_fields hblend⟩

theorem putOutcome_eq (replaced : Bool) : putOutcome replaced = [if replaced then 1 else 0] := by cases replaced <;> rfl

theorem productPut_request {s : State} {tag : Byte} {body : List Byte} {f : ProductFields}
    (hp : s.port.phase = .hunting)
    (hr : readProduct body = some f) : exec (.productPut tag body) s = .next ((s.productPut f).send 0x20 tag body) :=
  congrArg _ (State.request_taken hp hr)

/-! ### MATRIX_PUT -/

/-- The values that an entry of a matrix row can name, from 0 on; the last one is KEEP (R28). -/
abbrev matrixEntries : List (Option Verdict) := [some .allow, some .lowFlow, some .forbid, none]

/-- Named values read one after the other, byte by byte. -/
theorem times_named {α : Type} (values : List α) (bytes : List Byte) : times (named values) bytes.length bytes
    = (bytes.mapM fun b => values[b.toNat]?).map fun l => (l, []) := by
  induction bytes with
  | nil => rfl
  | cons b bytes ih =>
    have first : named values (b :: bytes) = values[b.toNat]?.map fun v => (v, bytes) := rfl
    rw [List.mapM_cons, List.length_cons, times]
    dsimp only
    rw [first]
    cases values[b.toNat]? with
    | none => rfl
    | some v =>
      show ((times (named values) bytes.length bytes).map fun x => (v :: x.1, x.2)) = _
      rw [ih]
      show _ = ((bytes.mapM fun b => values[b.toNat]?).bind fun l => some (v :: l)).map fun l => (l, [])
      cases bytes.mapM fun b => values[b.toNat]? <;> rfl

theorem readMatrixRow_bytes (row : Byte) (e : Vector Byte 8) : readMatrixRow (row :: e.toList)
    = (e.toList.mapM fun b => matrixEntries[b.toNat]?).map fun l => (row.toNat, l) := by
  have entries := times_named matrixEntries e.toList
  rw [Vector.length_toList] at entries
  unfold readMatrixRow whole
  simp only [bind, word_one, Option.bind_some, entries]
  cases e.toList.mapM fun b => matrixEntries[b.toNat]? <;> rfl

theorem toList_getElem?_vget {α : Type} {n : Nat} (e : Vector α n) (i : Fin n) :
    e.toList[i.val]? = some (vget e i) := by
  simp [vget]

/-- A row with an entry past KEEP does not match its kind. -/
theorem readMatrixRow_past {row : Byte} {e : Vector Byte 8} {i : Fin 8} (h : 3 < (vget e i).toNat) :
    readMatrixRow (row :: e.toList) = none := by
  rw [readMatrixRow_bytes, Option.map_eq_none_iff, ← Option.not_isSome_iff_eq_none, mapM_option_isSome]
  intro all
  have := all _ (List.mem_of_getElem? (toList_getElem?_vget e i))
  rw [isSome_getElem?] at this
  exact absurd this (Nat.not_lt.mpr h)

theorem readMatrixRow_entries (row : Byte) {e : Vector Byte 8} (h : ∀ i, (vget e i).toNat ≤ 3) :
    ∃ l, readMatrixRow (row :: e.toList) = some (row.toNat, l) ∧
      ∀ i : Fin 8, l[i.val]? = matrixEntries[(vget e i).toNat]? := by
  have named : (e.toList.mapM fun b => matrixEntries[b.toNat]?).isSome = true := by
    rw [mapM_option_isSome]
    intro b hb
    obtain ⟨k, hk, rfl⟩ := List.getElem_of_mem hb
    rw [Vector.length_toList] at hk
    rw [isSome_getElem?]
    exact Nat.lt_succ_of_le (by simpa [vget] using h ⟨k, hk⟩)
  obtain ⟨l, hl⟩ := Option.isSome_iff_exists.mp named
  refine ⟨l, by rw [readMatrixRow_bytes, hl]; rfl, fun i => ?_⟩
  have each := congrArg (fun m => m[i.val]?) (mapM_option_eq_some.mp hl)
  simp only [List.getElem?_map, toList_getElem?_vget, Option.map_some] at each
  cases hi : l[i.val]? with
  | none => rw [hi] at each; cases each
  | some v => rw [hi] at each; exact (Option.some.inj each).symm

theorem byte_to_three {b : Byte} (h : b.toNat ≤ 3) : b = 0 ∨ b = 1 ∨ b = 2 ∨ b = 3 := by
  bv_omega

/-- What a byte of a row names. -/
theorem matrixEntry_eq {b : Byte} (h : b.toNat ≤ 3) : matrixEntries[b.toNat]? = some (if b = 0 then some .allow
    else if b = 1 then some .lowFlow else if b = 2 then some .forbid else none) := by
  rcases byte_to_three h with rfl | rfl | rfl | rfl <;> rfl

section
variable {e : Vector Byte 8} {l : List (Option Verdict)} (h : ∀ i, (vget e i).toNat ≤ 3)
  (hl : ∀ i : Fin 8, l[i.val]? = matrixEntries[(vget e i).toNat]?)
include h hl

theorem vget_mergedRow (row : Vector Verdict 8) (i : Fin 8) : vget (mergedRow row l) i = if vget e i = 0 then .allow
    else if vget e i = 1 then .lowFlow else if vget e i = 2 then .forbid else vget row i := by
  unfold mergedRow
  rw [vget_ofFn, hl i, matrixEntry_eq (h i)]
  split_ifs <;> rfl

theorem ownColumnAllowed_iff (g : GroupCode) : ownColumnAllowed g l = true ↔ vget e g = 0 ∨ vget e g = 3 := by
  unfold ownColumnAllowed
  rw [hl g, matrixEntry_eq (h g)]
  rcases byte_to_three (h g) with e | e | e | e <;> rw [e] <;> decide

end

theorem rowBody_eq (row : Vector Verdict 8) :
    rowBody row = row.toList.map fun v => placeByte [Verdict.allow, .lowFlow, .forbid] v := by
  unfold rowBody
  simp only [put1_eq, Verdict.code_eq]
  exact List.map_eq_flatMap.symm

theorem matrixPut_request {s : State} {tag row : Byte} {e : Vector Byte 8} {l : List (Option Verdict)}
    (hp : s.port.phase = .hunting) (hr : readMatrixRow (row :: e.toList) = some (row.toNat, l)) :
    exec (.matrixPut tag (row :: e.toList)) s
      = .next ((s.matrixPut (row.toNat, l)).send 0x23 tag (row :: e.toList)) :=
  congrArg _ (State.request_taken hp hr)

/-- A row out of range, or one that gives its own column another verdict than ALLOW or KEEP (R28). -/
theorem State.matrixPut_refused (s : State) {n : Nat} {l : List (Option Verdict)}
    (h : 7 < n ∨ ∃ g : GroupCode, g.val = n ∧ ownColumnAllowed g l = false) :
    s.matrixPut (n, l) = .refused s .invalid := by
  unfold State.matrixPut
  rcases h with past | ⟨g, rfl, other⟩
  · have : coded 8 n = none := by
      rw [← Option.not_isSome_iff_eq_none, coded_isSome]
      omega
    rw [this]
  · rw [coded_eq_some.mpr rfl]
    dsimp only
    rw [other]; rfl

theorem State.matrixPut_taken (s : State) {g : GroupCode} {l : List (Option Verdict)}
    (h : ownColumnAllowed g l = true) :
    s.matrixPut (g.val, l) = .ok { s with matrix := vset s.matrix g (mergedRow (vget s.matrix g) l) }
      (rowBody (mergedRow (vget s.matrix g) l)) := by
  unfold State.matrixPut
  rw [coded_eq_some.mpr rfl]
  exact if_pos h

/-- Settles O16: the record by its checks, the row by its entries. -/
theorem productAndMatrixPut : Obligations.ProductAndMatrixPut := by
  refine ⟨fun s tag body f hp hr => ⟨f.checked_isSome, fun h => ?_, fun code p h => ?_⟩,
    fun s tag row e hp => ⟨fun bad => ?_, fun g hg named own => ?_⟩⟩
  · rw [productPut_request hp hr, State.productPut, h]; rfl
  · obtain ⟨hcode, hname, hcls, hgroup, hheader, hcorrection, hadditives, hblend⟩ := ProductFields.checked_fields h
    refine ⟨hcode, hname, hcls, hgroup, hheader, hcorrection, hadditives, hblend, ?_⟩
    rw [productPut_request hp hr, State.productPut, h, ← putOutcome_eq]; rfl
  · by_cases named : ∀ i, (vget e i).toNat ≤ 3
    · obtain ⟨l, hr, hl⟩ := readMatrixRow_entries row named
      have refused : 7 < row.toNat ∨ ∃ g : GroupCode, g.val = row.toNat ∧ ownColumnAllowed g l = false := by
        refine bad.imp id fun others => ?_
        rcases others with ⟨i, past⟩ | ⟨i, hi, zero, keep⟩
        · exact absurd (named i) (Nat.not_le.mpr past)
        · refine ⟨i, hi, ?_⟩
          rw [← Bool.not_eq_true, ownColumnAllowed_iff named hl]
          exact not_or.mpr ⟨zero, keep⟩
      rw [matrixPut_request hp hr, s.matrixPut_refused refused]; rfl
    · obtain ⟨i, past⟩ := not_forall.mp named
      exact congrArg _ (State.request_malformed hp (readMatrixRow_past (Nat.not_le.mp past)))
  · obtain ⟨l, hr, hl⟩ := readMatrixRow_entries row named
    have taken := s.matrixPut_taken ((ownColumnAllowed_iff named hl g).mpr own)
    refine ⟨{ s with matrix := vset s.matrix g (mergedRow (vget s.matrix g) l) }, ?_, rfl,
      fun h hh => vget_vset_ne _ _ hh,
      fun i => ?_⟩
    · rw [matrixPut_request hp hr, hg, taken, rowBody_eq]
      dsimp only
      rw [vget_vset_same]; rfl
    · dsimp only
      rw [vget_vset_same]
      exact vget_mergedRow named hl _ i

/-! ### PRODUCT_GET and PRODUCT_DELETE -/

/-- A product is in use where an order OPEN or ACTIVE has a compartment that names it (R55). -/
theorem State.productInUse_iff (s : State) (code : ProductId) : s.productInUse code = true ↔
    ∃ i o, s.orderIn i = some o ∧ (∀ part note, o.stage ≠ .noted part note) ∧ ∃ c ∈ o.comps, c.product = some code := by
  simp only [State.productInUse, List.any_eq_true, Prod.exists, State.mem_heldOrders, Bool.and_eq_true, Order.inUse_iff,
    decide_eq_true_iff]

/-- Settles O17: each request by its code and the slot. -/
theorem productGetAndDelete : Obligations.ProductGetAndDelete := by
  intro s tag n hp
  have get : exec (.productGet tag [n]) s = .next ((s.productGet n.toNat).send 0x21 tag [n]) := congrArg _
    (exec_byte hp)
  have delete : exec (.productDelete tag [n]) s = .next ((s.productDelete n.toNat).send 0x22 tag [n]) :=
    congrArg _ (exec_byte hp)
  rw [get, delete]
  unfold State.productGet State.productDelete
  refine ⟨fun outside => ?_, fun code hn => ?_⟩
  · rw [numbered_byte_none outside]
    exact ⟨rfl, rfl⟩
  rw [numbered_byte hn]
  dsimp only
  refine ⟨fun undefined => ?_, fun p defined => ⟨s.productInUse code, s.productInUse_iff code, ?_, ?_⟩⟩
  · rw [undefined]
    exact ⟨rfl, rfl⟩
  · rw [defined, ← Product.body_eq]; rfl
  · rw [defined]
    cases s.productInUse code <;> rfl

end Sys2Proof.Machine
end

section
/-! SUPPORT. ORDER_CREATE (R37, R42, R43): the checks of Table 3-6 by the fields, and the tests of Table 3-7 down to the
lowest FREE slot. -/

namespace Sys2Proof.Machine

/-! ### Table 3-6 -/

theorem optionalNumbered_isSome {n : Nat} {k : Option Nat} :
    (optionalNumbered n k).isSome = true ↔ ∀ x, k = some x → 1 ≤ x ∧ x ≤ n := by
  cases k with
  | none => simp [optionalNumbered]
  | some x => simp [optionalNumbered, numbered_isSome]

theorem optionalNumbered_eq_some {n : Nat} {k : Option Nat} {i : Option (Fin n)} (h : optionalNumbered n k = some i) :
    i.map num = k := by
  cases k with
  | none => cases h; rfl
  | some x =>
    obtain ⟨j, hj, rfl⟩ := Option.map_eq_some_iff.mp (show (numbered n x).map some = some i from h)
    exact congrArg some (numbered_eq_some.mp hj).symm

theorem optionalCoded_isSome {n : Nat} {k : Option Nat} :
    (optionalCoded n k).isSome = true ↔ ∀ x, k = some x → x < n := by
  cases k with
  | none => simp [optionalCoded]
  | some x => simp [optionalCoded, coded_isSome]

theorem optionalCoded_eq_some {n : Nat} {k : Option Nat} {i : Option (Fin n)} (h : optionalCoded n k = some i) :
    i.map (·.val) = k := by
  cases k with
  | none => cases h; rfl
  | some x =>
    obtain ⟨j, hj, rfl⟩ := Option.map_eq_some_iff.mp (show (coded n x).map some = some i from h)
    exact congrArg some (coded_eq_some.mp hj).symm

/-- A compartment as ORDER_CREATE spells it. -/
def Compartment.fields (c : Compartment) : CompFields :=
  { number := num c.number, capacity := c.capacity, planned := c.planned, product := c.product.map num
    prevGroup := c.prevGroup.map (·.val) }

/-- Nothing delivered yet, PLANNED where there is a plan (R43). -/
def Compartment.Unloaded (c : Compartment) : Prop :=
  c.gross = 0 ∧ c.net = 0 ∧ c.tempSum = 0 ∧ c.batchCount = 0 ∧ c.lastArm = none ∧ c.results = [] ∧ c.flags = [] ∧
    c.state = if c.planned = 0 then .unplanned else .planned

theorem CompFields.checked_eq_some {f : CompFields} {c : Compartment} (h : f.checked = some c) :
    c.fields = f ∧ c.Unloaded := by
  unfold CompFields.checked at h
  split at h
  · rename_i number product prevGroup hn hp hg
    split at h
    · cases h
      have spelled : f = { f with
          number := num number, product := product.map num, prevGroup := prevGroup.map (·.val) } := by
        rw [← numbered_eq_some.mp hn, optionalNumbered_eq_some hp, optionalCoded_eq_some hg]
      exact ⟨spelled.symm, rfl, rfl, rfl, rfl, rfl, rfl, rfl, rfl⟩
    · cases h
  · cases h

/-- The ranges that the fields of a compartment must keep (Table 3-6). -/
def CompFields.InRange (c : CompFields) : Prop :=
  (1 ≤ c.number ∧ c.number ≤ 8) ∧ (1000 ≤ c.capacity ∧ c.capacity ≤ 200000) ∧
    (c.planned = 0 ∨ (500 ≤ c.planned ∧ c.planned ≤ c.capacity)) ∧
    (c.product.isSome = true ↔ 0 < c.planned) ∧ (∀ p, c.product = some p → 1 ≤ p ∧ p ≤ 32) ∧
    (∀ g, c.prevGroup = some g → g ≤ 7)

theorem CompFields.checked_isSome {f : CompFields} : f.checked.isSome = true ↔ f.InRange := by
  have group : (∀ g, f.prevGroup = some g → g ≤ 7) ↔ (optionalCoded 8 f.prevGroup).isSome = true := by
    rw [optionalCoded_isSome]
    exact forall₂_congr fun g _ => Nat.lt_succ_iff.symm
  unfold CompFields.InRange CompFields.checked
  rw [group, ← optionalNumbered_isSome, ← numbered_isSome]
  split
  · rename_i number product prevGroup hn hp hg
    have same : product.isSome = f.product.isSome := by
      rw [← optionalNumbered_eq_some hp, Option.isSome_map]
    simp only [Option.isSome_ite, hn, hp, hg, Option.isSome_some, same, Bool.and_eq_true, Bool.or_eq_true,
      decide_eq_true_iff, inRange_eq_true, true_and, and_true, and_assoc]
  · rename_i none
    refine ⟨nofun, ?_⟩
    rintro ⟨hn, -, -, -, hp, hg⟩
    obtain ⟨number, hn⟩ := Option.isSome_iff_exists.mp hn
    obtain ⟨product, hp⟩ := Option.isSome_iff_exists.mp hp
    obtain ⟨prevGroup, hg⟩ := Option.isSome_iff_exists.mp hg
    exact (none number product prevGroup hn hp hg).elim

/-- The checks of Table 3-6, part by part, and the OPEN order that they give. -/
theorem OrderFields.checked_eq_some {f : OrderFields} {o : Order} : f.checked = some o ↔
    ((1 ≤ f.number ∧ f.number ≤ 999999) ∧ (1 ≤ f.card ∧ f.card ≤ 99999999) ∧
      (1 ≤ f.comps.length ∧ f.comps.length ≤ 8)) ∧ optionalNumbered 4 f.bay = some o.bay ∧
    glyphsOf 12 f.tanker = some o.tanker ∧ f.comps.mapM CompFields.checked = some o.comps ∧
    (o.comps.map (·.number)).Nodup ∧
    o = { number := f.number, seq := 0, stage := .opened, card := f.card, bay := o.bay, tanker := o.tanker
          comps := o.comps } := by
  have ranges : (inRange 1 999999 f.number && inRange 1 99999999 f.card && inRange 1 8 f.comps.length) = true ↔
      (1 ≤ f.number ∧ f.number ≤ 999999) ∧ (1 ≤ f.card ∧ f.card ≤ 99999999) ∧
      (1 ≤ f.comps.length ∧ f.comps.length ≤ 8) := by
    simp only [Bool.and_eq_true, inRange_eq_true, and_assoc]
  rw [← ranges]
  unfold OrderFields.checked
  split
  · rename_i within
    split
    · rename_i bay tanker comps hbay htanker hcomps
      constructor
      · intro h
        split at h
        · rename_i once
          cases h
          exact ⟨within, hbay, htanker, hcomps, once, rfl⟩
        · cases h
      · rintro ⟨-, hb, ht, hc, once, e⟩
        cases hbay.symm.trans hb
        cases htanker.symm.trans ht
        cases hcomps.symm.trans hc
        rw [if_pos once, ← e]
    · rename_i none
      exact ⟨nofun, fun ⟨_, hb, ht, hc, _⟩ => (none _ _ _ hb ht hc).elim⟩
  · rename_i out
    exact ⟨nofun, fun h => absurd h.1 out⟩

/-- The numbers of compartments, one each, and one each as their fields spell them. -/
theorem nodup_numbers {comps : List Compartment} {raw : List CompFields} (h : comps.map Compartment.fields = raw) :
    (comps.map (·.number)).Nodup ↔ (raw.map (·.number)).Nodup := by
  rw [← h, List.map_map, show (fun f : CompFields => f.number) ∘ Compartment.fields = num ∘ (·.number) from rfl,
    ← List.map_map, List.nodup_map_iff num_injective]

theorem OrderFields.checked_isSome (f : OrderFields) : f.checked.isSome = true ↔
    (1 ≤ f.number ∧ f.number ≤ 999999) ∧ (1 ≤ f.card ∧ f.card ≤ 99999999) ∧
    (∀ b, f.bay = some b → 1 ≤ b ∧ b ≤ 4) ∧ (1 ≤ f.tanker.length ∧ f.tanker.length ≤ 12 ∧ ∀ g ∈ f.tanker, g < 64) ∧
    (1 ≤ f.comps.length ∧ f.comps.length ≤ 8) ∧ (f.comps.map (·.number)).Nodup ∧ ∀ c ∈ f.comps, c.InRange := by
  have spelled : ∀ comps, f.comps.mapM CompFields.checked = some comps → comps.map Compartment.fields = f.comps :=
    fun _ => map_of_mapM fun _ _ h => (CompFields.checked_eq_some h).1
  constructor
  · intro h
    obtain ⟨o, h⟩ := Option.isSome_iff_exists.mp h
    obtain ⟨⟨number, card, count⟩, hbay, htanker, hcomps, once, -⟩ := OrderFields.checked_eq_some.mp h
    exact ⟨number, card, optionalNumbered_isSome.mp (Option.isSome_of_mem hbay),
      glyphsOf_isSome.mp (Option.isSome_of_mem htanker), count, (nodup_numbers (spelled _ hcomps)).mp once,
      fun c hc => CompFields.checked_isSome.mp (mapM_option_isSome.mp (Option.isSome_of_mem hcomps) c hc)⟩
  · rintro ⟨number, card, hbay, htanker, count, once, each⟩
    obtain ⟨bay, hbay⟩ := Option.isSome_iff_exists.mp (optionalNumbered_isSome.mpr hbay)
    obtain ⟨tanker, htanker⟩ := Option.isSome_iff_exists.mp (glyphsOf_isSome.mpr htanker)
    obtain ⟨comps, hcomps⟩ := Option.isSome_iff_exists.mp
      (mapM_option_isSome.mpr fun c hc => CompFields.checked_isSome.mpr (each c hc))
    exact Option.isSome_iff_exists.mpr
      ⟨{ number := f.number, seq := 0, stage := .opened, card := f.card, bay, tanker, comps },
        OrderFields.checked_eq_some.mpr ⟨⟨number, card, count⟩, hbay, htanker, hcomps,
          (nodup_numbers (spelled _ hcomps)).mpr once, rfl⟩⟩

/-- Every compartment of an order that passes is unloaded (R43). -/
theorem unloaded_of_checked {raw : List CompFields} {comps : List Compartment}
    (h : raw.mapM CompFields.checked = some comps) : ∀ c ∈ comps, c.Unloaded := by
  intro c hc
  have : some c ∈ raw.map CompFields.checked := by
    rw [mapM_option_eq_some.mp h]
    exact List.mem_map_of_mem hc
  obtain ⟨f, -, hf⟩ := List.mem_map.mp this
  exact (CompFields.checked_eq_some hf).2

/-! ### Table 3-7 -/

theorem State.findOrder_isSome {s : State} {n : Nat} :
    (s.findOrder n).isSome = true ↔ ∃ i o, s.orderIn i = some o ∧ o.number = n := by
  rw [← Option.ne_none_iff_isSome, Ne, State.findOrder_eq_none]
  push Not
  rfl

theorem State.productsDefined_iff {s : State} {comps : List Compartment} : s.productsDefined comps = true ↔
    ∀ c ∈ comps, ∀ p, c.product = some p → (s.product p).isSome = true := by
  unfold State.productsDefined
  rw [List.all_eq_true]
  refine forall₂_congr fun c _ => ?_
  cases c.product <;> simp

theorem State.freeSlot_eq_none {s : State} : s.freeSlot = none ↔ ∀ i, (s.orderIn i).isSome = true := by
  unfold State.freeSlot
  rw [List.find?_eq_none]
  exact ⟨fun h i => Option.isSome_iff_ne_none.mpr (by simpa using h i (mem_allSlots i)),
    fun h i _ => by simpa using Option.isSome_iff_ne_none.mp (h i)⟩

/-- The lowest FREE slot is the first of the table. -/
theorem State.freeSlot_lowest {s : State} {i : SlotId} (free : s.orderIn i = none)
    (held : ∀ j, j < i → (s.orderIn j).isSome = true) : s.freeSlot = some i := by
  obtain ⟨before, after, e⟩ := List.append_of_mem (mem_allSlots i)
  have ascending : allSlots.Pairwise (· < ·) := List.pairwise_lt_finRange 64
  rw [e, List.pairwise_append] at ascending
  obtain ⟨-, -, across⟩ := ascending
  refine List.find?_eq_some_iff_append.mpr ⟨by rw [free]; rfl, before, after, e, fun j hj => ?_⟩
  have := held j (across j hj i (by simp))
  simp [this]

section
variable {s : State} {f : OrderFields} {o : Order} (h : f.checked = some o)
include h

theorem State.orderCreate_exists (held : ∃ i p, s.orderIn i = some p ∧ p.number = o.number) :
    s.orderCreate f = .refused s .exists := by
  unfold State.orderCreate
  rw [h]
  exact if_pos (State.findOrder_isSome.mpr held)

variable (fresh : ∀ i p, s.orderIn i = some p → p.number ≠ o.number)
include fresh

theorem State.orderCreate_notFound
    (missing : s.findPermit o.card = none ∨ ∃ c ∈ o.comps, ∃ p, c.product = some p ∧ s.product p = none) :
    s.orderCreate f = .refused s .notFound := by
  unfold State.orderCreate
  rw [h]
  dsimp only
  rw [State.findOrder_eq_none.mpr fresh]
  rcases missing with noPermit | ⟨c, hc, p, hp, undefined⟩
  · rw [noPermit]; rfl
  · have : s.productsDefined o.comps = false := by
      rw [← Bool.not_eq_true, State.productsDefined_iff]
      intro all
      have := all c hc p hp
      rw [undefined] at this; cases this
    rw [this]
    cases s.findPermit o.card <;> rfl

variable (permit : (s.findPermit o.card).isSome = true)
  (products : ∀ c ∈ o.comps, ∀ p, c.product = some p → (s.product p).isSome = true)
include permit products

/-- With number, permit and products in order the answer is that of the slots (R43). -/
theorem State.orderCreate_slot : s.orderCreate f = match s.freeSlot with
    | none => .refused s .full
    | some i => .ok (s.placeOrder i o) (put4 s.creationCounter) := by
  obtain ⟨p, hp⟩ := Option.isSome_iff_exists.mp permit
  unfold State.orderCreate
  rw [h]
  dsimp only
  rw [State.findOrder_eq_none.mpr fresh, hp, State.productsDefined_iff.mpr products]
  rfl

end

theorem orderCreate_request {s : State} {tag : Byte} {body : List Byte} {f : OrderFields} (hp : s.port.phase = .hunting)
    (hr : readOrder body = some f) : exec (.orderCreate tag body) s = .next ((s.orderCreate f).send 0x30 tag body) :=
  congrArg _ (State.request_taken hp hr)

/-- Settles O19: the order by its checks, and the tests in their order. -/
theorem orderCreate : Obligations.OrderCreate := by
  intro s tag body f hp hr
  rw [orderCreate_request hp hr]
  refine ⟨f.checked_isSome, fun h => ?_, fun o h => ?_⟩
  · rw [State.orderCreate, h]; rfl
  obtain ⟨-, hbay, htanker, hcomps, -, e⟩ := OrderFields.checked_eq_some.mp h
  have spelled := map_of_mapM (fun _ _ h => (CompFields.checked_eq_some h).1) hcomps
  refine ⟨congrArg Order.stage e, congrArg Order.number e, congrArg Order.card e, optionalNumbered_eq_some hbay,
    (glyphsOf_eq_some.mp htanker).2, ?_, unloaded_of_checked hcomps, fun held => ?_, fun fresh => ⟨fun missing => ?_,
      fun permit products => ⟨fun full => ?_, fun i free held => ?_⟩⟩⟩
  · rw [← spelled, List.map_map]; rfl
  · rw [State.orderCreate_exists h held]; rfl
  · rw [State.orderCreate_notFound h fresh missing]; rfl
  · rw [State.orderCreate_slot h fresh permit products, State.freeSlot_eq_none.mpr full]; rfl
  · rw [State.orderCreate_slot h fresh permit products, State.freeSlot_lowest free held]; rfl

end Sys2Proof.Machine
end

section
/-! SUPPORT. The events of the field (R36, R58, R85, R108): every key, card, field input, pulse and timer answers a next
state, and keeps what the operations inside an event keep (`Keeps`), the host's records among them. -/

namespace Sys2Proof.Machine

/-- A command that answers a next state in which all is kept. -/
def ExecKeeps (c : Instr) (s : State) : Prop := ∃ t : State, exec c s = .next t ∧ Keeps s t

theorem Keeps.ite {s u v : State} {c : Prop} [Decidable c] (h : c → Keeps s u) (k : ¬ c → Keeps s v) :
    Keeps s (if c then u else v) := by
  split
  · exact h ‹_›
  · exact k ‹_›

/-- A timer's expiry from the state that it acts on. -/
theorem Keeps.expired {s : State} {timer : Timer} {act : State → State} (h : Keeps s (act s)) :
    Keeps s (s.expire timer act) := (Keeps.refl s).expire timer act h

theorem Keeps.esdInputActive (s : State) :
    Keeps s (if s.esd.active then { s with esd := { s.esd with input := true, debounce := none } }
      else ({ s with esd := { s.esd with input := true } } : State).esdActivate) :=
  .ite (fun _ => (Keeps.refl s).setEsd { s.esd with input := true, debounce := none } id)
    fun _ => ((Keeps.refl s).setEsd { s.esd with input := true } id).esdActivate

/-- The rows of the opcode table that the rack's field sends, one by one. -/
theorem exec_field_keeps (c : Instr) (s : State) (request : c.request = none) (power : ∀ found, c ≠ .powerUp found)
    (tick : c ≠ .clockTick) (sent : c ≠ .responseSent) (discard : ∀ l, c ≠ .hostFrameDiscard l)
    (timeout : ∀ l, c ≠ .hostFrameTimeout l) : ExecKeeps c s := by
  have h : Keeps s s := .refl s
  cases c with
  | powerUp found => exact absurd rfl (power found)
  | clockTick => exact absurd rfl tick
  | responseSent => exact absurd rfl sent
  | hostFrameDiscard l => exact absurd rfl (discard l)
  | hostFrameTimeout l => exact absurd rfl (timeout l)
  | heartbeat bay => exact ⟨_, rfl, h.signOfLife bay⟩
  | bayFrameDiscard bay received => exact ⟨_, rfl, h⟩
  | bayFrameTimeout bay received => exact ⟨_, rfl, h⟩
  | cardEvent bay card => exact ⟨_, rfl, (h.signOfLife bay).presentCard bay card.toNat⟩
  | digitKey bay digit => exact ⟨_, rfl, (h.keyed bay).digitKey bay digit⟩
  | enter bay => exact ⟨_, rfl, (h.keyed bay).enterKey bay⟩
  | cancel bay => exact ⟨_, rfl, (h.keyed bay).cancelKey bay⟩
  | arm bay => exact ⟨_, rfl, (h.keyed bay).loadingKey bay _ fun u => (Keeps.refl u).modSession bay _⟩
  | start bay => exact ⟨_, rfl, (h.keyed bay).loadingKey bay _ fun u => (Keeps.refl u).startKey bay⟩
  | stop bay => exact ⟨_, rfl, (h.keyed bay).loadingKey bay _ fun u => (Keeps.refl u).stopKey bay⟩
  | resume bay => exact ⟨_, rfl, (h.keyed bay).loadingKey bay _ fun u => (Keeps.refl u).resumeKey bay⟩
  | finish bay => exact ⟨_, rfl, (h.keyed bay).loadingKey bay _ fun u => (Keeps.refl u).finish bay .driver⟩
  | sessionTimeout bay => exact ⟨_, rfl, .expired (.ite (fun _ => (h.refuse bay _).endBeforeLoading bay) fun _ => h)⟩
  | inactivityLimitExpiry bay => exact ⟨_, rfl, .expired (.ite (fun _ => h.finish bay .timeout) fun _ => h)⟩
  | refusalDisplayExpiry bay => exact ⟨_, rfl, .expired (h.clearReason bay)⟩
  | terminalLost bay => exact ⟨_, rfl, .expired (h.loseTerminal bay)⟩
  | permissiveInputPresent bay which => exact ⟨_, rfl, h.modSession bay _⟩
  | permissiveDebounceEnd bay which => exact ⟨_, rfl, .expired (h.debounceEnd bay which)⟩
  | permissiveInputAbsent bay which => exact ⟨_, rfl, h.permissiveFall bay which⟩
  | connectedAbsent a => exact ⟨_, rfl, .ite (fun _ => (h.connect a false).handCause a _) fun _ => h⟩
  | connectedPresent a => exact ⟨_, rfl, .ite (fun _ => h) fun _ => (h.connect a true).removeCause _ a⟩
  | esdInputActive => exact ⟨_, rfl, .esdInputActive s⟩
  | esdInputInactive => exact ⟨_, rfl, .ite (fun _ => h.setEsd _ id) fun _ => h⟩
  | esdDebounceEnd => exact ⟨_, rfl, .expired (.ite (fun _ => h.esdRelease) fun _ => h)⟩
  | meterAPulse m => exact ⟨_, rfl, h.pulseA m⟩
  | meterBPulse m => exact ⟨_, rfl, h.pulseB m⟩
  | probeReading m x =>
    refine ⟨_, rfl, h.modMeter m _ (fun y => y.read_fixedPart x) fun hr => ?_⟩
    obtain ⟨residue, k⟩ := Meter.read_residue x (s.meter m)
    rw [residue, k]; exact hr
  | blendTimerExpiry a => exact ⟨_, rfl, .expired (h.modBatch a _ fun b _ => b.blendExpiry_kept)⟩
  | noFlowTimerExpiry a => exact ⟨_, rfl, .expired (h.noFlowExpiry a)⟩
  | rampTimerExpiry a => exact ⟨_, rfl, .expired (h.rampExpiry a)⟩
  | settleTimerExpiry a => exact ⟨_, rfl, .expired (.ite (fun closing => h.endBatch a false closing) fun _ => h)⟩
  | leakTimerExpiry a => exact ⟨_, rfl, .expired (.ite (fun closing => h.endBatch a true closing) fun _ => h)⟩
  | additiveMeterPulse i => exact ⟨_, rfl, h.modInjector i _⟩
  | shotWindowExpiry i => exact ⟨_, rfl, .expired (h.modInjector i _)⟩
  | shotTailEnd i => exact ⟨_, rfl, .expired (h.tailEnd i)⟩
  | panelRefresh b => exact ⟨_, rfl, .expired (h.modDisplay b _)⟩
  | overrideExpiry b => exact ⟨_, rfl, .expired (h.modDisplay b _)⟩
  | restoredTimeExpiry b => exact ⟨_, rfl, .expired (h.modDisplay b _)⟩
  | _ => cases request

/-- Settles O57: the host's records are among what a command of the field keeps. -/
theorem fieldCommandsKeepHostRecords : Obligations.FieldCommandsKeepHostRecords := by
  intro c s request power tick sent discard timeout
  obtain ⟨t, next, kept⟩ := exec_field_keeps c s request power tick sent discard timeout
  exact ⟨t, next, kept.same⟩

end Sys2Proof.Machine
end

section
/-! SUPPORT. ORDER_AMEND (R38, R44): test 1 of Table 3-8 by the fields, the tests that follow in their order, and the
compartment that a taken amend leaves (Table 3-5). -/

namespace Sys2Proof.Machine

/-! ### Test 1 of Table 3-8 -/

theorem AmendFields.checked_isSome (f : AmendFields) : f.checked.isSome = true ↔
    (1 ≤ f.number ∧ f.number ≤ 999999) ∧ (1 ≤ f.comp ∧ f.comp ≤ 8) ∧
    (f.planned = 0 ∨ (500 ≤ f.planned ∧ f.planned ≤ 999999)) ∧ (f.product.isSome = true ↔ 0 < f.planned) ∧
    (∀ p, f.product = some p → 1 ≤ p ∧ p ≤ 32) := by
  unfold AmendFields.checked
  rw [← optionalNumbered_isSome, ← numbered_isSome (n := 8)]
  split
  · rename_i n product hn hp
    have same : product.isSome = f.product.isSome := by
      rw [← optionalNumbered_eq_some hp, Option.isSome_map]
    simp only [Option.isSome_ite, hn, hp, Option.isSome_some, same, Bool.and_eq_true, Bool.or_eq_true,
      decide_eq_true_iff, inRange_eq_true, true_and, and_true, and_assoc]
  · rename_i none
    refine ⟨nofun, ?_⟩
    rintro ⟨-, hn, -, -, hp⟩
    obtain ⟨n, hn⟩ := Option.isSome_iff_exists.mp hn
    obtain ⟨product, hp⟩ := Option.isSome_iff_exists.mp hp
    exact (none n product hn hp).elim

/-- The compartment and the product that the fields name. -/
theorem AmendFields.checked_fields {f : AmendFields} {n : CompNo} {product : Option ProductId}
    (h : f.checked = some (n, product)) : n.val + 1 = f.comp ∧ product.map (·.val + 1) = f.product := by
  unfold AmendFields.checked at h
  split at h
  · rename_i hn hp
    split at h
    · cases h
      exact ⟨(numbered_eq_some.mp hn).symm, optionalNumbered_eq_some hp⟩
    · cases h
  · cases h

/-! ### Tests 4 to 8, and the compartment amended -/

/-- An order that is not in use is the one that has a note number (R55). -/
theorem Order.inUse_eq (o : Order) : o.inUse = !o.noteNumber.isSome := by
  unfold Order.inUse Order.noteNumber
  cases o.stage <;> rfl

theorem Compartment.not_amendable_iff {c : Compartment} {planned : Nat} {product : Option ProductId} :
    (!c.amendable planned product) = true ↔ ¬ (c.state = .unplanned ∨ c.state = .planned ∨
      (c.state = .partly ∧ c.gross ≤ planned ∧ product = c.product)) := by
  rw [Bool.not_eq_true', ← Bool.not_eq_true, not_iff_not]
  unfold Compartment.amendable
  cases c.state <;> simp

theorem Compartment.amendedState_eq (c : Compartment) (planned : Nat) : c.amendedState planned =
    if c.state = .partly then (if planned = c.gross then .filled else .partly)
    else if planned = 0 then .unplanned else .planned := by
  unfold Compartment.amendedState
  cases c.state <;> rfl

theorem Order.modComp_amended (o : Order) (n : CompNo) (planned : Nat) (product : Option ProductId) :
    o.modComp n (fun c => c.amended planned product) = { o with comps := o.comps.map fun x =>
      if x.number = n then
        { x with planned := planned, product := product,
                 state := if x.state = .partly then (if planned = x.gross then .filled else .partly)
                   else if planned = 0 then .unplanned else .planned }
      else x } := by
  unfold Order.modComp Compartment.amended
  simp only [Compartment.amendedState_eq]

theorem modOrder_set {s : State} {i : SlotId} {o : Order} (h : s.orderIn i = some o) (f : Order → Order) :
    s.modOrder i f = { s with orders := vset s.orders i (some (f o)) } := by
  unfold State.modOrder
  rw [h]; rfl

/-- A product is named that no slot defines. -/
theorem State.undefined_product (s : State) (product : Option ProductId) :
    (!product.all fun p => (s.product p).isSome) = product.any fun p => (s.product p).isNone := by
  cases product with
  | none => rfl
  | some p => cases h : s.product p <;> simp [h]

/-- The tests of Table 3-8 from the fourth on, for the compartment found (R44). -/
theorem State.orderAmend_found {s : State} {f : AmendFields} {n : CompNo} {product : Option ProductId} {i : SlotId}
    {o : Order} {c : Compartment} (h : f.checked = some (n, product)) (ho : s.findOrder f.number = some (i, o))
    (hc : o.comp n = some c) : s.orderAmend f =
      if o.noteNumber.isSome then .refused s .wrongState
      else if c.capacity < f.planned then .refused s .invalid
      else if ¬ (c.state = .unplanned ∨ c.state = .planned ∨
          (c.state = .partly ∧ c.gross ≤ f.planned ∧ product = c.product)) then .refused s .wrongState
      else if product.any fun p => (s.product p).isNone then .refused s .notFound
      else .ok (s.modOrder i fun o => o.modComp n fun c => c.amended f.planned product) [] := by
  unfold State.orderAmend
  rw [h]
  dsimp only
  rw [ho]
  dsimp only
  rw [hc]
  dsimp only
  rw [o.inUse_eq, Bool.not_not, State.undefined_product]
  simp only [Compartment.not_amendable_iff]

theorem Reply.send_ite {c : Prop} [Decidable c] (r q : Reply) (kind tag : Byte) (request : List Byte) :
    (if c then r else q).send kind tag request = if c then r.send kind tag request else q.send kind tag request := by
  split <;> rfl

/-- Settles O20: the fields' test, the order and the compartment found, and then the tests in their order. -/
theorem orderAmend : Obligations.OrderAmend := by
  intro s tag body f hp hr
  have request : exec (.orderAmend tag body) s = .next ((s.orderAmend f).send 0x31 tag body) :=
    congrArg _ (State.request_taken hp hr)
  rw [request]
  refine ⟨f.checked_isSome, fun h => ?_, fun n product h => ?_⟩
  · rw [State.orderAmend, h]; rfl
  obtain ⟨number, code⟩ := AmendFields.checked_fields h
  refine ⟨number, code, fun none => ?_, fun i o ho => ⟨fun none => ?_, fun c hc => ?_⟩⟩
  · rw [State.orderAmend, h]
    dsimp only
    rw [none]; rfl
  · rw [State.orderAmend, h]
    dsimp only
    rw [ho]
    dsimp only
    rw [none]; rfl
  · rw [State.orderAmend_found h ho hc, modOrder_set (findOrder_in ho).1, o.modComp_amended]
    simp only [Reply.send_ite]
    rfl

end Sys2Proof.Machine
end

section
/-! SUPPORT. Orders in creation order (R37, log entry 17), the candidates of a card and the selection of one of them
(R50, R51, R63, R66). -/

namespace Sys2Proof.Machine

/-! ### Creation order -/

theorem insertBySeq_perm (e : SlotId × Order) (l : List (SlotId × Order)) : (insertBySeq e l).Perm (e :: l) := by
  induction l with
  | nil => exact .refl _
  | cons x rest ih =>
    unfold insertBySeq
    split
    · exact .refl _
    · exact (ih.cons x).trans (.swap e x rest)

/-- An order put at its place keeps the ascending order of creation sequences. -/
theorem insertBySeq_ascending {e : SlotId × Order} {l : List (SlotId × Order)}
    (h : (l.map (·.2.seq)).Pairwise (· ≤ ·)) : ((insertBySeq e l).map (·.2.seq)).Pairwise (· ≤ ·) := by
  induction l with
  | nil => simp [insertBySeq]
  | cons x rest ih =>
    rw [List.map_cons, List.pairwise_cons] at h
    obtain ⟨least, ascending⟩ := h
    unfold insertBySeq
    split
    · rename_i before
      rw [List.map_cons, List.map_cons, List.pairwise_cons, List.forall_mem_cons, List.pairwise_cons]
      exact ⟨⟨before.le, fun k hk => before.le.trans (least k hk)⟩, least, ascending⟩
    · rename_i behind
      rw [List.map_cons, List.pairwise_cons]
      refine ⟨fun k hk => ?_, ih ascending⟩
      rw [((insertBySeq_perm e rest).map _).mem_iff, List.map_cons, List.mem_cons] at hk
      rcases hk with rfl | hk
      · exact Nat.le_of_not_lt behind
      · exact least k hk

theorem foldl_insertBySeq (l acc : List (SlotId × Order)) :
    (l.foldl (fun acc e => insertBySeq e acc) acc).Perm (l ++ acc) ∧ ((acc.map (·.2.seq)).Pairwise (· ≤ ·) →
      ((l.foldl (fun acc e => insertBySeq e acc) acc).map (·.2.seq)).Pairwise (· ≤ ·)) := by
  induction l generalizing acc with
  | nil => exact ⟨.refl _, id⟩
  | cons e l ih =>
    obtain ⟨perm, ascending⟩ := ih (insertBySeq e acc)
    refine ⟨perm.trans ?_, fun h => ascending (insertBySeq_ascending h)⟩
    exact ((insertBySeq_perm e acc).append_left l).trans List.perm_middle

/-- Creation order lists the same orders, in ascending creation sequence (R37). -/
theorem inCreationOrder_spec (l : List (SlotId × Order)) :
    (inCreationOrder l).Perm l ∧ ((inCreationOrder l).map (·.2.seq)).Pairwise (· ≤ ·) := by
  obtain ⟨perm, ascending⟩ := foldl_insertBySeq l []
  exact ⟨by rwa [List.append_nil] at perm, ascending .nil⟩

theorem State.heldOrders_nodup (s : State) : s.heldOrders.Nodup := by
  refine (List.nodup_finRange 64).filterMap fun i j e hi hj => ?_
  obtain ⟨o, -, rfl⟩ := Option.mem_map.mp hi
  obtain ⟨p, -, e⟩ := Option.mem_map.mp hj
  exact (congrArg Prod.fst e).symm

/-- The orders held that pass a test, in creation order. -/
theorem State.inCreationOrder_held (s : State) (p : SlotId × Order → Bool) :
    (∀ i o, (i, o) ∈ inCreationOrder (s.heldOrders.filter p) ↔ s.orderIn i = some o ∧ p (i, o) = true) ∧
    (inCreationOrder (s.heldOrders.filter p)).Nodup ∧
    ((inCreationOrder (s.heldOrders.filter p)).map (·.2.seq)).Pairwise (· ≤ ·) := by
  obtain ⟨perm, ascending⟩ := inCreationOrder_spec (s.heldOrders.filter p)
  refine ⟨fun i o => ?_, perm.nodup_iff.mpr (s.heldOrders_nodup.filter p), ascending⟩
  rw [perm.mem_iff, List.mem_filter, State.mem_heldOrders]

/-! ### Candidates -/

theorem Order.isOpen_iff {o : Order} : o.isOpen = true ↔ o.stage = .opened := by
  unfold Order.isOpen
  cases o.stage <;> simp

theorem Order.allowsBay_iff {o : Order} {b : BayId} : o.allowsBay b = true ↔ o.bay = none ∨ o.bay = some b := by
  unfold Order.allowsBay
  cases o.bay <;> simp

/-- The orders of which the first four are a card's candidates at a bay (R50). -/
theorem State.candidates_listed (s : State) (card : Nat) (bay : BayId) : ∃ listed : List (SlotId × Order),
    (∀ i o, (i, o) ∈ listed ↔
      s.orderIn i = some o ∧ o.stage = .opened ∧ o.card = card ∧ (o.bay = none ∨ o.bay = some bay)) ∧
    listed.Nodup ∧ (listed.map (·.2.seq)).Pairwise (· ≤ ·) ∧
    s.candidates card bay = (listed.take 4).map (·.2.number) := by
  obtain ⟨mem, nodup, ascending⟩ := s.inCreationOrder_held fun e =>
    e.2.isOpen && decide (e.2.card = card) && e.2.allowsBay bay
  refine ⟨_, fun i o => (mem i o).trans ?_, nodup, ascending, rfl⟩
  rw [Bool.and_eq_true, Bool.and_eq_true, Order.isOpen_iff, decide_eq_true_iff, Order.allowsBay_iff, and_assoc]

/-! ### The selection -/

/-- No order is taken that is not OPEN for the card and the bay (R51). -/
theorem State.bindable_none {s : State} {n card : Nat} {bay : BayId} (h : ∀ i o, s.findOrder n = some (i, o) →
    ¬ (o.stage = .opened ∧ o.card = card ∧ (o.bay = none ∨ o.bay = some bay))) : s.bindable n card bay = none := by
  unfold State.bindable
  split
  · rename_i i o ho
    exact if_neg fun ⟨opened, card, allows⟩ =>
      h i o ho ⟨Order.isOpen_iff.mp opened, card, Order.allowsBay_iff.mp allows⟩
  · rfl

theorem State.rebuild_none {s : State} {bay : BayId} {card : Nat} (h : s.candidates card bay = []) :
    s.rebuild bay card = ({ s with
      bays := vset s.bays bay { s.session bay with
        reason := some .noOrder, reasonTimer := some 5000 } } : State).returnToIdle bay := by
  unfold State.rebuild
  rw [h]
  rfl

theorem State.rebuild_some {s : State} {bay : BayId} {card : Nat} (h : s.candidates card bay ≠ []) :
    s.rebuild bay card = { s with
      bays := vset s.bays bay { s.session bay with
        reason := some .orderUnavailable, reasonTimer := some 5000, candidates := s.candidates card bay
        timer := some 60000 } } := by
  unfold State.rebuild
  split
  · rename_i e; exact absurd e h
  · simp only [State.refuse, modSession_eq, session_set, vset_vset]
    rfl

section
variable {s : State} {bay : BayId} {d : Fin 10}

theorem State.selectOrder_ignored (h : d.val = 0 ∨ (s.session bay).candidates.length < d.val) :
    s.selectOrder bay d = s := by
  unfold State.selectOrder
  dsimp only
  split
  · rfl
  · rename_i pos
    have past : (s.session bay).candidates.length ≤ d.val - 1 := by omega
    rw [List.getElem?_eq_none past]

section
variable {n card : Nat} (pos : 1 ≤ d.val) (hn : (s.session bay).candidates[d.val - 1]? = some n)
  (hc : (s.session bay).card = some card)
include pos hn hc

/-- A digit that names a candidate which the Order Table takes (R51, R63). -/
theorem State.selectOrder_bound {i : SlotId} (hb : s.bindable n card bay = some i) :
    s.selectOrder bay d = s.bindOrder bay i n := by
  unfold State.selectOrder
  dsimp only
  rw [if_neg (by omega), hn, hc]
  dsimp only
  rw [hb]

theorem State.selectOrder_unavailable (hb : s.bindable n card bay = none) :
    s.selectOrder bay d = s.rebuild bay card := by
  unfold State.selectOrder
  dsimp only
  rw [if_neg (by omega), hn, hc]
  dsimp only
  rw [hb]

end

end

/-- Settles O23: the candidates in creation order, and a digit by the candidate that it names. -/
theorem orderSelection : Obligations.OrderSelection := by
  refine ⟨fun s card bay => s.candidates_listed card bay, ?_⟩
  rintro s u bay d x card hu rfl select hc
  have w : Woken s u bay := hu ▸ s.keyed_woken bay
  have key : exec (.digitKey bay d) s = .next (u.selectOrder bay d) := by
    have : u.digitKey bay d = u.selectOrder bay d := by unfold State.digitKey; rw [select]
    rw [← this, hu]; rfl
  rw [key]
  refine ⟨fun ignored => ?_, fun n pos hn => ⟨fun i o ho hs hcard hb => ?_, fun unavailable =>
    ⟨fun empty => ?_, fun left => ?_⟩⟩⟩
  · rw [State.selectOrder_ignored ignored]
  · have ho' : u.findOrder n = some (i, o) := (w.findOrder n).trans ho
    rw [State.selectOrder_bound pos hn hc (State.bindable_of ho' hs hcard hb),
      State.bindOrder_eq n (findOrder_in ho').1, w.orders, w.clock, w.allIdle]
  all_goals
    rw [State.selectOrder_unavailable pos hn hc
      (State.bindable_none fun i o ho => unavailable i o ((w.findOrder n).symm.trans ho))]
  · rw [State.rebuild_none ((w.candidates card bay).trans empty)]
  · rw [State.rebuild_some (by rwa [w.candidates]), w.candidates]

end Sys2Proof.Machine
end

section
/-! SUPPORT. ORDER_CANCEL, ORDER_GET, ORDER_LIST and ORDER_COLLECT (R46 to R49, R153): what their bodies read as, the
order that a number names, and the answers. -/

namespace Sys2Proof.Machine

/-! ### The bodies of the requests -/

theorem readOrderGet_bytes {n : Nat} (h : n < 4294967296) (k : Byte) :
    readOrderGet (littleEndian 4 n ++ [k]) = some (n, k.toNat) := by
  unfold readOrderGet whole
  simp only [bind, word_littleEndian 4 n [k] h, word_one, Option.bind_some]

theorem readCollect_bytes {n note : Nat} (h : n < 4294967296) (hn : note < 4294967296) :
    readCollect (littleEndian 4 n ++ littleEndian 4 note) = some (n, note) := by
  have last := word_littleEndian 4 note [] hn
  rw [List.append_nil] at last
  unfold readCollect whole
  simp only [bind, word_littleEndian 4 n _ h, last, Option.bind_some]

theorem readOrderList_bytes {n : Nat} (h : n < 4294967296) (k : Byte) : readOrderList (k :: littleEndian 4 n)
    = [OrderFilter.opened, .active, .noted, .any][k.toNat]?.map fun filter => (filter, n) := by
  have last := word_littleEndian 4 n [] h
  rw [List.append_nil] at last
  unfold readOrderList whole
  simp only [bind, named]
  cases [OrderFilter.opened, .active, .noted, .any][k.toNat]? with
  | none => rfl
  | some filter => simp only [Option.map_some, Option.bind_some, last]

/-! ### The order of a number -/

section
variable {s : State} {n : Nat}

theorem State.namedOrder_outside (h : n < 1 ∨ 999999 < n) : s.namedOrder n = .error .invalid :=
  if_neg (by rw [inRange_eq_true]; omega)

variable (lo : 1 ≤ n) (hi : n ≤ 999999)
include lo hi

theorem State.namedOrder_none (h : s.findOrder n = none) : s.namedOrder n = .error .notFound := by
  unfold State.namedOrder
  rw [if_pos (inRange_eq_true.mpr ⟨lo, hi⟩), h]

theorem State.namedOrder_some {i : SlotId} {o : Order} (h : s.findOrder n = some (i, o)) :
    s.namedOrder n = .ok (i, o) := by
  unfold State.namedOrder
  rw [if_pos (inRange_eq_true.mpr ⟨lo, hi⟩), h]

end

/-! ### The answers -/

section
variable {s : State} {n : Nat}

theorem State.orderCancel_error {r : ResultCode} (h : s.namedOrder n = .error r) :
    s.orderCancel n = .refused s r := by
  unfold State.orderCancel; rw [h]

theorem State.orderCancel_some {i : SlotId} {o : Order} (h : s.namedOrder n = .ok (i, o)) :
    (o.stage = .opened → s.orderCancel n = .ok (s.freeOrder i) []) ∧
    (o.stage ≠ .opened → s.orderCancel n = .refused s .wrongState) := by
  unfold State.orderCancel
  rw [h]
  exact ⟨fun opened => if_pos (Order.isOpen_iff.mpr opened), fun other => if_neg fun e => other (Order.isOpen_iff.mp e)⟩

theorem State.orderGet_position {k : Nat} (h : k < 1 ∨ 8 < k) : s.orderGet (n, k) = .refused s .invalid :=
  if_neg (by rw [inRange_eq_true]; dsimp only; omega)

theorem State.orderGet_error {k : Nat} (lo : 1 ≤ k) (hi : k ≤ 8) {r : ResultCode} (h : s.namedOrder n = .error r) :
    s.orderGet (n, k) = .refused s r := by
  unfold State.orderGet
  rw [if_pos (inRange_eq_true.mpr ⟨lo, hi⟩), h]

theorem State.orderGet_some {k : Nat} (lo : 1 ≤ k) (hi : k ≤ 8) {i : SlotId} {o : Order}
    (h : s.namedOrder n = .ok (i, o)) : s.orderGet (n, k) = .ok s (o.body k) := by
  unfold State.orderGet
  rw [if_pos (inRange_eq_true.mpr ⟨lo, hi⟩), h]

theorem State.orderCollect_note {note : Nat} (h : note < 1 ∨ 999999 < note) :
    s.orderCollect (n, note) = .refused s .invalid :=
  if_neg (by rw [inRange_eq_true]; dsimp only; omega)

section
variable {note : Nat} (lo : 1 ≤ note) (hi : note ≤ 999999)
include lo hi

theorem State.orderCollect_error {r : ResultCode} (h : s.namedOrder n = .error r) :
    s.orderCollect (n, note) = .refused s r := by
  unfold State.orderCollect
  rw [if_pos (inRange_eq_true.mpr ⟨lo, hi⟩), h]

theorem State.orderCollect_some {i : SlotId} {o : Order} (h : s.namedOrder n = .ok (i, o)) :
    ((∀ part x, o.stage ≠ .noted part x) → s.orderCollect (n, note) = .refused s .wrongState) ∧
    (∀ part x, o.stage = .noted part x → s.orderCollect (n, note)
      = if x.number = note then .ok (s.freeOrder i) [] else .refused s .invalid) := by
  unfold State.orderCollect
  rw [if_pos (inRange_eq_true.mpr ⟨lo, hi⟩), h]
  dsimp only
  refine ⟨fun other => ?_, fun part x noted => by rw [noted]⟩
  cases hs : o.stage with
  | opened => rfl
  | active part => rfl
  | noted part x => exact absurd hs (other part x)

end

end

/-! ### The body of ORDER_GET and the list -/

/-- The answer of ORDER_GET with its compartments and its parts spelled (R47, R153). -/
theorem Order.body_spelled (o : Order) (position : Nat) (rest : List Compartment) (time : Option Time → List Byte)
    (hr : rest = o.comps.drop (position - 1))
    (ht : time = markedBytes (fun x => littleEndian 2 x.day ++ littleEndian 4 x.second)) : o.body position
    = littleEndian 4 o.number ++ littleEndian 4 o.seq
      ++ (match o.stage with
          | .opened => [(0 : Byte)]
          | .active _ => [1]
          | .noted _ _ => [2])
      ++ littleEndian 4 o.card ++ markedBytes (fun b => [numberByte b]) o.bay ++ textBytes o.tanker
      ++ (match o.stage with
          | .opened => [0, 0]
          | .active part => 1 :: numberByte part.bay :: time part.startTime ++ time part.endTime ++ [0]
          | .noted part x => 1 :: numberByte part.bay :: time part.startTime ++ time part.endTime
              ++ 1 :: littleEndian 4 x.number ++ textBytes x.holder
              ++ memberBytes 2 [NoteFlag.powerInterrupted, .bayReset, .hostClosed] x.flags)
      ++ littleEndian 4 (o.comps.map (·.gross)).sum ++ littleEndian 4 (o.comps.map (·.net)).sum
      ++ countedBytes Compartment.body (rest.take 4) ++ [if 4 < rest.length then 1 else 0] := by
  subst hr ht
  have body := o.body_eq position
  rw [Stage.body_eq] at body
  exact body

/-- The state filter that a byte of ORDER_LIST names, and the orders that pass it (R48). -/
theorem orderFilter_named {k : Byte} (h : k.toNat ≤ 3) : ∃ filter,
    [OrderFilter.opened, .active, .noted, .any][k.toNat]? = some filter ∧
    ∀ o : Order, o.passes filter = true ↔ k = 3 ∨ (k = 0 ∧ o.stage = .opened) ∨
      (k = 1 ∧ ∃ part, o.stage = .active part) ∨ (k = 2 ∧ ∃ part note, o.stage = .noted part note) := by
  have four : k = 0 ∨ k = 1 ∨ k = 2 ∨ k = 3 := by bv_omega
  rcases four with rfl | rfl | rfl | rfl
  · refine ⟨.opened, rfl, fun o => ?_⟩
    cases hs : o.stage <;> simp [Order.passes, Stage.code, hs]
  · refine ⟨.active, rfl, fun o => ?_⟩
    cases hs : o.stage <;> simp [Order.passes, Stage.code, hs]
  · refine ⟨.noted, rfl, fun o => ?_⟩
    cases hs : o.stage <;> simp [Order.passes, Stage.code, hs]
  · exact ⟨.any, rfl, fun o => by simp [Order.passes]⟩

/-- Settles O21: each request by its fields, the order that its number names and that order's stage. -/
theorem orderCancelGetListCollect : Obligations.OrderCancelGetListCollect := by
  rintro s tag k n note b bk bn kb hp hn hnote rfl rfl rfl rfl
  have cancel : exec (.orderCancel tag (littleEndian 4 n)) s
      = .next ((s.orderCancel n).send 0x32 tag (littleEndian 4 n)) :=
    congrArg _ (State.request_taken hp (readLong_littleEndian n hn))
  have get : exec (.orderGet tag (littleEndian 4 n ++ [k])) s
      = .next ((s.orderGet (n, k.toNat)).send 0x33 tag (littleEndian 4 n ++ [k])) :=
    congrArg _ (State.request_taken hp (readOrderGet_bytes hn k))
  have collect : exec (.orderCollect tag (littleEndian 4 n ++ littleEndian 4 note)) s
      = .next ((s.orderCollect (n, note)).send 0x35 tag (littleEndian 4 n ++ littleEndian 4 note)) :=
    congrArg _ (State.request_taken hp (readCollect_bytes hn hnote))
  rw [cancel, get, collect]
  have badPosition : (k.toNat < 1 ∨ 8 < k.toNat) → s.orderGet (n, k.toNat) = .refused s .invalid :=
    State.orderGet_position
  have badNote : (note < 1 ∨ 999999 < note) → s.orderCollect (n, note) = .refused s .invalid :=
    State.orderCollect_note
  refine ⟨fun outside => ⟨?_, ?_, ?_⟩, fun h => by rw [badPosition h]; rfl, fun h => by rw [badNote h]; rfl,
    fun lo hi absent => ⟨?_, fun klo khi => ?_, fun nlo nhi => ?_⟩, fun i o lo hi ho => ?_, fun past => ?_,
    fun within => ?_⟩
  · rw [State.orderCancel_error (State.namedOrder_outside outside)]; rfl
  · by_cases position : 1 ≤ k.toNat ∧ k.toNat ≤ 8
    · rw [State.orderGet_error position.1 position.2 (State.namedOrder_outside outside)]; rfl
    · rw [badPosition (by omega)]; rfl
  · by_cases number : 1 ≤ note ∧ note ≤ 999999
    · rw [State.orderCollect_error number.1 number.2 (State.namedOrder_outside outside)]; rfl
    · rw [badNote (by omega)]; rfl
  · rw [State.orderCancel_error (State.namedOrder_none lo hi absent)]; rfl
  · rw [State.orderGet_error klo khi (State.namedOrder_none lo hi absent)]; rfl
  · rw [State.orderCollect_error nlo nhi (State.namedOrder_none lo hi absent)]; rfl
  · have named := State.namedOrder_some lo hi ho
    refine ⟨fun opened => ?_, fun other => ?_, fun klo khi rest time hr ht => ?_,
      fun nlo nhi => ⟨fun other => ?_, fun part x noted => ?_⟩⟩
    · rw [(State.orderCancel_some named).1 opened]; rfl
    · rw [(State.orderCancel_some named).2 other]; rfl
    · rw [State.orderGet_some klo khi named, o.body_spelled _ rest time hr ht, funext Compartment.body_eq]; rfl
    · rw [(State.orderCollect_some nlo nhi named).1 other]; rfl
    · rw [(State.orderCollect_some nlo nhi named).2 part x noted, Reply.send_ite]; rfl
  · have hr : readOrderList (k :: littleEndian 4 n) = none := by
      rw [readOrderList_bytes hn, List.getElem?_eq_none past]; rfl
    exact congrArg _ (State.request_malformed hp hr)
  · obtain ⟨filter, hf, passes⟩ := orderFilter_named within
    have hr : readOrderList (k :: littleEndian 4 n) = some (filter, n) := by rw [readOrderList_bytes hn, hf]; rfl
    obtain ⟨mem, nodup, ascending⟩ := s.inCreationOrder_held fun e => e.2.passes filter && decide (n < e.2.seq)
    refine ⟨s.ordersBeyond filter n, fun i o => (mem i o).trans ?_, nodup, ascending,
      congrArg _ (State.request_taken hp hr)⟩
    rw [Bool.and_eq_true, passes, decide_eq_true_iff, and_comm (a := n < o.seq)]

end Sys2Proof.Machine
end

section
/-! SUPPORT. The end of a batch by its settle or by the leak timer (R39, R53, R75, R77, R93 to R95, R114): the state that
the bay is then told of (`retired`), field by field, and what the telling leaves. -/

namespace Sys2Proof.Machine

/-! ### The learned allowance and the compartment -/

/-- A half of a whole number rounded toward zero is its truncated quotient by two. -/
theorem eq_tdiv_two {d half : Int} (least : 2 * half.natAbs ≤ d.natAbs) (most : d.natAbs < 2 * half.natAbs + 2)
    (above : 0 < half → 0 < d) (below : half < 0 → d < 0) : half = d.tdiv 2 := by
  rcases le_total 0 d with pos | neg
  · rw [Int.tdiv_eq_ediv_of_nonneg pos]; omega
  · obtain ⟨e, rfl⟩ : ∃ e, d = -e := ⟨-d, by omega⟩
    rw [Int.neg_tdiv, Int.tdiv_eq_ediv_of_nonneg (by omega)]; omega

/-- The closing allowance learned, by the half of the overrun (R95). -/
theorem learnedAllowance_eq (old gross target : Nat) {half : Int}
    (least : 2 * half.natAbs ≤ ((gross : Int) - target).natAbs)
    (most : ((gross : Int) - target).natAbs < 2 * half.natAbs + 2) (above : 0 < half → target < gross)
    (below : half < 0 → gross < target) :
    (learnedAllowance old gross target : Int) = max 0 (min 500 ((old : Int) + half)) := by
  have quotient : half = ((gross : Int) - target).tdiv 2 :=
    eq_tdiv_two least most (fun h => by have := above h; omega) fun h => by have := below h; omega
  unfold learnedAllowance
  rw [← quotient]
  omega

theorem Batch.reachedTarget_iff {b : Batch} {leak : Bool} :
    b.reachedTarget leak = true ↔ b.closeKind = some .target ∧ leak = false := by
  unfold Batch.reachedTarget
  rw [Bool.and_eq_true, decide_eq_true_iff, Bool.not_eq_true']

/-- The credit of a last step speaks of these fields alone. -/
theorem Compartment.LastStepCredited.congr {x y c : Compartment} {b : Batch} {g : Nat} {temp : Option Int}
    (h : x.LastStepCredited c b g temp) (planned : y.planned = x.planned) (gross : y.gross = x.gross)
    (net : y.net = x.net) (temps : y.tempSum = x.tempSum)
    (flag : CompFlag.tempSubstituted ∈ y.flags ↔ CompFlag.tempSubstituted ∈ x.flags) :
    y.LastStepCredited c b g temp := by
  unfold Compartment.LastStepCredited at h ⊢
  rw [planned, gross, net, temps, flag]
  exact h

theorem Compartment.batchEnded_number (c : Compartment) (reached leak : Bool) :
    (c.batchEnded reached leak).number = c.number := by
  cases reached <;> cases leak <;> rfl

/-- A compartment as the end of its batch leaves it (R39, R93), by its plan `planned`. -/
def Compartment.EndedBy (c : Compartment) (planned : Nat) (reached leak : Bool) : Prop :=
  c.state = (if reached = true ∨ planned ≤ c.gross then .filled else .partly) ∧
  (leak = true → CompFlag.valveLeak ∈ c.flags)

theorem Compartment.batchEnded_endedBy (c : Compartment) (reached leak : Bool) :
    (c.batchEnded reached leak).EndedBy c.planned reached leak := by
  refine ⟨?_, fun h => ?_⟩
  · cases reached <;> cases leak <;> simp [Compartment.batchEnded, Compartment.endedShort, Compartment.addFlag]
  · subst h
    cases reached <;>
      simp [Compartment.batchEnded, Compartment.endedShort, Compartment.addFlag, mem_addTo (CompFlag.mem_all _)]

theorem Compartment.batchEnded_credited (s : State) (a : ArmId) (b : Batch) (c : Compartment) (reached leak : Bool)
    {g : Nat} {temp : Option Int} (hg : g = b.metering.stepMain + b.metering.stepBlend)
    (ht : temp = ((s.arm a).mainMeter.bind fun m =>
      if (s.meter m).probe = true ∧ (s.meter m).probeState = .valid then (s.meter m).lastTemp else none)) :
    ((c.endCredited s a b).batchEnded reached leak).LastStepCredited c b g temp := by
  have credited := Compartment.lastStepCredited s a b c hg ht
  generalize c.endCredited s a b = x at credited ⊢
  refine credited.congr ?_ ?_ ?_ ?_ ?flag
  case flag =>
    cases reached <;> cases leak <;>
      simp [Compartment.batchEnded, Compartment.endedShort, Compartment.addFlag, mem_addTo (CompFlag.mem_all _)]
  all_goals cases reached <;> cases leak <;> rfl

/-! ### The state that the bay is told of -/

/-- A batch end up to stage 5 (R94), with ARM_FAULT after a leak (R93). -/
def State.retired (s : State) (a : ArmId) (b : Batch) (leak : Bool) : State :=
  if leak then (s.retireBatch a b leak).raise .armFault else s.retireBatch a b leak

theorem State.endBatch_eq {s : State} {a : ArmId} {b : Batch} (hb : s.batch a = some b) (leak : Bool) :
    s.endBatch a leak = (s.retired a b leak).tellBay (s.arm a).bay := by
  unfold State.endBatch
  rw [hb]; rfl

theorem State.retireBatch_eq (s : State) (a : ArmId) (b : Batch) (leak : Bool) : s.retireBatch a b leak = { s with
    arms := (s.retireBatch a b leak).arms
    orders := ((s.endCredit a).modComp b.ref fun c => c.batchEnded (b.reachedTarget leak) leak).orders
    injectors := (s.releaseReservations b.ref).injectors } := by
  unfold State.retireBatch State.modArm State.releaseReservations
  dsimp only
  rw [State.modComp_eq]
  have credit := endCredit_eq s a
  generalize s.endCredit a = v at credit
  rw [credit]

theorem State.retired_eq (s : State) (a : ArmId) (b : Batch) (leak : Bool) : s.retired a b leak = { s with
    arms := (s.retireBatch a b leak).arms
    orders := ((s.endCredit a).modComp b.ref fun c => c.batchEnded (b.reachedTarget leak) leak).orders
    injectors := (s.releaseReservations b.ref).injectors, flags := (s.retired a b leak).flags } := by
  have batch := s.retireBatch_eq a b leak
  unfold State.retired
  generalize s.retireBatch a b leak = v at batch ⊢
  cases leak <;> rw [batch] <;> rfl

theorem State.retireBatch_arm (s : State) (a x : ArmId) (b : Batch) (leak : Bool) :
    (s.retireBatch a b leak).arm x = if x = a then (s.arm a).batchEnded b leak else s.arm x := by
  have arms : (((s.endCredit a).modComp b.ref fun c => c.batchEnded (b.reachedTarget leak) leak).releaseReservations
      b.ref).arms = (s.endCredit a).arms := by
    rw [State.modComp_eq]; rfl
  unfold State.retireBatch
  rw [State.arm_modArm]
  unfold State.arm at *
  rw [arms]
  split
  · obtain ⟨f, self⟩ := endCredit_self s a
    unfold State.arm at self
    rw [self]; rfl
  · rename_i other
    exact endCredit_arm s a x other

section
variable (s : State) (a : ArmId) (b : Batch) (leak : Bool)

theorem State.retired_arm (x : ArmId) :
    (s.retired a b leak).arm x = if x = a then (s.arm a).batchEnded b leak else s.arm x := by
  rw [← s.retireBatch_arm, s.retired_eq]; rfl

theorem State.retired_session (bay : BayId) : (s.retired a b leak).session bay = s.session bay := by
  rw [s.retired_eq]; rfl

/-- No injector keeps a reservation for the compartment (R94, R124). -/
theorem State.retired_reservations (i : InjectorId) :
    ∀ r ∈ ((s.retired a b leak).injector i).reservations, r.ref ≠ b.ref := by
  rw [s.retired_eq]
  simp [State.injector, State.releaseReservations]

theorem State.retired_armFault : EventFlag.armFault ∈ (s.retired a b true).flags :=
  (State.mem_flags_raise _ _ _).mpr (.inl rfl)

/-- Every arm of the bay is IDLE where no other of them has a batch. -/
theorem State.retired_allIdle (bay : BayId) : (s.retired a b leak).allIdle bay = true ↔
    ∀ y, y ≠ a → (s.arm y).bay = some bay → s.batch y = none := by
  rw [allIdle_iff]
  refine forall_congr' fun y => ?_
  unfold State.batch
  rw [State.retired_arm]
  by_cases h : y = a
  · subst h
    rw [if_pos rfl]
    exact ⟨fun _ ne => absurd rfl ne, fun _ _ => rfl⟩
  · rw [if_neg h]
    exact ⟨fun k _ => k, fun k => k h⟩

variable {s a b}

theorem State.retired_comp {c : Compartment} (hb : s.batch a = some b) (h : s.CompHas b.ref (· = c)) :
    (s.retired a b leak).CompHas b.ref (· = (c.endCredited s a b).batchEnded (b.reachedTarget leak) leak) := by
  have ended := (h.endCredit hb).modComp (Q := (· = (c.endCredited s a b).batchEnded (b.reachedTarget leak) leak))
    (fun c => c.batchEnded (b.reachedTarget leak) leak)
    (fun c => c.batchEnded_number _ _) fun x e => by rw [e]
  exact ended.congr (by rw [s.retired_eq])

/-- A change of compartments leaves an order in its slot and its stage. -/
theorem State.findOrder_modComp {n : Nat} {i : SlotId} {o : Order} (h : s.findOrder n = some (i, o)) (r : CompRef)
    (f : Compartment → Compartment) : ∃ o', (s.modComp r f).findOrder n = some (i, o') ∧ o'.stage = o.stage := by
  rw [(State.compChanged_modComp s r f).findOrder, h]
  refine ⟨_, rfl, ?_⟩
  dsimp only
  split <;> rfl

theorem State.findOrder_endCredit {n : Nat} {i : SlotId} {o : Order} (h : s.findOrder n = some (i, o)) :
    ∃ o', (s.endCredit a).findOrder n = some (i, o') ∧ o'.stage = o.stage := by
  unfold State.endCredit
  split
  · split
    · exact ⟨o, h, rfl⟩
    · exact State.findOrder_modComp h _ _
  · exact ⟨o, h, rfl⟩

theorem State.retired_findOrder {n : Nat} {i : SlotId} {o : Order} (h : s.findOrder n = some (i, o)) :
    ∃ o', (s.retired a b leak).findOrder n = some (i, o') ∧ o'.stage = o.stage := by
  obtain ⟨p, hp, stage⟩ := State.findOrder_endCredit (a := a) h
  obtain ⟨q, hq, same⟩ := State.findOrder_modComp hp b.ref fun c => c.batchEnded (b.reachedTarget leak) leak
  refine ⟨q, ?_, same.trans stage⟩
  rw [← hq]
  exact findOrder_orders (by rw [s.retired_eq]) n

end

/-! ### The bay told -/

theorem tellBay_session_other (s : State) {told : Option BayId} {c : BayId} (h : told ≠ some c) :
    (s.tellBay told).session c = s.session c := by
  cases told with
  | none => rfl
  | some bay =>
    have ne : c ≠ bay := fun e => h (congrArg some e.symm)
    obtain ⟨nothing, limit, close⟩ := tellBay_told s bay
    by_cases idle : s.allIdle bay = true
    · by_cases loading : (s.session bay).state = .loading
      · rw [limit idle loading]
        exact vget_vset_ne _ _ ne
      · by_cases closing : (s.session bay).state = .closing
        · rw [close idle closing]
          exact (closeSession_spec s bay).sessions c ne
        · rw [nothing (.inr ⟨loading, closing⟩)]
    · rw [nothing (.inl (by simpa using idle))]

/-- The order of a session that closes is OPEN or NOTED by what it then has delivered (R77, R152). -/
theorem ClosedFrom.released {s t : State} {bay : BayId} {n : Nat} {i : SlotId} {o : Order} {part : SessionPart}
    (k : ClosedFrom s t bay) (bound : (s.session bay).bound = some n) (found : s.findOrder n = some (i, o))
    (active : o.stage = .active part) : ∃ o', t.orderIn i = some o' ∧ ((o'.totalGross = 0 ∧ o'.stage = .opened) ∨
      (0 < o'.totalGross ∧ ∃ note, o'.stage = .noted { part with endTime := s.clock } note ∧
        note.flags = noteFlagsOf (s.session bay).closeCause ∧ (t.display bay).lastNote = some note.number ∧
        EventFlag.orderNoted ∈ t.flags)) := by
  rcases Nat.eq_zero_or_pos o.totalGross with zero | pos
  · exact ⟨_, k.opened n i o bound found zero, .inl ⟨zero, rfl⟩⟩
  · obtain ⟨order, -, last, flag⟩ := k.noted n i o part bound found active pos
    exact ⟨_, order, .inr ⟨by rw [Order.noted_totalGross]; exact pos, _, rfl, rfl, last, flag⟩⟩

theorem noteFlagsOf_spelled (cause : Option CloseCause) : noteFlagsOf cause = match cause with
    | some .host => [.hostClosed]
    | some .reset => [.bayReset]
    | _ => [] := by
  rcases cause with _ | cause
  · rfl
  · cases cause <;> rfl

/-! ### The two timers -/

theorem State.expire_without_effect {s : State} {t : Timer} {act : State → State} (h : act s = s) :
    s.expire t act = s := by
  unfold State.expire
  split
  · exact h
  · rfl

theorem exec_batchEnd {s : State} {a : ArmId} {b : Batch} {leak : Bool} (hb : s.batch a = some b)
    (closing : b.state = .closing) (due : (if leak then b.leak else b.settle) = some 0) :
    exec (if leak then .leakTimerExpiry a else .settleTimerExpiry a) s = .next (s.endBatch a leak) := by
  have isClosing : s.batchIs a .closing = true := by simp [State.batchIs, hb, closing]
  have timer : ∀ f : Batch → Timer, s.batchTimer a f = f b := fun f => by simp [State.batchTimer, hb]
  cases leak
  · exact congrArg _ ((s.expire_of_due ((timer _).trans due) _).trans (if_pos isClosing))
  · exact congrArg _ ((s.expire_of_due ((timer _).trans due) _).trans (if_pos isClosing))

/-! ### The obligation -/

section
variable {s : State} {a : ArmId} {b : Batch} {leak : Bool}

theorem retired_tellBay_arm (told : Option BayId) (x : ArmId) :
    ((s.retired a b leak).tellBay told).arm x = if x = a then (s.arm a).batchEnded b leak else s.arm x := by
  rw [← State.retired_arm, tellBay_eq]; rfl

/-- The arm of a batch that has ended, and what it has learned (R93, R95). -/
theorem Arm.batchEnded_learned (r : Arm) (b : Batch) (leak : Bool) : ∃ allowance, r.batchEnded b leak = { r with
      batch := none, service := if leak then .outOfService else r.service, closingAllowance := allowance } ∧
    (b.reachedTarget leak = false → allowance = r.closingAllowance) ∧
    (b.reachedTarget leak = true → ∀ half : Int, 2 * half.natAbs ≤ ((b.gross : Int) - b.target).natAbs →
      ((b.gross : Int) - b.target).natAbs < 2 * half.natAbs + 2 → (0 < half → b.target < b.gross) →
      (half < 0 → b.gross < b.target) →
      (allowance : Int) = max 0 (min 500 ((r.closingAllowance : Int) + half))) := by
  refine ⟨_, rfl, fun short => ?_, fun reached half least most above below => ?_⟩
  · rw [short]; rfl
  · rw [if_pos reached]
    exact learnedAllowance_eq _ _ _ least most above below

/-- The compartment of a batch that has ended, the bay told (R39, R53, R114). -/
theorem retired_tellBay_comp {o : Order} {c : Compartment} {g : Nat} {temp : Option Int} (told : Option BayId)
    (hb : s.batch a = some b) (ho : s.orderOf b.ref = some o) (hc : o.comp b.ref.comp = some c)
    (hg : g = b.metering.stepMain + b.metering.stepBlend)
    (ht : temp = ((s.arm a).mainMeter.bind fun m =>
      if (s.meter m).probe = true ∧ (s.meter m).probeState = .valid then (s.meter m).lastTemp else none)) :
    ((s.retired a b leak).tellBay told).CompHas b.ref fun c' =>
      c'.LastStepCredited c b g temp ∧ c'.EndedBy c.planned (b.reachedTarget leak) leak := by
  have credited := Compartment.batchEnded_credited s a b c (b.reachedTarget leak) leak hg ht
  have ended := (c.endCredited s a b).batchEnded_endedBy (b.reachedTarget leak) leak
  have planned : (c.endCredited s a b).planned = c.planned := by
    obtain ⟨same, -⟩ := Compartment.batchEnded_credited s a b c false false hg ht
    exact same
  rw [planned] at ended
  refine (State.CompHas.mono (State.retired_comp leak hb ⟨o, c, ho, hc, rfl⟩) ?_).tellBay told fun c' h => h
  rintro c' rfl
  exact ⟨credited, ended⟩

/-- The session of the bay told of the end of a batch (R75, R77), by the other arms of the bay. -/
theorem retired_tellBay_session (bay : BayId) :
    ((∃ y, y ≠ a ∧ (s.arm y).bay = some bay ∧ (s.batch y).isSome = true) ∨
      ((s.session bay).state ≠ .loading ∧ (s.session bay).state ≠ .closing) →
      ((s.retired a b leak).tellBay (some bay)).session bay = s.session bay) ∧
    ((∀ y, y ≠ a → (s.arm y).bay = some bay → s.batch y = none) →
      ((s.session bay).state = .loading →
        ((s.retired a b leak).tellBay (some bay)).session bay = { s.session bay with timer := some 600000 }) ∧
      ((s.session bay).state = .closing →
        ClosedFrom (s.retired a b leak) ((s.retired a b leak).tellBay (some bay)) bay)) := by
  obtain ⟨nothing, limit, close⟩ := tellBay_told (s.retired a b leak) bay
  rw [State.retired_session] at nothing limit close
  refine ⟨fun busy => ?_, fun idle => ⟨fun loading => ?_, fun closing => ?_⟩⟩
  · rw [nothing, State.retired_session]
    refine busy.imp_left fun ⟨y, ne, onBay, out⟩ => ?_
    rw [← Bool.not_eq_true, State.retired_allIdle]
    intro idle
    rw [idle y ne onBay] at out; cases out
  · rw [limit ((s.retired_allIdle a b leak bay).mpr idle) loading, session_set]
  · rw [close ((s.retired_allIdle a b leak bay).mpr idle) closing]
    exact closeSession_spec _ bay

/-- The order of a session that closes with the end of a batch (R77, R152). -/
theorem retired_closed_order {t : State} {bay : BayId} {n : Nat} {i : SlotId} {o : Order} {part : SessionPart}
    (k : ClosedFrom (s.retired a b leak) t bay) (bound : (s.session bay).bound = some n)
    (found : s.findOrder n = some (i, o)) (active : o.stage = .active part) :
    ∃ o', t.orderIn i = some o' ∧ ((o'.totalGross = 0 ∧ o'.stage = .opened) ∨
      (0 < o'.totalGross ∧ ∃ note, o'.stage = .noted { part with endTime := s.clock } note ∧
        note.flags = noteFlagsOf (s.session bay).closeCause ∧ (t.display bay).lastNote = some note.number ∧
        EventFlag.orderNoted ∈ t.flags)) := by
  have session := s.retired_session a b leak bay
  have clock : (s.retired a b leak).clock = s.clock := by rw [s.retired_eq]
  obtain ⟨p, hp, stage⟩ := State.retired_findOrder (a := a) (b := b) leak found
  rw [← clock, ← session]
  exact k.released (by rw [session]; exact bound) hp (stage.trans active)

end

/-- Settles O41: the timers out of place, and a batch end by its arm, its compartment and its bay. -/
theorem batchEnd : Obligations.BatchEnd := by
  intro s a
  have settle : exec (.settleTimerExpiry a) s = .next (s.expire (s.batchTimer a (·.settle)) fun s =>
    if s.batchIs a .closing then s.endBatch a false else s) := rfl
  have leaks : exec (.leakTimerExpiry a) s = .next (s.expire (s.batchTimer a (·.leak)) fun s =>
    if s.batchIs a .closing then s.endBatch a true else s) := rfl
  refine ⟨fun other => ?_, fun b hb => ⟨fun running => ?_, fun running => ?_⟩,
    fun b leak reached g temp hb closing due hr hg ht => ?_⟩
  · rw [settle, leaks, State.expire_without_effect (by rw [other]; rfl),
      State.expire_without_effect (by rw [other]; rfl)]
    exact ⟨rfl, rfl⟩
  · rw [settle, State.expire_not _ (by rw [State.batchTimer, hb]; exact running)]
  · rw [leaks, State.expire_not _ (by rw [State.batchTimer, hb]; exact running)]
  obtain rfl : reached = b.reachedTarget leak := Bool.eq_iff_iff.mpr (hr.trans Batch.reachedTarget_iff.symm)
  have isClosing : s.batchIs a .closing = true := by simp [State.batchIs, hb, closing]
  have same := ((Keeps.refl s).endBatch a leak isClosing).same
  have parts := tellBay_eq (s.retired a b leak) (s.arm a).bay
  rw [State.endBatch_eq hb] at same
  refine ⟨_, (exec_batchEnd hb closing due).trans (by rw [State.endBatch_eq hb]), ?_, ?_, ?_, ?_, ?_, ?_, ?_, ?_, ?_,
    same⟩
  · rw [retired_tellBay_arm, if_pos rfl]
    exact (s.arm a).batchEnded_learned b leak
  · rintro rfl
    exact tellBay_flags _ _ (s.retired_armFault a b)
  · intro o c ho hc
    obtain ⟨o', c', ho', hc', ⟨-, empty, credited, temps, substituted⟩, state, valve⟩ :=
      retired_tellBay_comp (leak := leak) (s.arm a).bay hb ho hc hg ht
    exact ⟨o', c', ho', hc', empty, credited, temps, substituted, state, valve⟩
  · intro i
    rw [parts]
    exact s.retired_reservations a b leak i
  · rintro bay x onBay rfl
    rw [onBay]
    obtain ⟨busy, idle⟩ := retired_tellBay_session (s := s) (a := a) (b := b) (leak := leak) bay
    refine ⟨busy, fun others => ?_⟩
    obtain ⟨limit, close⟩ := idle others
    refine ⟨limit, fun state => ?_⟩
    have k := close state
    have session := s.retired_session a b leak bay
    refine ⟨?_, k.flag, fun p hp hcard => k.permit p hp (by rw [session]; exact hcard),
      fun n i o part bound ho active => ?_⟩
    · rw [k.session, session]; rfl
    · obtain ⟨o', slot, released⟩ := retired_closed_order k bound ho active
      exact ⟨o', slot, released.imp_right fun ⟨pos, note, noted, flags, last, flag⟩ =>
        ⟨pos, note, noted, flags.trans (noteFlagsOf_spelled _), last, flag⟩⟩
  · intro c other
    rw [tellBay_session_other _ other, State.retired_session]
  · intro x other
    rw [retired_tellBay_arm, if_neg other]
  · rw [parts, s.retired_eq]
  · rw [parts, s.retired_eq]

end Sys2Proof.Machine
end

section
/-! SUPPORT. The passing of time on an empty queue (log entries 2 and 4): the command that is due, and one millisecond. -/

namespace Sys2Proof.Machine

theorem Timer.due_iff (t : Timer) : Timer.due t = true ↔ t = some 0 := decide_eq_true_iff

/-- The command due is that of the first timer that stands at 0 (log entry 4). -/
theorem State.dueCommand_first {s : State} {before after : List (Timer × Instr)} {timer : Timer} {c : Instr}
    (order : s.timers = before ++ (timer, c) :: after) (due : timer = some 0) (early : ∀ e ∈ before, e.1 ≠ some 0) :
    s.dueCommand = some c := by
  have first : s.timers.find? (fun e => Timer.due e.1) = some (timer, c) := by
    refine List.find?_eq_some_iff_append.mpr ⟨(Timer.due_iff _).mpr due, before, after, order, fun e he => ?_⟩
    rw [Bool.not_eq_true', ← Bool.not_eq_true, Timer.due_iff]
    exact early e he
  unfold State.dueCommand
  rw [first]; rfl

theorem State.dueCommand_none {s : State} (running : ∀ e ∈ s.timers, e.1 ≠ some 0) : s.dueCommand = none := by
  have nobody : s.timers.find? (fun e => Timer.due e.1) = none :=
    List.find?_eq_none.mpr fun e he => mt (Timer.due_iff _).mp (running e he)
  unfold State.dueCommand
  rw [nobody]; rfl

/-- With nothing queued the expiry due is taken, or a millisecond passes (log entry 2). -/
theorem step_idle {s : State} (empty : s.pending = []) :
    step s = s.dueCommand.elim (.next s.advance) fun c => exec c s := by
  have idle : step s = s.idle := by unfold step; rw [empty]
  rw [idle]
  unfold State.idle
  cases s.dueCommand <;> rfl

/-! ### One millisecond -/

theorem State.advance_session (s : State) (b : BayId) : s.advance.session b = (s.session b).later := vget_vmap _ _ _

theorem State.advance_arm (s : State) (a : ArmId) :
    s.advance.arm a = { s.arm a with batch := (s.batch a).map Batch.later } := by
  unfold State.batch State.arm State.advance
  rw [vget_vmap]

theorem State.advance_injector (s : State) (i : InjectorId) :
    s.advance.injector i = { s.injector i with shot := (s.injector i).shot.map Shot.later } := by
  unfold State.injector State.advance
  rw [vget_vmap]

theorem State.advance_display (s : State) (b : BayId) : s.advance.display b = (s.display b).later := vget_vmap _ _ _

/-- Settles O2: the first timer at 0, or a millisecond on every record that holds timers. -/
theorem idleStepLetsTimePass : Obligations.IdleStepLetsTimePass := by
  intro s timers empty spelled
  have order : s.timers = timers := spelled.symm
  rw [step_idle empty, ← order]
  refine ⟨fun before timer c after parts due early => ?_, fun running => ⟨s.advance, ?_, rfl, ?_, ?_, ?_, ?_⟩⟩
  · rw [State.dueCommand_first parts due early]; rfl
  · rw [State.dueCommand_none running]; rfl
  · exact s.advance_session
  · exact s.advance_arm
  · exact s.advance_injector
  · exact s.advance_display

end Sys2Proof.Machine
end

section
/-! SUPPORT. The state right after reset: its records, and that the invariants of Safety.lean hold in it (R81, R106, R122,
R142, R149, R166, R169 to R174). -/

namespace Sys2Proof.Machine

/-! ### Its records -/

@[simp] theorem reset_session (b : BayId) : State.reset.session b = Session.atReset := vget_replicate _ _
@[simp] theorem reset_arm (a : ArmId) : State.reset.arm a = Arm.default := vget_replicate _ _
@[simp] theorem reset_batch (a : ArmId) : State.reset.batch a = none := by rw [State.batch, reset_arm]; rfl
@[simp] theorem reset_header (h : HeaderId) : State.reset.header h = Header.default := vget_replicate _ _
@[simp] theorem reset_meter (m : MeterId) : State.reset.meter m = Meter.default := vget_replicate _ _
@[simp] theorem reset_injector (i : InjectorId) : State.reset.injector i = Injector.default := vget_replicate _ _
@[simp] theorem reset_display (b : BayId) : State.reset.display b = Display.atReset := vget_replicate _ _
@[simp] theorem reset_orderIn (i : SlotId) : State.reset.orderIn i = none := vget_replicate _ _
@[simp] theorem reset_product (p : ProductId) : State.reset.product p = none := vget_replicate _ _
@[simp] theorem reset_screen (n : ScreenId) : vget State.reset.screens n = Screen.blank := vget_replicate _ _
@[simp] theorem reset_mapEntry (i : Fin 9) : vget State.reset.promptMap i = MapEntry.default := vget_replicate _ _

theorem reset_matrix (g h : GroupCode) : vget (vget State.reset.matrix g) h = .allow := by
  rw [show vget State.reset.matrix g = Vector.replicate 8 .allow from vget_replicate _ _, vget_replicate]

/-! ### The invariants -/

theorem reset_permitsOrdered : State.reset.PermitsOrdered := ⟨List.Pairwise.nil, Nat.zero_le _⟩

theorem reset_ordersDistinct : State.reset.OrdersDistinct := fun i _ o _ hi _ _ => by
  rw [reset_orderIn] at hi; cases hi

theorem reset_notesDistinct : State.reset.NotesDistinct := by
  refine ⟨by decide, fun i j n hi _ => ?_⟩
  rw [State.noteAt, reset_orderIn] at hi; cases hi

theorem reset_stoppedDemandsZero : State.reset.StoppedDemandsZero := fun a b hb => by
  rw [reset_batch] at hb; cases hb

/-- No batch flows after a reset, and no arm draws (R97, R106). -/
theorem reset_drawingExact : State.reset.DrawingExact := by
  intro h a
  simp [Header.default]

theorem reset_esdStopsFlow : State.reset.EsdStopsFlow := fun _ a b hb => by
  rw [reset_batch] at hb; cases hb

theorem reset_residuesBelowK : State.reset.ResiduesBelowK := fun m => by rw [reset_meter]; decide

theorem reset_clockInRange : State.reset.ClockInRange := fun _ h => nomatch h

/-- Settles O10: the records of the reset state one kind after the other, then the invariants. -/
theorem resetState : Obligations.ResetState := by
  refine ⟨rfl, rfl, rfl, rfl, reset_session, reset_batch, fun h => ?_, fun i => ?_, fun m => ?_, fun b => ?_,
    ⟨rfl, reset_product, reset_matrix, reset_orderIn, rfl, rfl, reset_arm, reset_header, fun m => ?_, reset_injector,
      reset_screen, reset_mapEntry⟩, rfl, rfl, reset_permitsOrdered, reset_ordersDistinct, reset_notesDistinct,
    reset_stoppedDemandsZero, reset_drawingExact, reset_esdStopsFlow, reset_residuesBelowK, reset_clockInRange⟩
  · rw [reset_header]; rfl
  · rw [reset_injector]; exact ⟨rfl, rfl, rfl, rfl, rfl, rfl⟩
  · rw [reset_meter]; exact ⟨rfl, rfl, rfl, rfl⟩
  · rw [reset_display]; exact ⟨rfl, rfl, rfl, rfl, rfl⟩
  · rw [reset_meter]; exact ⟨rfl, rfl, rfl, rfl, rfl, rfl⟩

end Sys2Proof.Machine
end

section
/-! SUPPORT. What every key does first, the keys that a session's state ignores, and digits in CODE_ENTRY and in LOADING
(R61, R67, R69, R75, Table 4-2). -/

namespace Sys2Proof.Machine

/-! ### The first effect -/

theorem State.bayArms_ascending (s : State) (bay : BayId) : (s.bayArms bay).Pairwise (· < ·) :=
  (List.pairwise_lt_finRange 12).filter _

theorem Woken.session_state {s u : State} {bay : BayId} (h : Woken s u bay) :
    (u.session bay).state = (s.session bay).state := by
  obtain ⟨timer, e⟩ := h.session
  rw [e]

theorem State.restartInactivity_runs {s : State} {bay : BayId} (h : (s.session bay).state = .loading)
    (idle : s.allIdle bay = true) :
    s.restartInactivity bay = { s with bays := vset s.bays bay { s.session bay with timer := some 600000 } } :=
  if_pos ⟨h, idle⟩

section
variable (s : State) (bay : BayId)

theorem State.signOfLife_session : (s.signOfLife bay).session bay
    = { s.session bay with terminal := .present, silence := some 3000 } := by
  unfold State.session; rw [s.signOfLife_bays, vget_vset_same]; rfl

theorem State.signOfLife_state : ((s.signOfLife bay).session bay).state = (s.session bay).state := by
  rw [s.signOfLife_session]

/-- A key in LOADING with every arm of the bay IDLE starts the inactivity limit afresh (R75). -/
theorem State.keyed_restarts (loading : (s.session bay).state = .loading)
    (idle : ∀ a, (s.arm a).bay = some bay → s.batch a = none) : s.keyed bay = { s.signOfLife bay with
      bays := vset (s.signOfLife bay).bays bay { (s.signOfLife bay).session bay with timer := some 600000 } } :=
  State.restartInactivity_runs ((s.signOfLife_state bay).trans loading)
    (((s.signOfLife_woken bay).allIdle bay).trans ((allIdle_iff s bay).mpr idle))

theorem State.keyed_signOfLife (other : (s.session bay).state ≠ .loading ∨
    ∃ a, (s.arm a).bay = some bay ∧ (s.batch a).isSome) : s.keyed bay = s.signOfLife bay := by
  refine if_neg fun ⟨loading, idle⟩ => ?_
  rw [s.signOfLife_state] at loading
  rw [(s.signOfLife_woken bay).allIdle, allIdle_iff] at idle
  obtain ne | ⟨a, ha, out⟩ := other
  · exact ne loading
  · rw [idle a ha] at out; cases out

end

/-! ### Keys ignored -/

section
variable {u : State} {bay : BayId}

theorem State.loadingKey_ignored (h : (u.session bay).state ≠ .loading) (act : State → State) :
    u.loadingKey bay act = u := if_neg h

theorem State.enterKey_ignored (h : (u.session bay).state ≠ .loading) (k : (u.session bay).state ≠ .codeEntry) :
    u.enterKey bay = u := by
  unfold State.enterKey
  rw [if_neg k, State.loadingKey_ignored h]

theorem State.digitKey_ignored (d : Fin 10) (h : (u.session bay).state = .idle ∨ (u.session bay).state = .waitBond ∨
    (u.session bay).state = .closing) : u.digitKey bay d = u := by
  unfold State.digitKey
  obtain e | e | e := h <;> rw [e]

theorem State.cancelKey_ignored (h : (u.session bay).state = .closing) : u.cancelKey bay = u := by
  unfold State.cancelKey; rw [h]

/-! ### Digits -/

/-- A digit keyed in CODE_ENTRY is collected while fewer than four are held (R61). -/
theorem State.digitKey_code (d : Fin 10) (h : (u.session bay).state = .codeEntry) : u.digitKey bay d = { u with
    bays := vset u.bays bay { u.session bay with
      digits := if (u.session bay).digits.length < 4 then (u.session bay).digits ++ [d]
        else (u.session bay).digits } } := by
  have collected : (if (u.session bay).digits.length < 4
      then { u.session bay with digits := (u.session bay).digits ++ [d] } else u.session bay)
      = { u.session bay with
        digits := if (u.session bay).digits.length < 4 then (u.session bay).digits ++ [d]
          else (u.session bay).digits } := by split <;> rfl
  unfold State.digitKey
  rw [h]
  exact congrArg (u.setSession bay) collected

theorem State.digitKey_loading (d : Fin 10) (h : (u.session bay).state = .loading) :
    u.digitKey bay d = u.loadingDigit bay d := by
  unfold State.digitKey; rw [h]

/-- A digit in LOADING without a pending arm selection names a compartment (R69). -/
theorem State.loadingDigit_selects {d : Fin 10} {n : CompNo} (h : (u.session bay).armPending = false)
    (hd : d.val = n.val + 1) : u.loadingDigit bay d
      = { u with bays := vset u.bays bay { u.session bay with selected := some n } } := by
  unfold State.loadingDigit
  rw [h, hd, show numbered 8 (n.val + 1) = some n from numbered_num n]
  rfl

theorem State.loadingDigit_ignored {d : Fin 10} (h : (u.session bay).armPending = false) (hd : d.val = 0 ∨ d.val = 9) :
    u.loadingDigit bay d = u := by
  have noNumber : numbered 8 d.val = none := numbered_eq_none.mpr (by omega)
  unfold State.loadingDigit
  rw [h, noNumber]
  rfl

/-- A pending digit that is a position of the bay's arms takes the focus there (R69). -/
theorem State.loadingDigit_focuses {d : Fin 10} {f : Fin 6} {a : ArmId} (h : (u.session bay).armPending = true)
    (hd : d.val = f.val + 1) (ha : (u.bayArms bay)[f.val]? = some a) : u.loadingDigit bay d = { u with
      bays := vset u.bays bay { u.session bay with
        armPending := false, focus := f, selected := (u.batch a).map (·.ref.comp) } } := by
  unfold State.loadingDigit
  rw [h, hd, show numbered 6 (f.val + 1) = some f from numbered_num f, Nat.add_sub_cancel, ha]
  simp only [if_true, modSession_eq, session_set, vset_vset]

theorem State.loadingDigit_noSuchArm {d : Fin 10} (h : (u.session bay).armPending = true)
    (hd : d.val = 0 ∨ 6 < d.val ∨ (u.bayArms bay).length < d.val) : u.loadingDigit bay d = { u with
      bays := vset u.bays bay { u.session bay with
        armPending := false, reason := some .noSuchArm, reasonTimer := some 5000 } } := by
  have refused : (u.modSession bay fun x => { x with armPending := false }).refuse bay .noSuchArm = { u with
      bays := vset u.bays bay { u.session bay with
        armPending := false, reason := some .noSuchArm, reasonTimer := some 5000 } } := refuse_set _
  unfold State.loadingDigit
  rw [h, ← refused]
  dsimp only
  rw [if_pos rfl]
  split
  · rename_i position a hp ha
    have place : d.val = position.val + 1 := numbered_eq_some.mp hp
    have inside : d.val - 1 < (u.bayArms bay).length := (List.getElem?_eq_some_iff.mp ha).1
    omega
  · rfl

end

/-- Settles O22: the bay's arms, the first effect of a key, the keys ignored, and a digit by the session's state. -/
theorem keysFirstEffectAndDigits : Obligations.KeysFirstEffectAndDigits := by
  refine ⟨fun s bay => ⟨fun a => s.mem_bayArms bay a, s.bayArms_ascending bay, rfl⟩, ?_, ?_⟩
  · intro s u bay hu
    obtain rfl : s.signOfLife bay = u := Host.Outcome.next.inj hu
    refine ⟨s.keyed_restarts bay, s.keyed_signOfLife bay, fun other => ?_, fun other notCode => ?_,
      fun ignoring d => ?_, fun closing => ?_⟩
    all_goals
      have state : ((s.keyed bay).session bay).state = (s.session bay).state := (s.keyed_woken bay).session_state
    · have ignored : ∀ act, (.next ((s.keyed bay).loadingKey bay act) : Host.Outcome State Fault Refusal)
          = .next (s.signOfLife bay) := fun act => by
        rw [State.loadingKey_ignored (by rwa [state]), s.keyed_signOfLife bay (.inl other)]
      exact ⟨ignored _, ignored _, ignored _, ignored _, ignored _⟩
    · refine congrArg Host.Outcome.next ?_
      rw [State.enterKey_ignored (by rwa [state]) (by rwa [state]), s.keyed_signOfLife bay (.inl other)]
    · refine congrArg Host.Outcome.next ?_
      have other : (s.session bay).state ≠ .loading := by rintro e; simp [e] at ignoring
      rw [State.digitKey_ignored d (by rwa [state]), s.keyed_signOfLife bay (.inl other)]
    · refine congrArg Host.Outcome.next ?_
      rw [State.cancelKey_ignored (state.trans closing), s.keyed_signOfLife bay (.inl (by rw [closing]; decide))]
  · rintro s u bay d x hu rfl
    have w : Woken s u bay := hu ▸ s.keyed_woken bay
    have key : exec (.digitKey bay d) s = .next (u.digitKey bay d) := by rw [hu]; rfl
    rw [key]
    refine ⟨fun code => ?_, fun loading choosing => ⟨fun n hd => ?_, fun hd => ?_⟩,
      fun loading pending => ⟨fun f a hd ha => ?_, fun hd => ?_⟩⟩
    · rw [State.digitKey_code d code]
    all_goals rw [State.digitKey_loading d loading]
    · rw [State.loadingDigit_selects choosing hd]
    · rw [State.loadingDigit_ignored choosing hd]
    · have comp : (u.batch a).map (·.ref.comp) = (s.batch a).map (·.ref.comp) := by
        rw [w.batch a, Option.map_map]
        refine Option.map_congr fun b _ => ?_
        dsimp only [Function.comp]
        split <;> rfl
      rw [State.loadingDigit_focuses pending hd (by rw [w.bayArms]; exact ha), comp]
    · rw [State.loadingDigit_noSuchArm pending (by rw [w.bayArms]; exact hd)]

end Sys2Proof.Machine
end

section
/-! SUPPORT. STOP and RESUME on the focus arm (R70, R92, R97, R98, R102): by the batch that the arm has, and what a resume
makes of the hold set first. -/

namespace Sys2Proof.Machine

/-! ### The key, and a refusal -/

theorem State.loadingKey_setSession {u : State} {bay : BayId} {x : Session}
    (hx : x = { u.session bay with armPending := false }) (hl : x.state = .loading) (act : State → State) :
    u.loadingKey bay act = act (u.setSession bay x) := State.loadingKey_eq hx hl act

theorem State.refuse_setSession (u : State) (bay : BayId) (x : Session) (r : Reason) :
    (u.setSession bay x).refuse bay r
      = { u with bays := vset u.bays bay { x with reason := some r, reasonTimer := some 5000 } } := refuse_set r

/-- A key that only ends a pending arm selection leaves the focus arm that the state before it had (section 4.1). -/
theorem Woken.focusArm_setSession {s u : State} {bay : BayId} {x : Session} (w : Woken s u bay)
    (hx : x = { u.session bay with armPending := false }) : (u.setSession bay x).focusArm bay = s.focusArm bay :=
  (focusArm_set (by rw [hx])).trans w.focusArm

/-! ### STOP -/

section
variable {v : State} {bay : BayId} {a : ArmId}

theorem State.stopKey_noArm (h : v.focusArm bay = none) : v.stopKey bay = v.refuse bay .noSuchArm := by
  unfold State.stopKey; rw [h]

/-- STOP is ignored for an arm in IDLE or CLOSING (R70). -/
theorem State.stopKey_ignored (h : v.focusArm bay = some a) (hs : v.batch a = none ∨ v.batchIs a .closing = true) :
    v.stopKey bay = v := by
  unfold State.stopKey
  rw [h]
  dsimp only
  cases hb : v.batch a with
  | none => rfl
  | some b =>
    have closing : b.state = .closing := by simpa [State.batchIs, hb] using hs
    exact if_pos closing

theorem State.stopKey_taken {b : Batch} (h : v.focusArm bay = some a) (hb : v.batch a = some b)
    (hs : b.state ≠ .closing) : v.stopKey bay = v.enterClosing a .stopped := by
  unfold State.stopKey
  rw [h]
  dsimp only
  rw [hb]
  exact if_neg hs

end

/-- Settles O28: STOP by the focus arm and its batch. -/
theorem stopKey : Obligations.StopKey := by
  rintro s u bay x hu hx loading
  have w : Woken s u bay := hu ▸ s.keyed_woken bay
  have key : exec (.stop bay) s = .next (u.loadingKey bay fun s => s.stopKey bay) := by rw [hu]; rfl
  rw [key, State.loadingKey_setSession hx loading]
  have focus := w.focusArm_setSession hx
  refine ⟨fun noArm => ?_, fun a ha => ⟨fun ignored => ?_, fun b hb hs => ?_⟩⟩
  · rw [State.stopKey_noArm (focus.trans noArm), State.refuse_setSession]
  · have ignored' : (u.setSession bay x).batch a = none ∨ (u.setSession bay x).batchIs a .closing = true :=
      ignored.imp (w.batch_isNone a).mpr (w.batchIs a .closing).trans
    rw [State.stopKey_ignored (focus.trans ha) ignored']; rfl
  · have hb' : (u.setSession bay x).batch a = some b := hb
    have closed := (u.setSession bay x).enterClosing_closed a b .stopped hb'
    have same : u.SameHostRecords ((u.setSession bay x).enterClosing a .stopped) :=
      (((Keeps.refl u).modSession bay fun _ => x).enterClosing a .stopped).same
    have drawing : ∀ h, (u.setSession bay x).header h = s.header h := w.header
    rw [State.stopKey_taken (focus.trans ha) hb' hs]
    refine ⟨_, rfl, closed.batch, fun h => ?_, fun draws => ?_, fun i => ?_,
      State.enterClosing_others _ a b .stopped hb', ?_, ?_, ?_, ?_, ?_, same⟩
    · rw [closed.drawing, drawing]
    · exact closed.ceilings (by rw [drawing]; exact draws)
    · rw [closed.queue]; exact congrArg _ (congrArg Injector.queue (w.injector i))
    · rw [closed.eq]; rfl
    · rw [closed.eq]; exact w.orders
    · rw [closed.eq]; exact w.permits
    · rw [closed.eq]; exact w.meters
    · rw [closed.eq]; exact w.flags

/-! ### RESUME -/

/-- The conditions of Table 5-6 read of a session its terminal and its permissives. -/
theorem State.conditionHolds_setSession {u : State} {bay : BayId} {x : Session}
    (terminal : x.terminal = (u.session bay).terminal) (bond : x.bond = (u.session bay).bond)
    (overfill : x.overfill = (u.session bay).overfill) (a : ArmId) (b : Batch) (c : HoldCause) :
    (u.setSession bay x).conditionHolds a b c = u.conditionHolds a b c := by
  have read : ∀ y, ((u.setSession bay x).session y).terminal = (u.session y).terminal ∧
      ((u.setSession bay x).session y).permissivesPresent = (u.session y).permissivesPresent := fun y => by
    by_cases hy : y = bay
    · subst hy
      rw [u.session_setSession]
      exact ⟨terminal, by unfold Session.permissivesPresent; rw [bond, overfill]⟩
    · rw [u.session_setSession_other x hy]; exact ⟨rfl, rfl⟩
  cases c with
  | permissive => exact congrArg (fun p => (u.arm a).bay.any p) (funext fun y => (read y).2)
  | terminalLost => exact congrArg (fun p => (u.arm a).bay.any p) (funext fun y => by rw [(read y).1])
  | _ => rfl

/-- A state with the hold set of an arm's batch replaced. -/
def State.setHolds (s : State) (a : ArmId) (b : Batch) (left : List HoldCause) : State :=
  { s with arms := vset s.arms a { s.arm a with batch := some { b with holdSet := left } } }

theorem State.arm_setHolds (s : State) (a c : ArmId) (b : Batch) (left : List HoldCause) :
    (s.setHolds a b left).arm c
      = if c = a then { s.arm a with batch := some { b with holdSet := left } } else s.arm c := vget_vset _ _ _ _

theorem State.batch_setHolds (s : State) (a : ArmId) (b : Batch) (left : List HoldCause) :
    (s.setHolds a b left).batch a = some { b with holdSet := left } := by
  unfold State.batch; rw [State.arm_setHolds, if_pos rfl]

section
variable {v : State} {bay : BayId} {a : ArmId}

theorem State.resumeKey_noArm (h : v.focusArm bay = none) : v.resumeKey bay = v.refuse bay .noSuchArm := by
  unfold State.resumeKey; rw [h]

theorem State.resumeKey_notHeld (h : v.focusArm bay = some a) (hs : v.batchIs a .held = false) :
    v.resumeKey bay = v.refuse bay .notHeld := by
  unfold State.resumeKey
  rw [h]
  dsimp only
  rw [hs]; rfl

variable {b : Batch} {left : List HoldCause} (h : v.focusArm bay = some a) (hb : v.batch a = some b)
  (hs : b.state = .held) (hl : left = b.holdSet.filter fun c => !(c.isCondition && v.conditionHolds a b c))
include h hb hs hl

/-- RESUME of a HELD batch, by the causes that the removals of R102 leave. -/
theorem State.resumeKey_held : v.resumeKey bay =
    if left.any HoldCause.isCondition then (v.setHolds a b left).refuse bay .holdCondition
    else if .host ∈ left then (v.setHolds a b left).refuse bay .hostHold
    else (v.setHolds a b left).takeResume a := by
  have held : v.batchIs a .held = true := by simp [State.batchIs, hb, hs]
  have pruned : v.pruneHoldSet a = v.setHolds a b left := by rw [State.pruneHoldSet_eq v a b hb, hl]; rfl
  unfold State.resumeKey
  rw [h]
  dsimp only
  rw [if_pos held, pruned, State.batch_setHolds]

theorem State.resumeKey_condition (c : ∃ c ∈ left, c ≠ .noFlow ∧ c ≠ .blend ∧ c ≠ .host) :
    v.resumeKey bay = (v.setHolds a b left).refuse bay .holdCondition := by
  obtain ⟨c, hc, condition⟩ := c
  rw [State.resumeKey_held h hb hs hl,
    if_pos (List.any_eq_true.mpr ⟨c, hc, HoldCause.isCondition_eq_true.mpr condition⟩)]

variable (latching : ∀ c ∈ left, c = .noFlow ∨ c = .blend ∨ c = .host)
include latching

theorem State.resumeKey_latching : v.resumeKey bay =
    if .host ∈ left then (v.setHolds a b left).refuse bay .hostHold else (v.setHolds a b left).takeResume a := by
  have noCondition : ¬ left.any HoldCause.isCondition = true := fun any => by
    obtain ⟨c, hc, condition⟩ := List.any_eq_true.mp any
    rw [HoldCause.isCondition_eq_false.mpr (latching c hc)] at condition; cases condition
  rw [State.resumeKey_held h hb hs hl, if_neg noCondition]

end

/-- A batch resumed after its hold set has been replaced is resumed, in the words of R102, from the state before that. -/
theorem State.ResumedFrom.of_setHolds {s t : State} {a : ArmId} {b : Batch} {left : List HoldCause}
    (h : t.ResumedFrom (s.setHolds a b left) a { b with holdSet := left }) : t.ResumedFrom s a b := by
  have limits : ((s.setHolds a b left).arm a).maxFlow = (s.arm a).maxFlow ∧
      ((s.setHolds a b left).arm a).lowFlow = (s.arm a).lowFlow := by
    rw [State.arm_setHolds, if_pos rfl]; exact ⟨rfl, rfl⟩
  obtain ⟨batch, drawing, ceilings, comp, others, injectors, meters, permits, flags⟩ := h
  refine ⟨?_, drawing, ceilings, comp, fun c hc => ?_, injectors, meters, permits, flags⟩
  · obtain ⟨c, hc, hb⟩ := batch
    rw [limits.1] at hc
    rw [limits.2] at hb
    exact ⟨c, hc, hb⟩
  · exact (others c hc).before rfl (by rw [State.arm_setHolds, if_neg hc])

/-- A resume taken from a state whose session alone has changed is taken from the state before that. -/
theorem State.ResumedFrom.of_setSession {s t : State} {bay : BayId} {x : Session} {a : ArmId} {b : Batch}
    (h : t.ResumedFrom (s.setSession bay x) a b) : t.ResumedFrom s a b :=
  ⟨h.batch, h.drawing, h.ceilings, h.comp, h.others, h.injectors, h.meters, h.permits, h.flags⟩

/-- Settles O29: RESUME by the focus arm, its batch, and the causes left in its hold set. -/
theorem resumeKey : Obligations.ResumeKey := by
  rintro s u bay x hu hx loading drawingExact
  have w : Woken s u bay := hu ▸ s.keyed_woken bay
  have key : exec (.resume bay) s = .next (u.loadingKey bay fun s => s.resumeKey bay) := by rw [hu]; rfl
  rw [key, State.loadingKey_setSession hx loading]
  have focus := w.focusArm_setSession hx
  refine ⟨fun noArm => ?_, fun a ha => ⟨fun notHeld => ?_, fun b left hb hs hl => ?_⟩⟩
  · rw [State.resumeKey_noArm (focus.trans noArm), State.refuse_setSession]
  · have notHeld' : (u.setSession bay x).batchIs a .held = false := (w.batchIs a .held).trans notHeld
    rw [State.resumeKey_notHeld (focus.trans ha) notHeld', State.refuse_setSession]
  have hb' : (u.setSession bay x).batch a = some b := hb
  have standing : left = b.holdSet.filter fun c =>
      !(c.isCondition && (u.setSession bay x).conditionHolds a b c) := by
    refine hl.trans (List.filter_congr fun c _ => ?_)
    rw [State.conditionHolds_setSession (by rw [hx]) (by rw [hx]) (by rw [hx])]
    exact (u.standing_eq a b hb c).symm
  refine ⟨fun condition => ?_, fun latching host => ?_, fun latching noHost => ?_⟩
  · rw [State.resumeKey_condition (focus.trans ha) hb' hs standing condition]
    exact congrArg Host.Outcome.next ((u.setHolds a b left).refuse_setSession bay x _)
  · rw [State.resumeKey_latching (focus.trans ha) hb' hs standing latching, if_pos host]
    exact congrArg Host.Outcome.next ((u.setHolds a b left).refuse_setSession bay x _)
  · have same : u.SameHostRecords ((u.setSession bay x).resumeKey bay) :=
      (((Keeps.refl u).modSession bay fun _ => x).resumeKey bay).same
    have still : b.state.flowing = false := by rw [hs]; rfl
    have away : a ∉ (((u.setSession bay x).setHolds a b left).header b.snapshot.mainHeader).drawing :=
      (w.drawing drawingExact).not_drawing hb still _
    have held := (u.setSession bay x).batch_setHolds a b left
    rw [State.resumeKey_latching (focus.trans ha) hb' hs standing latching, if_neg noHost] at same ⊢
    refine ⟨_, rfl, ?_, ?_, same⟩
    · exact (State.takeResume_spec _ a _ held away).of_setHolds.of_setSession
    · rw [State.takeResume_eq _ a _ held away]; rfl

end Sys2Proof.Machine
end

section
/-! SUPPORT. Signs of life and their loss (R67, R68, R165, R176), and the permissive inputs (R65, R66), with the causes
that they hand to the batches of a bay and take from them (R99 to R101). -/

namespace Sys2Proof.Machine

/-! ### A trip handed to the batches of a bay -/

/-- A trip reaches a batch in the same way from a state with the same arms, headers and orders. -/
theorem State.TripReached.before {s u t : State} {a : ArmId} {c : HoldCause} (h : u.TripReached t a c)
    (arms : u.arms = s.arms) (headers : u.headers = s.headers) (orders : u.orders = s.orders) :
    s.TripReached t a c := by
  have batch : ∀ x, u.batch x = s.batch x := fun x => by unfold State.batch State.arm; rw [arms]
  have drawing : s.DrawingExact → u.DrawingExact := fun d k x => by
    rw [show u.header k = s.header k by unfold State.header; rw [headers], batch]; exact d k x
  refine ⟨fun b hb hf => ?_, fun b hb hs => ?_⟩
  · obtain ⟨⟨ceiling, absent, hb'⟩, comp, rest⟩ := h.flowing b ((batch a).trans hb) hf
    exact ⟨⟨ceiling, fun d => absent (drawing d), hb'⟩,
      fun o k ho => comp o k ((orderOf_congr orders _).trans ho), rest⟩
  · obtain ⟨⟨ceiling, same, hb'⟩, comp⟩ := h.closing b ((batch a).trans hb) hs
    exact ⟨⟨ceiling, fun d => same (drawing d), hb'⟩, fun o k ho => comp o k ((orderOf_congr orders _).trans ho)⟩

section
variable (u : State) (bay : BayId) (c : HoldCause)

/-- What a cause handed to the batches of a bay leaves: sessions, displays, permits, meters, and the batches of the other
bays but for what a ceiling computed anew writes. -/
theorem State.handCauses_bay :
    (u.handCauses (u.bayArms bay) c).bays = u.bays ∧ (u.handCauses (u.bayArms bay) c).displays = u.displays ∧
    (u.handCauses (u.bayArms bay) c).permits = u.permits ∧ (u.handCauses (u.bayArms bay) c).meters = u.meters ∧
    ∀ a, (u.arm a).bay ≠ some bay →
      ((u.handCauses (u.bayArms bay) c).batch a).map (·.besidesFlow) = (u.batch a).map (·.besidesFlow) := by
  have parts := u.handCause_eq (u.bayArms bay) c
  refine ⟨by rw [parts], by rw [parts], by rw [parts], by rw [parts], fun a ha => ?_⟩
  exact u.handCauses_others _ c (u.bayArms_nodup bay) (mt (u.mem_bayArms bay a).mp ha)

theorem State.handCauses_bay_trip (trip : c.isTrip = true) {a : ArmId} (ha : (u.arm a).bay = some bay) :
    u.TripReached (u.handCauses (u.bayArms bay) c) a c :=
  u.handCauses_trip _ c trip (u.bayArms_nodup bay) ((u.mem_bayArms bay a).mpr ha)

theorem State.handCauses_bay_adds {a : ArmId} {b : Batch} (ha : (u.arm a).bay = some bay) (hb : u.batch a = some b)
    (hs : b.state = .held) : ∃ ceiling, (u.DrawingExact → ceiling = b.ceiling) ∧
      (u.handCauses (u.bayArms bay) c).batch a
        = some { b with holdSet := addTo HoldCause.all c b.holdSet, ceiling := ceiling } :=
  u.handCauses_adds _ c (u.bayArms_nodup bay) ((u.mem_bayArms bay a).mpr ha) hb hs

end

/-! ### Signs of life -/

/-- A sign of life at a PRESENT terminal only gives it another 3 s (R67). -/
theorem State.signOfLife_present {s : State} {bay : BayId} (h : (s.session bay).terminal = .present) :
    s.signOfLife bay = s.setSession bay { s.session bay with silence := some 3000 } := by
  have awake : ({ s.session bay with terminal := .present, silence := some 3000 } : Session)
      = { s.session bay with silence := some 3000 } := by rw [← h]
  unfold State.signOfLife
  dsimp only
  rw [if_neg (by rw [h]; decide), ← awake]
  rfl

/-- A sign of life at a LOST terminal (R67, R101, R165). -/
theorem State.signOfLife_lost {s : State} {bay : BayId} (h : (s.session bay).terminal = .lost) :
    s.signOfLife bay = { s with
        arms := (s.signOfLife bay).arms
        bays := vset s.bays bay { s.session bay with terminal := .present, silence := some 3000 }
        displays := vset s.displays bay { s.display bay with restored := some 5000 } } ∧
    ∀ a, (s.signOfLife bay).arm a = { s.arm a with
      batch := (s.batch a).map fun b =>
        if (s.arm a).bay = some bay ∧ b.state = .held
        then { b with holdSet := dropFrom .terminalLost b.holdSet } else b } := by
  have w := s.signOfLife_woken bay
  have displays := w.displays
  rw [if_pos h] at displays
  refine ⟨?_, fun a => ?_⟩
  · rw [← s.signOfLife_bays, ← displays]; exact w.eq
  · rw [w.arm a]; simp only [h, and_true]

/-! ### The loss of a terminal -/

/-- The state of the loss before the session and the batches are told: the terminal LOST, the flag set (R67, R68). -/
def State.terminalGone (s : State) (bay : BayId) : State :=
  (s.setSession bay { s.session bay with terminal := .lost, silence := none }).raise .terminalLost

section
variable {s : State} {bay : BayId}

theorem State.loseTerminal_again (h : (s.session bay).terminal = .lost) : s.loseTerminal bay = s := if_pos h

variable (present : (s.session bay).terminal = .present)
include present

theorem State.loseTerminal_idle (h : (s.session bay).state = .idle) : s.loseTerminal bay = s.terminalGone bay := by
  unfold State.loseTerminal
  rw [if_neg (by rw [present]; decide), h]
  rfl

/-- The loss of a terminal ends a session before LOADING (R68). -/
theorem State.loseTerminal_before (h : (s.session bay).state = .codeEntry ∨ (s.session bay).state = .orderSelect ∨
    (s.session bay).state = .waitBond) : s.loseTerminal bay = (s.terminalGone bay).endBeforeLoading bay := by
  unfold State.loseTerminal
  rw [if_neg (by rw [present]; decide)]
  obtain e | e | e := h <;> rw [e] <;> rfl

/-- In LOADING and CLOSING it is handed to the batches of the bay (R68, R99). -/
theorem State.loseTerminal_loading (h : (s.session bay).state = .loading ∨ (s.session bay).state = .closing) :
    s.loseTerminal bay = (s.terminalGone bay).handCauses ((s.terminalGone bay).bayArms bay) .terminalLost := by
  unfold State.loseTerminal
  rw [if_neg (by rw [present]; decide)]
  obtain e | e := h <;> rw [e] <;> rfl

end

/-- Settles O6: frames that are no sign of life, heartbeats, and the loss of the terminal by the session's state. -/
theorem terminalLiveness : Obligations.TerminalLiveness := by
  rintro bay s v x rfl hv
  obtain rfl : s.terminalGone bay = v := hv.symm
  have beat : exec (.heartbeat bay) s = .next (s.signOfLife bay) := rfl
  have silent : exec (.terminalLost bay) s
      = .next (s.expire (s.session bay).silence fun s => s.loseTerminal bay) := rfl
  rw [beat, silent]
  refine ⟨fun _ => ⟨rfl, rfl⟩, fun present => ?_, fun lost => ?_, fun still => ?_, fun present due => ?_⟩
  · rw [State.signOfLife_present present]; rfl
  · exact ⟨_, rfl, State.signOfLife_lost lost⟩
  · by_cases due : (s.session bay).silence = some 0
    · rw [s.expire_of_due due, State.loseTerminal_again (still.resolve_right (not_not_intro due))]
    · rw [State.expire_not _ due]
  rw [s.expire_of_due due]
  refine ⟨fun idle => ?_, fun before => ?_, fun loading => ?_⟩
  · rw [State.loseTerminal_idle present idle]
  · have session : (s.terminalGone bay).session bay = { s.session bay with terminal := .lost, silence := none } :=
      session_set
    rw [State.loseTerminal_before present before]
    refine ⟨fun unbound => ?_, fun n i o bound found => ?_⟩
    · rw [endBeforeLoading_none (by rw [session]; exact unbound)]
    · have bound' : ((s.terminalGone bay).session bay).bound = some n := by rw [session]; exact bound
      rw [endBeforeLoading_some bound' ((findOrder_orders (s := s) rfl n).trans found)]; rfl
  · have same := ((Keeps.refl s).loseTerminal bay).same
    have lostFlag : EventFlag.terminalLost ∈ (s.terminalGone bay).flags :=
      (State.mem_flags_raise _ _ _).mpr (.inl rfl)
    obtain ⟨bays, displays, permits, meters, others⟩ := (s.terminalGone bay).handCauses_bay bay .terminalLost
    rw [State.loseTerminal_loading present loading] at same ⊢
    exact ⟨_, rfl, bays, handCauses_flag _ _ _ lostFlag,
      fun a ha => (s.terminalGone bay).handCauses_bay_trip bay _ rfl ha,
      fun a b ha hb hs => (s.terminalGone bay).handCauses_bay_adds bay _ ha hb hs, others, permits, meters, displays,
      same⟩

/-! ### The permissive inputs -/

theorem Session.modPermissive_permissive (x : Session) (w : Permissive) :
    x.modPermissive w (fun _ => x.permissive w) = x := by
  cases w <;> rfl

theorem Session.modPermissive_congr {x : Session} {w : Permissive} {f g : PermissiveUnit → PermissiveUnit}
    (h : f (x.permissive w) = g (x.permissive w)) : x.modPermissive w f = x.modPermissive w g := by
  cases w with
  | bond => exact congrArg (fun u => ({ x with bond := u } : Session)) h
  | overfill => exact congrArg (fun u => ({ x with overfill := u } : Session)) h

theorem Session.modPermissive_state (x : Session) (w : Permissive) (f : PermissiveUnit → PermissiveUnit) :
    (x.modPermissive w f).state = x.state := by cases w <;> rfl

/-- A level that the input already has is no event (log entry 19). -/
theorem Session.rise_again {x : Session} {w : Permissive} (h : (x.permissive w).input = true) :
    x.modPermissive w PermissiveUnit.rise = x := by
  have unchanged : (x.permissive w).rise = x.permissive w := if_pos h
  exact (Session.modPermissive_congr unchanged).trans (x.modPermissive_permissive w)

theorem Session.rise_from_absent {x : Session} {w : Permissive} (h : (x.permissive w).input = false) :
    x.modPermissive w PermissiveUnit.rise = x.modPermissive w fun p =>
      { p with input := true, debounce := if p.present then p.debounce else some 2000 } :=
  Session.modPermissive_congr (if_neg (by rw [h]; decide))

/-- The removal of a cause takes no batch away. -/
theorem State.allIdle_removeCauses (s : State) (l : List ArmId) (c : HoldCause) (nd : l.Nodup) (bay : BayId) :
    (s.removeCauses l c).allIdle bay = s.allIdle bay := by
  have arm : ∀ a, ((s.removeCauses l c).arm a).bay = (s.arm a).bay ∧
      ((s.removeCauses l c).batch a = none ↔ s.batch a = none) := fun a => by
    unfold State.batch
    rw [s.arm_removeCauses l c nd]
    split
    · exact ⟨rfl, Option.map_eq_none_iff⟩
    · exact ⟨rfl, Iff.rfl⟩
  refine Bool.eq_iff_iff.mpr ?_
  rw [allIdle_iff, allIdle_iff]
  exact forall_congr' fun a => by rw [(arm a).1, (arm a).2]

/-- PERMISSIVE taken from the batches of a bay (R101), its condition read from the bay's session. -/
theorem State.arm_removePermissive (u : State) (bay : BayId) (a : ArmId) :
    (u.removeCauses (u.bayArms bay) .permissive).arm a = { u.arm a with
      batch := (u.batch a).map fun b =>
        if (u.arm a).bay = some bay ∧ b.state = .held ∧ (u.session bay).bond.present ∧ (u.session bay).overfill.present
        then { b with holdSet := dropFrom .permissive b.holdSet } else b } := by
  rw [u.arm_removeCauses _ _ (u.bayArms_nodup bay), if_congr (u.mem_bayArms bay a) rfl rfl]
  split
  · rename_i ha
    refine congrArg (fun f => ({ u.arm a with batch := (u.batch a).map f } : Arm)) (funext fun b => ?_)
    have holds : u.conditionHolds a b .permissive
        = ((u.session bay).bond.present && (u.session bay).overfill.present) := by
      simp only [State.conditionHolds, ha, Option.any_some, Session.permissivesPresent]
    simp only [Batch.without, holds, Bool.and_eq_true, ha, true_and]
  · rename_i ha
    exact (Arm.map_id fun b => if_neg fun h => ha h.1).symm

/-- The end of a debounce (R65, R66, R101): the permissive PRESENT, PERMISSIVE taken from the batches of the bay, and a
waiting session passed on. -/
theorem State.debounceEnd_eq (s : State) (bay : BayId) (w : Permissive) {y : Session}
    (hy : y = (s.session bay).modPermissive w fun p => { p with present := true, debounce := none }) :
    s.debounceEnd bay w = { s with
      arms := ((s.setSession bay y).removeCauses ((s.setSession bay y).bayArms bay) .permissive).arms
      bays := vset s.bays bay (if y.state = .waitBond ∧ y.bond.present = true ∧ y.overfill.present = true then
          { y with state := .loading, focus := 0, armPending := false, selected := none,
                   timer := if s.allIdle bay then some 600000 else none } else y) } := by
  have start : s.debounceEnd bay w =
      ((s.setSession bay y).removeCauses ((s.setSession bay y).bayArms bay) .permissive).passToLoading bay := by
    rw [hy]; rfl
  have idle := (s.setSession bay y).allIdle_removeCauses _ .permissive ((s.setSession bay y).bayArms_nodup bay) bay
  have parts := (s.setSession bay y).removeCauses_eq ((s.setSession bay y).bayArms bay) .permissive
  rw [start, passToLoading_eq, idle]
  generalize State.removeCauses _ _ _ = r at parts
  have session : r.session bay = y := by rw [parts]; exact s.session_setSession bay y
  have bays : r.bays = vset s.bays bay y := by rw [parts]; rfl
  rw [session, bays, vset_vset, parts]
  rfl

section
variable {s : State} {bay : BayId} {w : Permissive}

theorem State.permissiveFall_again (h : ((s.session bay).permissive w).input = false) :
    s.permissiveFall bay w = s := by
  unfold State.permissiveFall
  dsimp only
  rw [h]; rfl

variable {y : Session}
  (hy : y = (s.session bay).modPermissive w fun p => { p with input := false, present := false, debounce := none })
  (input : ((s.session bay).permissive w).input = true)
include hy input

/-- The fall of a permissive that was PRESENT hands the cause to the batches of the bay (R65, R99). -/
theorem State.permissiveFall_present (h : ((s.session bay).permissive w).present = true) : s.permissiveFall bay w
    = (s.setSession bay y).handCauses ((s.setSession bay y).bayArms bay) .permissive := by
  unfold State.permissiveFall
  dsimp only
  rw [input, h, hy]; rfl

theorem State.permissiveFall_notPresent (h : ((s.session bay).permissive w).present = false) :
    s.permissiveFall bay w = s.setSession bay y := by
  unfold State.permissiveFall
  dsimp only
  rw [input, h, hy]; rfl

end

/-- Settles O32: each edge of the input by the level before it, and the end of the debounce. -/
theorem permissives : Obligations.Permissives := by
  rintro s bay w x rfl
  have rise : exec (.permissiveInputPresent bay w) s
      = .next (s.setSession bay ((s.session bay).modPermissive w PermissiveUnit.rise)) := rfl
  have ends : exec (.permissiveDebounceEnd bay w) s
      = .next (s.expire ((s.session bay).permissive w).debounce fun s => s.debounceEnd bay w) := rfl
  have fall : exec (.permissiveInputAbsent bay w) s = .next (s.permissiveFall bay w) := rfl
  rw [rise, ends, fall]
  refine ⟨fun on => ?_, fun off => ?_, fun running => ?_, fun y due hy => ?_, fun off => ?_, fun on => ?_⟩
  · have same : s.setSession bay (s.session bay) = s := by
      unfold State.setSession State.session; rw [vset_vget_same]
    rw [Session.rise_again on, same]
  · rw [Session.rise_from_absent off]; rfl
  · rw [State.expire_not _ running]
  · have state : y.state = (s.session bay).state := by rw [hy]; exact Session.modPermissive_state _ _ _
    have session : (s.setSession bay y).session bay = y := s.session_setSession bay y
    rw [s.expire_of_due due, s.debounceEnd_eq bay w hy, state]
    refine ⟨_, rfl, rfl, rfl, fun a => ?_⟩
    have arm := (s.setSession bay y).arm_removePermissive bay a
    rw [session] at arm
    exact arm
  · rw [State.permissiveFall_again off]
  · have same := ((Keeps.refl s).permissiveFall bay w).same
    generalize hy : (s.session bay).modPermissive w
      (fun p => { p with input := false, present := false, debounce := none }) = y
    refine ⟨_, rfl, ?_⟩
    cases present : ((s.session bay).permissive w).present with
    | false =>
      rw [State.permissiveFall_notPresent hy.symm on present] at same ⊢
      exact ⟨rfl, fun h => (nomatch h), fun _ => rfl, fun _ _ => rfl, rfl, rfl, same⟩
    | true =>
      obtain ⟨bays, -, permits, meters, others⟩ := (s.setSession bay y).handCauses_bay bay .permissive
      rw [State.permissiveFall_present hy.symm on present] at same ⊢
      exact ⟨bays, fun _ =>
        ⟨fun a ha => ((s.setSession bay y).handCauses_bay_trip bay .permissive rfl ha).before rfl rfl rfl,
          fun a b ha hb hs => (s.setSession bay y).handCauses_bay_adds bay .permissive ha hb hs⟩,
        fun h => (nomatch h), others, permits, meters, same⟩

end Sys2Proof.Machine
end

section
/-! SUPPORT. The clock along every step (R169): what each request's block leaves of it, and the moves it can make under
a command (`ClockMove`), each of which stays within its range. -/

namespace Sys2Proof.Machine

/-! ### The moves of the clock -/

/-- What a command can do with the clock (R169): leave it, set it to a valid time or to UNSET, or let a second pass. -/
inductive ClockMove : Option Time → Option Time → Prop where
  | stands (c : Option Time) : ClockMove c c
  | unset (c : Option Time) : ClockMove c none
  | set (c : Option Time) {now : Time} (valid : now.valid = true) : ClockMove c (some now)
  | ticks (now : Time) : ClockMove (some now) (some now.tick)

theorem ClockMove.of_eq {c d : Option Time} (h : d = c) : ClockMove c d := h ▸ .stands c

/-- The last second of a day is followed by the first of the next, and that of the last day holds (R169). -/
theorem Time.tick_inRange {now : Time} (day : now.day ≤ 65535) (second : now.second ≤ 86399) :
    now.tick.day ≤ 65535 ∧ now.tick.second ≤ 86399 := by
  unfold Time.tick
  split
  · rename_i within
    exact ⟨day, within⟩
  · split
    · rename_i next
      exact ⟨next, Nat.zero_le _⟩
    · exact ⟨day, second⟩

/-- A clock within its range stays there by every move. -/
theorem ClockMove.clockInRange {s t : State} (h : ClockMove s.clock t.clock) (q : s.ClockInRange) : t.ClockInRange := by
  intro now hnow
  rw [hnow] at h
  generalize hc : s.clock = c at h
  cases h with
  | stands => exact q now hc
  | set _ valid => exact of_decide_eq_true valid
  | ticks before => exact Time.tick_inRange (q before hc).1 (q before hc).2

/-! ### The requests -/

section
variable (s : State)

theorem State.clockSet_moves (now : Time) : ClockMove s.clock (s.clockSet now).state.clock := by
  unfold State.clockSet
  split
  · rename_i valid; exact .set _ valid
  · exact .stands _

theorem State.rackReset_clock : s.rackReset.clock = s.clock := (Keeps.refl s.resetFlow).recoverOrders.same.clock

theorem State.clearAll_clock : s.clearAll.state.clock = s.clock := by
  unfold State.clearAll; split <;> rfl

theorem State.permitPut_clock (f : PermitFields) : (s.permitPut f).state.clock = s.clock := by
  unfold State.permitPut; repeat' split
  all_goals rfl

theorem State.permitChange_clock (n : Nat) (f : Permit → Permit) : (s.permitChange n f).state.clock = s.clock := by
  unfold State.permitChange; split <;> rfl

theorem State.permitRetire_clock (n : Nat) : (s.permitRetire n).state.clock = s.clock := by
  unfold State.permitRetire; repeat' split
  all_goals rfl

theorem State.productPut_clock (f : ProductFields) : (s.productPut f).state.clock = s.clock := by
  unfold State.productPut; split <;> rfl

theorem State.productDelete_clock (n : Nat) : (s.productDelete n).state.clock = s.clock := by
  unfold State.productDelete; repeat' split
  all_goals rfl

theorem State.matrixPut_clock (f : Nat × List (Option Verdict)) : (s.matrixPut f).state.clock = s.clock := by
  unfold State.matrixPut; repeat' split
  all_goals rfl

theorem State.orderCreate_clock (f : OrderFields) : (s.orderCreate f).state.clock = s.clock := by
  unfold State.orderCreate; repeat' split
  all_goals rfl

theorem State.orderAmend_clock (f : AmendFields) : (s.orderAmend f).state.clock = s.clock := by
  unfold State.orderAmend; repeat' split
  all_goals rfl

theorem State.orderCancel_clock (n : Nat) : (s.orderCancel n).state.clock = s.clock := by
  unfold State.orderCancel; repeat' split
  all_goals rfl

theorem State.orderCollect_clock (f : Nat × Nat) : (s.orderCollect f).state.clock = s.clock := by
  unfold State.orderCollect; repeat' split
  all_goals rfl

theorem State.putArm_clock (a : ArmId) (r : Arm) : (s.putArm a r).state.clock = s.clock := by
  unfold State.putArm; repeat' split
  all_goals rfl

theorem State.armPut_clock (f : Nat × Option ArmFields) : (s.armPut f).state.clock = s.clock := by
  unfold State.armPut; repeat' split
  · rfl
  · exact s.putArm_clock _ _
  · rfl
  · exact s.putArm_clock _ _

theorem State.armReturn_clock (n : Nat) : (s.armReturn n).state.clock = s.clock := by
  unfold State.armReturn; repeat' split
  all_goals rfl

theorem State.setCapacity_clock (h : HeaderId) (n : Nat) : (s.setCapacity h n).clock = s.clock := by
  unfold State.setCapacity; dsimp only; split
  · rfl
  · exact ((Keeps.refl _).computeCeilings h).same.clock

theorem State.headerPut_clock (f : Nat × Nat) : (s.headerPut f).state.clock = s.clock := by
  unfold State.headerPut; repeat' split
  · rfl
  · exact s.setCapacity_clock _ _
  · rfl

theorem State.meterPut_clock (f : Nat × Nat × Nat × Bool) : (s.meterPut f).state.clock = s.clock := by
  unfold State.meterPut; repeat' split
  all_goals rfl

theorem State.configureInjector_clock (i : InjectorId) (f : InjectorFields) (follower : Option InjectorId) :
    (s.configureInjector i f follower).clock = s.clock := by
  unfold State.configureInjector; dsimp only; split
  · rfl
  · exact ((Keeps.refl _).injectorChanged i).same.clock

theorem State.injectorPut_clock (f : InjectorFields) : (s.injectorPut f).state.clock = s.clock := by
  unfold State.injectorPut; repeat' split
  · rfl
  · rfl
  · exact s.configureInjector_clock _ _ _
  · rfl

theorem State.injectorClear_clock (n : Nat) : (s.injectorClear n).state.clock = s.clock := by
  unfold State.injectorClear; repeat' split
  · rfl
  · exact ((Keeps.refl (s.clearFailures _)).setInjectorState _ _).same.clock
  all_goals rfl

theorem State.proveResult_clock (f : Nat × Nat) : (s.proveResult f).state.clock = s.clock := by
  unfold State.proveResult
  split
  · rfl
  · split
    · rfl
    · rename_i p _
      have computed : (s.computedK p f.2).2.clock = s.clock := by
        obtain ⟨-, k, e⟩ := s.computedK_spec p f.2
        rw [e]
      dsimp only
      split
      · exact ((Keeps.refl _).setInjectorState _ .idle).same.clock.trans computed
      · exact computed

theorem State.screenPut_clock (f : Nat × List Line) : (s.screenPut f).state.clock = s.clock := by
  unfold State.screenPut; repeat' split
  all_goals rfl

theorem State.promptMapPut_clock (l : List (Situation × Nat × Bool)) : (s.promptMapPut l).state.clock = s.clock := by
  unfold State.promptMapPut; split <;> rfl

theorem State.keepHunting_clock (buffer : List Byte) : (s.keepHunting buffer).clock = s.clock := by
  unfold State.keepHunting; split <;> rfl

end

/-! ### Every command -/

/-- A command that answers a next state to which the clock makes one of its moves. -/
def ExecMovesClock (c : Instr) (s : State) : Prop := ∃ t : State, exec c s = .next t ∧ ClockMove s.clock t.clock

/-- A request moves the clock as its block does; a refused or discarded one leaves it. -/
theorem ClockMove.request {α : Type} {s : State} {kind tag : Byte} {body : List Byte} {read : List Byte → Option α}
    {act : State → α → Reply} (h : ∀ f, ClockMove s.clock (act s f).state.clock) :
    ClockMove s.clock (s.request kind tag body read act).clock :=
  State.request_rule (P := fun t => ClockMove s.clock t.clock) (.stands _) (fun _ _ _ _ _ _ q => q) fun f _ => h f

/-- A request whose block leaves the clock. -/
theorem ClockMove.request_stands {α : Type} {s : State} {kind tag : Byte} {body : List Byte}
    {read : List Byte → Option α} {act : State → α → Reply} (h : ∀ f, (act s f).state.clock = s.clock) :
    ClockMove s.clock (s.request kind tag body read act).clock := .request fun f => .of_eq (h f)

/-- CLOCK_TICK (R169): the clock that is set advances where its second is over. -/
theorem exec_clockTick_moves (s : State) : ExecMovesClock .clockTick s := by
  refine ⟨_, rfl, ?_⟩
  unfold State.expire
  split
  · dsimp only
    split
    · rename_i now hnow
      rw [hnow]
      exact .ticks now
    · exact .stands _
  · exact .stands _

/-- POWER_UP (R174): the clock is UNSET, and the reset that follows leaves it so. -/
theorem exec_powerUp_moves (s : State) (found : Found) : ExecMovesClock (.powerUp found) s := by
  refine ⟨_, rfl, ?_⟩
  rw [State.rackReset_clock]
  exact .unset _

/-- The commands of the field leave the clock with the host's other records (`exec_field_keeps`); of the others
CLOCK_SET, CLOCK_TICK and POWER_UP alone may move it. -/
theorem exec_movesClock (c : Instr) (s : State) : ExecMovesClock c s := by
  have field (request : c.request = none) (power : ∀ found, c ≠ .powerUp found) (tick : c ≠ .clockTick)
      (sent : c ≠ .responseSent) (discard : ∀ l, c ≠ .hostFrameDiscard l) (timeout : ∀ l, c ≠ .hostFrameTimeout l) :
      ExecMovesClock c s := by
    obtain ⟨t, next, kept⟩ := exec_field_keeps c s request power tick sent discard timeout
    exact ⟨t, next, .of_eq kept.same.clock⟩
  cases c with
  | powerUp found => exact exec_powerUp_moves s found
  | clockTick => exact exec_clockTick_moves s
  | responseSent => exact ⟨_, rfl, .stands _⟩
  | hostFrameDiscard l => exact ⟨_, rfl, .of_eq (s.keepHunting_clock _)⟩
  | hostFrameTimeout l => exact ⟨_, rfl, .of_eq (s.keepHunting_clock _)⟩
  | unknownKind kind tag body => exact ⟨_, rfl, .request_stands fun _ => rfl⟩
  | statusGet tag body => exact ⟨_, rfl, .request_stands fun _ => rfl⟩
  | eventsAck tag body => exact ⟨_, rfl, .request_stands fun _ => rfl⟩
  | eventsMask tag body => exact ⟨_, rfl, .request_stands fun _ => rfl⟩
  | clockSet tag body => exact ⟨_, rfl, .request s.clockSet_moves⟩
  | rackReset tag body => exact ⟨_, rfl, .request_stands fun _ => s.rackReset_clock⟩
  | clearAll tag body => exact ⟨_, rfl, .request_stands fun _ => s.clearAll_clock⟩
  | permitPut tag body => exact ⟨_, rfl, .request_stands s.permitPut_clock⟩
  | permitGet tag body => exact ⟨_, rfl, .request_stands fun f => congrArg State.clock (s.permitGet_state f)⟩
  | permitList tag body => exact ⟨_, rfl, .request_stands fun f => congrArg State.clock (s.permitList_state f)⟩
  | permitHold tag body => exact ⟨_, rfl, .request_stands fun _ => s.permitChange_clock _ _⟩
  | permitRelease tag body => exact ⟨_, rfl, .request_stands fun _ => s.permitChange_clock _ _⟩
  | permitRetire tag body => exact ⟨_, rfl, .request_stands s.permitRetire_clock⟩
  | productPut tag body => exact ⟨_, rfl, .request_stands s.productPut_clock⟩
  | productGet tag body => exact ⟨_, rfl, .request_stands fun f => congrArg State.clock (s.productGet_state f)⟩
  | productDelete tag body => exact ⟨_, rfl, .request_stands s.productDelete_clock⟩
  | matrixPut tag body => exact ⟨_, rfl, .request_stands s.matrixPut_clock⟩
  | orderCreate tag body => exact ⟨_, rfl, .request_stands s.orderCreate_clock⟩
  | orderAmend tag body => exact ⟨_, rfl, .request_stands s.orderAmend_clock⟩
  | orderCancel tag body => exact ⟨_, rfl, .request_stands s.orderCancel_clock⟩
  | orderGet tag body => exact ⟨_, rfl, .request_stands fun f => congrArg State.clock (s.orderGet_state f)⟩
  | orderList tag body => exact ⟨_, rfl, .request_stands fun _ => rfl⟩
  | orderCollect tag body => exact ⟨_, rfl, .request_stands s.orderCollect_clock⟩
  | bayClose tag body => exact ⟨_, rfl, .request_stands fun f => (s.bayClose_keeps f).same.clock⟩
  | bayReset tag body => exact ⟨_, rfl, .request_stands fun f => (s.bayReset_keeps f).same.clock⟩
  | bayMessage tag body => exact ⟨_, rfl, .request_stands fun f => (s.bayMessage_keeps f).same.clock⟩
  | armPut tag body => exact ⟨_, rfl, .request_stands s.armPut_clock⟩
  | armGet tag body => exact ⟨_, rfl, .request_stands fun f => congrArg State.clock (s.armGet_state f)⟩
  | armReturn tag body => exact ⟨_, rfl, .request_stands s.armReturn_clock⟩
  | headerPut tag body => exact ⟨_, rfl, .request_stands s.headerPut_clock⟩
  | headerGet tag body => exact ⟨_, rfl, .request_stands fun f => congrArg State.clock (s.headerGet_state f)⟩
  | batchHold tag body => exact ⟨_, rfl, .request_stands fun f => (s.batchHold_keeps f).same.clock⟩
  | batchResume tag body => exact ⟨_, rfl, .request_stands fun f => (s.batchResume_keeps f).same.clock⟩
  | meterPut tag body => exact ⟨_, rfl, .request_stands s.meterPut_clock⟩
  | meterGet tag body => exact ⟨_, rfl, .request_stands fun f => congrArg State.clock (s.meterGet_state f)⟩
  | meterClear tag body => exact ⟨_, rfl, .request_stands fun f => (s.meterClear_keeps f).same.clock⟩
  | injectorPut tag body => exact ⟨_, rfl, .request_stands s.injectorPut_clock⟩
  | injectorGet tag body => exact ⟨_, rfl, .request_stands fun f => congrArg State.clock (s.injectorGet_state f)⟩
  | injectorClear tag body => exact ⟨_, rfl, .request_stands s.injectorClear_clock⟩
  | stockAdd tag body => exact ⟨_, rfl, .request_stands fun f => (s.stockAdd_keeps f).same.clock⟩
  | stockSet tag body => exact ⟨_, rfl, .request_stands fun f => (s.stockSet_keeps f).same.clock⟩
  | proveStart tag body => exact ⟨_, rfl, .request_stands fun f => (s.proveStart_keeps f).same.clock⟩
  | proveResult tag body => exact ⟨_, rfl, .request_stands s.proveResult_clock⟩
  | proveAbort tag body => exact ⟨_, rfl, .request_stands fun f => (s.proveAbort_keeps f).same.clock⟩
  | screenPut tag body => exact ⟨_, rfl, .request_stands s.screenPut_clock⟩
  | screenGet tag body => exact ⟨_, rfl, .request_stands fun f => congrArg State.clock (s.screenGet_state f)⟩
  | promptMapPut tag body => exact ⟨_, rfl, .request_stands s.promptMapPut_clock⟩
  | _ => exact field rfl nofun nofun nofun nofun nofun

theorem exec_next_movesClock {c : Instr} {s t : State} (h : exec c s = .next t) : ClockMove s.clock t.clock := by
  obtain ⟨u, next, moves⟩ := exec_movesClock c s
  cases h.symm.trans next
  exact moves

/-- One step moves the clock by its command alone; a millisecond that passes does not. -/
theorem step_movesClock {s t : State} (h : step s = .next t) : ClockMove s.clock t.clock := by
  unfold step at h
  split at h
  · unfold State.idle at h
    split at h
    · exact exec_next_movesClock h
    · cases h; exact .stands _
  · rename_i c rest _
    exact exec_next_movesClock (s := { s with pending := rest }) h

/-- Settles O60: the residues are among the laws of `step_orderly`, and the clock moves within its range. -/
theorem stepKeepsCountersInRange : Obligations.StepKeepsCountersInRange := by
  intro s t h
  exact ⟨(step_orderly h).residues, (step_movesClock h).clockInRange⟩

end Sys2Proof.Machine
end

section
/-! SUPPORT. Shot points and the pending-shot queue (R118, R126, R127): how many points a test takes, the batch that
takes each of them, and the queue of an available injector by what it holds for the arm. -/

namespace Sys2Proof.Machine

/-! ### Shot points -/

/-- The points passed, by the two bounds that n keeps and n + 1 does not (R118). -/
theorem pointsPassed_eq {gross rate volume n : Nat} (reached : n * (volume * 10000) ≤ gross * rate)
    (short : gross * rate < (n + 1) * (volume * 10000)) : pointsPassed gross rate volume = n :=
  Nat.div_eq_of_lt_le reached short

/-- A batch that does not flow posts nothing, however many points are left (log entry 10). -/
theorem State.postPoints_still {s : State} {a : ArmId} (h : s.flowing a = false) (e : SnapshotEntry) (n : Nat) :
    s.postPoints a e n = s := by
  cases n with
  | zero => rfl
  | succ n =>
    unfold State.postPoints
    cases hb : s.batch a with
    | none => rfl
    | some b =>
      have still : b.state.flowing = false := by simpa [State.flowing, hb] using h
      simp [still]

/-- One point of a flowing batch is counted and posted, and the points after it are taken from there (R118). -/
theorem State.postPoints_succ {s : State} {a : ArmId} {b : Batch} (hb : s.batch a = some b)
    (flowing : b.state.flowing = true) (e : SnapshotEntry) (n : Nat) : s.postPoints a e (n + 1)
      = ((s.setBatch a { b with metering := b.metering.countPoint e.index }).post a b.ref e).postPoints a e n := by
  conv => lhs; unfold State.postPoints
  rw [hb]
  dsimp only
  rw [if_pos flowing, State.modBatch_eq_setBatch hb]

theorem State.testEntry_still {s : State} {a : ArmId} (h : s.flowing a = false) (p : ShotPoint) :
    State.testEntry a s p = s := by
  unfold State.testEntry
  split
  · split
    · exact State.postPoints_still h _ _
    · rfl
  · rfl

theorem State.testEntries_still {s : State} {a : ArmId} (h : s.flowing a = false) (points : List ShotPoint) :
    points.foldl (State.testEntry a) s = s := by
  induction points with
  | nil => rfl
  | cons p rest ih => rw [List.foldl_cons, State.testEntry_still h, ih]

theorem State.testPoints_eq {s : State} {a : ArmId} {b : Batch} (hb : s.batch a = some b) :
    s.testPoints a = b.metering.points.foldl (State.testEntry a) s := by
  unfold State.testPoints
  rw [hb]

theorem State.testPoints_still {s : State} {a : ArmId} (h : s.flowing a = false) : s.testPoints a = s := by
  cases hb : s.batch a with
  | none => unfold State.testPoints; rw [hb]
  | some b => rw [State.testPoints_eq hb, State.testEntries_still h]

/-- The test of an entry takes the points beyond its count (R118). -/
theorem State.testEntry_eq {s : State} {a : ArmId} {b : Batch} {p : ShotPoint} {e : SnapshotEntry}
    (hb : s.batch a = some b) (he : b.snapshot.entryAt p.index = some e) :
    State.testEntry a s p = s.postPoints a e (pointsPassed b.gross e.entry.rate p.shotVolume - p.passed) := by
  unfold State.testEntry
  rw [hb]
  dsimp only
  rw [he]

/-! ### The pending-shot queue -/

theorem Injector.available_iff (x : Injector) :
    x.available = true ↔ x.service = .inService ∧ (x.state = .idle ∨ x.state = .shot) := by
  simp [Injector.available]

section
variable {s : State} {a : ArmId} {r : CompRef} {e : SnapshotEntry}

/-- At an unavailable injector nothing is queued (R127). -/
theorem State.post_unavailable (h : (s.injector e.entry.injector).available = false) :
    s.post a r e = s.cannotDose e.entry.injector a r e.entry.requirement := by
  unfold State.post
  dsimp only
  rw [h]; rfl

theorem State.post_available (h : (s.injector e.entry.injector).available = true) :
    s.post a r e = s.enqueue e.entry.injector a r e.index := by
  unfold State.post
  dsimp only
  rw [if_pos h]

end

section
variable {s : State} {i : InjectorId} {a : ArmId} (r : CompRef) (index : Nat)

/-- An arm that has no entry joins the tail, and an IDLE injector starts its next shot (R127, R128). -/
theorem State.enqueue_joins (h : ∀ y ∈ (s.injector i).queue, y.arm ≠ a) : s.enqueue i a r index
    = (s.modInjector i fun x => { x with
        queue := x.queue ++ [{ arm := a, ref := r, index, owed := 1, inService := false }] }).nextShot i := by
  have absent : (s.injector i).queue.find? (fun y => decide (y.arm = a)) = none := by
    simpa [List.find?_eq_none] using h
  unfold State.enqueue
  rw [absent]

variable {y : QueueEntry} (hy : (s.injector i).queue.find? (fun y => decide (y.arm = a)) = some y)
include hy

/-- The entry that an arm has is owed one shot more in its place (R127). -/
theorem State.enqueue_owes (h : y.owed < 4) : s.enqueue i a r index
    = s.modInjector i fun x => { x with
        queue := x.queue.map fun z => if z.arm = a then { z with owed := z.owed + 1 } else z } := by
  unfold State.enqueue
  rw [hy]
  dsimp only
  rw [if_pos h]

/-- An arm owed its four shots is owed no more, and its result LAGGED (R127). -/
theorem State.enqueue_lags (h : 4 ≤ y.owed) : s.enqueue i a r index = s.doseFlag r i .lagged := by
  unfold State.enqueue
  rw [hy]
  dsimp only
  rw [if_neg (Nat.not_lt.mpr h)]

end

/-- Settles O48: the test of a credit, of an entry and of a point, and a request by the injector it is posted at. -/
theorem shotPointsAndPendingQueue : Obligations.ShotPointsAndPendingQueue := by
  refine ⟨fun s a => ⟨State.testPoints_still, fun b => State.testPoints_eq⟩, fun s a b p e n hb he reached short => ?_,
    fun s a e => ⟨rfl, fun n => ⟨fun still => State.postPoints_still still e _, fun b hb flowing => ?_⟩⟩, ?_⟩
  · rw [State.testEntry_eq hb he, pointsPassed_eq reached short]
  · exact State.postPoints_succ hb flowing e n
  · rintro s a r e i x rfl rfl
    refine ⟨fun out => ?_, fun service ready => ?_⟩
    · have unavailable : (s.injector e.entry.injector).available = false := by
        rw [← Bool.not_eq_true, Injector.available_iff]
        rintro ⟨service, ready⟩
        rcases out with off | ⟨notIdle, notShot⟩
        · rw [service] at off; cases off
        · exact ready.elim notIdle notShot
      rw [State.post_unavailable unavailable]
      refine ⟨fun required => ?_, fun optional => ?_⟩
      · rw [required]; exact s.handCause_takes a .additive rfl
      · rw [optional]; exact s.doseFlag_flagged r _ .underdosed
    · rw [State.post_available ((Injector.available_iff _).mpr ⟨service, ready⟩)]
      refine ⟨fun absent => ?_, fun y hy => ⟨State.enqueue_owes r e.index hy, fun four => ?_⟩⟩
      · rw [State.enqueue_joins r e.index absent]
        refine ⟨_, rfl, rfl, fun shot => State.nextShot_none _ _ (.inr (.inl ?_))⟩
        rw [State.injector_modInjector, if_pos rfl]
        exact fun idle => nomatch shot.symm.trans idle
      · rw [State.enqueue_lags r e.index hy four]
        exact s.doseFlag_flagged r _ .lagged

end Sys2Proof.Machine
end

section
/-! SUPPORT. The stock of an injector (R125, R140): a stock put, as the record and the flag it leaves, and the requests
that put one. -/

namespace Sys2Proof.Machine

/-! ### A stock put -/

/-- The flag goes up only where the stock falls through the mark (R125). -/
theorem State.putStock_eq (s : State) (i : InjectorId) (stock : Nat) : s.putStock i stock = { s with
    injectors := vset s.injectors i { s.injector i with stock := stock }
    flags := if (s.injector i).mark ≤ (s.injector i).stock ∧ stock < (s.injector i).mark
      then addTo EventFlag.all .stockLow s.flags else s.flags } := by
  unfold State.putStock
  dsimp only
  split <;> rfl

/-- A stock that does not fall raises no flag (R125). -/
theorem State.putStock_rising {s : State} {i : InjectorId} {stock : Nat} (rises : (s.injector i).stock ≤ stock) :
    s.putStock i stock = { s with injectors := vset s.injectors i { s.injector i with stock := stock } } := by
  have above : ¬((s.injector i).mark ≤ (s.injector i).stock ∧ stock < (s.injector i).mark) := by omega
  rw [State.putStock_eq, if_neg above]

@[simp] theorem State.injector_putStock (s : State) (i : InjectorId) (stock : Nat) :
    (s.putStock i stock).injector i = { s.injector i with stock := stock } := by
  rw [State.putStock_eq]
  exact vget_vset_same _ _ _

/-! ### The requests -/

theorem readInjectorAmount_bytes {amount : Nat} (h : amount < 4294967296) (n : Byte) :
    readInjectorAmount (n :: littleEndian 4 amount) = some (n.toNat, amount) := by
  have four := word_littleEndian 4 amount [] (by simpa using h)
  rw [List.append_nil] at four
  simp [readInjectorAmount, whole, word_one, four]

section
variable {s : State} {f : Nat × Nat} {i : InjectorId}

theorem State.stockAdd_unnumbered (past : numbered 8 f.1 = none) : s.stockAdd f = .refused s .invalid := by
  unfold State.stockAdd; rw [past]

theorem State.stockSet_unnumbered (past : numbered 8 f.1 = none) : s.stockSet f = .refused s .invalid := by
  unfold State.stockSet; rw [past]

theorem State.stockAdd_invalid (hi : numbered 8 f.1 = some i)
    (out : f.2 < 1 ∨ 2000000 < f.2 ∨ 2000000 < (s.injector i).stock + f.2) :
    s.stockAdd f = s.stockReply i .invalid := by
  unfold State.stockAdd
  rw [hi]
  exact if_neg (by rw [inRange_eq_true]; omega)

theorem State.stockAdd_taken (hi : numbered 8 f.1 = some i) (one : 1 ≤ f.2) (most : f.2 ≤ 2000000)
    (fits : (s.injector i).stock + f.2 ≤ 2000000) :
    s.stockAdd f = (s.putStock i ((s.injector i).stock + f.2)).stockReply i .ok := by
  unfold State.stockAdd
  rw [hi]
  exact if_pos ⟨inRange_eq_true.mpr ⟨one, most⟩, fits⟩

theorem State.stockSet_invalid (hi : numbered 8 f.1 = some i) (out : 2000000 < f.2) :
    s.stockSet f = s.stockReply i .invalid := by
  unfold State.stockSet
  rw [hi]
  exact if_neg (Nat.not_le.mpr out)

theorem State.stockSet_taken (hi : numbered 8 f.1 = some i) (fits : f.2 ≤ 2000000) :
    s.stockSet f = (s.putStock i f.2).stockReply i .ok := by
  unfold State.stockSet
  rw [hi]
  exact if_pos fits

end

/-- The answer after a stock put carries the new stock, and the reserved figure as it was (R140). -/
theorem State.putStock_stockReply_send (s : State) (i : InjectorId) (stock : Nat) (r : ResultCode) (kind tag : Byte)
    (body : List Byte) : ((s.putStock i stock).stockReply i r).send kind tag body
      = (s.putStock i stock).respond kind tag body r (littleEndian 4 stock ++ littleEndian 4 (s.injector i).reserved
          ++ littleEndian 4 (stock - (s.injector i).reserved)) := by
  unfold State.stockReply Reply.send
  rw [State.injector_putStock]
  rfl

/-- Settles O46: the number of no injector, then the amounts refused and taken by each request. -/
theorem stockRequests : Obligations.StockRequests := by
  rintro s tag n amount body hp bound rfl
  have add : exec (.stockAdd tag (n :: littleEndian 4 amount)) s
      = .next ((s.stockAdd (n.toNat, amount)).send 0x73 tag (n :: littleEndian 4 amount)) :=
    congrArg _ (State.request_taken hp (readInjectorAmount_bytes bound n))
  have setTo : exec (.stockSet tag (n :: littleEndian 4 amount)) s
      = .next ((s.stockSet (n.toNat, amount)).send 0x74 tag (n :: littleEndian 4 amount)) :=
    congrArg _ (State.request_taken hp (readInjectorAmount_bytes bound n))
  rw [add, setTo]
  refine ⟨fun past => ?_, ?_⟩
  · have unnumbered := numbered_byte_none past
    rw [State.stockAdd_unnumbered unnumbered, State.stockSet_unnumbered unnumbered]
    exact ⟨rfl, rfl⟩
  · rintro i x hn rfl
    have hi := numbered_byte hn
    refine ⟨fun out => ?_, fun one most fits => ?_, fun out => ?_, fun fits => ?_⟩
    · rw [State.stockAdd_invalid hi out]; rfl
    · rw [State.stockAdd_taken hi one most fits, State.putStock_stockReply_send,
        State.putStock_rising (Nat.le_add_right _ _)]
    · rw [State.stockSet_invalid hi out]; rfl
    · rw [State.stockSet_taken hi fits, State.putStock_stockReply_send, State.putStock_eq]

end Sys2Proof.Machine
end

section
/-! SUPPORT. The dose check (R141): when the flag of a result goes up, beside `AdditiveResult.doseChecked_spelled`,
which writes out what the check does. -/

namespace Sys2Proof.Machine

theorem ResultFlag.mem_all (f : ResultFlag) : f ∈ ResultFlag.all := by cases f <;> decide

/-- The members of a set of flags to which one is added on a condition. -/
theorem ResultFlag.mem_addTo_if {p : Prop} [Decidable p] {x f : ResultFlag} {flags : List ResultFlag} :
    f ∈ (if p then addTo ResultFlag.all x flags else flags) ↔ f ∈ flags ∨ (f = x ∧ p) := by
  split
  · rename_i holds
    rw [mem_addTo (ResultFlag.mem_all f), or_comm, and_iff_left holds]
  · rename_i fails
    rw [or_iff_left fun h => fails h.2]

/-- Settles O53: the bounds of the rounded quotient, the flags by the condition that adds one, and that condition at an
expected volume of 0. -/
theorem doseFigures : Obligations.DoseFigures := by
  refine ⟨fun c => rfl, fun gross r => ⟨(2 * (gross * r.rate) + 10000) / 20000, _, Nat.mul_div_le _ _,
    Nat.lt_mul_div_succ _ (by decide), AdditiveResult.doseChecked_spelled gross r, fun f => ResultFlag.mem_addTo_if,
    fun zero delivered => ResultFlag.mem_addTo_if.mpr (.inr ⟨rfl, .inl ?_⟩)⟩⟩
  rw [zero]
  omega

end Sys2Proof.Machine
end

section
/-! SUPPORT. The tail's end of a proving shot (R145, R146): what its measured part takes from the stock, the next shot of
the run, the run's last shot, and the failed one. -/

namespace Sys2Proof.Machine

/-- Two changes of one injector are one. -/
theorem State.modInjector_modInjector (s : State) (i : InjectorId) (f g : Injector → Injector) :
    (s.modInjector i f).modInjector i g = s.modInjector i fun x => g (f x) := by
  have same : (s.modInjector i f).injector i = f (s.injector i) := s.injector_modInjector_same i f
  unfold State.modInjector at same ⊢
  rw [same]
  dsimp only
  rw [vset_vset]

/-! ### Which end a tail has -/

section
variable {s : State} {i : InjectorId} {y : Shot} {p : Proving}

theorem exec_shotTailEnd_due (shot : (s.injector i).shot = some y) (tail : y.tail = some 0) :
    exec (.shotTailEnd i) s = .next (s.tailEnd i) := by
  have due : (s.injector i).shot.bind (·.tail) = some 0 := by rw [shot]; exact tail
  exact congrArg _ (s.expire_of_due due _)

/-- In a run the outcome alone decides between the two ends (R145, R146). -/
theorem State.tailEnd_proving (shot : (s.injector i).shot = some y) (phase : y.phase = .tail)
    (proving : (s.injector i).proving = some p) :
    (y.outcome = .completed → s.tailEnd i = s.completeProvingShot i y p) ∧
      (y.outcome = .failed → s.tailEnd i = s.failProvingShot i y) := by
  have closed : ¬ y.phase = .opened := by rw [phase]; decide
  unfold State.tailEnd
  rw [shot]
  dsimp only
  rw [if_neg closed, proving]
  exact ⟨fun outcome => by rw [outcome], fun outcome => by rw [outcome]⟩

end

/-! ### The two ends -/

section
variable {s : State} {i : InjectorId} {y : Shot} {stock : Nat} {flags : List EventFlag}
  (owner : y.owner = none)
  (lowered : stock = (s.injector i).stock - (2 * (y.counted * 1000) + (s.injector i).k) / (2 * (s.injector i).k))
  (raised : flags = if (s.injector i).mark ≤ (s.injector i).stock ∧ stock < (s.injector i).mark
    then addTo EventFlag.all .stockLow s.flags else s.flags)
include owner lowered raised

/-- A shot without an owner is credited to no compartment: the stock alone falls (R125, R145). -/
theorem State.creditShot_unowned :
    s.creditShot i y = ({ s with flags := flags } : State).modInjector i fun x => { x with stock := stock } := by
  have unowned : s.creditShot i y = s.lowerStock i ((s.injector i).measured y.counted) := by
    unfold State.creditShot; rw [owner]
  rw [unowned, State.lowerStock_eq, raised, lowered]
  rfl

theorem State.failProvingShot_eq : s.failProvingShot i y
    = ({ s with flags := addTo EventFlag.all .injectorFault flags } : State).modInjector i fun x =>
        { x with stock := stock, proving := none, shot := none, failures := 3, state := .fault } := by
  unfold State.failProvingShot
  dsimp only
  rw [State.creditShot_unowned owner lowered raised, State.setInjectorState_stays _ _ _ (by decide)]
  simp only [State.modInjector_modInjector]
  rfl

/-- The totals of the run take the bounded sum of the pulses (log entry 16); the shots that remain then decide between the
next shot and PROVE_WAIT. -/
theorem State.completeProvingShot_eq {p p' : Proving} {total k : Nat}
    (bounded : s.bounded 2550000 (p.totalPulses + y.counted) = (total, { s with freeCount := k }))
    (counted : p' = { p with remaining := p.remaining - 1, totalShots := p.totalShots + 1, totalPulses := total }) :
    s.completeProvingShot i y p = if 0 < p'.remaining
      then ({ s with freeCount := k, flags := flags } : State).modInjector i fun x =>
        { x with stock := stock, proving := some p', shot := some (x.openShot none) }
      else ({ s with freeCount := k, flags := addTo EventFlag.all .proveDone flags } : State).modInjector i fun x =>
        { x with stock := stock, proving := some p', shot := none, state := .proveWait } := by
  have credited : ({ s with freeCount := k } : State).creditShot i y
      = ({ s with freeCount := k, flags := flags } : State).modInjector i fun x => { x with stock := stock } :=
    State.creditShot_unowned owner lowered raised
  subst counted
  unfold State.completeProvingShot State.startProvingShot
  rw [bounded]
  dsimp only
  rw [credited, State.setInjectorState_stays _ _ _ (by decide)]
  simp only [State.modInjector_modInjector]
  rfl

end

/-- Settles O52: the end by the outcome of the shot, a completed one by the shots that remain of the run. -/
theorem provingShots : Obligations.ProvingShots := by
  rintro s i _ y p stock flags rfl shot phase tail owner proving - lowered raised
  rw [exec_shotTailEnd_due shot tail]
  obtain ⟨completed, failed⟩ := State.tailEnd_proving shot phase proving
  constructor
  · intro outcome
    obtain ⟨most, within, k, drawn⟩ := s.bounded_spec 2550000 (p.totalPulses + y.counted)
    have ends := State.completeProvingShot_eq owner lowered raised (Prod.ext rfl drawn) rfl
    rw [completed outcome]
    refine ⟨_, _, _, rfl, most, fun fits => congrArg Prod.fst (within fits), rfl, fun more => ?_, fun last => ?_⟩
    · rw [ends, if_pos (Nat.sub_pos_of_lt more)]
      rfl
    · rw [ends, if_neg (Nat.not_lt.mpr (Nat.sub_le_of_le_add last))]
      rfl
  · intro outcome
    rw [failed outcome, State.failProvingShot_eq owner lowered raised]
    rfl

end Sys2Proof.Machine
end

section
/-! SUPPORT. The requests that write and read screens and the prompt map (R159, R163): what their checks give, the
spelling of a screen's body, and the map after the changes of one request. -/

namespace Sys2Proof.Machine

/-! ### Screens -/

/-- A screen is taken where its number is one of 1 to 24 and its four lines have 20 columns each (R159). -/
theorem checkedScreen_some {m : ScreenId} {lines : List Line} (four : lines.length = 4)
    (full : ∀ l ∈ lines, l.columns = 20) :
    ∃ screen : Screen, screen.lines.toList = lines ∧ checkedScreen (m.val + 1, lines) = some (m, screen) := by
  match lines, four with
  | [a, b, c, d], _ =>
    refine ⟨{ lines := #v[a, b, c, d] }, rfl, ?_⟩
    unfold checkedScreen
    rw [numbered_eq_some.mpr (rfl : m.val + 1 = num m)]
    exact if_pos ⟨full a (by simp), full b (by simp), full c (by simp), full d (by simp)⟩

theorem checkedScreen_unnumbered {f : Nat × List Line} (out : f.1 = 0 ∨ 24 < f.1) : checkedScreen f = none := by
  unfold checkedScreen
  rw [numbered_eq_none.mpr (by omega)]

/-- A line of other than 20 columns spoils the screen (R159). -/
theorem checkedScreen_misfit {f : Nat × List Line} {l : Line} (mem : l ∈ f.2) (misfit : l.columns ≠ 20) :
    checkedScreen f = none := by
  unfold checkedScreen
  split
  next a b c d _ lines =>
    refine if_neg fun ⟨ha, hb, hc, hd⟩ => misfit ?_
    rw [lines] at mem
    simp only [List.mem_cons, List.not_mem_nil, or_false] at mem
    rcases mem with rfl | rfl | rfl | rfl <;> assumption
  next => rfl

theorem State.screenShown_iff {s : State} {m : ScreenId} :
    s.screenShown m = true ↔ ∃ b, (s.display b).current = some m := by
  simp [State.screenShown]

section
variable {s : State} {f : Nat × List Line} {m : ScreenId} {screen : Screen}

theorem State.screenPut_invalid (unchecked : checkedScreen f = none) : s.screenPut f = .refused s .invalid := by
  unfold State.screenPut; rw [unchecked]

theorem State.screenPut_inUse (checked : checkedScreen f = some (m, screen))
    (shown : ∃ b, (s.display b).current = some m) : s.screenPut f = .refused s .inUse := by
  unfold State.screenPut
  rw [checked]
  exact if_pos (State.screenShown_iff.mpr shown)

theorem State.screenPut_taken (checked : checkedScreen f = some (m, screen))
    (unshown : ∀ b, (s.display b).current ≠ some m) :
    s.screenPut f = .ok { s with screens := vset s.screens m screen } [] := by
  unfold State.screenPut
  rw [checked]
  exact if_neg fun shown => (State.screenShown_iff.mp shown).elim unshown

end

theorem State.screenGet_numbered {s : State} {n : Nat} {m : ScreenId} (h : numbered 24 n = some m) :
    s.screenGet n = .ok s (s.screenBody m) := by
  unfold State.screenGet; rw [h]

theorem State.screenGet_unnumbered {s : State} {n : Nat} (h : numbered 24 n = none) :
    s.screenGet n = .refused s .invalid := by
  unfold State.screenGet; rw [h]

/-! ### The prompt map -/

theorem Situation.index_injective : Function.Injective Situation.index :=
  Function.LeftInverse.injective (g := fun i => Situation.all[i.val]'i.isLt) fun x => by cases x <;> rfl

/-- A change as PROMPT_MAP_PUT spells it. -/
def mapChangeFields (c : Situation × MapEntry) : Situation × Nat × Bool := (c.1, num c.2.screen, c.2.priority)

theorem checkedMap_none {changes : List (Situation × Nat × Bool)}
    (out : 9 < changes.length ∨ ¬ (changes.map (·.1)).Nodup ∨ ∃ c ∈ changes, c.2.1 < 1 ∨ 24 < c.2.1) :
    checkedMap changes = none := by
  unfold checkedMap
  split
  next fits =>
    obtain ⟨short, distinct⟩ := fits
    obtain ⟨c, mem, range⟩ : ∃ c ∈ changes, c.2.1 < 1 ∨ 24 < c.2.1 :=
      (out.resolve_left (Nat.not_lt.mpr short)).resolve_left (not_not_intro distinct)
    rw [← Option.not_isSome_iff_eq_none, mapM_option_isSome]
    intro all
    have valid := all c mem
    rw [Option.isSome_map, numbered_isSome] at valid
    omega
  next => rfl

/-- What the check gives spells the changes it was given (R163). -/
theorem checkedMap_some {changes : List (Situation × Nat × Bool)} (short : changes.length ≤ 9)
    (distinct : (changes.map (·.1)).Nodup) (range : ∀ c ∈ changes, 1 ≤ c.2.1 ∧ c.2.1 ≤ 24) :
    ∃ l, checkedMap changes = some l ∧ l.map mapChangeFields = changes := by
  unfold checkedMap
  rw [if_pos ⟨short, distinct⟩]
  obtain ⟨l, checked⟩ := Option.isSome_iff_exists.mp (mapM_option_isSome.mpr fun c mem =>
    (Option.isSome_map.trans (numbered_isSome.mpr (range c mem)) :
      ((numbered 24 c.2.1).map fun screen => (c.1, ({ screen, priority := c.2.2 } : MapEntry))).isSome = true))
  refine ⟨l, checked, map_of_mapM (fun c change spelled => ?_) checked⟩
  obtain ⟨screen, number, rfl⟩ := Option.map_eq_some_iff.mp spelled
  rw [mapChangeFields, ← numbered_eq_some.mp number]

/-- The changes of one request are taken in turn (R163). -/
theorem State.remap_cons (s : State) (c : Situation × MapEntry) (l : List (Situation × MapEntry)) :
    s.remap (c :: l) = ({ s with promptMap := vset s.promptMap c.1.index c.2 } : State).remap l := rfl

/-- An entry that no change names stands. -/
theorem State.remap_unnamed (l : List (Situation × MapEntry)) (s : State) {j : Fin 9} (unnamed : ∀ c ∈ l, c.1.index ≠ j) :
    vget (s.remap l).promptMap j = vget s.promptMap j := by
  induction l generalizing s with
  | nil => rfl
  | cons c l ih =>
    obtain ⟨head, tail⟩ := List.forall_mem_cons.mp unnamed
    rw [State.remap_cons, ih _ tail]
    exact vget_vset_ne _ _ head.symm

/-- With each situation named at most once, every change named stands in the map. -/
theorem State.remap_named (l : List (Situation × MapEntry)) (s : State) (distinct : (l.map (·.1)).Nodup)
    {c : Situation × MapEntry} (mem : c ∈ l) : vget (s.remap l).promptMap c.1.index = c.2 := by
  induction l generalizing s with
  | nil => cases mem
  | cons d l ih =>
    rw [List.map_cons, List.nodup_cons] at distinct
    obtain ⟨fresh, distinct⟩ := distinct
    rw [State.remap_cons]
    rcases List.mem_cons.mp mem with rfl | mem
    · have unnamed : ∀ d ∈ l, d.1.index ≠ c.1.index := fun d later same =>
        fresh (List.mem_map.mpr ⟨d, later, Situation.index_injective same⟩)
      rw [State.remap_unnamed l _ unnamed]
      exact vget_vset_same _ _ _
    · exact ih _ distinct mem

section
variable {s : State} {changes : List (Situation × Nat × Bool)}

theorem State.promptMapPut_invalid (unchecked : checkedMap changes = none) :
    s.promptMapPut changes = .refused s .invalid := by
  unfold State.promptMapPut; rw [unchecked]

theorem State.promptMapPut_taken {l : List (Situation × MapEntry)} (checked : checkedMap changes = some l) :
    s.promptMapPut changes = .ok (s.remap l) (s.remap l).mapBody := by
  unfold State.promptMapPut; rw [checked]

end

/-- Settles O54: each request by what its check gives; the map afterwards by the changes that name its entries. -/
theorem screensAndPromptMap : Obligations.ScreensAndPromptMap := by
  intro s tag body hp
  refine ⟨fun n lines hr => ?_, fun n out => ?_, fun n m hn => ?_, fun changes hr => ?_⟩
  · have put : exec (.screenPut tag body) s = .next ((s.screenPut (n, lines)).send 0x80 tag body) :=
      congrArg _ (State.request_taken hp hr)
    obtain ⟨⟨-, four, -⟩, -⟩ := (readScreenPut_iff body (n, lines)).mp hr
    rw [put]
    refine ⟨four, fun out => ?_, ?_⟩
    · have unchecked : checkedScreen (n, lines) = none := by
        rcases out with zero | past | ⟨l, mem, misfit⟩
        · exact checkedScreen_unnumbered (.inl zero)
        · exact checkedScreen_unnumbered (.inr past)
        · exact checkedScreen_misfit mem misfit
      rw [State.screenPut_invalid unchecked]; rfl
    · rintro m rfl full
      obtain ⟨screen, spelled, checked⟩ := checkedScreen_some (m := m) four full
      refine ⟨fun shown => ?_, fun unshown => ⟨screen, spelled, ?_⟩⟩
      · rw [State.screenPut_inUse checked shown]; rfl
      · rw [State.screenPut_taken checked unshown]; rfl
  · have get : exec (.screenGet tag [n]) s = .next ((s.screenGet n.toNat).send 0x81 tag [n]) :=
      congrArg _ (State.request_taken hp (readByte_one n))
    rw [get, State.screenGet_unnumbered (numbered_byte_none out)]; rfl
  · have get : exec (.screenGet tag [n]) s = .next ((s.screenGet n.toNat).send 0x81 tag [n]) :=
      congrArg _ (State.request_taken hp (readByte_one n))
    rw [get, State.screenGet_numbered (numbered_byte hn), State.screenBody, funext Line.body_eq]; rfl
  · have put : exec (.promptMapPut tag body) s = .next ((s.promptMapPut changes).send 0x82 tag body) :=
      congrArg _ (State.request_taken hp hr)
    rw [put]
    refine ⟨fun out => ?_, fun short distinct range => ?_⟩
    · rw [State.promptMapPut_invalid (checkedMap_none out)]; rfl
    · obtain ⟨l, checked, rfl⟩ := checkedMap_some short distinct range
      rw [List.map_map] at distinct
      refine ⟨s.remap l, ?_, rfl, fun c mem => ?_, fun j unnamed => ?_⟩
      · rw [State.promptMapPut_taken checked]; rfl
      · obtain ⟨d, change, rfl⟩ := List.mem_map.mp mem
        have named := s.remap_named l distinct change
        rw [show (mapChangeFields d).1 = d.1 from rfl, named]; rfl
      · exact s.remap_unnamed l fun c mem => unnamed _ (List.mem_map_of_mem mem)

end Sys2Proof.Machine
end

section
/-! SUPPORT. The refresh of a panel and the two expiries of a display (R160, R162, R164, R165). -/

namespace Sys2Proof.Machine

/-! ### Situation, map entry and frame -/

/-- The place of a bay's situation in the prompt map, the first of the four that applies (R162). -/
theorem State.situation_index (s : State) (bay : BayId) : (s.situation bay).index
    = if (s.display bay).restoring then 0 else if (s.session bay).reason.isSome then 1
      else if (s.session bay).state = .loading ∧ (s.focusBatch bay).any (fun b => decide (b.state = .held)) then 2
      else (s.session bay).state.situation.index := by
  simp only [State.situation, apply_ite Situation.index]
  rfl

/-- The frame of a screen whose lines have 20 columns each: four marks and eighty cells (R160). -/
theorem State.composeFrame_sizes (s : State) (bay : BayId) {lines : List Line} (full : ∀ l ∈ lines, l.columns = 20) :
    ((s.layLines bay 4 lines).map fun r => BitVec.ofNat 8 r.mark).length = 4 ∧
      (((s.layLines bay 4 lines).flatMap (·.cells)).map fun v => BitVec.ofNat 8 v).length = 80 := by
  rw [List.length_map, List.length_map]
  exact layLines_len s bay 4 lines full

/-! ### The timers of a display -/

section
variable {s : State} {bay : BayId}

theorem exec_panelRefresh_due (due : (s.display bay).refresh = some 0) : exec (.panelRefresh bay) s
    = .next (s.modDisplay bay fun d => { d with
        current := some (s.chosenScreen bay), frame := some (s.composeFrame bay (s.chosenScreen bay)),
        refresh := some 200 }) := congrArg _ (s.expire_of_due due _)

theorem exec_panelRefresh_early (early : (s.display bay).refresh ≠ some 0) : exec (.panelRefresh bay) s = .next s :=
  congrArg _ (s.expire_not early _)

theorem exec_overrideExpiry_due (due : (s.display bay).override.map (·.remaining) = some 0) :
    exec (.overrideExpiry bay) s = .next (s.modDisplay bay fun d => { d with override := none }) :=
  congrArg _ (s.expire_of_due due _)

theorem exec_overrideExpiry_early (early : (s.display bay).override.map (·.remaining) ≠ some 0) :
    exec (.overrideExpiry bay) s = .next s := congrArg _ (s.expire_not early _)

theorem exec_restoredTimeExpiry_due (due : (s.display bay).restored = some 0) :
    exec (.restoredTimeExpiry bay) s = .next (s.modDisplay bay fun d => { d with restored := none }) :=
  congrArg _ (s.expire_of_due due _)

theorem exec_restoredTimeExpiry_early (early : (s.display bay).restored ≠ some 0) :
    exec (.restoredTimeExpiry bay) s = .next s := congrArg _ (s.expire_not early _)

end

/-- Settles O55: the map entry by the situation, the screen by the override, then each timer due and not. -/
theorem panelRefresh : Obligations.PanelRefresh := by
  rintro s bay _ _ e chosen rows rfl rfl he hchosen rfl
  have entry : e = s.mapEntry bay := by
    rw [he, State.mapEntry, State.situation_index]
    cases (s.session bay).state <;> rfl
  have screen : chosen = s.chosenScreen bay := by
    rw [hchosen, entry]
    unfold State.chosenScreen
    cases (s.display bay).override <;> rfl
  rw [screen]
  refine ⟨fun due => ⟨_, _, rfl, rfl, s.composeFrame_sizes bay, exec_panelRefresh_due due⟩, exec_overrideExpiry_due,
    exec_restoredTimeExpiry_due, exec_panelRefresh_early, exec_overrideExpiry_early, exec_restoredTimeExpiry_early⟩

end Sys2Proof.Machine
end

section
/-! SUPPORT. The rows and cells of a panel, the glyphs of a field's value, and the value of each field code (R160, R161,
Table 10-2). -/

namespace Sys2Proof.Machine

/-! ### Rows and cells -/

section
variable (s : State) (bay : BayId) {l : Line} (rest : List Line)

theorem State.layLines_hidden (n : Nat) (hidden : l.hidden = true) :
    s.layLines bay n (l :: rest) = s.layLines bay n rest := by
  rw [State.layLines, if_pos hidden]

variable (visible : l.hidden = false)
include visible

theorem State.layLines_full : s.layLines bay 0 (l :: rest) = [] := by
  simp [State.layLines, visible]

theorem State.layLines_single (n : Nat) (single : l.double = false) : s.layLines bay (n + 1) (l :: rest)
    = { mark := 0, cells := s.fillCells bay l.emphasis l.cells } :: s.layLines bay n rest := by
  simp [State.layLines, visible, single]

/-- A double line that finds one free row ends the panel (R160). -/
theorem State.layLines_cramped (double : l.double = true) : s.layLines bay 1 (l :: rest) = [Row.free] := by
  simp [State.layLines, visible, double]

theorem State.layLines_double (n : Nat) (double : l.double = true) : s.layLines bay (n + 2) (l :: rest)
    = { mark := 1, cells := s.fillCells bay l.emphasis l.cells }
      :: { mark := 2, cells := s.fillCells bay l.emphasis l.cells } :: s.layLines bay n rest := by
  simp [State.layLines, visible, double]

end

/-- The cell value is fixed by its three emphases: 0, 64 and 128 above the glyph (R160). -/
theorem cellValue_unique {shown : Emphasis → Glyph → Nat}
    (h : ∀ g, shown .normal g = g.val ∧ shown .inverse g = 64 + g.val ∧ shown .flashing g = 128 + g.val) :
    shown = cellValue := by
  funext e g
  obtain ⟨normal, inverse, flashing⟩ := h g
  cases e with
  | normal => rw [normal]; exact (Nat.zero_add _).symm
  | inverse => exact inverse
  | flashing => exact flashing

/-! ### Fields in their widths -/

section
variable {w : Nat} {v : FieldValue}

theorem fillField_wide (wide : w < v.glyphs.length) : fillField w (some v) = List.replicate w 45 := by
  unfold fillField
  exact if_pos wide

theorem fillField_text {t : List Glyph} (fits : t.length ≤ w) :
    fillField w (some (.text t)) = t ++ List.replicate (w - t.length) 0 := by
  unfold fillField
  exact if_neg (Nat.not_lt.mpr fits)

theorem fillField_right (fits : v.glyphs.length ≤ w) (untexted : ∀ t, v ≠ .text t) :
    fillField w (some v) = List.replicate (w - v.glyphs.length) 0 ++ v.glyphs := by
  unfold fillField
  cases v with
  | text t => exact absurd rfl (untexted t)
  | number n => exact if_neg (Nat.not_lt.mpr fits)
  | volume n => exact if_neg (Nat.not_lt.mpr fits)

end

/-! ### Digits and the time of day -/

theorem digitGlyph_lt {n : Nat} (h : n < 10) : digitGlyph n = Fin.ofNat 64 (n + 1) := by
  rw [digitGlyph, Nat.mod_eq_of_lt h]

/-- A volume shows its whole litres, a full stop and its last digit (R161). -/
theorem volume_glyphs (n : Nat) (k : Fin 10) :
    (FieldValue.volume (10 * n + k.val)).glyphs = (FieldValue.number n).glyphs ++ [37, Fin.ofNat 64 (k.val + 1)] := by
  have litres : (10 * n + k.val) / 10 = n := by omega
  have tenth : (10 * n + k.val) % 10 = k.val := by omega
  rw [FieldValue.glyphs, FieldValue.glyphs, litres, digitGlyph, tenth]

theorem twoDigits_eq {n : Nat} (h : n < 100) : twoDigits n = [Fin.ofNat 64 (n / 10 + 1), Fin.ofNat 64 (n % 10 + 1)] := by
  rw [twoDigits, digitGlyph_lt (Nat.div_lt_of_lt_mul h), digitGlyph]

theorem clockText_of {d : Time} {h m k : Nat} (split : d.second = 3600 * h + 60 * m + k) (hm : m < 60) (hk : k < 60) :
    clockText (some d) = twoDigits h ++ [39] ++ twoDigits m ++ [39] ++ twoDigits k := by
  have hour : d.second / 3600 = h := by omega
  have minute : d.second / 60 % 60 = m := by omega
  have second : d.second % 60 = k := by omega
  rw [clockText, hour, minute, second]

/-! ### The values of the fields -/

section
variable (s : State) (bay : BayId)

theorem State.shownComp_eq : s.shownComp bay = (((s.session bay).bound.bind s.findOrder).map (·.2)).bind fun o =>
    (s.session bay).selected.bind o.comp := by
  unfold State.shownComp State.boundOrder
  cases (s.session bay).bound.bind s.findOrder with
  | none => rfl
  | some e => cases (s.session bay).selected <;> rfl

/-- The snapshot's name goes before the record's, and both need the selection (log entry 20). -/
theorem State.shownProduct_eq : s.shownProduct bay = (s.shownComp bay).bind fun c => c.product.bind fun code =>
    (s.focusBatch bay).elim ((s.product code).map (·.name)) fun b => some b.snapshot.name := by
  unfold State.shownProduct
  cases s.shownComp bay with
  | none => rfl
  | some c =>
    cases hc : c.product with
    | none => simp [hc]
    | some code => cases s.focusBatch bay <;> simp [hc]

theorem State.fieldValue_productName : s.fieldValue bay .productName
    = (s.shownComp bay).bind fun c => c.product.bind fun code =>
      ((s.focusBatch bay).elim ((s.product code).map (·.name)) fun b => some b.snapshot.name).map .text := by
  have shown : s.fieldValue bay .productName = (s.shownProduct bay).map .text := rfl
  rw [shown, State.shownProduct_eq]
  simp only [Option.map_bind, Function.comp_def]

theorem State.fieldValue_tankerId : s.fieldValue bay .tankerId
    = (((s.session bay).bound.bind s.findOrder).map (·.2)).map fun o => .text o.tanker := by
  rw [Option.map_map]
  rfl

theorem State.fieldValue_clock : s.fieldValue bay .clock = some (.text (clockText s.clock)) := rfl

variable {s bay}

/-- The first cause of the set in the order of Table 5-6 is shown. -/
theorem State.fieldValue_holdCause {b : Batch} (focus : s.focusBatch bay = some b) (held : b.state = .held)
    {before after : List HoldCause} {c : HoldCause} (order : HoldCause.all = before ++ c :: after) (mem : c ∈ b.holdSet)
    (first : ∀ d ∈ before, d ∉ b.holdSet) : s.fieldValue bay .holdCause = some (.text (glyphs c.text)) := by
  have found : (HoldCause.all.find? fun c => decide (c ∈ b.holdSet)) = some c :=
    List.find?_eq_some_iff_append.mpr ⟨decide_eq_true mem, before, after, order, fun d hd => by simpa using first d hd⟩
  simp only [State.fieldValue, focus, if_pos held, found]
  rfl

theorem State.fieldValue_holdCause_none (none_shown : ∀ b, s.focusBatch bay = some b → b.state ≠ .held ∨ b.holdSet = []) :
    s.fieldValue bay .holdCause = none := by
  cases focus : s.focusBatch bay with
  | none => simp only [State.fieldValue, focus]
  | some b =>
    rcases none_shown b focus with unheld | empty
    · simp only [State.fieldValue, focus, if_neg unheld]
    · simp [State.fieldValue, focus, empty]

end

/-- Settles O56: the rows, the cells and the filling case by case, the digits, the names, then field after field. -/
theorem panelLayoutAndFields : Obligations.PanelLayoutAndFields := by
  refine ⟨?_, ?_, fun w => ⟨rfl, fun v => ⟨fillField_wide, fun fits => ⟨?_, fillField_right fits⟩⟩⟩, fun t => rfl, ?_,
    fun k => ⟨?_, ?_⟩, fun t => rfl, by decide, rfl, by decide, by decide, ?_⟩
  · rintro s bay n l rest cells rfl
    exact ⟨rfl, s.layLines_hidden bay rest n, fun visible => ⟨s.layLines_full bay rest visible,
      s.layLines_single bay rest visible n,
      fun double => ⟨s.layLines_cramped bay rest visible double, s.layLines_double bay rest visible n double⟩⟩⟩
  · intro s bay m e g f w rest shown h
    rw [cellValue_unique h]
    exact ⟨rfl, rfl, rfl, rfl⟩
  · rintro t rfl
    exact fillField_text fits
  · intro n h
    obtain ⟨digits, spelled, nonempty, value, leading⟩ := decimal_digits 20 n h (by decide)
    exact ⟨digits, spelled, nonempty, value, leading, volume_glyphs n⟩
  · revert k; decide
  · revert k; decide
  · rintro s bay x _ _ _ rfl rfl rfl rfl
    rw [← s.shownComp_eq bay]
    refine ⟨rfl, rfl, rfl, s.fieldValue_tankerId bay, rfl, rfl, rfl, rfl, rfl, rfl, s.fieldValue_productName bay, rfl, rfl,
      rfl, rfl, fun b focus held before c after order mem first => State.fieldValue_holdCause focus held order mem first,
      State.fieldValue_holdCause_none, rfl, rfl, fun unset => ?_, ?_, rfl⟩
    · rw [State.fieldValue_clock, unset]; rfl
    · rintro _ h m k d clock rfl split hh hm hk
      refine ⟨fun n => [Fin.ofNat 64 (n / 10 + 1), Fin.ofNat 64 (n % 10 + 1)], fun n => rfl, ?_⟩
      rw [State.fieldValue_clock, clock, clockText_of split hm hk, twoDigits_eq (by omega : h < 100),
        twoDigits_eq (by omega : m < 100), twoDigits_eq (by omega : k < 100)]

end Sys2Proof.Machine
end

section
/-! SUPPORT. The Host Link Port and its responses (R167, R168, R171): every request through `State.request`, the bytes of
a response frame, and the bits of the rack status byte. -/

namespace Sys2Proof.Machine

/-! ### Requests -/

/-- Every request goes through the port to its block, with the reader that says whether its body matches (R168). -/
theorem exec_request {c : Instr} {kind tag : Byte} {body : List Byte} (h : c.request = some (kind, tag, body)) (s : State) :
    ∃ (α : Type) (read : List Byte → Option α) (act : State → α → Reply),
      exec c s = .next (s.request kind tag body read act) ∧ (read body).isSome = c.bodyMatches := by
  cases c <;> cases h <;> exact ⟨_, _, _, rfl, rfl⟩

theorem exec_request_responding {c : Instr} {s : State} (h : c.request.isSome) (busy : s.port.phase = .responding) :
    exec c s = .next s := by
  obtain ⟨⟨kind, tag, body⟩, request⟩ := Option.isSome_iff_exists.mp h
  obtain ⟨α, read, act, run, -⟩ := exec_request request s
  rw [run, State.request_responding busy]

theorem exec_request_malformed {c : Instr} {kind tag : Byte} {body : List Byte} {s : State}
    (request : c.request = some (kind, tag, body)) (h : c.bodyMatches = false) (hunting : s.port.phase = .hunting) :
    exec c s = .next (s.respond kind tag body .invalid []) := by
  obtain ⟨α, read, act, run, matched⟩ := exec_request request s
  have unread : read body = none := by rw [← Option.isNone_iff_eq_none, ← Option.not_isSome, matched, h]; rfl
  rw [run, State.request_malformed hunting unread]

/-! ### The port's buffer -/

theorem State.keepHunting_hunting {s : State} (h : s.port.phase = .hunting) (buffer : List Byte) :
    s.keepHunting buffer = { s with port := { s.port with rx := buffer } } := by rw [State.keepHunting, h]

theorem State.keepHunting_responding {s : State} (h : s.port.phase = .responding) (buffer : List Byte) :
    s.keepHunting buffer = s := by rw [State.keepHunting, h]

theorem State.receive_partial {s : State} {received : List Byte} (h : s.port.phase = .hunting)
    (none_whole : hostCommands s.port.rx received = []) :
    s.receive received = { s with port := { s.port with rx := (hunt s.port.rx received).buffer } } := by
  rw [State.receive, h, none_whole]
  exact State.keepHunting_hunting h _

theorem State.receive_commands {s : State} {received : List Byte} (h : s.port.phase = .hunting)
    (whole : hostCommands s.port.rx received ≠ []) :
    s.receive received = { s with pending := s.pending ++ hostCommands s.port.rx received } := by
  obtain ⟨c, rest, spelled⟩ := List.exists_cons_of_ne_nil whole
  rw [State.receive, h, spelled]

theorem State.receive_responding {s : State} (h : s.port.phase = .responding) (received : List Byte) :
    s.receive received = s := by rw [State.receive, h]

/-! ### The response -/

/-- A response frame as Table 11-2 lays it out. -/
theorem responseFrame_eq (kind tag result status : Byte) (body : List Byte) : responseFrame kind tag result status body
    = 0xA5#8 :: (littleEndian 2 (4 + body.length) ++ [kind, tag, result, status] ++ body)
      ++ littleEndian 2 (crc16 (littleEndian 2 (4 + body.length) ++ [kind, tag, result, status] ++ body)).toNat := by
  have content : (kind :: tag :: result :: status :: body).length = 4 + body.length := by simp; omega
  rw [responseFrame, hostFrame, content, List.append_assoc]
  rfl

/-! ### The rack status byte -/

theorem State.attention_iff (s : State) : s.attention = true ↔ ∃ f ∈ s.flags, f ∉ s.mask := by
  simp [State.attention]

theorem State.anyFlowing_iff (s : State) :
    s.anyFlowing = true ↔ ∃ a b, s.batch a = some b ∧ b.state.flowing = true := by
  simp [State.anyFlowing, mem_allArms, State.flowing, Option.any_eq_true]

theorem State.anyInjectorFault_iff (s : State) : s.anyInjectorFault = true ↔ ∃ i, (s.injector i).state = .fault := by
  simp [State.anyInjectorFault, mem_allInjectors]

theorem State.anyArmOut_iff (s : State) : s.anyArmOut = true ↔ ∃ a, (s.arm a).service = .outOfService := by
  simp [State.anyArmOut, mem_allArms]

/-- Six conditions weighed into a byte stand at its bits 0 to 5, with bits 6 and 7 clear. -/
theorem getLsbD_weights (b0 b1 b2 b3 b4 b5 : Bool) (i : Fin 8) :
    (BitVec.ofNat 8 (weight b0 0 + weight b1 1 + weight b2 2 + weight b3 3 + weight b4 4 + weight b5 5)).getLsbD i
      = [b0, b1, b2, b3, b4, b5, false, false][i] := by
  revert b0 b1 b2 b3 b4 b5 i
  decide

/-- The bits of the rack status byte (Table 11-3). -/
theorem State.statusByte_bit (s : State) (i : Fin 8) : s.statusByte.getLsbD i = [s.attention, s.esd.active,
    s.clock.isNone, s.anyFlowing, s.anyInjectorFault, s.anyArmOut, false, false][i] := getLsbD_weights _ _ _ _ _ _ i

/-- Settles O3: the requests, the other commands of the port, the response and its status byte. -/
theorem portAndResponses : Obligations.PortAndResponses := by
  refine ⟨fun c s => exec_request_responding, fun c kind tag body s => exec_request_malformed,
    fun kind tag body s hunting => congrArg _ (State.request_taken hunting rfl),
    fun received s => ⟨fun hunting => ⟨?_, ?_, State.receive_partial hunting, State.receive_commands hunting⟩,
      fun busy => ⟨?_, ?_, State.receive_responding busy received⟩⟩,
    fun s => rfl, fun s kind tag request r body => ?_, fun s => ⟨?_, ?_, ?_, ?_, ?_, ?_, ?_, ?_⟩⟩
  · exact congrArg _ (State.keepHunting_hunting hunting _)
  · exact congrArg _ (State.keepHunting_hunting hunting _)
  · exact congrArg _ (State.keepHunting_responding busy _)
  · exact congrArg _ (State.keepHunting_responding busy _)
  · exact ⟨_, _, rfl, rfl, by rw [responseFrame_eq, ← ResultCode.code_eq]⟩
  · exact (Eq.congr_left (s.statusByte_bit 0)).trans s.attention_iff
  · exact s.statusByte_bit 1
  · exact (Eq.congr_left (s.statusByte_bit 2)).trans Option.isNone_iff_eq_none
  · exact (Eq.congr_left (s.statusByte_bit 3)).trans s.anyFlowing_iff
  · exact (Eq.congr_left (s.statusByte_bit 4)).trans s.anyInjectorFault_iff
  · exact (Eq.congr_left (s.statusByte_bit 5)).trans s.anyArmOut_iff
  · exact s.statusByte_bit 6
  · exact s.statusByte_bit 7

end Sys2Proof.Machine
end

section
/-! SUPPORT. The frames of both links (R167, R176): the accepted frames, the request of each, the commands of a stretch of
bytes, and the well-formed frames of a terminal with their commands. -/

namespace Sys2Proof.Machine

/-! ### The frames of the host link -/

/-- The two bytes of a length field and the number that they spell. -/
theorem length_bytes {l0 l1 : Byte} {n : Nat} (h : n < 65536) :
    littleEndian 2 n = [l0, l1] ↔ l0.toNat + 256 * l1.toNat = n := by
  rw [← length_field]
  constructor
  · intro e
    rw [← e, ofLittleEndian_littleEndian 2 n h]
  · rintro rfl
    exact littleEndian_ofLittleEndian [l0, l1]

/-- A frame with the length and the CRC of its content, byte by byte. -/
theorem hostFrame_bytes {kind tag : Byte} {body : List Byte} (short : body.length ≤ 500) : ∃ l0 l1 : Byte,
    l0.toNat + 256 * l1.toNat = 2 + body.length ∧
    hostFrame (kind :: tag :: body) = 0xA5 :: l0 :: l1 :: (kind :: tag :: body)
      ++ crcBytes (l0 :: l1 :: kind :: tag :: body) := by
  obtain ⟨l0, l1, e⟩ : ∃ l0 l1 : Byte, littleEndian 2 (2 + body.length) = [l0, l1] := ⟨_, _, rfl⟩
  have content : (kind :: tag :: body).length = 2 + body.length := by simp; omega
  refine ⟨l0, l1, (length_bytes (by omega)).mp e, ?_⟩
  rw [hostFrame, content, e]
  rfl

theorem acceptedContent_hostFrame {kind tag : Byte} {body : List Byte} (short : body.length ≤ 500) :
    acceptedContent (hostFrame (kind :: tag :: body)) = some (kind, tag, body) := by
  obtain ⟨l0, l1, len, bytes⟩ := hostFrame_bytes (kind := kind) (tag := tag) short
  have accept := acceptedContent_frame l0 l1 (kind :: tag :: body) (crcBytes (l0 :: l1 :: kind :: tag :: body)) (by omega)
    (by omega) (by simp; omega) (length_littleEndian _ _)
  rw [bytes]
  exact accept.trans (if_pos rfl)

theorem hunt_hostFrame {kind tag : Byte} {body : List Byte} (short : body.length ≤ 500) (rest : List Byte) :
    hunt [] (hostFrame (kind :: tag :: body) ++ rest)
      = { buffer := [], discarded := [], accepted := some (kind, tag, body) } := by
  obtain ⟨l0, l1, len, bytes⟩ := hostFrame_bytes (kind := kind) (tag := tag) short
  have whole := hunt_frame l0 l1 (kind :: tag :: body) (crcBytes (l0 :: l1 :: kind :: tag :: body)) rest (by omega)
    (by omega) (by simp; omega) (length_littleEndian _ _)
  rw [bytes]
  exact whole.2 rfl kind tag body rfl

/-- What passes the tests is a frame as it is laid out (Table 11-1). -/
theorem eq_hostFrame_of_accepted {frame : List Byte} {kind tag : Byte} {body : List Byte}
    (h : acceptedContent frame = some (kind, tag, body)) :
    body.length ≤ 500 ∧ frame = hostFrame (kind :: tag :: body) := by
  unfold acceptedContent at h
  split at h
  · rename_i start l0 l1 rest
    simp only [length_field] at h
    split at h
    · rename_i passed
      obtain ⟨rfl, least, most, size, crc⟩ := passed
      split at h
      · rename_i kind' tag' body' content
        cases h
        have len : body.length + 1 + 1 = l0.toNat + 256 * l1.toNat := by
          have taken := congrArg List.length content
          rw [List.length_take, size] at taken
          simp only [List.length_cons] at taken
          omega
        have whole : rest = kind :: tag :: body ++ crcBytes (l0 :: l1 :: kind :: tag :: body) := by
          rw [← List.take_append_drop (l0.toNat + 256 * l1.toNat) rest, crc, content]
        have field : littleEndian 2 (kind :: tag :: body).length = [l0, l1] :=
          (length_bytes (by simp only [List.length_cons]; omega)).mpr len.symm
        refine ⟨by omega, ?_⟩
        rw [whole, hostFrame, field]
        rfl
      · cases h
    · cases h
  · cases h

/-- A frame under the names of the obligation. -/
theorem eq_hostFrame_iff {frame body : List Byte} {kind tag : Byte} : frame = hostFrame (kind :: tag :: body) ↔
    ∃ covered, covered = littleEndian 2 (2 + body.length) ++ kind :: tag :: body ∧
      frame = 0xA5#8 :: covered ++ littleEndian 2 (crc16 covered).toNat := by
  have content : (kind :: tag :: body).length = 2 + body.length := by simp; omega
  rw [exists_eq_left, hostFrame, content]
  rfl

theorem acceptedContent_iff {frame body : List Byte} {kind tag : Byte} :
    acceptedContent frame = some (kind, tag, body) ↔ body.length ≤ 500 ∧ frame = hostFrame (kind :: tag :: body) :=
  ⟨eq_hostFrame_of_accepted, fun ⟨short, laid⟩ => laid ▸ acceptedContent_hostFrame short⟩

/-! ### The commands of a stretch of bytes -/

theorem hostCommands_accepted {buffer received : List Byte} {kind tag : Byte} {body : List Byte}
    (h : (hunt buffer received).accepted = some (kind, tag, body)) : hostCommands buffer received
      = (hunt buffer received).discarded.map .hostFrameDiscard ++ [requestOf kind tag body] := by
  rw [hostCommands, h]

theorem hostCommands_none {buffer received : List Byte} (h : (hunt buffer received).accepted = none) :
    hostCommands buffer received
      = (discardOperands (hunt buffer received).discarded (hunt buffer received).buffer).map .hostFrameDiscard := by
  rw [hostCommands, h]

theorem hostCommands_discards {buffer received last : List Byte} {frames : List (List Byte)}
    (h : (hunt buffer received).accepted = none) (discards : (hunt buffer received).discarded = frames ++ [last]) :
    hostCommands buffer received
      = frames.map .hostFrameDiscard ++ [.hostFrameDiscard (last ++ (hunt buffer received).buffer)] := by
  rw [hostCommands_none h, discards, discardOperands_last, List.map_append]
  rfl

/-! ### The request of a kind -/

/-- A kind that Table 11-6 does not list. -/
theorem requestOf_unknown {kind : Byte} (h : kind ∉ knownKinds) (tag : Byte) (body : List Byte) :
    requestOf kind tag body = .unknownKind kind tag body := by
  unfold requestOf
  split
  on_goal 47 => rfl
  all_goals exact absurd (by decide) h

/-- A request that can occur is the one of its kind, its body within Table 11-1. -/
theorem requestOf_request {c : Instr} {kind tag : Byte} {body : List Byte} (h : c.request = some (kind, tag, body))
    (formed : c.wellFormed = true) : requestOf kind tag body = c ∧ body.length ≤ 500 := by
  cases c with
  | unknownKind =>
    cases h
    simp only [Instr.wellFormed, bodyFits, Bool.and_eq_true, Bool.not_eq_true', List.contains_eq_mem,
      decide_eq_false_iff_not, decide_eq_true_eq] at formed
    exact ⟨requestOf_unknown formed.1 _ _, formed.2⟩
  | _ => cases h <;> exact ⟨rfl, of_decide_eq_true formed⟩

theorem hostCommands_request {c : Instr} {kind tag : Byte} {body : List Byte} (h : c.request = some (kind, tag, body))
    (formed : c.wellFormed = true) (rest : List Byte) : hostCommands [] (hostFrame (kind :: tag :: body) ++ rest) = [c] := by
  obtain ⟨spelled, short⟩ := requestOf_request h formed
  have found := hunt_hostFrame (kind := kind) (tag := tag) short rest
  rw [hostCommands_accepted (congrArg Hunt.accepted found), found, spelled]
  rfl

/-! ### The frames of a terminal -/

/-- The type and the bytes of a terminal frame (Table 11-7). -/
def TerminalFrame.bytes : TerminalFrame → List Byte
  | .heartbeat => [0x01]
  | .card number => 0x02 :: littleEndian 4 number.toNat
  | .key code => [0x03, BitVec.ofNat 8 code.val]

theorem crcBytes_two (bytes : List Byte) : ∃ c0 c1, crcBytes bytes = [c0, c1] := ⟨_, _, rfl⟩

theorem terminalContent_frame (x : TerminalFrame) :
    terminalContent (bayStart :: x.bytes ++ crcBytes x.bytes) = some x := by
  obtain ⟨c0, c1, crc⟩ := crcBytes_two x.bytes
  rw [crc]
  cases x with
  | heartbeat => exact if_pos ⟨rfl, crc.symm⟩
  | card number =>
    obtain ⟨n0, n1, n2, n3, spelled⟩ : ∃ n0 n1 n2 n3, littleEndian 4 number.toNat = [n0, n1, n2, n3] :=
      ⟨_, _, _, _, rfl⟩
    have value : BitVec.ofNat 32 (ofLittleEndian [n0, n1, n2, n3]) = number := by
      rw [← spelled, ofLittleEndian_littleEndian 4 _ number.isLt, BitVec.ofNat_toNat, BitVec.setWidth_eq]
    simp only [TerminalFrame.bytes, spelled] at crc ⊢
    exact (if_pos ⟨rfl, crc.symm⟩).trans (by rw [value])
  | key code =>
    have value : (BitVec.ofNat 8 code.val).toNat = code.val := Nat.mod_eq_of_lt (by omega)
    have range : (BitVec.ofNat 8 code.val).toNat < 17 := by omega
    refine (if_pos ⟨rfl, crc.symm⟩).trans ((dif_pos range).trans ?_)
    simp only [value]

theorem eq_frame_of_terminalContent {frame : List Byte} {x : TerminalFrame} (h : terminalContent frame = some x) :
    frame = bayStart :: x.bytes ++ crcBytes x.bytes := by
  unfold terminalContent at h
  split at h
  · split at h
    · rename_i passed
      cases h
      obtain ⟨rfl, crc⟩ := passed
      exact congrArg (bayStart :: 0x01 :: ·) crc
    · cases h
  · rename_i start n0 n1 n2 n3 c0 c1
    split at h
    · rename_i passed
      cases h
      obtain ⟨rfl, crc⟩ := passed
      have spelled : littleEndian 4 (BitVec.ofNat 32 (ofLittleEndian [n0, n1, n2, n3])).toNat = [n0, n1, n2, n3] := by
        have fits : ofLittleEndian [n0, n1, n2, n3] < 2 ^ 32 := (ofLittleEndian_lt _).trans_le (by simp)
        rw [BitVec.toNat_ofNat, Nat.mod_eq_of_lt fits]
        exact littleEndian_ofLittleEndian [n0, n1, n2, n3]
      rw [TerminalFrame.bytes, spelled, ← crc]
      rfl
    · cases h
  · rename_i start k c0 c1
    split at h
    · rename_i passed
      obtain ⟨rfl, crc⟩ := passed
      split at h
      · cases h
        rw [TerminalFrame.bytes, BitVec.ofNat_toNat, BitVec.setWidth_eq, ← crc]
        rfl
      · cases h
    · cases h
  · cases h

/-- The well-formed terminal frames, each by what it carries. -/
theorem terminalContent_iff {frame : List Byte} {x : TerminalFrame} :
    terminalContent frame = some x ↔ frame = bayStart :: x.bytes ++ crcBytes x.bytes :=
  ⟨eq_frame_of_terminalContent, fun h => h ▸ terminalContent_frame x⟩

theorem keyCommand_digit (bay : BayId) {k : Fin 17} {d : Fin 10} (h : k.val = d.val) :
    keyCommand bay k = .digitKey bay d := by
  have low : k.val < 10 := by omega
  rw [keyCommand, dif_pos low]
  exact congrArg _ (Fin.ext h)

/-- The seven keys that are no digits, in the order of Table 11-7. -/
theorem keyCommand_other (bay : BayId) {k : Fin 17} (h : 10 ≤ k.val) :
    [Instr.enter bay, .cancel bay, .arm bay, .start bay, .stop bay, .resume bay, .finish bay][k.val - 10]?
      = some (keyCommand bay k) := by
  obtain ⟨k, bound⟩ := k
  dsimp only at h
  interval_cases k <;> rfl

/-- Settles O4: the accepted frames, the hunt byte by byte, the commands that it gives, and the terminal frames. -/
theorem framesOfBothLinks : Obligations.FramesOfBothLinks := by
  refine ⟨fun frame kind tag body => ?_, fun buffer => rfl, hunt_noise, ?_, fun buffer x y => hunt_append x y buffer, ?_,
    fun c kind tag body rest request formed =>
      ⟨(requestOf_request request formed).1, hostCommands_request request formed rest⟩,
    fun bay frame => ⟨terminalContent_iff, fun n => terminalContent_iff, fun k => terminalContent_iff, ?_, ?_, ?_, ?_, ?_⟩⟩
  · rw [← eq_hostFrame_iff]
    exact acceptedContent_iff
  · rintro l0 l1 rest len rfl
    have low : hunt [] (0xA5 :: l0 :: rest) = hunt [0xA5, l0] rest := by rw [hunt_start, hunt_low]
    refine ⟨fun range => ?_, fun least most content crc size two => hunt_frame l0 l1 content crc rest least most size two,
      fun least most part short => hunt_resumes l0 l1 least most part rest short, low.symm, (hunt_start rest).symm⟩
    rw [hunt_start, hunt_low, hunt_badLength l0 l1 rest range]
  · rintro buffer received _ rfl
    refine ⟨fun kind tag body => hostCommands_accepted, fun unaccepted => ⟨fun discards => ?_,
      fun frames last discards => ⟨hostCommands_discards unaccepted discards,
        fun underWay => hunt_last received buffer last frames underWay unaccepted discards⟩⟩⟩
    rw [hostCommands_none unaccepted, discards]
    rfl
  · intro h
    rw [terminalCommand, h]
  · intro n h
    rw [terminalCommand, h]
  · intro k d h digit
    rw [terminalCommand, h]
    exact keyCommand_digit bay digit
  · intro k h other
    rw [terminalCommand, h]
    exact keyCommand_other bay other
  · intro h
    rw [terminalCommand, h]

end Sys2Proof.Machine
end

section
/-! SUPPORT. Status, event flags and the clock (R169, R172, R173): a set of flags as the two bytes of a request name it and
as the two bytes of a response spell it, and a tick of the clock second by second. -/

namespace Sys2Proof.Machine

/-! ### A set as bits -/

/-- The values whose bit is set in a number, the first value at bit 0. -/
def membersOf {α : Type} [DecidableEq α] (values : List α) (w : Nat) : List α :=
  values.filter fun x => w.testBit (values.idxOf x)

section
variable {α : Type} [DecidableEq α] {values : List α}

theorem zipIdx_eq_idxOf (h : values.Nodup) : values.zipIdx = values.map fun x => (x, values.idxOf x) := by
  apply List.ext_getElem
  · simp
  · intro k _ _
    simp [h.idxOf_getElem]

/-- A set read off its bytes. -/
theorem setOf_littleEndian (h : values.Nodup) {n w : Nat} (fits : w < 256 ^ n) (rest : List Byte) :
    setOf n values (littleEndian n w ++ rest) = some (membersOf values w, rest) := by
  rw [setOf, word_littleEndian n w rest fits, Option.map_some, zipIdx_eq_idxOf h, List.filter_map, List.map_map]
  simp [membersOf, Function.comp_def]

/-- The bytes of the set that a number names are the number's. -/
theorem memberBytes_membersOf (h : values.Nodup) {n w : Nat} (fits : w < 2 ^ values.length) :
    memberBytes n values (membersOf values w) = littleEndian n w := by
  have bits : (values.map fun x => if x ∈ membersOf values w then 2 ^ values.idxOf x else 0)
      = (List.finRange values.length).map fun i => if w.testBit i.val then 2 ^ i.val else 0 := by
    apply List.ext_getElem
    · simp
    · intro k _ _
      simp [membersOf, h.idxOf_getElem]
  rw [memberBytes, bits, sum_bits_eq_ofBits, Nat.ofBits_testBit, Nat.mod_eq_of_lt fits]

end

theorem eventFlags_nodup : EventFlag.all.Nodup := by decide

theorem readFlags_littleEndian {w : Nat} (h : w < 65536) :
    readFlags (littleEndian 2 w) = some (membersOf EventFlag.all w) := by
  have read := setOf_littleEndian eventFlags_nodup (n := 2) h []
  rw [List.append_nil] at read
  rw [readFlags, whole, read]

theorem State.flagsBody_eq (s : State) :
    s.flagsBody = memberBytes 2 EventFlag.all s.flags ++ memberBytes 2 EventFlag.all s.mask := by
  rw [State.flagsBody, putSet_eq 2 _ _ eventFlags_nodup, putSet_eq 2 _ _ eventFlags_nodup]

theorem State.mem_flags_acknowledge (s : State) (named : List EventFlag) (f : EventFlag) :
    f ∈ (s.acknowledge named).flags ↔ f ∈ s.flags ∧ f ∉ named := by
  simp [State.acknowledge]

/-! ### The clock -/

theorem readTime_littleEndian {day second : Nat} (hd : day < 65536) (hs : second < 4294967296) :
    readTime (littleEndian 2 day ++ littleEndian 4 second) = some { day, second } := by
  have last := word_littleEndian 4 second [] hs
  rw [List.append_nil] at last
  simp only [readTime, whole, bind, word_littleEndian 2 day _ hd, last, Option.bind_some]

theorem State.clockSet_send (s : State) {t : Time} (day : t.day ≤ 65535) (kind tag : Byte) (request : List Byte) :
    (s.clockSet t).send kind tag request = if t.second ≤ 86399 then
        ({ s with clock := some t, clockPhase := some 1000 } : State).respond kind tag request .ok []
      else s.respond kind tag request .invalid [] := by
  have valid : t.valid = true ↔ t.second ≤ 86399 := by simp [Time.valid, day]
  simp only [State.clockSet, valid]
  split <;> rfl

theorem Time.tick_second {t : Time} (h : t.second < 86399) : t.tick = { t with second := t.second + 1 } := if_pos h

theorem Time.tick_midnight {day : Nat} (h : day < 65535) :
    Time.tick { day, second := 86399 } = { day := day + 1, second := 0 } := by
  simp [Time.tick, h]

theorem exec_clockTick_unset {s : State} (h : s.clock = none) : exec .clockTick s = .next s := by
  refine congrArg Host.Outcome.next (State.expire_without_effect ?_)
  rw [h]

theorem exec_clockTick_early {s : State} (h : s.clockPhase ≠ some 0) : exec .clockTick s = .next s :=
  congrArg _ (s.expire_not h _)

theorem exec_clockTick_due {s : State} {t : Time} (due : s.clockPhase = some 0) (set : s.clock = some t) :
    exec .clockTick s = .next { s with clock := some t.tick, clockPhase := some 1000 } := by
  refine congrArg Host.Outcome.next ?_
  rw [due, State.expire_due, set]
  rfl

theorem exec_statusGet {s : State} (tag : Byte) (hunting : s.port.phase = .hunting) :
    exec (.statusGet tag []) s = .next (s.respond 0x01 tag [] .ok s.statusBody) :=
  congrArg Host.Outcome.next (State.request_taken (f := ()) hunting rfl)

/-- EVENTS_ACK (R172) of the flags that a number names. -/
theorem exec_eventsAck {s : State} (tag : Byte) {w : Nat} (hunting : s.port.phase = .hunting) (range : w < 65536) :
    exec (.eventsAck tag (littleEndian 2 w)) s = .next ((s.acknowledge (membersOf EventFlag.all w)).respond 0x02 tag
      (littleEndian 2 w) .ok (s.acknowledge (membersOf EventFlag.all w)).flagsBody) :=
  congrArg Host.Outcome.next (State.request_taken hunting (readFlags_littleEndian range))

/-- EVENTS_MASK (R172) of the flags that a number names. -/
theorem exec_eventsMask {s : State} (tag : Byte) {w : Nat} (hunting : s.port.phase = .hunting) (range : w < 65536) :
    exec (.eventsMask tag (littleEndian 2 w)) s = .next (({ s with mask := membersOf EventFlag.all w } : State).respond
      0x03 tag (littleEndian 2 w) .ok (memberBytes 2 EventFlag.all s.flags ++ littleEndian 2 w)) := by
  have body : ({ s with mask := membersOf EventFlag.all w } : State).flagsBody
      = memberBytes 2 EventFlag.all s.flags ++ littleEndian 2 w := by
    rw [State.flagsBody_eq, memberBytes_membersOf eventFlags_nodup range]
  rw [← body]
  exact congrArg Host.Outcome.next (State.request_taken hunting (readFlags_littleEndian range))

theorem exec_clockSet {s : State} (tag : Byte) {day second : Nat} (hunting : s.port.phase = .hunting)
    (hd : day < 65536) (hs : second < 4294967296) : exec (.clockSet tag (littleEndian 2 day ++ littleEndian 4 second)) s
      = .next ((s.clockSet { day, second }).send 0x04 tag (littleEndian 2 day ++ littleEndian 4 second)) :=
  congrArg Host.Outcome.next (State.request_taken hunting (readTime_littleEndian hd hs))

/-- Settles O7: the three requests by what their bodies read as, the setting of the clock and its ticks. -/
theorem statusEventFlagsAndClock : Obligations.StatusEventFlagsAndClock := by
  refine ⟨fun s tag hunting => ⟨?_, ?_⟩, ⟨rfl, EventFlag.mem_all⟩, ?_, ?_, ?_, ?_, ?_⟩
  · rw [exec_statusGet tag hunting, State.statusBody_eq]
  · intro w named range names
    obtain rfl : named = membersOf EventFlag.all w := names
    refine ⟨⟨s.acknowledge (membersOf EventFlag.all w), ?_, rfl, s.mem_flags_acknowledge _⟩,
      exec_eventsMask tag hunting range⟩
    rw [exec_eventsAck tag hunting range, State.flagsBody_eq]
    rfl
  · intro s tag day second hunting hd hs
    rw [exec_clockSet tag hunting hd hs, s.clockSet_send (Nat.le_of_lt_succ hd)]
  · rintro s (unset | early)
    · exact exec_clockTick_unset unset
    · exact exec_clockTick_early early
  · intro s day second due set before
    rw [exec_clockTick_due due set, Time.tick_second before]
  · intro s day due set before
    rw [exec_clockTick_due due set, Time.tick_midnight before]
  · intro s due set
    rw [exec_clockTick_due due set, set]
    rfl

end Sys2Proof.Machine
end

section
/-! SUPPORT. The command at the front of the queue (log entry 1). -/

namespace Sys2Proof.Machine

/-- A command that waits runs on what is left of the queue; `step_idle` is the other case of a step. -/
theorem step_front {s : State} {c : Instr} {rest : List Instr} (front : s.pending = c :: rest) :
    step s = exec c { s with pending := rest } := by
  unfold step
  rw [front]

/-- Settles O1: the front of the queue is the command put there, and its rest is all that `exec` is given. -/
theorem stepRunsFrontCommand : Obligations.StepRunsFrontCommand := by
  intro c rest s
  exact step_front (s := { s with pending := c :: rest }) rfl

end Sys2Proof.Machine
end

section
/-! SUPPORT. No flow from a stopped batch, drawing sets exact, no flow under ESD, along every step (R91, R97, R104). -/

namespace Sys2Proof.Machine

/-- Settles O59: three of the laws that every step keeps, from `step_orderly`. -/
theorem stepKeepsFlowLaws : Obligations.StepKeepsFlowLaws := by
  intro s t h
  have k := step_orderly h
  exact ⟨k.quiet, k.drawing, k.esd⟩

end Sys2Proof.Machine
end

section
/-! SUPPORT. The ramp, blend and no-flow timers of a batch (R89, R115, R117): what each expiry makes of the batch it
finds. -/

namespace Sys2Proof.Machine

section
variable {s : State} {a : ArmId} {b : Batch}

theorem State.batchIs_of_some (hb : s.batch a = some b) (st : BatchState) : s.batchIs a st = decide (b.state = st) := by
  unfold State.batchIs; rw [hb]; rfl

theorem State.flowing_of_some (hb : s.batch a = some b) : s.flowing a = b.state.flowing := by
  unfold State.flowing; rw [hb]; rfl

/-- A timer that stands at 0 in an arm's batch takes its expiry. -/
theorem State.expire_batchTimer (hb : s.batch a = some b) {timer : Batch → Timer} (due : timer b = some 0)
    (act : State → State) : s.expire (s.batchTimer a timer) act = act s :=
  s.expire_of_due (by unfold State.batchTimer; rw [hb]; exact due) act

/-! ### Expiries that find nothing to do -/

theorem State.rampExpiry_idle (h : s.batchIs a .ramping = false) : s.rampExpiry a = s := by
  unfold State.rampExpiry
  cases hb : s.batch a with
  | none => rfl
  | some b =>
    rw [State.batchIs_of_some hb, decide_eq_false_iff_not] at h
    exact if_neg h

/-- A batch that does not flow, or has no blend, keeps its blend demand (R115). -/
theorem Batch.blendExpiry_idle (h : b.state.flowing = false ∨ b.snapshot.blend = none) : b.blendExpiry = b := by
  unfold Batch.blendExpiry
  cases hp : b.snapshot.blend with
  | none => rfl
  | some p =>
    have still : b.state.flowing = false := h.resolve_right (by rw [hp]; exact Option.some_ne_none p)
    simp [still]

theorem State.noFlowExpiry_idle (h : s.flowing a = false ∨ ∀ b, s.batch a = some b → b.mainDemand = 0) :
    s.noFlowExpiry a = s := by
  refine if_neg fun any => ?_
  obtain ⟨b, hb, holds⟩ := (Option.any_eq_true ..).mp any
  rw [Bool.and_eq_true, decide_eq_true_iff] at holds
  rcases h with still | zero
  · rw [State.flowing_of_some hb, holds.1] at still; cases still
  · exact holds.2.ne' (zero b hb)

/-! ### Expiries that act -/

/-- A further ramp step (R89). -/
theorem State.rampExpiry_steps (hb : s.batch a = some b) (ramping : b.state = .ramping) :
    s.rampExpiry a = s.setBatch a (rampStep (s.arm a) b) := by
  unfold State.rampExpiry
  rw [hb]
  exact (if_pos ramping).trans (State.modBatch_eq_setBatch hb _)

theorem Batch.blendExpiry_demands {p : BlendPart} (flowing : b.state.flowing = true) (blend : b.snapshot.blend = some p) :
    b.blendExpiry = { b with
      blendDemand := min 4000 (b.metering.secondTenths * 6 * p.ratio / (1000 - p.ratio))
      metering := { b.metering with secondTenths := 0, blendTimer := some 1000 } } := by
  unfold Batch.blendExpiry
  rw [blend]
  exact if_pos flowing

theorem State.noFlowExpiry_holds (hb : s.batch a = some b) (flowing : b.state.flowing = true) (demands : 0 < b.mainDemand) :
    s.noFlowExpiry a = s.handCause a .noFlow :=
  if_pos (by simp [hb, flowing, demands])

end

/-- Settles O40: the timers that have not run out, then each expiry by whether it finds something to do. -/
theorem batchTimers : Obligations.BatchTimers := by
  intro s a
  refine ⟨fun timer early => ⟨?_, ?_, ?_⟩, fun other => ?_, fun b ceiling d hb due ramping hc hd => ?_, fun still => ?_,
    fun b hb unblended => ?_, fun b p hb due flowing blend => ?_, fun quiet => ?_, fun b hb due flowing demands => ?_⟩
  · rintro rfl; exact congrArg _ (s.expire_not early _)
  · rintro rfl; exact congrArg _ (s.expire_not early _)
  · rintro rfl; exact congrArg _ (s.expire_not early _)
  · exact congrArg _ (State.expire_without_effect (State.rampExpiry_idle other))
  · refine congrArg _ ((State.expire_batchTimer hb due _).trans ?_)
    rw [State.rampExpiry_steps hb ramping, rampStep_of hc hd]
    rfl
  · refine congrArg _ (State.expire_without_effect (modBatch_id fun b hb => Batch.blendExpiry_idle (.inl ?_)))
    rwa [State.flowing_of_some hb] at still
  · refine congrArg _ (State.expire_without_effect (modBatch_id fun b' hb' => Batch.blendExpiry_idle (.inr ?_)))
    obtain rfl : b = b' := Option.some.inj (hb.symm.trans hb')
    exact unblended
  · refine congrArg _ ((State.expire_batchTimer hb due _).trans ?_)
    rw [State.modBatch_eq_setBatch hb, Batch.blendExpiry_demands flowing blend]
    rfl
  · exact congrArg _ (State.expire_without_effect (State.noFlowExpiry_idle quiet))
  · have runs : s.expire (s.batchTimer a (·.metering.noFlow)) (fun s => s.noFlowExpiry a) = s.handCause a .noFlow :=
      (State.expire_batchTimer hb due _).trans (State.noFlowExpiry_holds hb flowing demands)
    exact ⟨_, congrArg Host.Outcome.next runs, State.handCause_heldFrom s a b .noFlow hb flowing,
      ((Keeps.refl s).handCause a .noFlow).same⟩

end Sys2Proof.Machine
end

section
/-! SUPPORT. The transitions that a credited tenth brings about (R87 to R92, R98, R110): the flow profile of a batch by
what it still has to load. -/

namespace Sys2Proof.Machine

/-! ### The flow profile -/

section
variable {s : State} {a : ArmId} {b : Batch} (hb : s.batch a = some b)
include hb

/-- Out of the flowing states the profile has no transition (R87). -/
theorem State.profile_still (still : b.state.flowing = false) : s.profile a = s := by
  unfold State.profile
  rw [hb]
  exact if_pos (by rw [still]; rfl)

variable (flowing : b.state.flowing = true)
include flowing

/-- The closing allowance is left to load (R92). -/
theorem State.profile_closes (near : b.target ≤ b.gross + (s.arm a).closingAllowance) :
    s.profile a = s.enterClosing a .target := by
  have near' : b.remainsAtMost (s.arm a).closingAllowance = true := decide_eq_true near
  unfold State.profile
  rw [hb]
  simp only [flowing, near', Bool.not_true, Bool.false_eq_true, if_false, if_true]

variable (far : b.gross + (s.arm a).closingAllowance < b.target)
include far

/-- Beyond the closing allowance the transitions are those to TOPPING and out of LOW_START (R87). -/
theorem State.profile_eq : s.profile a =
    if b.state ≠ .topping ∧ b.target ≤ b.gross + (s.arm a).toppingVolume then
      s.setBatch a { b with state := .topping, mainDemand := toppingDemand (s.arm a) b, ramp := none }
    else if b.state = .lowStart ∧ b.snapshot.verdict ≠ .lowFlow ∧ (s.arm a).startupVolume ≤ b.sinceStart then
      s.setBatch a (rampStep (s.arm a) b)
    else s := by
  have far' : ¬ b.target ≤ b.gross + (s.arm a).closingAllowance := Nat.not_le.mpr far
  unfold State.profile
  rw [hb]
  simp only [flowing, far', Batch.remainsAtMost, decide_eq_true_iff, Bool.not_true, Bool.false_eq_true, if_false,
    State.modBatch_eq_setBatch hb]

theorem State.profile_tops (other : b.state ≠ .topping) (near : b.target ≤ b.gross + (s.arm a).toppingVolume) :
    s.profile a = s.setBatch a { b with state := .topping, mainDemand := toppingDemand (s.arm a) b, ramp := none } := by
  rw [State.profile_eq hb flowing far]
  exact if_pos ⟨other, near⟩

theorem State.profile_goesOn (h : b.state = .topping ∨ (b.gross + (s.arm a).toppingVolume < b.target ∧
    (b.state ≠ .lowStart ∨ b.snapshot.verdict = .lowFlow ∨ b.sinceStart < (s.arm a).startupVolume))) :
    s.profile a = s := by
  rw [State.profile_eq hb flowing far, if_neg, if_neg]
  · rintro ⟨low, other, passed⟩
    rcases h with topping | ⟨-, notLow | lowFlow | short⟩
    · rw [topping] at low; cases low
    · exact notLow low
    · exact other lowFlow
    · exact Nat.not_le.mpr short passed
  · rintro ⟨other, near⟩
    rcases h with topping | ⟨beyond, -⟩
    · exact other topping
    · exact Nat.not_le.mpr beyond near

theorem State.profile_ramps (beyond : b.gross + (s.arm a).toppingVolume < b.target) (low : b.state = .lowStart)
    (other : b.snapshot.verdict ≠ .lowFlow) (passed : (s.arm a).startupVolume ≤ b.sinceStart) :
    s.profile a = s.setBatch a (rampStep (s.arm a) b) := by
  rw [State.profile_eq hb flowing far, if_neg fun h => Nat.not_le.mpr beyond h.2]
  exact if_pos ⟨low, other, passed⟩

end

/-! ### The tenth -/

theorem toppingDemand_eq (r : Arm) (b : Batch) {flow : Nat}
    (h : flow = if b.snapshot.verdict = .lowFlow then min r.toppingFlow r.lowFlow else r.toppingFlow) :
    toppingDemand r b = b.ceiling.elim flow (min flow) := by
  unfold toppingDemand
  rw [← h]
  cases b.ceiling <;> rfl

/-- The arms other than the one whose batch is written. -/
theorem State.arm_setBatch_other (s : State) {a c : ArmId} (b : Batch) (h : c ≠ a) : (s.setBatch a b).arm c = s.arm c :=
  vget_vset_ne _ _ h

/-- Settles O39: the tenth counted, then the profile of the batch that counts it. -/
theorem volumeCredit : Obligations.VolumeCredit := by
  intro s a b c r hb hr hc
  have tenth : s.addTenth a = (s.setBatch a c).profile a := by
    unfold State.addTenth; rw [State.modBatch_eq_setBatch hb, hc]
  have counted : (s.setBatch a c).batch a = some c := s.batch_setBatch a c
  have record : (s.setBatch a c).arm a = { r with batch := some c } := by rw [s.arm_setBatch, hr]
  have sameState : c.state = b.state := by rw [hc]
  have written : ∀ d : Batch, (s.setBatch a c).setBatch a d
      = { s with arms := vset s.arms a { r with batch := some d } } := fun d => by rw [s.setBatch_setBatch, hr]; rfl
  have unchanged : s.setBatch a c = { s with arms := vset s.arms a { r with batch := some c } } := by rw [hr]; rfl
  rw [tenth]
  refine ⟨fun still => ?_, fun flowing near t ht => ?_, fun flowing far => ?_⟩
  · rw [State.profile_still counted (by rw [sameState]; exact still), unchanged]
  · have closes := State.profile_closes counted (by rw [sameState]; exact flowing) (by rw [record]; exact near)
    have closed := (s.setBatch a c).enterClosing_closed a c .target counted
    have same : s.SameHostRecords t := by rw [ht, ← tenth]; exact ((Keeps.refl s).addTenth a).same
    have header : c.snapshot.mainHeader = b.snapshot.mainHeader := by rw [hc]
    rw [closes] at ht
    subst ht
    rw [← header]
    exact ⟨closed.batch, closed.drawing, closed.queue,
      ((s.setBatch a c).enterClosing_others a c .target counted).before rfl fun x hx => s.arm_setBatch_other c hx, same⟩
  · have flowing' : c.state.flowing = true := by rw [sameState]; exact flowing
    have far' : c.gross + ((s.setBatch a c).arm a).closingAllowance < c.target := by rw [record]; exact far
    refine ⟨fun other near => ⟨_, rfl, ?_⟩, fun h => ?_, fun beyond low other passed ceiling d ceil hd => ?_⟩
    · rw [State.profile_tops counted flowing' far' (by rw [sameState]; exact other) (by rw [record]; exact near), written,
        record, toppingDemand_eq _ c rfl]
    · rw [State.profile_goesOn counted flowing' far' (by rw [record, sameState]; exact h), unchanged]
    · rw [State.profile_ramps counted flowing' far' (by rw [record]; exact beyond) (by rw [sameState]; exact low) other
        (by rw [record]; exact passed), written, record,
        rampStep_of (r := { r with batch := some c }) ceil hd]

end Sys2Proof.Machine
end

section
/-! SUPPORT. Ceilings computed anew and the demands on the valve line (R91, R97, R98): the response of a batch in each
state, the headers that an event settles, and the arms of other bays. -/

namespace Sys2Proof.Machine

/-! ### The response of a batch -/

section
variable {r : Arm} {c : Nat} {b : Batch}

theorem respondCeiling_same (h : b.ceiling = some c) : respondCeiling r c b = b := if_pos h

variable (h : b.ceiling ≠ some c)
include h

theorem respondCeiling_lowStart (hs : b.state = .lowStart) :
    respondCeiling r c b = { b with ceiling := some c, mainDemand := min r.lowFlow c } := by
  unfold respondCeiling
  rw [if_neg h, hs]
  rfl

theorem respondCeiling_ramping (hs : b.state = .ramping) : respondCeiling r c b = { b with
    ceiling := some c, state := if b.mainDemand = c then .high else .ramping
    ramp := if b.mainDemand = c then none else b.ramp } := by
  unfold respondCeiling
  rw [if_neg h, hs]
  dsimp only
  split
  · rfl
  · rw [← hs]

/-- In HIGH a ramp step follows the new ceiling (R89, R98). -/
theorem respondCeiling_high (hs : b.state = .high) {d : Nat}
    (hd : d = (if b.mainDemand < c then min (b.mainDemand + r.rampStep) c else max (b.mainDemand - r.rampStep) c)) :
    respondCeiling r c b = { b with
      ceiling := some c, mainDemand := d, state := if d = c then .high else .ramping
      ramp := if d = c then none else some (1000 * r.rampInterval) } := by
  unfold respondCeiling
  rw [if_neg h, hs]
  exact rampStep_of (b := { b with ceiling := some c }) rfl hd

theorem respondCeiling_topping (hs : b.state = .topping) : respondCeiling r c b = { b with
    ceiling := some c
    mainDemand := min (if b.snapshot.verdict = .lowFlow then min r.toppingFlow r.lowFlow else r.toppingFlow) c } := by
  unfold respondCeiling
  rw [if_neg h, hs]
  rfl

theorem respondCeiling_stopped (hs : b.state = .closing ∨ b.state = .held) :
    respondCeiling r c b = { b with ceiling := some c } := by
  unfold respondCeiling
  rw [if_neg h]
  rcases hs with closing | held
  · rw [closing]
  · rw [held]

end

/-! ### Headers settled -/

theorem State.computeCeilings_responds (s : State) (h : HeaderId) (a : ArmId) :
    State.CeilingResponse s (s.computeCeilings h) h a := by
  have given : (s.computeCeilings h).ceilingOf h a = s.ceilingOf h a := by
    have flow : ((s.computeCeilings h).arm a).maxFlow = (s.arm a).maxFlow := by
      rw [(s.computeCeilings_eased h).arm]
    unfold State.ceilingOf
    rw [flow, (s.computeCeilings_eased h).eq]
    rfl
  unfold State.CeilingResponse
  rw [given]
  exact s.batch_computeCeilings h a

/-- The headers whose drawing set an event has changed, each once (log entry 11). -/
def State.changedHeaders (before after : State) : List HeaderId :=
  allHeaders.filter fun h => decide ((before.header h).drawing ≠ (after.header h).drawing)

theorem State.mem_changedHeaders (before after : State) (h : HeaderId) :
    h ∈ before.changedHeaders after ↔ (before.header h).drawing ≠ (after.header h).drawing := by
  simp [State.changedHeaders, allHeaders]

theorem State.nodup_changedHeaders (before after : State) : (before.changedHeaders after).Nodup :=
  (List.nodup_finRange 4).filter _

theorem State.settleHeaders_changed (before after : State) :
    before.settleHeaders after = (before.changedHeaders after).foldl State.computeCeilings after := by
  unfold State.settleHeaders State.changedHeaders
  rw [List.foldl_filter]
  simp only [decide_eq_true_iff, ite_not]

/-! ### The arms that an event at a bay does not reach -/

theorem expire_respondsOnce {s : State} {a : ArmId} {timer : Timer} {act : State → State}
    (h : s.RespondsOnce (act s) a) : s.RespondsOnce (s.expire timer act) a := by
  unfold State.expire
  split
  · exact h
  · exact State.respondsOnce_same rfl rfl

theorem bayReset_respondsOnce {s : State} {bay : BayId} {a : ArmId} (ha : (s.arm a).bay ≠ some bay) {n : Nat}
    (hn : numbered 4 n = some bay) : s.RespondsOnce (s.bayReset n).state a := by
  unfold State.bayReset
  rw [hn]
  exact (resetSession_respondsOnce ha).congr rfl rfl rfl rfl

/-- The events that can take several arms of a bay out of their drawing sets (log entry 11). -/
theorem bayEvent_respondsOnce {s t : State} {c : Instr} {bay : BayId} {w : Permissive} {tag n : Byte} {a : ArmId}
    (hn : n.toNat = bay.val + 1)
    (hc : c ∈ [Instr.terminalLost bay, .permissiveInputAbsent bay w, .finish bay, .bayClose tag [n], .bayReset tag [n]])
    (taken : exec c s = .next t) (ha : (s.arm a).bay ≠ some bay) : s.RespondsOnce t a := by
  simp only [List.mem_cons, List.not_mem_nil, or_false] at hc
  rcases hc with rfl | rfl | rfl | rfl | rfl
  · rw [← Host.Outcome.next.inj taken]; exact expire_respondsOnce (loseTerminal_respondsOnce ha)
  · rw [← Host.Outcome.next.inj taken]; exact permissiveFall_respondsOnce w ha
  · rw [← Host.Outcome.next.inj taken]; exact finish_respondsOnce ha
  · rw [← Host.Outcome.next.inj taken]; exact request_respondsOnce (bayClose_respondsOnce ha (numbered_byte hn))
  · rw [← Host.Outcome.next.inj taken]; exact request_respondsOnce (bayReset_respondsOnce ha (numbered_byte hn))

/-! ### The valve line -/

section
variable {s : State} {a : ArmId}

theorem State.valveDemand_zero (h : s.batch a = none ∨ (s.arm a).service = .outOfService) :
    s.valveDemand a = (0, 0) := by
  unfold State.valveDemand
  cases hb : s.batch a with
  | none => rfl
  | some b => exact if_pos (h.resolve_left (by rw [hb]; exact Option.some_ne_none b))

theorem State.valveDemand_inService {b : Batch} (hb : s.batch a = some b) (service : (s.arm a).service = .inService) :
    s.valveDemand a = (b.mainDemand, b.blendDemand) := by
  unfold State.valveDemand
  rw [hb]
  exact if_neg (by rw [service]; decide)

theorem State.valveDemand_stopped (quiet : s.StoppedDemandsZero) {b : Batch} (hb : s.batch a = some b)
    (still : b.state.flowing = false) : s.valveDemand a = (0, 0) := by
  cases service : (s.arm a).service with
  | outOfService => exact State.valveDemand_zero (.inr service)
  | inService =>
    obtain ⟨main, blend⟩ := quiet a b hb still
    rw [State.valveDemand_inService hb service, main, blend]

end

/-- Settles O38: the ceiling, the response by the batch's state, the headers computed, the arms out of an event's reach,
and the demands sent. -/
theorem ceilingResponseAndValveDemands : Obligations.CeilingResponseAndValveDemands := by
  refine ⟨fun _ _ _ => rfl, fun r c b => ⟨respondCeiling_same, fun h => ⟨respondCeiling_lowStart h,
    respondCeiling_ramping h, fun hs d => respondCeiling_high h hs, respondCeiling_topping h, respondCeiling_stopped h⟩⟩,
    ?_, fun before after => ⟨fun same => ?_, fun h changed same => ?_, ?_⟩, ?_, State.handCauses_respondsOnce,
    fun s a => ⟨State.valveDemand_zero, fun b hb => ⟨State.valveDemand_inService hb, fun quiet stopped => ?_⟩⟩⟩
  · rintro s t h rfl
    exact ⟨(s.computeCeilings_eased h).eq, fun a => ⟨(s.computeCeilings_eased h).arm a, s.computeCeilings_responds h a⟩⟩
  · exact State.settleHeaders_same before after fun k => (same k).symm
  · exact State.settleHeaders_one before after h (fun j hj => (same j hj).symm) changed.symm
  · exact ⟨before.changedHeaders after, before.nodup_changedHeaders after, before.mem_changedHeaders after,
      before.settleHeaders_changed after⟩
  · intro s t c bay w tag n hn hc taken a
    exact bayEvent_respondsOnce hn hc taken
  · refine State.valveDemand_stopped quiet hb ?_
    rcases stopped with closing | held
    · rw [closing]; rfl
    · rw [held]; rfl

end Sys2Proof.Machine
end

section
/-! SUPPORT. The CONNECTED input of an arm (R99 to R101): the level written, and the cause handed or taken away. -/

namespace Sys2Proof.Machine

/-! ### A cause by the state of the batch -/

section
variable {s : State} {a : ArmId} {c : HoldCause}

theorem State.handCause_unbatched (hb : s.batch a = none) : s.handCause a c = s := by
  have raw : s.handCauseRaw a c = s := by unfold State.handCauseRaw; rw [hb]
  have settles : s.handCause a c = s.settleHeaders (s.handCauseRaw a c) := rfl
  rw [settles, raw]
  exact State.settleHeaders_same _ _ fun _ => rfl

/-- An external trip that reaches a batch in CLOSING marks its compartment (R100). -/
theorem State.handCause_marks {b : Batch} (hb : s.batch a = some b) (closing : b.state = .closing)
    (trip : c.isTrip = true) : s.handCause a c = s.modComp b.ref fun x => x.addFlag .closedUnderTrip := by
  have raw : s.handCauseRaw a c = s.modComp b.ref fun x => x.addFlag .closedUnderTrip := by
    unfold State.handCauseRaw
    rw [hb]
    dsimp only
    rw [closing]
    exact if_pos trip
  have settles : s.handCause a c = s.settleHeaders (s.handCauseRaw a c) := rfl
  rw [settles, raw]
  exact State.settleHeaders_same _ _ fun k => congrArg Header.drawing (State.header_modComp s _ _ k)

/-- A cause whose condition holds leaves the hold set of a HELD batch, and every other batch stays (R101). -/
theorem State.removeCause_holding (holds : ∀ b, s.conditionHolds a b c = true) : s.removeCause c a
    = s.modBatch a fun b => if b.state = .held then { b with holdSet := dropFrom c b.holdSet } else b := by
  unfold State.removeCause
  cases hb : s.batch a with
  | none => exact (modBatch_id fun b some => nomatch hb.symm.trans some).symm
  | some b =>
    dsimp only
    by_cases held : b.state = .held
    · rw [if_pos ⟨held, holds b⟩, State.modBatch_eq_setBatch hb, State.modBatch_eq_setBatch hb, if_pos held]
    · rw [if_neg fun h => held h.1]
      refine (modBatch_id fun b' hb' => if_neg ?_).symm
      obtain rfl : b = b' := Option.some.inj (hb.symm.trans hb')
      exact held

end

/-! ### The input at a level -/

theorem State.connect_eq (s : State) (a : ArmId) (level : Bool) :
    s.connect a level = { s with arms := vset s.arms a { s.arm a with connected := level } } := rfl

theorem State.arm_connect (s : State) (a : ArmId) (level : Bool) :
    (s.connect a level).arm a = { s.arm a with connected := level } := s.arm_modArm_same a _

theorem State.batch_connect (s : State) (a : ArmId) (level : Bool) (c : ArmId) :
    (s.connect a level).batch c = s.batch c := by
  unfold State.connect
  rw [State.batch_modArm]
  split
  · rename_i h; rw [h]; rfl
  · rfl

/-- A batch written after the input has taken its level. -/
theorem State.modBatch_connect (s : State) (a : ArmId) (level : Bool) (f : Batch → Batch) :
    (s.connect a level).modBatch a f
      = { s with arms := vset s.arms a { s.arm a with connected := level, batch := (s.batch a).map f } } := by
  unfold State.modBatch State.modArm
  rw [s.arm_connect]
  simp only [State.connect_eq, vset_vset]
  rfl

/-- Settles O33: the levels that are no event, the cause handed by the batch's state, and its removal. -/
theorem connectedInput : Obligations.ConnectedInput := by
  intro s a
  refine ⟨fun absent => ?_, fun present => ?_, fun present => ?_, fun absent => ?_⟩
  · exact congrArg _ (if_neg (by rw [absent]; decide))
  · exact congrArg _ (if_pos present)
  · have handed : exec (.connectedAbsent a) s = .next ((s.connect a false).handCause a .armDisconnected) :=
      congrArg _ (if_pos present)
    have kept : CoreKept (s.connect a false) ((s.connect a false).handCause a .armDisconnected) :=
      coreKept_handCauses _ [a] .armDisconnected
    have level : (((s.connect a false).handCause a .armDisconnected).arm a).connected = false := by
      rw [kept.arm, s.arm_connect]
    refine ⟨_, _, handed, level, s.connect_eq a false, fun b hb => ?_, fun idle => ?_, fun c hc => ?_,
      kept.bays, kept.permits, kept.meters,
      (((Keeps.refl s).connect a false).handCause a .armDisconnected).same⟩
    · have hb' : (s.connect a false).batch a = some b := (s.batch_connect a false a).trans hb
      refine ⟨State.handCause_heldFrom _ a b .armDisconnected hb', fun held => ?_, fun closing => ?_⟩
      · rw [State.handCause_adds _ a b .armDisconnected hb' held, s.arm_connect]
        simp only [State.connect_eq, vset_vset]
      · rw [State.handCause_marks hb' closing rfl]
        exact ⟨State.modComp_eq _ _ _, (s.connect a false).compChanged_modComp b.ref _⟩
    · exact State.handCause_unbatched ((s.batch_connect a false a).trans idle)
    · exact (State.handCauses_others _ [a] .armDisconnected (List.nodup_singleton a) (by simpa using hc)).trans
        (congrArg _ (s.batch_connect a false c))
  · have taken : exec (.connectedPresent a) s = .next ((s.connect a true).removeCause .armDisconnected a) :=
      congrArg _ (if_neg (by rw [absent]; decide))
    have holds : ∀ b, (s.connect a true).conditionHolds a b .armDisconnected = true := fun b =>
      congrArg Arm.connected (s.arm_connect a true)
    rw [taken, State.removeCause_holding holds, State.modBatch_connect]

end Sys2Proof.Machine
end

section
/-! SUPPORT. BATCH_HOLD and BATCH_RESUME (R99, R100, R102, R103): the answer, the two requests by the state of the batch,
and the causes that a resume leaves. -/

namespace Sys2Proof.Machine

/-! ### The answer -/

/-- The answer of either request carries the batch state and the hold set that stand after it (R103). -/
theorem State.holdReply_send (s : State) (a : ArmId) (r : ResultCode) (kind tag : Byte) (body : List Byte) :
    (s.holdReply a r).send kind tag body = s.respond kind tag body r (s.holdBody a) := rfl

theorem State.holdBody_held {s : State} {a : ArmId} {b : Batch} (hb : s.batch a = some b) (held : b.state = .held) :
    s.holdBody a = 6 :: memberBytes 2 HoldCause.all b.holdSet := by
  rw [State.holdBody_eq, hb, Option.map_some, held]
  rfl

theorem State.holdBody_setHolds (s : State) (a : ArmId) {b : Batch} (left : List HoldCause) (held : b.state = .held) :
    (s.setHolds a b left).holdBody a = 6 :: memberBytes 2 HoldCause.all left :=
  State.holdBody_held (b := { b with holdSet := left }) (s.batch_setHolds a b left) held

theorem State.holdBody_lowStart {s : State} {a : ArmId} {b : Batch} (hb : s.batch a = some b)
    (low : b.state = .lowStart) (free : b.holdSet = []) : s.holdBody a = [1, 0, 0] := by
  rw [State.holdBody_eq, hb, Option.map_some, low, Option.elim_some, free]
  rfl

/-! ### BATCH_HOLD -/

section
variable {s : State} {n : Nat} {a : ArmId} (hn : numbered 12 n = some a)
include hn

theorem State.batchHold_refused (h : s.batch a = none ∨ s.batchIs a .closing = true) :
    s.batchHold n = s.holdReply a .wrongState := by
  have neither : (s.flowing a || s.batchIs a .held) = false := by
    rcases h with idle | closing
    · rw [State.flowing_of_none idle, State.batchIs_of_none idle]; rfl
    · cases hb : s.batch a with
      | none => rw [State.batchIs_of_none hb] at closing; cases closing
      | some b =>
        rw [State.batchIs_of_some hb, decide_eq_true_iff] at closing
        rw [State.flowing_of_some hb, State.batchIs_of_some hb, closing]
        rfl
  unfold State.batchHold
  rw [hn]
  dsimp only
  rw [neither]
  rfl

theorem State.batchHold_taken {b : Batch} (hb : s.batch a = some b) (h : b.state = .held ∨ b.state.flowing = true) :
    s.batchHold n = (s.handCause a .host).holdReply a .ok := by
  have either : (s.flowing a || s.batchIs a .held) = true := by
    rw [State.flowing_of_some hb, State.batchIs_of_some hb, Bool.or_eq_true, decide_eq_true_iff]
    exact h.symm
  unfold State.batchHold
  rw [hn]
  exact if_pos either

/-! ### BATCH_RESUME -/

theorem State.batchResume_notHeld (h : s.batchIs a .held = false) : s.batchResume n = s.holdReply a .wrongState := by
  unfold State.batchResume
  rw [hn]
  exact if_neg (by rw [h]; decide)

variable {b : Batch} {left : List HoldCause} (hb : s.batch a = some b) (held : b.state = .held)
  (hl : left = b.holdSet.filter fun c => !(c.isCondition && s.conditionHolds a b c))
include hb held hl

/-- A resume is judged on the causes that the removals of R102 leave. -/
theorem State.batchResume_held : s.batchResume n =
    if left.any HoldCause.isCondition then (s.setHolds a b left).holdReply a .wrongState
    else ((s.setHolds a b left).takeResume a).holdReply a .ok := by
  have isHeld : s.batchIs a .held = true := by rw [State.batchIs_of_some hb, held]; rfl
  have pruned : s.pruneHoldSet a = s.setHolds a b left := by rw [State.pruneHoldSet_eq s a b hb, hl]; rfl
  have stands : (s.setHolds a b left).conditionStands a = left.any HoldCause.isCondition := by
    unfold State.conditionStands
    rw [State.batch_setHolds]
    rfl
  unfold State.batchResume
  rw [hn]
  dsimp only
  rw [if_pos isHeld, pruned, stands]

theorem State.batchResume_condition (h : ∃ c ∈ left, c ≠ .noFlow ∧ c ≠ .blend ∧ c ≠ .host) :
    s.batchResume n = (s.setHolds a b left).holdReply a .wrongState := by
  obtain ⟨c, hc, condition⟩ := h
  rw [State.batchResume_held hn hb held hl]
  exact if_pos (List.any_eq_true.mpr ⟨c, hc, HoldCause.isCondition_eq_true.mpr condition⟩)

/-- The host's own hold does not stand in its way (R103). -/
theorem State.batchResume_latching (h : ∀ c ∈ left, c = .noFlow ∨ c = .blend ∨ c = .host) :
    s.batchResume n = ((s.setHolds a b left).takeResume a).holdReply a .ok := by
  rw [State.batchResume_held hn hb held hl]
  refine if_neg fun any => ?_
  obtain ⟨c, hc, condition⟩ := List.any_eq_true.mp any
  rw [HoldCause.isCondition_eq_false.mpr (h c hc)] at condition
  cases condition

end

/-- Settles O34: each request by the state of the batch, a resume by the causes left in the hold set. -/
theorem batchHoldAndResume : Obligations.BatchHoldAndResume := by
  intro s tag n hunting
  have hold : exec (.batchHold tag [n]) s = .next ((s.batchHold n.toNat).send 0x55 tag [n]) :=
    congrArg Host.Outcome.next (exec_byte hunting)
  have resume : exec (.batchResume tag [n]) s = .next ((s.batchResume n.toNat).send 0x56 tag [n]) :=
    congrArg Host.Outcome.next (exec_byte hunting)
  rw [hold, resume]
  refine ⟨fun past => ?_, fun a ha => ?_⟩
  · have unnumbered : numbered 12 n.toNat = none := numbered_byte_none past
    unfold State.batchHold State.batchResume
    rw [unnumbered]
    exact ⟨rfl, rfl⟩
  have hn : numbered 12 n.toNat = some a := numbered_byte ha
  refine ⟨fun refused => ?_, fun b hb held => ?_, fun b hb flowing => ?_, fun notHeld => ?_, fun b left hb held hl => ?_⟩
  · rw [State.batchHold_refused hn refused, State.holdReply_send, State.holdBody_eq]
  · have adds : s.handCause a .host = s.setHolds a b (addTo HoldCause.all .host b.holdSet) :=
      State.handCause_adds s a b .host hb held
    rw [State.batchHold_taken hn hb (.inl held), adds, State.holdReply_send,
      State.holdBody_setHolds _ _ _ held]
    rfl
  · have holding := State.handCause_held s a b .host hb flowing
    have kept : CoreKept s (s.handCause a .host) := coreKept_handCauses s [a] .host
    rw [State.batchHold_taken hn hb (.inr flowing), State.holdReply_send, State.holdBody_held holding.batch rfl]
    exact ⟨_, rfl, holding.batch, holding.comp, holding.drawing, holding.ceilings, holding.queue, holding.flags,
      (State.handCause_heldFrom s a b .host hb flowing).others, kept.bays, kept.permits, kept.meters,
      ((Keeps.refl s).handCause a .host).same⟩
  · rw [State.batchResume_notHeld hn notHeld, State.holdReply_send, State.holdBody_eq]
  · have standing : left = b.holdSet.filter fun c => !(c.isCondition && s.conditionHolds a b c) :=
      hl.trans (List.filter_congr fun c _ => (s.standing_eq a b hb c).symm)
    refine ⟨fun condition => ?_, fun drawingExact latching => ?_⟩
    · rw [State.batchResume_condition hn hb held standing condition, State.holdReply_send,
        State.holdBody_setHolds _ _ _ held]
      rfl
    · have still : b.state.flowing = false := by rw [held]; rfl
      have away : a ∉ ((s.setHolds a b left).header b.snapshot.mainHeader).drawing :=
        drawingExact.not_drawing hb still _
      have heldSet := s.batch_setHolds a b left
      have resumed := State.takeResume_spec _ a _ heldSet away
      have same : s.SameHostRecords (s.batchResume n.toNat).state := (s.batchResume_keeps n.toNat).same
      obtain ⟨c, -, lowStart⟩ := resumed.batch
      rw [State.batchResume_latching hn hb held standing latching] at same ⊢
      rw [State.holdReply_send, State.holdBody_lowStart lowStart rfl rfl]
      refine ⟨_, rfl, resumed.of_setHolds, ?_, same⟩
      rw [State.takeResume_eq _ a _ heldSet away]
      rfl

end Sys2Proof.Machine
end

section
/-! SUPPORT. The requests to the Arm Controllers and the Header Allocator (R83, R84, R96 to R98): the fields of Table 5-1,
the tests of ARM_PUT, and the capacity of a header. -/

namespace Sys2Proof.Machine

/-! ### Table 5-1 -/

/-- A blend meter that names no main meter of the same arm. -/
theorem blendMeter_other_iff {main : MeterId} {blend : Option MeterId} :
    blend ≠ some main ↔ ∀ m, blend.map num = some m → m ≠ num main := by
  cases blend with
  | none => simp
  | some b => simp [num_injective.eq_iff]

theorem ArmFields.checked_isSome (g : ArmFields) : g.checked.isSome = true ↔
    (1 ≤ g.bay ∧ g.bay ≤ 4) ∧ (1 ≤ g.mainMeter ∧ g.mainMeter ≤ 16) ∧
    (∀ m, g.blendMeter = some m → (1 ≤ m ∧ m ≤ 16) ∧ m ≠ g.mainMeter) ∧ (100 ≤ g.maxFlow ∧ g.maxFlow ≤ 4000) ∧
    (50 ≤ g.lowFlow ∧ g.lowFlow ≤ 1000 ∧ g.lowFlow ≤ g.maxFlow) ∧ g.startupVolume ≤ 5000 ∧
    (25 ≤ g.rampStep ∧ g.rampStep ≤ 1000) ∧ (1 ≤ g.rampInterval ∧ g.rampInterval ≤ 10) ∧
    (50 ≤ g.toppingFlow ∧ g.toppingFlow ≤ 1000 ∧ g.toppingFlow ≤ g.maxFlow) ∧
    (50 ≤ g.toppingVolume ∧ g.toppingVolume ≤ 5000) ∧ g.closingAllowance ≤ 500 := by
  have blends : (∀ m, g.blendMeter = some m → (1 ≤ m ∧ m ≤ 16) ∧ m ≠ g.mainMeter) ↔
      (optionalNumbered 16 g.blendMeter).isSome = true ∧ ∀ m, g.blendMeter = some m → m ≠ g.mainMeter := by
    rw [optionalNumbered_isSome]
    exact ⟨fun h => ⟨fun m hm => (h m hm).1, fun m hm => (h m hm).2⟩, fun h m hm => ⟨h.1 m hm, h.2 m hm⟩⟩
  unfold ArmFields.checked
  rw [blends, ← numbered_isSome (n := 4), ← numbered_isSome (n := 16)]
  split
  · rename_i bay main blend hbay hmain hblend
    have other : (∀ m, g.blendMeter = some m → m ≠ g.mainMeter) ↔ blend ≠ some main := by
      rw [blendMeter_other_iff, optionalNumbered_eq_some hblend, numbered_eq_some.mp hmain]
    simp only [Option.isSome_ite, hbay, hmain, hblend, other, Option.isSome_some, inRange_eq_true, true_and, and_assoc]
  · rename_i none
    refine ⟨nofun, ?_⟩
    rintro ⟨hbay, hmain, ⟨hblend, -⟩, -⟩
    obtain ⟨bay, hbay⟩ := Option.isSome_iff_exists.mp hbay
    obtain ⟨main, hmain⟩ := Option.isSome_iff_exists.mp hmain
    obtain ⟨blend, hblend⟩ := Option.isSome_iff_exists.mp hblend
    exact (none bay main blend hbay hmain hblend).elim

/-- The record that the fields give. -/
theorem ArmFields.checked_fields {g : ArmFields} {r : Arm} (h : g.checked = some r) :
    r.bay.map (·.val + 1) = some g.bay ∧ r.mainMeter.map (·.val + 1) = some g.mainMeter ∧
    r.blendMeter.map (·.val + 1) = g.blendMeter ∧ r.products = g.products ∧ r.maxFlow = g.maxFlow ∧
    r.lowFlow = g.lowFlow ∧ r.startupVolume = g.startupVolume ∧ r.rampStep = g.rampStep ∧
    r.rampInterval = g.rampInterval ∧ r.toppingFlow = g.toppingFlow ∧ r.toppingVolume = g.toppingVolume ∧
    r.closingAllowance = g.closingAllowance ∧ r.service = g.service ∧ r.batch = none := by
  unfold ArmFields.checked at h
  split at h
  · rename_i bay main blend hbay hmain hblend
    split at h
    · cases h
      exact ⟨congrArg some (numbered_eq_some.mp hbay).symm, congrArg some (numbered_eq_some.mp hmain).symm,
        optionalNumbered_eq_some hblend, rfl, rfl, rfl, rfl, rfl, rfl, rfl, rfl, rfl, rfl, rfl⟩
    · cases h
  · cases h

/-! ### ARM_PUT -/

theorem State.meterElsewhere_iff {s : State} {a : ArmId} {m : MeterId} : s.meterElsewhere a m = true ↔
    ∃ x, x ≠ a ∧ ((s.arm x).mainMeter = some m ∨ (s.arm x).blendMeter = some m) := by
  simp [State.meterElsewhere, mem_allArms]

/-- A meter named belongs to another arm (R83, test 2). -/
theorem State.metersFree_eq_false {s : State} {a : ArmId} {r : Arm} : s.metersFree a r = false ↔
    ∃ x m, x ≠ a ∧ (r.mainMeter = some m ∨ r.blendMeter = some m) ∧
      ((s.arm x).mainMeter = some m ∨ (s.arm x).blendMeter = some m) := by
  have each : ∀ o : Option MeterId, o.all (fun m => !s.meterElsewhere a m) = false ↔
      ∃ m, o = some m ∧ s.meterElsewhere a m = true := fun o => by cases o <;> simp
  have named : s.metersFree a r = false ↔
      ∃ m, (r.mainMeter = some m ∨ r.blendMeter = some m) ∧ s.meterElsewhere a m = true := by
    unfold State.metersFree
    simp only [Bool.and_eq_false_iff, each, ← exists_or, or_and_right]
  simp only [named, State.meterElsewhere_iff]
  exact ⟨fun ⟨m, hm, x, hx, held⟩ => ⟨x, m, hx, hm, held⟩, fun ⟨x, m, hx, hm, held⟩ => ⟨m, hm, x, hx, held⟩⟩

theorem State.bayHasRoom_eq (s : State) (a : ArmId) (r : Arm) : s.bayHasRoom a r
    = !r.bay.any fun b => decide (6 ≤ ((s.bayArms b).filter fun x => decide (x ≠ a)).length) := by
  unfold State.bayHasRoom
  cases r.bay with
  | none => rfl
  | some b => simp only [Option.all_some, Option.any_some, ← decide_not, Nat.not_le]

section
variable {s : State} {n : Nat} {fields : Option ArmFields} {a : ArmId} {r : Arm}

theorem State.armPut_invalid (h : numbered 12 n = none ∨ fields.elim (some Arm.default) ArmFields.checked = none) :
    s.armPut (n, fields) = .refused s .invalid := by
  unfold State.armPut
  dsimp only
  cases hn : numbered 12 n with
  | none => rfl
  | some a =>
    have unchecked := h.resolve_left (by rw [hn]; exact Option.some_ne_none a)
    cases fields with
    | none => cases unchecked
    | some g => dsimp only; rw [show g.checked = none from unchecked]

theorem State.armPut_record (hn : numbered 12 n = some a)
    (h : fields.elim (some Arm.default) ArmFields.checked = some r) : s.armPut (n, fields) = s.putArm a r := by
  unfold State.armPut
  dsimp only
  rw [hn]
  cases fields with
  | none => cases h; rfl
  | some g => dsimp only; rw [show g.checked = some r from h]

theorem State.putArm_busy (h : (s.batch a).isSome = true) : s.putArm a r = .refused s .inUse := if_pos h

/-- The tests of an IDLE arm (R83, tests 2 and 3). -/
theorem State.putArm_idle (idle : s.batch a = none) {taken : Bool}
    (h : taken = true ↔ ∃ x m, x ≠ a ∧ (r.mainMeter = some m ∨ r.blendMeter = some m) ∧
      ((s.arm x).mainMeter = some m ∨ (s.arm x).blendMeter = some m)) : s.putArm a r =
    if taken then .refused s .inUse
    else if r.bay.any fun b => decide (6 ≤ ((s.bayArms b).filter fun x => decide (x ≠ a)).length) then .refused s .full
    else .ok { s with arms := vset s.arms a { r with connected := (s.arm a).connected } } [] := by
  have meters : (!s.metersFree a r) = taken := by
    rw [Bool.eq_iff_iff, h, ← State.metersFree_eq_false, Bool.not_eq_true']
  unfold State.putArm
  rw [idle, meters, State.bayHasRoom_eq, Bool.not_not]
  rfl

end

/-! ### The capacity of a header -/

theorem readHeaderPut_bytes {capacity : Nat} (h : capacity < 65536) (n : Byte) :
    readHeaderPut (n :: littleEndian 2 capacity) = some (n.toNat, capacity) := by
  have two := word_littleEndian 2 capacity [] h
  rw [List.append_nil] at two
  simp [readHeaderPut, whole, word_one, two]

/-- A capacity set, before any ceiling is computed. -/
def State.writeCapacity (s : State) (h : HeaderId) (capacity : Nat) : State :=
  { s with headers := vset s.headers h { s.header h with capacity := capacity } }

theorem State.setCapacity_same {s : State} {h : HeaderId} {capacity : Nat} (same : capacity = (s.header h).capacity) :
    s.setCapacity h capacity = s.writeCapacity h capacity := if_pos same.symm

theorem State.setCapacity_changed {s : State} {h : HeaderId} {capacity : Nat} (changed : capacity ≠ (s.header h).capacity) :
    s.setCapacity h capacity = (s.writeCapacity h capacity).computeCeilings h := if_neg changed.symm

theorem State.setCapacity_eased (s : State) (h : HeaderId) (capacity : Nat) :
    Eased (s.writeCapacity h capacity) (s.setCapacity h capacity) := by
  by_cases same : capacity = (s.header h).capacity
  · rw [State.setCapacity_same same]; exact .refl _
  · rw [State.setCapacity_changed same]; exact State.computeCeilings_eased _ h

theorem State.header_writeCapacity (s : State) (h : HeaderId) (capacity : Nat) :
    (s.writeCapacity h capacity).header h = { s.header h with capacity := capacity } := vget_vset_same _ _ _

theorem State.drawing_writeCapacity (s : State) (h : HeaderId) (capacity : Nat) :
    ((s.writeCapacity h capacity).header h).drawing = (s.header h).drawing := by rw [s.header_writeCapacity]

/-- An arm that does not draw from the header keeps its record (R96, R97). -/
theorem State.setCapacity_away {s : State} {h : HeaderId} {a : ArmId} (away : a ∉ (s.header h).drawing) (capacity : Nat) :
    (s.setCapacity h capacity).arm a = s.arm a := by
  by_cases same : capacity = (s.header h).capacity
  · rw [State.setCapacity_same same]; rfl
  · rw [State.setCapacity_changed same, State.arm_computeCeilings, if_neg (by rwa [s.drawing_writeCapacity])]
    rfl

section
variable {s : State} {n capacity : Nat}

theorem State.headerPut_invalid (h : numbered 4 n = none ∨ capacity < 500 ∨ 8000 < capacity) :
    s.headerPut (n, capacity) = .refused s .invalid := by
  unfold State.headerPut
  dsimp only
  cases hn : numbered 4 n with
  | none => rfl
  | some k =>
    have out := h.resolve_left (by rw [hn]; exact Option.some_ne_none k)
    exact if_neg (by rw [inRange_eq_true]; omega)

theorem State.headerPut_taken {h : HeaderId} (hn : numbered 4 n = some h) (least : 500 ≤ capacity)
    (most : capacity ≤ 8000) : s.headerPut (n, capacity) = .ok (s.setCapacity h capacity) [] := by
  unfold State.headerPut
  dsimp only
  rw [hn]
  exact if_pos (inRange_eq_true.mpr ⟨least, most⟩)

end

/-- Settles O37: the fields, the tests of a put, the record got and returned, and the capacity with its ceilings. -/
theorem armAndHeaderRequests : Obligations.ArmAndHeaderRequests := by
  refine ⟨fun s tag hunting => ⟨fun g => ⟨g.checked_isSome, fun r => ArmFields.checked_fields⟩, ?_, ?_, ?_⟩, ?_⟩
  · rintro body n fields new hread hnew
    have put : exec (.armPut tag body) s = .next ((s.armPut (n, fields)).send 0x50 tag body) :=
      congrArg _ (State.request_taken hunting hread)
    obtain rfl : new = fields.elim (some Arm.default) ArmFields.checked := by rw [hnew]; cases fields <;> rfl
    rw [put]
    refine ⟨fun out => ?_, fun a r hn hr => ⟨fun busy => ?_, fun idle taken hTaken => ?_⟩⟩
    · rw [State.armPut_invalid (or_assoc.mpr out |>.imp_left fun past => numbered_eq_none.mpr (by omega))]
      rfl
    · rw [State.armPut_record (numbered_eq_some.mpr hn) hr, State.putArm_busy busy]
      rfl
    · rw [State.armPut_record (numbered_eq_some.mpr hn) hr, State.putArm_idle idle hTaken, Reply.send_ite, Reply.send_ite]
      rfl
  · intro n past
    have unnumbered : numbered 12 n.toNat = none := numbered_byte_none past
    have get : exec (.armGet tag [n]) s = .next ((s.armGet n.toNat).send 0x51 tag [n]) :=
      congrArg Host.Outcome.next (exec_byte hunting)
    have back : exec (.armReturn tag [n]) s = .next ((s.armReturn n.toNat).send 0x52 tag [n]) :=
      congrArg Host.Outcome.next (exec_byte hunting)
    rw [get, back]
    unfold State.armGet State.armReturn
    rw [unnumbered]
    exact ⟨rfl, rfl⟩
  · intro n a ha
    have hn : numbered 12 n.toNat = some a := numbered_byte ha
    have get : exec (.armGet tag [n]) s = .next ((s.armGet n.toNat).send 0x51 tag [n]) :=
      congrArg Host.Outcome.next (exec_byte hunting)
    have back : exec (.armReturn tag [n]) s = .next ((s.armReturn n.toNat).send 0x52 tag [n]) :=
      congrArg Host.Outcome.next (exec_byte hunting)
    rw [get, back]
    unfold State.armGet State.armReturn
    rw [hn]
    refine ⟨?_, fun service => ?_, fun service => ?_⟩
    · dsimp only
      rw [Arm.body_eq]
      rfl
    · dsimp only
      rw [service]
      rfl
    · dsimp only
      rw [service]
      rfl
  · rintro s tag n capacity body hunting fits rfl
    have put : exec (.headerPut tag (n :: littleEndian 2 capacity)) s
        = .next ((s.headerPut (n.toNat, capacity)).send 0x53 tag (n :: littleEndian 2 capacity)) :=
      congrArg _ (State.request_taken hunting (readHeaderPut_bytes fits n))
    have get : exec (.headerGet tag [n]) s = .next ((s.headerGet n.toNat).send 0x54 tag [n]) :=
      congrArg Host.Outcome.next (exec_byte hunting)
    rw [put, get]
    refine ⟨fun past => ?_, fun out => ?_, fun h hh => ⟨?_, fun least most => ?_⟩⟩
    · unfold State.headerGet
      rw [numbered_byte_none past]
      rfl
    · rw [State.headerPut_invalid (or_assoc.mpr out |>.imp_left numbered_byte_none)]
      rfl
    · unfold State.headerGet
      rw [numbered_byte hh]
      dsimp only
      rw [State.headerBody_eq]
      rfl
    · have eased := s.setCapacity_eased h capacity
      rw [State.headerPut_taken (numbered_byte hh) least most]
      refine ⟨_, rfl, eased.eq, fun changed => ?_, fun same => ?_, fun a away => ?_, fun a => ⟨eased.arm a, eased.batch a⟩⟩
      · rw [State.setCapacity_changed changed]
        exact ⟨State.computeCeilings_at _ h, fun a =>
          ((s.writeCapacity h capacity).computeCeilings_responds h a).before (s.drawing_writeCapacity h capacity) rfl⟩
      · rw [State.setCapacity_same same]
        rfl
      · exact State.setCapacity_away away capacity

end Sys2Proof.Machine
end

section
/-! SUPPORT. METER_PUT, METER_GET, METER_CLEAR and the readings of a probe (R112, R120, R121): the fields of a put, and
the hold sets that a cleared fault leaves. -/

namespace Sys2Proof.Machine

/-! ### METER_PUT -/

theorem readMeterPut_bytes {k : Nat} (h : k < 4294967296) (n header p : Byte) :
    readMeterPut (n :: header :: littleEndian 4 k ++ [p])
      = [false, true][p.toNat]?.map fun probe => (n.toNat, header.toNat, k, probe) := by
  have four := word_littleEndian 4 k [p] h
  cases hp : [false, true][p.toNat]? <;> simp [readMeterPut, whole, word_one, four, yesNo, named, hp]

theorem yesNo_byte {p : Byte} (h : p.toNat ≤ 1) : [false, true][p.toNat]? = some (p == 1) := by
  obtain zero | one : p.toNat = 0 ∨ p.toNat = 1 := by omega
  · obtain rfl : p = 0 := BitVec.eq_of_toNat_eq zero
    rfl
  · obtain rfl : p = 1 := BitVec.eq_of_toNat_eq one
    rfl

section
variable {s : State} {n h k : Nat} {p : Bool}

theorem State.meterPut_invalid (out : numbered 16 n = none ∨ numbered 4 h = none ∨ k < 1000 ∨ 1000000 < k) :
    s.meterPut (n, h, k, p) = .refused s .invalid := by
  unfold State.meterPut
  dsimp only
  split
  · next m header hm hh =>
    rw [hm, hh] at out
    have range : inRange 1000 1000000 k = false := by
      rw [← Bool.not_eq_true, inRange_eq_true]
      rcases out with unnumbered | unnumbered | out
      · cases unnumbered
      · cases unnumbered
      · omega
    rw [range]
    rfl
  · rfl

variable {m : MeterId} {header : HeaderId} (hm : numbered 16 n = some m) (hh : numbered 4 h = some header)
  (least : 1000 ≤ k) (most : k ≤ 1000000)
include hm hh least most

theorem State.meterPut_valid : s.meterPut (n, h, k, p) = if (s.boundTo m).isSome then .refused s .inUse
    else .ok (s.modMeter m fun x => x.configured header k p) [] := by
  unfold State.meterPut
  dsimp only
  rw [hm, hh]
  dsimp only
  rw [inRange_eq_true.mpr ⟨least, most⟩]
  rfl

end

/-! ### METER_CLEAR -/

/-- The condition of a METER cause once a meter of the rack is restored: the other bound meters are OK. -/
theorem State.conditionHolds_restored (s : State) (m : MeterId) (a : ArmId) (b : Batch) :
    (s.modMeter m Meter.restored).conditionHolds a b .meter = true ↔ ∀ x ∈ s.boundMeters a, x ≠ m → (s.meter x).state = .ok := by
  have same : (s.modMeter m Meter.restored).boundMeters a = s.boundMeters a := rfl
  unfold State.conditionHolds
  rw [same, List.all_eq_true]
  refine forall_congr' fun x => forall_congr' fun _ => ?_
  rw [State.meter_modMeter, decide_eq_true_iff]
  by_cases hx : x = m
  · rw [if_pos hx]
    exact ⟨fun _ away => absurd hx away, fun _ => rfl⟩
  · rw [if_neg hx]
    exact ⟨fun ok _ => ok, fun ok => ok hx⟩

theorem State.clearMeter_eq (s : State) (m : MeterId) : s.clearMeter m
    = (s.modMeter m Meter.restored).removeCauses
        (if (s.meter m).state = .fault then ((s.boundTo m).map (·.1)).toList else []) .meter := by
  have bound : ((s.modMeter m Meter.restored).boundTo m).toList.map (·.1) = ((s.boundTo m).map (·.1)).toList := by
    rw [show (s.modMeter m Meter.restored).boundTo m = s.boundTo m from rfl]
    cases s.boundTo m <;> rfl
  unfold State.clearMeter
  cases (s.meter m).state with
  | ok => rfl
  | fault => rw [if_pos rfl, ← bound]

/-- The METER cause leaves the HELD batch that has the restored meter bound, if its other meters are OK (R101). -/
theorem State.arm_clearMeter (s : State) (m : MeterId) (a : ArmId) :
    (s.clearMeter m).arm a = { s.arm a with batch := (s.batch a).map fun b =>
      if (s.meter m).state = .fault ∧ (s.boundTo m).map (·.1) = some a ∧ b.state = .held ∧
          (∀ x ∈ s.boundMeters a, x ≠ m → (s.meter x).state = .ok) then
        { b with holdSet := dropFrom .meter b.holdSet }
      else b } := by
  have once : (if (s.meter m).state = .fault then ((s.boundTo m).map (·.1)).toList else []).Nodup := by
    split
    · cases (s.boundTo m).map (·.1) with
      | none => exact List.nodup_nil
      | some x => exact List.nodup_singleton x
    · exact List.nodup_nil
  have named : a ∈ (if (s.meter m).state = .fault then ((s.boundTo m).map (·.1)).toList else [])
      ↔ (s.meter m).state = .fault ∧ (s.boundTo m).map (·.1) = some a := by
    split
    · next fault => exact Option.mem_toList.trans (iff_and_self.mpr fun _ => fault)
    · next fine => exact iff_of_false List.not_mem_nil fun h => fine h.1
  rw [State.clearMeter_eq, State.arm_removeCauses _ _ _ once]
  by_cases h : (s.meter m).state = .fault ∧ (s.boundTo m).map (·.1) = some a
  · rw [if_pos (named.mpr h)]
    obtain ⟨fault, bound⟩ := h
    simp only [Batch.without, State.conditionHolds_restored, fault, bound, true_and]
    rfl
  · rw [if_neg (named.not.mpr h)]
    simp only [← and_assoc, h, false_and, if_false]
    have same : (s.batch a).map (fun b => b) = (s.arm a).batch := Option.map_id'
    rw [same]
    rfl

theorem State.clearMeter_keepsOthers (s : State) (m : MeterId) : s.clearMeter m = { s with
    arms := (s.clearMeter m).arms
    meters := vset s.meters m { s.meter m with
      state := .ok, aCount := 0, bCount := 0, unauthorized := 0, unauthorizedFlag := false } } := by
  rw [State.clearMeter_eq, State.removeCauses_eq]
  rfl

/-! ### Readings -/

theorem Meter.read_unprobed {m : Meter} (h : m.probe = false) (reading : ProbeReading) : m.read reading = m := by
  unfold Meter.read; rw [h]; rfl

theorem Meter.read_probed {m : Meter} (h : m.probe = true) (reading : ProbeReading) : m.read reading = match reading with
    | .temperature t => { m with lastTemp := some t, probeState := if -400 ≤ t ∧ t ≤ 600 then .valid else .outOfRange }
    | .fault => { m with lastTemp := none, probeState := .probeFault } := by
  unfold Meter.read; rw [h]; rfl

theorem State.modMeter_unchanged {s : State} {m : MeterId} {f : Meter → Meter} (h : f (s.meter m) = s.meter m) :
    s.modMeter m f = s := by
  unfold State.modMeter
  rw [h]
  exact congrArg (fun v => { s with meters := v }) (vset_vget_same s.meters m)

/-- Settles O42: the put by its tests, the two requests that name a meter, and the readings of a probe. -/
theorem meterRequestsAndReadings : Obligations.MeterRequestsAndReadings := by
  intro s tag n hunting
  have get : exec (.meterGet tag [n]) s = .next ((s.meterGet n.toNat).send 0x61 tag [n]) :=
    congrArg Host.Outcome.next (exec_byte hunting)
  have clear : exec (.meterClear tag [n]) s = .next ((s.meterClear n.toNat).send 0x62 tag [n]) :=
    congrArg Host.Outcome.next (exec_byte hunting)
  refine ⟨?_, fun past => ?_, fun m hm => ?_, fun m reading => ⟨fun unprobed => ?_, fun probed => ⟨?_, ?_⟩⟩⟩
  · rintro h p k body fits rfl
    have reads := readMeterPut_bytes fits n h p
    have taken (probe : p.toNat ≤ 1) : exec (.meterPut tag (n :: h :: littleEndian 4 k ++ [p])) s
        = .next ((s.meterPut (n.toNat, h.toNat, k, p == 1)).send 0x60 tag (n :: h :: littleEndian 4 k ++ [p])) := by
      rw [yesNo_byte probe] at reads
      exact congrArg _ (State.request_taken hunting reads)
    refine ⟨fun out => ?_, fun m header hm hh least most probe => ?_⟩
    · by_cases probe : p.toNat ≤ 1
      · rw [taken probe, State.meterPut_invalid]
        · rfl
        · rcases out with zero | past | zero | past | out
          · exact .inl (numbered_byte_none (.inl zero))
          · exact .inl (numbered_byte_none (.inr past))
          · exact .inr (.inl (numbered_byte_none (.inl zero)))
          · exact .inr (.inl (numbered_byte_none (.inr past)))
          · exact .inr (.inr (by omega))
      · rw [List.getElem?_eq_none (Nat.not_le.mp probe)] at reads
        exact congrArg _ (State.request_malformed hunting reads)
    · rw [taken probe, State.meterPut_valid (numbered_byte hm) (numbered_byte hh) least most]
      refine ⟨fun bound => ?_, fun free => ?_⟩
      · rw [if_pos bound]; rfl
      · rw [free]; rfl
  · rw [get, clear]
    unfold State.meterGet State.meterClear
    rw [numbered_byte_none past]
    exact ⟨rfl, rfl⟩
  · rw [get, clear]
    unfold State.meterGet State.meterClear
    rw [numbered_byte hm]
    dsimp only
    refine ⟨?_, _, rfl, s.clearMeter_keepsOthers m, s.arm_clearMeter m⟩
    rw [State.meterBody_eq, State.boundTo_isSome]
    rfl
  · exact congrArg Host.Outcome.next (State.modMeter_unchanged (Meter.read_unprobed unprobed reading))
  · rintro t rfl
    refine congrArg (fun x => Host.Outcome.next { s with meters := vset s.meters m x }) ?_
    exact Meter.read_probed probed _
  · rintro rfl
    refine congrArg (fun x => Host.Outcome.next { s with meters := vset s.meters m x }) ?_
    exact Meter.read_probed probed _

end Sys2Proof.Machine
end

section
/-! SUPPORT. INJECTOR_PUT, INJECTOR_GET and INJECTOR_CLEAR (R123, R138, R139): the field checks, the follower chain, whose
eight links decide for a chain of any length, and the requests. -/

namespace Sys2Proof.Machine

/-! ### The field checks -/

theorem optionalNumbered_iff {n : Nat} {k : Option Nat} {o : Option (Fin n)} :
    optionalNumbered n k = some o ↔ o.map (·.val + 1) = k := by
  refine ⟨optionalNumbered_eq_some, ?_⟩
  rintro rfl
  cases o with
  | none => rfl
  | some j => exact congrArg (Option.map some) (numbered_num j)

theorem InjectorFields.checked_eq_some {f : InjectorFields} {i : InjectorId} {follower : Option InjectorId} :
    f.checked = some (i, follower) ↔
      (i.val + 1 = f.injector ∧ follower.map (·.val + 1) = f.follower ∧ (1 ≤ f.shotVolume ∧ f.shotVolume ≤ 500) ∧
        (10 ≤ f.k ∧ f.k ≤ 20000) ∧ (1 ≤ f.window ∧ f.window ≤ 10) ∧ f.mark ≤ 2000000) := by
  have ranges : (inRange 1 500 f.shotVolume && inRange 10 20000 f.k && inRange 1 10 f.window && decide (f.mark ≤ 2000000))
      = true ↔ (1 ≤ f.shotVolume ∧ f.shotVolume ≤ 500) ∧ (10 ≤ f.k ∧ f.k ≤ 20000) ∧ (1 ≤ f.window ∧ f.window ≤ 10) ∧
        f.mark ≤ 2000000 := by
    simp only [Bool.and_eq_true, inRange_eq_true, decide_eq_true_iff, and_assoc]
  have number : i.val + 1 = f.injector ↔ numbered 8 f.injector = some i := eq_comm.trans numbered_eq_some.symm
  rw [number, ← optionalNumbered_iff]
  unfold InjectorFields.checked
  split
  · next j o hj ho =>
    rw [hj, ho, Option.ite_none_right_eq_some, ranges]
    simp only [Option.some.injEq, Prod.mk.injEq]
    tauto
  · next unread =>
    exact iff_of_false (fun h => nomatch h) fun h => unread _ _ h.1 h.2.1

/-! ### The follower chain -/

section
variable {s : State} {chain : Nat → Option InjectorId}
  (links : ∀ k, chain (k + 1) = (chain k).bind fun j => (s.injector j).follower)
include links

theorem chain_none_of_le {a b : Nat} (ended : chain a = none) (h : a ≤ b) : chain b = none := by
  induction b, h using Nat.le_induction with
  | base => exact ended
  | succ b _ ih => rw [links, ih]; rfl

theorem chain_add_eq {a b : Nat} (same : chain a = chain b) (d : Nat) : chain (a + d) = chain (b + d) := by
  induction d with
  | zero => exact same
  | succ d ih => rw [← Nat.add_assoc, ← Nat.add_assoc, links, links, ih]

/-- A chain that reaches an injector past its first eight links has met one injector twice among its first nine, and
reaches it sooner. -/
theorem chain_sooner {k : Nat} {i : InjectorId} (far : 8 ≤ k) (reaches : chain k = some i) : ∃ l < k, chain l = some i := by
  have maps (a : Nat) (ha : a ∈ Finset.range 9) : chain a ∈ (Finset.univ.erase none : Finset (Option InjectorId)) := by
    refine Finset.mem_erase.mpr ⟨fun ended => ?_, Finset.mem_univ _⟩
    have := chain_none_of_le links ended (show a ≤ k by have := Finset.mem_range.mp ha; omega)
    rw [reaches] at this
    cases this
  have few : (Finset.univ.erase none : Finset (Option InjectorId)).card < (Finset.range 9).card := by decide
  obtain ⟨a, ha, b, hb, apart, same⟩ := Finset.exists_ne_map_eq_of_card_lt_of_maps_to few maps
  rw [Finset.mem_range] at ha hb
  wlog ascending : a < b generalizing a b
  · exact this b hb a ha apart.symm same.symm (by omega)
  refine ⟨a + (k - b), by omega, ?_⟩
  rw [chain_add_eq links same, show b + (k - b) = k by omega, reaches]

theorem chain_within_eight {i : InjectorId} (reaches : ∃ k, chain k = some i) : ∃ k < 8, chain k = some i := by
  obtain ⟨k, hk⟩ := reaches
  induction k using Nat.strong_induction_on with
  | h k ih =>
    by_cases near : k < 8
    · exact ⟨k, near, hk⟩
    · obtain ⟨l, hl, sooner⟩ := chain_sooner links (Nat.not_lt.mp near) hk
      exact ih l hl sooner

end

theorem State.chainReturns_iff {s : State} {i : InjectorId} (fuel : Nat) {chain : Nat → Option InjectorId}
    (links : ∀ k, chain (k + 1) = (chain k).bind fun j => (s.injector j).follower) :
    s.chainReturns i fuel (chain 0) = true ↔ ∃ k < fuel, chain k = some i := by
  induction fuel generalizing chain with
  | zero => exact iff_of_false (by simp [State.chainReturns]) fun ⟨k, hk, _⟩ => absurd hk (Nat.not_lt_zero k)
  | succ fuel ih =>
    cases head : chain 0 with
    | none =>
      refine iff_of_false (by simp [State.chainReturns]) fun ⟨k, _, hk⟩ => ?_
      rw [chain_none_of_le links head (Nat.zero_le k)] at hk
      cases hk
    | some f =>
      have second : (s.injector f).follower = chain 1 := by rw [links 0, head]; rfl
      have tail := ih (chain := fun k => chain (k + 1)) fun k => links (k + 1)
      unfold State.chainReturns
      rw [second, Bool.or_eq_true, decide_eq_true_iff, tail]
      constructor
      · rintro (rfl | ⟨k, hk, reaches⟩)
        · exact ⟨0, Nat.succ_pos fuel, head⟩
        · exact ⟨k + 1, Nat.succ_lt_succ hk, reaches⟩
      · rintro ⟨_ | k, hk, reaches⟩
        · exact .inl (Option.some.inj (head.symm.trans reaches))
        · exact .inr ⟨k, Nat.lt_of_succ_lt_succ hk, reaches⟩

theorem State.chainReturns_eight {s : State} {i : InjectorId} {follower : Option InjectorId} {chain : Nat → Option InjectorId}
    (head : chain 0 = follower) (links : ∀ k, chain (k + 1) = (chain k).bind fun j => (s.injector j).follower) :
    s.chainReturns i 8 follower = true ↔ ∃ k, chain k = some i := by
  rw [← head, State.chainReturns_iff 8 links]
  exact ⟨fun ⟨k, _, reaches⟩ => ⟨k, reaches⟩, chain_within_eight links⟩

/-! ### INJECTOR_PUT -/

theorem Injector.unused_eq_true {i : Injector} : i.unused = true ↔ i.state = .idle ∧ i.queue = [] ∧ i.reserved = 0 := by
  simp only [Injector.unused, Bool.and_eq_true, decide_eq_true_iff, List.isEmpty_iff, and_assoc]

section
variable {s : State} {f : InjectorFields} {i : InjectorId} {follower : Option InjectorId}

theorem State.injectorPut_unchecked (h : f.checked = none) : s.injectorPut f = .refused s .invalid := by
  unfold State.injectorPut; rw [h]

variable (h : f.checked = some (i, follower))
include h

theorem State.injectorPut_returning (returns : s.chainReturns i 8 follower = true) :
    s.injectorPut f = .refused s .invalid := by
  unfold State.injectorPut; rw [h]; exact if_pos returns

theorem State.injectorPut_checked (returns : ¬ s.chainReturns i 8 follower = true) : s.injectorPut f
    = if (s.injector i).unused then .ok (s.configureInjector i f follower) [] else .refused s .inUse := by
  unfold State.injectorPut; rw [h]; exact if_neg returns

end

/-- The six fields on a record, before a change of service is handed on (R138). -/
def State.writeInjector (s : State) (i : InjectorId) (f : InjectorFields) (follower : Option InjectorId) : State :=
  { s with injectors := vset s.injectors i { s.injector i with
      service := f.service, shotVolume := f.shotVolume, k := f.k, window := f.window
      follower := follower, mark := f.mark } }

theorem State.configureInjector_eq (s : State) (i : InjectorId) (f : InjectorFields) (follower : Option InjectorId) :
    s.configureInjector i f follower = if (s.injector i).service = f.service then s.writeInjector i f follower
      else (s.writeInjector i f follower).injectorChanged i := rfl

/-! ### INJECTOR_CLEAR -/

section
variable {s : State} {n : Nat} {i : InjectorId} (hi : numbered 8 n = some i)
include hi

theorem State.injectorClear_working (h : (s.injector i).state = .idle ∨ (s.injector i).state = .shot) :
    s.injectorClear n = .ok (s.clearFailures i) [] := by
  unfold State.injectorClear
  rw [hi]
  dsimp only
  rcases h with idle | shot
  · rw [idle]
  · rw [shot]

theorem State.injectorClear_proving (h : (s.injector i).state = .proving ∨ (s.injector i).state = .proveWait) :
    s.injectorClear n = .refused s .wrongState := by
  unfold State.injectorClear
  rw [hi]
  dsimp only
  rcases h with proving | waiting
  · rw [proving]
  · rw [waiting]

theorem State.injectorClear_fault (fault : (s.injector i).state = .fault) :
    s.injectorClear n = .ok ((s.clearFailures i).setInjectorState i .idle) [] := by
  unfold State.injectorClear
  rw [hi]
  dsimp only
  rw [fault]

end

/-- A record changed and then moved to another state: one change, handed on (R101, R123). -/
theorem State.setInjectorState_modInjector {s : State} {i : InjectorId} {st : InjectorState} (f : Injector → Injector)
    (moved : (f (s.injector i)).state ≠ st) :
    State.AdditiveRemoved (s.modInjector i fun x => { f x with state := st }) ((s.modInjector i f).setInjectorState i st) i := by
  have removed : State.AdditiveRemoved ((s.modInjector i f).modInjector i fun x => { x with state := st })
      ((s.modInjector i f).setInjectorState i st) i :=
    State.setInjectorState_removed _ i st (by rw [State.injector_modInjector_same]; exact moved)
  rwa [State.modInjector_modInjector] at removed

/-- Settles O45: the put by its checks, the follower chain and the injector's use; the record got; the clear by state. -/
theorem injectorRequests : Obligations.InjectorRequests := by
  intro s tag n body hunting
  refine ⟨fun f hread => ?_, fun past => ?_, fun i hi => ?_⟩
  · have put : exec (.injectorPut tag body) s = .next ((s.injectorPut f).send 0x70 tag body) :=
      congrArg _ (State.request_taken hunting hread)
    rw [put]
    refine ⟨fun i follower => InjectorFields.checked_eq_some, fun unchecked => ?_,
      fun i follower chain hf head links returns => ?_, fun i follower chain hf head links away => ?_⟩
    · rw [State.injectorPut_unchecked unchecked]; rfl
    · rw [State.injectorPut_returning hf ((State.chainReturns_eight head links).mpr returns)]; rfl
    · have free := (State.chainReturns_eight head links).not.mpr (not_exists.mpr away)
      rw [State.injectorPut_checked hf free]
      refine ⟨fun busy => ?_, fun idle empty unreserved => ⟨s.configureInjector i f follower, ?_, ?_⟩⟩
      · rw [if_neg fun unused => ?_]
        · rfl
        · obtain ⟨idle, empty, unreserved⟩ := Injector.unused_eq_true.mp unused
          rw [unreserved] at busy
          exact busy.elim (· idle) (·.elim (· empty) (Nat.lt_irrefl 0))
      · rw [if_pos (Injector.unused_eq_true.mpr ⟨idle, empty, unreserved⟩)]; rfl
      · rintro u rfl
        rw [State.configureInjector_eq]
        refine ⟨fun same => if_pos same.symm, fun changed => ?_⟩
        rw [if_neg changed.symm]
        exact State.injectorChanged_removed _ i
  · have get : exec (.injectorGet tag [n]) s = .next ((s.injectorGet n.toNat).send 0x71 tag [n]) :=
      congrArg Host.Outcome.next (exec_byte hunting)
    have clear : exec (.injectorClear tag [n]) s = .next ((s.injectorClear n.toNat).send 0x72 tag [n]) :=
      congrArg Host.Outcome.next (exec_byte hunting)
    rw [get, clear]
    unfold State.injectorGet State.injectorClear
    rw [numbered_byte_none past]
    exact ⟨rfl, rfl⟩
  · have get : exec (.injectorGet tag [n]) s = .next ((s.injectorGet n.toNat).send 0x71 tag [n]) :=
      congrArg Host.Outcome.next (exec_byte hunting)
    have clear : exec (.injectorClear tag [n]) s = .next ((s.injectorClear n.toNat).send 0x72 tag [n]) :=
      congrArg Host.Outcome.next (exec_byte hunting)
    have number := numbered_byte hi
    rw [get, clear]
    refine ⟨?_, fun proving => ?_, fun working => ?_, fun fault => ?_⟩
    · unfold State.injectorGet
      rw [number]
      dsimp only
      rw [Injector.body_eq]
      rfl
    · rw [State.injectorClear_proving number proving]; rfl
    · rw [State.injectorClear_working number working]; rfl
    · rw [State.injectorClear_fault number fault]
      exact ⟨_, rfl, State.setInjectorState_modInjector _ fun idle => nomatch fault.symm.trans idle⟩

end Sys2Proof.Machine
end

section
/-! SUPPORT. PROVE_START, PROVE_RESULT and PROVE_ABORT (R144, R145, R147, R148): the run begun, the figures of its answer,
the tests of a new K factor. -/

namespace Sys2Proof.Machine

/-! ### PROVE_START -/

theorem readProveStart_bytes (n shots : Byte) : readProveStart [n, shots] = some (n.toNat, shots.toNat) := by
  simp [readProveStart, whole, word_one]

/-- The context of a run as PROVE_START lays it down. -/
def Injector.runOf (x : Injector) (shots : Nat) : Proving :=
  { requested := shots, remaining := shots, totalShots := 0, totalPulses := 0, oldK := x.k }

/-- PROVING frees no batch, so nothing but the injector changes (R101). -/
theorem State.beginProving_eq (s : State) (i : InjectorId) (shots : Nat) : s.beginProving i shots = s.modInjector i fun x =>
    { x with state := .proving, proving := some (x.runOf shots), shot := some (x.openShot none) } := by
  unfold State.beginProving State.startProvingShot
  rw [State.setInjectorState_stays _ i .proving ⟨by decide, by decide⟩, State.modInjector_modInjector,
    State.modInjector_modInjector]
  rfl

section
variable {s : State} {i : InjectorId} {n shots : Nat} (hi : numbered 8 n = some i)
include hi

theorem State.proveStart_noShot : s.proveStart (n, 0) = .refused s .invalid := by
  unfold State.proveStart; rw [hi]; rfl

variable (least : 1 ≤ shots) (byte : shots ≤ 255)
include least byte

theorem State.proveStart_shots : s.proveStart (n, shots) =
    if (s.injector i).service ≠ .inService ∨ (s.injector i).state ≠ .idle ∨ s.esd.active then .refused s .wrongState
    else if (s.injector i).queue.isEmpty ∧ (s.injector i).reserved = 0 then .ok (s.beginProving i shots) []
    else .refused s .inUse := by
  unfold State.proveStart
  dsimp only
  rw [hi]
  dsimp only
  rw [inRange_eq_true.mpr ⟨least, byte⟩]
  rfl

theorem State.proveStart_wrongState
    (h : (s.injector i).service = .outOfService ∨ (s.injector i).state ≠ .idle ∨ s.esd.active = true) :
    s.proveStart (n, shots) = .refused s .wrongState := by
  rw [State.proveStart_shots hi least byte]
  exact if_pos (h.imp_left fun out within => nomatch out.symm.trans within)

variable (service : (s.injector i).service = .inService) (idle : (s.injector i).state = .idle)
  (calm : s.esd.active = false)
include service idle calm

theorem State.proveStart_ready : s.proveStart (n, shots)
    = if (s.injector i).queue.isEmpty ∧ (s.injector i).reserved = 0 then .ok (s.beginProving i shots) []
      else .refused s .inUse := by
  rw [State.proveStart_shots hi least byte, if_neg]
  rw [service, idle, calm]
  decide

end

/-! ### PROVE_RESULT -/

theorem Injector.awaiting_none {x : Injector} (h : x.state ≠ .proveWait) : x.awaiting = none := by
  unfold Injector.awaiting
  split
  · next waiting => exact absurd waiting h
  · rfl

theorem Injector.awaiting_some {x : Injector} {p : Proving} (waiting : x.state = .proveWait) (h : x.proving = some p) :
    x.awaiting = some p := by
  unfold Injector.awaiting; rw [waiting, h]

theorem Proving.accepts_eq_true {p : Proving} {k : Nat} : p.accepts k = true ↔
    10 ≤ k ∧ k ≤ 20000 ∧ k * 100 ≤ 110 * p.oldK ∧ 90 * p.oldK ≤ k * 100 := by
  unfold Proving.accepts distance
  rw [Bool.and_eq_true, inRange_eq_true, decide_eq_true_iff]
  omega

section
variable {s : State} {i : InjectorId} {n measured : Nat} (hi : numbered 8 n = some i)
include hi

theorem State.proveResult_unasked (h : (s.injector i).state ≠ .proveWait) : s.proveResult (n, measured)
    = .refused s (if inRange 1 2000000 measured then .wrongState else .invalid) := by
  unfold State.proveResult
  dsimp only
  rw [hi]
  dsimp only
  rw [Injector.awaiting_none h]

theorem State.proveResult_waiting {p : Proving} (waiting : (s.injector i).state = .proveWait)
    (run : (s.injector i).proving = some p) : s.proveResult (n, measured)
    = if inRange 1 2000000 measured ∧ p.accepts (s.computedK p measured).1 then
        .ok ((s.computedK p measured).2.installK i (s.computedK p measured).1) (p.body (s.computedK p measured).1)
      else { state := (s.computedK p measured).2, result := .invalid, body := p.body (s.computedK p measured).1 } := by
  unfold State.proveResult
  dsimp only
  rw [hi]
  dsimp only
  rw [Injector.awaiting_some waiting run]

end

/-! ### PROVE_ABORT -/

section
variable {s : State} {i : InjectorId} {n : Nat} (hi : numbered 8 n = some i)
include hi

theorem State.proveAbort_idle (h : (s.injector i).state ≠ .proving) (h' : (s.injector i).state ≠ .proveWait) :
    s.proveAbort n = .refused s .wrongState := by
  unfold State.proveAbort
  rw [hi]
  dsimp only
  split
  · next proving => exact absurd proving h
  · next waiting => exact absurd waiting h'
  · rfl
  · rfl
  · rfl

theorem State.proveAbort_running (h : (s.injector i).state = .proving ∨ (s.injector i).state = .proveWait) :
    s.proveAbort n = .ok (s.abortProving i) [] := by
  unfold State.proveAbort
  rw [hi]
  dsimp only
  rcases h with proving | waiting
  · rw [proving]
  · rw [waiting]

end

/-- Settles O47: the three requests by the injector's number, its state and the figures asked. -/
theorem provingRequests : Obligations.ProvingRequests := by
  rintro s tag n shots measured body hunting fits rfl
  have start : exec (.proveStart tag [n, shots]) s
      = .next ((s.proveStart (n.toNat, shots.toNat)).send 0x78 tag [n, shots]) :=
    congrArg _ (State.request_taken hunting (readProveStart_bytes n shots))
  have result : exec (.proveResult tag (n :: littleEndian 4 measured)) s
      = .next ((s.proveResult (n.toNat, measured)).send 0x79 tag (n :: littleEndian 4 measured)) :=
    congrArg _ (State.request_taken hunting (readInjectorAmount_bytes fits n))
  have abort : exec (.proveAbort tag [n]) s = .next ((s.proveAbort n.toNat).send 0x7A tag [n]) :=
    congrArg Host.Outcome.next (exec_byte hunting)
  have byte : shots.toNat ≤ 255 := Nat.le_of_lt_succ shots.isLt
  have positive : shots ≠ 0 → 1 ≤ shots.toNat := fun h => Nat.pos_of_ne_zero fun zero => h (BitVec.eq_of_toNat_eq zero)
  rw [start, result, abort]
  refine ⟨fun past => ?_, ?_⟩
  · unfold State.proveStart State.proveResult State.proveAbort
    dsimp only
    rw [numbered_byte_none past]
    exact ⟨rfl, rfl, rfl⟩
  rintro i x hn rfl
  have hi := numbered_byte hn
  refine ⟨?_, fun asked wrong => ?_, fun asked service idle calm => ⟨fun busy => ?_, fun empty unreserved => ?_⟩,
    fun out away => ?_, fun p out waiting run => ?_, fun least most away => ?_, ?_, fun away away' => ?_,
    fun q stock running unowned hq hstock => ?_⟩
  · rintro rfl
    rw [show (0 : Byte).toNat = 0 from rfl, State.proveStart_noShot hi]
    rfl
  · rw [State.proveStart_wrongState hi (positive asked) byte wrong]
    rfl
  · rw [State.proveStart_ready hi (positive asked) byte service idle calm, if_neg]
    · rfl
    · rintro ⟨empty, unreserved⟩
      exact busy.elim (· (List.isEmpty_iff.mp empty)) (by omega)
  · have same : s.SameHostRecords (s.proveStart (n.toNat, shots.toNat)).state := (s.proveStart_keeps _).same
    rw [State.proveStart_ready hi (positive asked) byte service idle calm,
      if_pos ⟨List.isEmpty_iff.mpr empty, unreserved⟩] at same ⊢
    refine ⟨s.beginProving i shots.toNat, rfl, ?_⟩
    have begun := s.beginProving_eq i shots.toNat
    have record : (s.beginProving i shots.toNat).injector i = _ := begun ▸ s.injector_modInjector_same i _
    refine ⟨record, fun j hj => ?_, ?_, ?_, ?_, same⟩
    · rw [begun, State.injector_modInjector, if_neg hj]
    · unfold State.solenoid
      rw [record]
      rfl
    · rw [begun]; rfl
    · rw [begun]; rfl
  · rw [State.proveResult_unasked hi away, if_neg fun within => ?_]
    · rfl
    · have := inRange_eq_true.mp within
      omega
  · obtain ⟨computed, count, stays⟩ := s.computedK_spec p measured
    refine ⟨(s.computedK p measured).1, (s.computedK p measured).2.freeCount, fun measurable => ?_, ?_⟩
    · rw [computed measurable]
      exact ⟨rfl, rfl⟩
    · rw [State.proveResult_waiting hi waiting run, if_neg fun within => ?_, stays]
      · rfl
      · have := inRange_eq_true.mp within.1
        omega
  · rw [State.proveResult_unasked hi away, if_pos (inRange_eq_true.mpr ⟨least, most⟩)]
    rfl
  · rintro p k answer least most waiting run hk rfl
    have computed : s.computedK p measured = (k, s) := hk ▸ (s.computedK_spec p measured).1 least
    have within := inRange_eq_true.mpr ⟨least, most⟩
    rw [State.proveResult_waiting hi waiting run, computed]
    refine ⟨fun accepted => ?_, fun refused => ?_⟩
    · rw [if_pos ⟨within, Proving.accepts_eq_true.mpr accepted⟩]
      exact ⟨s.installK i k, rfl, State.setInjectorState_modInjector _ fun idle => nomatch waiting.symm.trans idle⟩
    · rw [if_neg fun h => ?_]
      · rfl
      · have := Proving.accepts_eq_true.mp h.2
        omega
  · rw [State.proveAbort_idle hi away away']
    rfl
  · have moving : (s.injector i).state ≠ .idle := by
      rcases running with proving | waiting
      · rw [proving]; decide
      · rw [waiting]; decide
    have same : s.SameHostRecords (s.proveAbort n.toNat).state := (s.proveAbort_keeps _).same
    have removed := State.abortProving_removed s i _ q stock rfl moving unowned hq hstock
    rw [State.proveAbort_running hi running] at same ⊢
    refine ⟨s.abortProving i, rfl, removed, ?_, same⟩
    unfold State.solenoid
    rw [removed.1]
    have record := vget_vset_same s.injectors i { s.injector i with state := .idle, shot := none, proving := none, stock := stock }
    exact congrArg (fun x : Injector => x.shot.any fun y => decide (y.phase = .opened)) record

end Sys2Proof.Machine
end

section
/-! SUPPORT. The start of a shot (R128, R129, R136): the reservation test at the head of the queue. -/

namespace Sys2Proof.Machine

theorem Injector.topUp_isSome {x : Injector} {r : CompRef} :
    (x.topUp r).isSome = true ↔ x.shotVolume ≤ x.reservation r ∨ x.shotVolume - x.reservation r ≤ x.free := by
  unfold Injector.topUp
  dsimp only
  split
  · next covered => exact iff_of_true rfl (.inl covered)
  · next short =>
    split
    · next free => exact iff_of_true rfl (.inr free)
    · next lacking => exact iff_of_false Bool.false_ne_true (not_or.mpr ⟨short, lacking⟩)

theorem State.requirementOf_entry {s : State} {a : ArmId} {index : Nat} {b : Batch} {y : SnapshotEntry}
    (hb : s.batch a = some b) (hy : b.snapshot.entryAt index = some y) : s.requirementOf a index = y.entry.requirement := by
  unfold State.requirementOf
  rw [hb, Option.bind_some, hy]

/-- Settles O49: no start, a start on the topped-up reservation, and a head refused by its requirement. -/
theorem shotStart : Obligations.ShotStart := by
  rintro s i x rfl
  refine ⟨State.nextShot_none s i, fun calm idle e rest held free queue hheld hfree => ⟨fun goes => ?_, fun short b y hb hy => ?_⟩⟩
  · rw [hheld, hfree] at goes
    obtain ⟨x', taken⟩ := Option.isSome_iff_exists.mp (Injector.topUp_isSome.mpr goes)
    obtain ⟨record, reserved, covered, total⟩ := Injector.reservation_topUp taken
    have started := State.nextShot_starts s i e rest x' calm idle queue taken
    have stillIdle : (x'.serve e rest).state ≠ .shot := by
      rw [show (x'.serve e rest).state = x'.state from rfl, record]
      exact fun shot => nomatch idle.symm.trans shot
    have removed := State.setInjectorState_modInjector (s := s) (i := i) (fun _ => x'.serve e rest) stillIdle
    have served : { x'.serve e rest with state := .shot } = { s.injector i with
        state := .shot, reservations := x'.reservations, queue := { e with inService := true } :: rest
        shot := some ((s.injector i).openShot (some { arm := e.arm, ref := e.ref, index := e.index })) } := by
      generalize x'.reservations = reservations at record
      subst record
      rfl
    have now := s.injector_modInjector_same i fun _ => { x'.serve e rest with state := .shot }
    refine ⟨s.modInjector i fun _ => { x'.serve e rest with state := .shot }, x'.reservations, ?_, fun r => ?_,
      fun h => covered (hheld ▸ h), fun distinct => hheld ▸ total distinct, ?_, ?_⟩
    · rw [served]
      rfl
    · rw [now, hheld]
      exact reserved r
    · unfold State.solenoid
      rw [now]
      rfl
    · rw [started]
      exact removed
  · have refused : (s.injector i).topUp e.ref = none := by
      have uncovered : ¬ ((s.injector i).topUp e.ref).isSome = true := by
        rw [Injector.topUp_isSome, Injector.free, Injector.reserved, ← hheld, ← hfree]
        omega
      exact Option.not_isSome_iff_eq_none.mp uncovered
    have next := State.nextShot_refused s i e rest calm idle queue refused
    rw [State.requirementOf_entry hb hy] at next
    refine ⟨_, _, rfl, fun required => ?_, fun optional => ?_, next⟩
    · rw [required]
      exact State.handCause_takes _ _ _ rfl
    · rw [optional]
      exact State.doseFlag_flagged _ _ _ _

end Sys2Proof.Machine
end

section
/-! SUPPORT. The steps of a shot (R130) and the ends of a COMPLETED and an ENDED one (R131, R133, R137): pulses, the
window, the tail, and the cascade to the follower. -/

namespace Sys2Proof.Machine

/-! ### Steps of a shot -/

section
variable {y : Shot}

theorem Shot.pulse_short (h : y.phase = .tail ∨ y.counted + 1 < y.target) : y.pulse = { y with counted := y.counted + 1 } := by
  refine if_neg fun reaches => ?_
  rcases h with tail | short
  · exact nomatch tail.symm.trans reaches.1
  · exact Nat.not_le.mpr short reaches.2

theorem Shot.pulse_reaches (opened : y.phase = .opened) (h : y.target ≤ y.counted + 1) : y.pulse = { y with
    counted := y.counted + 1, phase := .tail, outcome := .completed, window := none, tail := some 1000 } :=
  if_pos ⟨opened, h⟩

theorem Shot.expire_opened (opened : y.phase = .opened) : y.expire = { y with
    phase := .tail, outcome := .failed, window := none, tail := some 1000 } := if_pos opened

theorem Shot.expire_tail (tail : y.phase = .tail) : y.expire = y := if_neg (by rw [tail]; decide)

end

theorem State.modInjector_unchanged {s : State} {i : InjectorId} {f : Injector → Injector}
    (h : f (s.injector i) = s.injector i) : s.modInjector i f = s := by
  unfold State.modInjector
  rw [h]
  exact congrArg (fun v => { s with injectors := v }) (vset_vget_same s.injectors i)

section
variable {s : State} {i : InjectorId}

/-- A change of the current shot, where there is one. -/
theorem State.modShot_some {y : Shot} (shot : (s.injector i).shot = some y) (f : Shot → Shot) :
    (s.modInjector i fun x => { x with shot := x.shot.map f })
      = { s with injectors := vset s.injectors i { s.injector i with shot := some (f y) } } := by
  refine congrArg (fun o => { s with injectors := vset s.injectors i { s.injector i with shot := o } }) ?_
  rw [shot]
  rfl

theorem State.modShot_none (shot : (s.injector i).shot = none) (f : Shot → Shot) :
    (s.modInjector i fun x => { x with shot := x.shot.map f }) = s := by
  refine State.modInjector_unchanged ?_
  rw [shot, Option.map_none, ← shot]

theorem State.tailEnd_none (shot : (s.injector i).shot = none) : s.tailEnd i = s := by
  unfold State.tailEnd; rw [shot]

section
variable {y : Shot} (shot : (s.injector i).shot = some y)
include shot

theorem State.tailEnd_opened (opened : y.phase = .opened) : s.tailEnd i = s := by
  unfold State.tailEnd
  rw [shot]
  exact if_pos opened

/-- Outside a run the outcome alone decides between the three ends (R131, R134, R137). -/
theorem State.tailEnd_normal (phase : y.phase = .tail) (normal : (s.injector i).proving = none) :
    (y.outcome = .completed → s.tailEnd i = s.completeShot i y) ∧
      (y.outcome = .failed → s.tailEnd i = s.failShot i y) ∧
      (y.outcome = .ended → s.tailEnd i = (s.creditShot i y).endShot i) := by
  have closed : ¬ y.phase = .opened := by rw [phase]; decide
  unfold State.tailEnd
  rw [shot]
  dsimp only
  rw [if_neg closed, normal]
  exact ⟨fun outcome => by rw [outcome], fun outcome => by rw [outcome], fun outcome => by rw [outcome]⟩

end

/-! ### The cascade -/

variable {o : ShotOwner}

/-- The follower is posted for the shot's compartment, on the first usable entry the batch has for it (R133). -/
theorem State.cascade_posts {f : InjectorId} {b : Batch} {e : SnapshotEntry} (hf : (s.injector i).follower = some f)
    (hb : s.batch o.arm = some b) (flowing : b.state.flowing = true) (here : b.ref = o.ref)
    (found : b.snapshot.entries.find? (fun e => !e.skipped && decide (e.entry.injector = f)) = some e) :
    s.cascade i o = s.post o.arm o.ref e := by
  unfold State.cascade Snapshot.usable
  rw [hf, hb]
  dsimp only
  rw [if_pos ⟨flowing, here⟩, List.find?_filter]
  simp only [Bool.decide_and, Bool.decide_eq_true, found]

theorem State.cascade_none (h : (s.injector i).follower = none ∨ s.flowing o.arm = false ∨
    (∀ b, s.batch o.arm = some b → b.ref ≠ o.ref ∨
      ∀ f e, (s.injector i).follower = some f → e ∈ b.snapshot.entries → e.skipped = true ∨ e.entry.injector ≠ f)) :
    s.cascade i o = s := by
  unfold State.cascade
  split
  · next f b hf hb =>
    split
    · next loads =>
      obtain ⟨flowing, here⟩ := loads
      rw [hf, State.flowing_of_some hb, flowing] at h
      have unusable := (((h.resolve_left (Option.some_ne_none f)).resolve_left (by decide)) b hb).resolve_left
        (not_not_intro here)
      split
      · next e found =>
        obtain ⟨usable, named⟩ := List.mem_filter.mp (List.mem_of_find?_eq_some found)
        have hit := List.find?_some found
        rw [decide_eq_true_iff] at hit
        have := unusable f e rfl usable
        rw [Bool.not_eq_true'] at named
        rcases this with skipped | other
        · exact nomatch named.symm.trans skipped
        · exact absurd hit other
      · rfl
    · rfl
  · rfl

/-- The cascade leaves the state of an injector that is not IDLE. -/
theorem State.cascade_state (busy : (s.injector i).state ≠ .idle) :
    ((s.cascade i o).injector i).state = (s.injector i).state := by
  unfold State.cascade
  split
  · split
    · split
      · exact State.post_state s _ _ _ i busy
      · rfl
    · rfl
  · rfl

/-! ### Ends of shots -/

theorem State.ShotCredited.injector {c : State} {r : CompRef} {amount : Nat} (h : State.ShotCredited s c i r amount) :
    c.injector i = { s.injector i with
      stock := (s.injector i).stock - amount
      reservations := (s.injector i).reservations.map fun x =>
        if x.ref = r then { x with amount := x.amount - amount } else x } := by
  unfold State.injector
  rw [h.rest]
  exact vget_vset_same _ _ _

theorem State.ShotCredited.batch {c : State} {r : CompRef} {amount : Nat} (h : State.ShotCredited s c i r amount)
    (a : ArmId) : c.batch a = s.batch a := by
  rw [h.rest]
  rfl

/-- Stages 1 to 6 of a COMPLETED shot's end (R131). -/
def State.countShot (s : State) (i : InjectorId) (y : Shot) : State :=
  ((s.creditShot i y).modInjector i fun j => { j with failures := 0 }).rotate i y

theorem State.completeShot_owned {y : Shot} (owner : y.owner = some o) :
    s.completeShot i y = ((s.countShot i y).cascade i o).endShot i := by
  unfold State.completeShot
  rw [owner]
  rfl

theorem State.countShot_eq {y : Shot} (owner : y.owner = some o) : s.countShot i y = { s.creditShot i y with
    injectors := vset (s.creditShot i y).injectors i { (s.creditShot i y).injector i with
      failures := 0
      queue := match (s.injector i).queue, y.queued with
        | e :: rest, true =>
          if 1 < e.owed then rest ++ [{ e with owed := e.owed - 1, inService := false }] else rest
        | queue, _ => queue } } := by
  have credited := (State.creditShot_credited s i y o owner).injector
  unfold State.countShot
  rw [State.rotate_eq _ i (s.injector i) y (by rw [State.injector_modInjector_same, credited])]
  exact State.modInjector_modInjector _ i _ fun j => { j with queue := _ }

theorem State.injector_countShot {y : Shot} (owner : y.owner = some o) : ∃ queue, (s.countShot i y).injector i
    = { (s.creditShot i y).injector i with failures := 0, queue := queue } := by
  rw [State.countShot_eq owner]
  exact ⟨_, vget_vset_same _ _ _⟩

end

/-- Settles O50: the steps of a shot by its phase, then the two ends of its tail and what they leave. -/
theorem shotPulsesAndCompletedShots : Obligations.ShotPulsesAndCompletedShots := by
  rintro s i x rfl
  refine ⟨fun absent => ⟨?_, ?_, ?_⟩, fun y shot => ⟨fun short => ?_, fun opened reaches => ?_, fun opened due => ?_,
    fun idle => ?_, fun idle => ?_, fun amount o phase tail hamount busy normal owner => ⟨fun completed => ?_, fun ended => ?_,
    fun _ => ?_⟩⟩⟩
  · exact congrArg Host.Outcome.next (State.modShot_none absent Shot.pulse)
  · exact congrArg Host.Outcome.next (State.expire_without_effect (State.modShot_none absent Shot.expire))
  · exact congrArg Host.Outcome.next (State.expire_without_effect (State.tailEnd_none absent))
  · rw [← Shot.pulse_short short, ← State.modShot_some shot]
    rfl
  · rw [← Shot.pulse_reaches opened reaches, ← State.modShot_some shot]
    rfl
  · have runs : (s.injector i).shot.bind (·.window) = some 0 := by rw [shot]; exact due
    rw [← Shot.expire_opened opened, ← State.modShot_some shot]
    exact congrArg Host.Outcome.next (State.expire_of_due s runs _)
  · rcases idle with closed | early
    · refine congrArg Host.Outcome.next (State.expire_without_effect (State.modInjector_unchanged ?_))
      rw [shot, Option.map_some, Shot.expire_tail closed, ← shot]
    · have waits : (s.injector i).shot.bind (·.window) ≠ some 0 := by rw [shot]; exact early
      exact congrArg Host.Outcome.next (State.expire_not s waits _)
  · rcases idle with opened | early
    · exact congrArg Host.Outcome.next (State.expire_without_effect (State.tailEnd_opened shot opened))
    · have waits : (s.injector i).shot.bind (·.tail) ≠ some 0 := by rw [shot]; exact early
      exact congrArg Host.Outcome.next (State.expire_not s waits _)
  · have credited : State.ShotCredited s (s.creditShot i y) i o.ref amount :=
      hamount ▸ State.creditShot_credited s i y o owner
    have counted := State.countShot_eq (s := s) (i := i) owner
    obtain ⟨queue, record⟩ := State.injector_countShot (s := s) (i := i) owner
    have batches (a : ArmId) : (s.countShot i y).batch a = s.batch a := by
      rw [counted]
      exact credited.batch a
    have flows (a : ArmId) : (s.countShot i y).flowing a = s.flowing a := by unfold State.flowing; rw [batches]
    have follower : ((s.countShot i y).injector i).follower = (s.injector i).follower := by
      rw [record, credited.injector]
    have working : ((s.countShot i y).injector i).state ≠ .idle := by
      rw [record, credited.injector, busy]
      decide
    obtain ⟨z, removed, ends⟩ := State.endShot_removed ((s.countShot i y).cascade i o) i
      (by rw [State.cascade_state working]; exact working)
    refine ⟨s.creditShot i y, s.countShot i y, (s.countShot i y).cascade i o, z, credited, counted,
      fun f b e hf hb flowing here found => ?_, fun h => ?_, removed, ?_⟩
    · exact State.cascade_posts (follower.trans hf) ((batches _).trans hb) flowing here found
    · refine State.cascade_none ?_
      rw [follower, flows, batches]
      exact h
    · rw [exec_shotTailEnd_due shot tail, (State.tailEnd_normal shot phase normal).1 completed,
        State.completeShot_owned owner, ends]
  · have credited : State.ShotCredited s (s.creditShot i y) i o.ref amount :=
      hamount ▸ State.creditShot_credited s i y o owner
    obtain ⟨z, removed, ends⟩ := State.endShot_removed (s.creditShot i y) i
      (by rw [credited.injector, busy]; decide)
    refine ⟨s.creditShot i y, z, credited, removed, ?_⟩
    rw [exec_shotTailEnd_due shot tail, (State.tailEnd_normal shot phase normal).2.2 ended, ends]
  · have kept := coreKept_tailEnd s i
    exact ⟨s.tailEnd i, exec_shotTailEnd_due shot tail, kept.bays, kept.permits, kept.meters,
      ((Keeps.refl s).tailEnd i).same⟩

end Sys2Proof.Machine
end

section
/-! SUPPORT. The end of a FAILED shot (R134, R135): the owner's flag, the next shot after a first or second failure, and
the fault that a third failure in succession brings. -/

namespace Sys2Proof.Machine

/-! ### Dosing flags of several removed entries -/

theorem addTo_addTo {α : Type} [DecidableEq α] (all set : List α) (x : α) :
    addTo all x (addTo all x set) = addTo all x set := by
  refine List.filter_congr fun y hy => ?_
  rw [decide_eq_decide, mem_addTo hy]
  tauto

theorem AdditiveResult.addFlag_addFlag (z : AdditiveResult) (f : ResultFlag) : (z.addFlag f).addFlag f = z.addFlag f :=
  congrArg (fun flags => { z with flags := flags }) (addTo_addTo _ _ f)

section
variable {i : InjectorId} {f : ResultFlag} {z : AdditiveResult} (own : z.injector = i)
include own

/-- A result of the injector has the flag after a change that sets it, also where an earlier one had set it. -/
theorem Compartment.flagged_modResult {c : Compartment} (h : z ∈ c.results ∨ z.addFlag f ∈ c.results) :
    z.addFlag f ∈ (c.modResult i (·.addFlag f)).results := by
  rcases h with plain | flagged
  · exact List.mem_map.mpr ⟨z, plain, if_pos own⟩
  · exact List.mem_map.mpr ⟨z.addFlag f, flagged, (if_pos own).trans (z.addFlag_addFlag f)⟩

end

section
variable {s : State} {q r : CompRef} {i : InjectorId} {f : ResultFlag}

theorem State.CompHas.doseFlag {P : Compartment → Prop} (h : s.CompHas q P)
    (hP : ∀ c, P c → P (c.modResult i (·.addFlag f))) : (s.doseFlag r i f).CompHas q P := by
  unfold State.doseFlag
  split
  · exact State.modComp_still s r q _ (fun _ => rfl) hP h
  · exact h

theorem State.CompHas.doseFlag_same {P Q : Compartment → Prop} (h : s.CompHas q P) (active : s.creditable q = true)
    (hPQ : ∀ c, P c → Q (c.modResult i (·.addFlag f))) : (s.doseFlag q i f).CompHas q Q := by
  unfold State.doseFlag
  rw [if_pos active]
  exact h.modComp _ (fun _ => rfl) hPQ

theorem State.creditable_doseFlag : (s.doseFlag r i f).creditable q = s.creditable q := by
  unfold State.doseFlag
  split
  · unfold State.creditable
    rw [State.orderOf_modComp]
    split
    · cases s.orderOf q <;> rfl
    · rfl
  · rfl

theorem State.doseFlag_ordersOnly : s.doseFlag r i f = { s with orders := (s.doseFlag r i f).orders } :=
  (State.doseFlag_flagged s r i f).1

end

/-- UNDERDOSED on the results of the OPTIONAL entries among those removed from an injector's queue (R135). -/
def State.doseRemoved (s : State) (i : InjectorId) (removed : List QueueEntry) : State :=
  removed.foldl
    (fun acc e => if acc.requirementOf e.arm e.index = .optional then acc.doseFlag e.ref i .underdosed else acc) s

section
variable {s : State} {i : InjectorId} {e : QueueEntry} {l : List QueueEntry}

theorem State.doseRemoved_optional (h : s.requirementOf e.arm e.index = .optional) :
    s.doseRemoved i (e :: l) = (s.doseFlag e.ref i .underdosed).doseRemoved i l := by
  unfold State.doseRemoved
  rw [List.foldl_cons, if_pos h]

theorem State.doseRemoved_required (h : s.requirementOf e.arm e.index ≠ .optional) :
    s.doseRemoved i (e :: l) = s.doseRemoved i l := by
  unfold State.doseRemoved
  rw [List.foldl_cons, if_neg h]

theorem State.doseRemoved_ordersOnly (s : State) (l : List QueueEntry) :
    s.doseRemoved i l = { s with orders := (s.doseRemoved i l).orders } := by
  induction l generalizing s with
  | nil => rfl
  | cons e l ih =>
    by_cases h : s.requirementOf e.arm e.index = .optional
    · rw [State.doseRemoved_optional h, ih, State.doseFlag_ordersOnly]
    · rw [State.doseRemoved_required h]
      exact ih s

theorem State.CompHas.doseRemoved {q : CompRef} {P : Compartment → Prop} (h : s.CompHas q P) (l : List QueueEntry)
    (hP : ∀ c, P c → P (c.modResult i (·.addFlag .underdosed))) : (s.doseRemoved i l).CompHas q P := by
  induction l generalizing s with
  | nil => exact h
  | cons e l ih =>
    by_cases optional : s.requirementOf e.arm e.index = .optional
    · rw [State.doseRemoved_optional optional]
      exact ih (h.doseFlag hP)
    · rw [State.doseRemoved_required optional]
      exact ih h

/-- An OPTIONAL entry among those removed has UNDERDOSED on its result, whatever the others do. -/
theorem State.doseRemoved_flags {z : AdditiveResult} (own : z.injector = i) (mem : e ∈ l)
    (optional : s.requirementOf e.arm e.index = .optional) (active : s.creditable e.ref = true)
    (h : s.CompHas e.ref fun c => z ∈ c.results ∨ z.addFlag .underdosed ∈ c.results) :
    (s.doseRemoved i l).CompHas e.ref fun c => z.addFlag .underdosed ∈ c.results := by
  induction l generalizing s with
  | nil => cases mem
  | cons x l ih =>
    rcases List.mem_cons.mp mem with rfl | later
    · rw [State.doseRemoved_optional optional]
      exact (h.doseFlag_same active fun c => Compartment.flagged_modResult own).doseRemoved l
        fun c flagged => Compartment.flagged_modResult own (.inr flagged)
    · by_cases head : s.requirementOf x.arm x.index = .optional
      · rw [State.doseRemoved_optional head]
        refine ih later ?_ (State.creditable_doseFlag.trans active)
          (h.doseFlag fun c either => .inr (Compartment.flagged_modResult own either))
        rw [State.doseFlag_ordersOnly]
        exact optional
      · rw [State.doseRemoved_required head]
        exact ih later optional active h

end

/-- A cause handed to several batches changes no result of a compartment. -/
theorem State.CompHas.handCauses {s : State} {q : CompRef} {z : AdditiveResult} (h : s.CompHas q fun c => z ∈ c.results)
    (l : List ArmId) (c : HoldCause) : (s.handCauses l c).CompHas q fun c => z ∈ c.results := by
  have raw : (s.handCausesRaw l c).CompHas q fun c => z ∈ c.results := by
    unfold State.handCausesRaw
    induction l generalizing s with
    | nil => exact h
    | cons a l ih => exact ih (s.handCauseRaw_still a c q (fun _ k => k) (fun _ k => k) h)
  exact raw.congr (by rw [(s.handCauses_eased l c).eq])

/-! ### The fault -/

/-- The state in which the third failure hands ADDITIVE out: the owner's flag set, the queue emptied, the flags of the
removed entries set (R135). -/
def State.drained (s : State) (i : InjectorId) (y : Shot) : State :=
  ((s.ownerUnderdosed i y).modInjector i fun j => { j with queue := [], shot := none }).doseRemoved i (s.injector i).queue

/-- The arms whose batch has a REQUIRED entry on the injector. -/
def State.requiring (s : State) (i : InjectorId) : List ArmId :=
  allArms.filter fun a => (s.batch a).any fun b => b.snapshot.requires i

theorem State.requiring_nodup (s : State) (i : InjectorId) : (s.requiring i).Nodup := (List.nodup_finRange 12).filter _

theorem State.mem_requiring {s : State} {i : InjectorId} {a : ArmId} {b : Batch} (hb : s.batch a = some b) :
    a ∈ s.requiring i ↔ b.snapshot.requires i = true := by
  unfold State.requiring
  rw [List.mem_filter, hb]
  exact and_iff_right (mem_allArms a)

/-- The causes handed out, FAULT and its event flag. -/
def State.faulted (s : State) (i : InjectorId) : State :=
  ((s.handCauses (s.requiring i) .additive).modInjector i fun j => { j with state := .fault }).raise .injectorFault

/-- FAULT frees no batch, so nothing but the injector and the event flags change behind the causes (R101). -/
theorem State.faultInjector_eq (s : State) (i : InjectorId) (y : Shot) : s.faultInjector i y = (s.drained i y).faulted i := by
  unfold State.faulted
  rw [← State.setInjectorState_stays _ _ _ (by decide)]
  rfl

theorem State.injector_handCauses {s : State} {i : InjectorId} (queue : (s.injector i).queue = [])
    (shot : (s.injector i).shot = none) (l : List ArmId) (c : HoldCause) : (s.handCauses l c).injector i = s.injector i := by
  rw [← s.handCausesRaw_injector l c i queue shot, (s.handCauses_eased l c).eq]
  rfl

section
variable {s : State} {i : InjectorId}

theorem State.injector_faulted (queue : (s.injector i).queue = []) (shot : (s.injector i).shot = none) :
    (s.faulted i).injector i = { s.injector i with state := .fault } := by
  rw [← State.injector_handCauses queue shot (s.requiring i) .additive]
  exact (s.handCauses (s.requiring i) .additive).injector_modInjector_same i fun j => { j with state := .fault }

theorem State.faulted_flag (s : State) (i : InjectorId) : .injectorFault ∈ (s.faulted i).flags :=
  (mem_addTo (EventFlag.mem_all _)).mpr (.inl rfl)

theorem State.CompHas.faulted {q : CompRef} {z : AdditiveResult} (h : s.CompHas q fun c => z ∈ c.results)
    (i : InjectorId) : (s.faulted i).CompHas q fun c => z ∈ c.results :=
  (h.handCauses (s.requiring i) .additive).congr rfl

/-- Where drawing sets are exact, a batch that requires the injector takes ADDITIVE by its state. -/
theorem State.batch_faulted {a : ArmId} {b : Batch} (drawn : s.DrawingExact) (hb : s.batch a = some b)
    (requires : b.snapshot.requires i = true) : (s.faulted i).batch a = some (b.given .additive) :=
  State.handCauses_exact s _ .additive (s.requiring_nodup i) drawn ((State.mem_requiring hb).mpr requires) hb

theorem State.faulted_holds {a : ArmId} {b : Batch} (hb : s.batch a = some b) (requires : b.snapshot.requires i = true)
    (flowing : b.state.flowing = true) : .batchHold ∈ (s.faulted i).flags := by
  have raised := (State.handCausesRaw_leaves _ s .additive ((State.mem_requiring hb).mpr requires) hb flowing).1
  have same := congrArg State.flags (s.handCauses_eased (s.requiring i) .additive).eq
  exact (mem_addTo (EventFlag.mem_all _)).mpr (.inr (same ▸ raised))

theorem State.faulted_others {a : ArmId} {b : Batch} (hb : s.batch a = some b) (free : b.snapshot.requires i = false) :
    ((s.faulted i).batch a).map (·.besidesFlow) = some b.besidesFlow := by
  have away : a ∉ s.requiring i := by rw [State.mem_requiring hb, free]; decide
  have others := State.handCauses_others s _ .additive (s.requiring_nodup i) away
  rw [hb] at others
  exact others

theorem State.faulted_respondsOnce {a : ArmId} (free : ∀ b, s.batch a = some b → b.snapshot.requires i = false) :
    s.RespondsOnce (s.faulted i) a := by
  have away : a ∉ s.requiring i := by
    intro mem
    obtain ⟨-, requires⟩ := List.mem_filter.mp mem
    cases hb : s.batch a with
    | none => rw [hb] at requires; cases requires
    | some b => rw [hb, Option.any_some, free b hb] at requires; cases requires
  exact (State.handCauses_respondsOnce s _ .additive a away).congr rfl rfl rfl rfl

end

/-! ### The end of a FAILED shot -/

theorem State.state_rotate (s : State) (i : InjectorId) (y : Shot) :
    ((s.rotate i y).injector i).state = (s.injector i).state := by
  unfold State.rotate
  split
  · rw [State.injector_modInjector_same]
  · rfl

/-- Stages 1 to 4 of a FAILED shot's end, with the failure counted (R134). -/
def State.failureCounted (s : State) (i : InjectorId) (y : Shot) : State :=
  (s.creditShot i y).modInjector i fun j => { j with failures := min 3 (j.failures + 1) }

/-- The owner's flag set on top of that. -/
def State.countFailure (s : State) (i : InjectorId) (y : Shot) : State := (s.failureCounted i y).ownerUnderdosed i y

theorem State.injector_failureCounted (s : State) (i : InjectorId) (y : Shot) : (s.failureCounted i y).injector i
    = { (s.creditShot i y).injector i with failures := min 3 (((s.creditShot i y).injector i).failures + 1) } :=
  State.injector_modInjector_same _ i _

section
variable {s : State} {i : InjectorId} {y : Shot} {o : ShotOwner} (owner : y.owner = some o)
include owner

theorem State.ownerUnderdosed_owned (s : State) : s.ownerUnderdosed i y = s.doseFlag o.ref i .underdosed := by
  unfold State.ownerUnderdosed; rw [owner]

theorem State.countFailure_flagged :
    State.DoseFlagged (s.failureCounted i y) (s.countFailure i y) o.ref i .underdosed := by
  unfold State.countFailure
  rw [State.ownerUnderdosed_owned owner]
  exact State.doseFlag_flagged _ _ _ _

theorem State.injector_countFailure : (s.countFailure i y).injector i
    = { (s.creditShot i y).injector i with failures := min 3 ((s.injector i).failures + 1) } := by
  have failed : ((s.creditShot i y).injector i).failures = (s.injector i).failures := by
    rw [(State.creditShot_credited s i y o owner).injector]
  have same := congrArg (State.injector · i) (State.countFailure_flagged (s := s) (i := i) owner).1
  rw [← failed]
  exact same.trans (s.injector_failureCounted i y)

theorem State.arms_countFailure : (s.countFailure i y).arms = s.arms := by
  have credited := congrArg State.arms (State.creditShot_credited s i y o owner).rest
  have flagged := congrArg State.arms (State.countFailure_flagged (s := s) (i := i) owner).1
  exact flagged.trans credited

theorem State.headers_countFailure : (s.countFailure i y).headers = s.headers := by
  have credited := congrArg State.headers (State.creditShot_credited s i y o owner).rest
  have flagged := congrArg State.headers (State.countFailure_flagged (s := s) (i := i) owner).1
  exact flagged.trans credited

theorem State.failShot_third (h : 2 ≤ (s.injector i).failures) : s.failShot i y
    = (s.failureCounted i y).faultInjector i y := by
  have three : min 3 (((s.creditShot i y).injector i).failures + 1) = 3 := by
    rw [(State.creditShot_credited s i y o owner).injector]
    dsimp only
    omega
  unfold State.failShot
  dsimp only
  rw [State.injector_modInjector_same]
  exact if_pos three

theorem State.failShot_earlier (h : (s.injector i).failures < 2) :
    s.failShot i y = ((s.countFailure i y).rotate i y).endShot i := by
  have fewer : ¬ min 3 (((s.creditShot i y).injector i).failures + 1) = 3 := by
    rw [(State.creditShot_credited s i y o owner).injector]
    dsimp only
    omega
  unfold State.failShot
  dsimp only
  rw [State.injector_modInjector_same]
  exact if_neg fewer

/-- After a first or second failure the next shot starts (R134). -/
theorem State.failShot_next (busy : (s.injector i).state = .shot) (h : (s.injector i).failures < 2) : ∃ w z : State,
    w = { s.countFailure i y with injectors := vset (s.countFailure i y).injectors i { (s.countFailure i y).injector i with
      shot := none, state := .idle
      queue := match (s.injector i).queue, y.queued with
        | e :: rest, true =>
          if 1 < e.owed then rest ++ [{ e with owed := e.owed - 1, inService := false }] else rest
        | queue, _ => queue } } ∧ State.AdditiveRemoved w z i ∧ s.failShot i y = z.nextShot i := by
  have record := State.injector_countFailure (s := s) (i := i) owner
  rw [(State.creditShot_credited s i y o owner).injector] at record
  have rotated := State.rotate_eq (s.countFailure i y) i (s.injector i) y (by rw [record])
  have working : (((s.countFailure i y).rotate i y).injector i).state ≠ .idle := by
    rw [State.state_rotate, record, busy]
    decide
  obtain ⟨z, removed, ends⟩ := State.endShot_removed ((s.countFailure i y).rotate i y) i working
  refine ⟨_, z, rfl, ?_, (State.failShot_earlier owner h).trans ends⟩
  have one := State.modInjector_modInjector (s.countFailure i y) i
    (fun j => { j with queue := match (s.injector i).queue, y.queued with
      | e :: rest, true =>
        if 1 < e.owed then rest ++ [{ e with owed := e.owed - 1, inService := false }] else rest
      | queue, _ => queue })
    fun j => { j with shot := none, state := .idle }
  rw [rotated] at removed
  exact Eq.mp (congrArg (State.AdditiveRemoved · z i) one) removed

end

/-- The state in which the fault of a third failure hands ADDITIVE out. -/
def State.emptied (s : State) (i : InjectorId) (y : Shot) : State := (s.failureCounted i y).drained i y

section
variable {s : State} {i : InjectorId} {y : Shot} {o : ShotOwner} (owner : y.owner = some o)
include owner

theorem State.queue_failureCounted : ((s.failureCounted i y).injector i).queue = (s.injector i).queue := by
  rw [State.injector_failureCounted, (State.creditShot_credited s i y o owner).injector]

theorem State.emptied_eq : s.emptied i y
    = ((s.countFailure i y).modInjector i fun j => { j with queue := [], shot := none }).doseRemoved i (s.injector i).queue := by
  unfold State.emptied State.drained
  rw [State.queue_failureCounted owner]
  rfl

theorem State.injector_emptied :
    (s.emptied i y).injector i = { (s.countFailure i y).injector i with queue := [], shot := none } := by
  rw [State.emptied_eq owner, State.doseRemoved_ordersOnly]
  exact State.injector_modInjector_same (s.countFailure i y) i fun j => { j with queue := [], shot := none }

theorem State.arms_emptied : (s.emptied i y).arms = s.arms := by
  rw [State.emptied_eq owner, State.doseRemoved_ordersOnly]
  exact State.arms_countFailure owner

theorem State.headers_emptied : (s.emptied i y).headers = s.headers := by
  rw [State.emptied_eq owner, State.doseRemoved_ordersOnly]
  exact State.headers_countFailure owner

theorem State.batch_emptied (a : ArmId) : (s.emptied i y).batch a = s.batch a := by
  unfold State.batch State.arm
  rw [State.arms_emptied owner]

theorem State.drawingExact_emptied (drawn : s.DrawingExact) : (s.emptied i y).DrawingExact := by
  unfold State.DrawingExact State.header at drawn ⊢
  simp only [State.headers_emptied owner, State.batch_emptied owner]
  exact drawn

/-- The result of an OPTIONAL entry has UNDERDOSED when its queue has been emptied. -/
theorem State.emptied_flags {e : QueueEntry} {b : Batch} {v : SnapshotEntry} {ord : Order} {cp : Compartment}
    {z : AdditiveResult} (mem : e ∈ (s.injector i).queue) (hb : s.batch e.arm = some b)
    (hv : b.snapshot.entryAt e.index = some v) (optional : v.entry.requirement = .optional)
    (held : (s.countFailure i y).orderOf e.ref = some ord) (active : ord.isActive = true)
    (hcp : ord.comp e.ref.comp = some cp) (hz : z ∈ cp.results) (own : z.injector = i) :
    (s.emptied i y).CompHas e.ref fun c => z.addFlag .underdosed ∈ c.results := by
  have batch : ((s.countFailure i y).modInjector i fun j => { j with queue := [], shot := none }).batch e.arm = some b := by
    rw [← hb]
    exact congrArg (fun arms => (vget arms e.arm).batch) (State.arms_countFailure owner)
  have creditable : (s.countFailure i y).creditable e.ref = true := by
    unfold State.creditable
    rw [held]
    exact active
  rw [State.emptied_eq owner]
  exact State.doseRemoved_flags own mem ((State.requirementOf_entry batch hv).trans optional) creditable
    ⟨ord, cp, held, hcp, .inl hz⟩

end

/-- Settles O51: the failure counted and flagged, then the next shot or the fault. -/
theorem failedShots : Obligations.FailedShots := by
  rintro s i x y o amount rfl shot phase tail failed owner busy normal hamount
  have credited : State.ShotCredited s (s.creditShot i y) i o.ref amount :=
    hamount ▸ State.creditShot_credited s i y o owner
  have before : s.failureCounted i y = { s.creditShot i y with
      injectors := vset (s.creditShot i y).injectors i { (s.creditShot i y).injector i with
        failures := min 3 ((s.injector i).failures + 1) } } := by
    have failures : ((s.creditShot i y).injector i).failures = (s.injector i).failures := by rw [credited.injector]
    rw [← failures]
    rfl
  have kept := coreKept_failShot s i y
  refine ⟨s.creditShot i y, s.countFailure i y, s.failShot i y, credited, before ▸ State.countFailure_flagged owner, ?_,
    State.failShot_next owner busy, fun third => ?_, kept.bays, kept.permits, kept.meters, ((Keeps.refl s).failShot i y).same⟩
  · rw [exec_shotTailEnd_due shot tail, (State.tailEnd_normal shot phase normal).2.1 failed]
  rw [State.failShot_third owner third, State.faultInjector_eq, ← State.emptied]
  have record := State.injector_emptied (s := s) (i := i) owner
  have batches := State.batch_emptied (s := s) (i := i) owner
  have three : ((s.countFailure i y).injector i).failures = 3 := by
    rw [State.injector_countFailure owner]
    dsimp only
    omega
  refine ⟨?_, State.faulted_flag _ i, fun e mem b v hb hv optional ord cp z held active hcp hz own => ?_,
    fun drawn a b hb requires => ?_, fun a b hb free => State.faulted_others ((batches a).trans hb) free,
    fun a free => ?_⟩
  · rw [State.injector_faulted (by rw [record]) (by rw [record]), record, ← three]
  · exact (State.emptied_flags owner mem hb hv optional held active hcp hz own).faulted i
  · have here := (batches a).trans hb
    have given := State.batch_faulted (State.drawingExact_emptied owner drawn) here requires
    rw [given]
    exact ⟨fun flowing => ⟨congrArg some (Batch.given_flowing _ flowing), State.faulted_holds here requires flowing⟩,
      fun held => congrArg some (Batch.given_inHeld _ held), fun closing => congrArg some (Batch.given_closing _ closing)⟩
  · have responds := State.faulted_respondsOnce (s := s.emptied i y) (i := i) (a := a) fun b hb => free b (by rwa [← batches])
    exact responds.congr (congrArg (vget · a) (State.arms_emptied owner).symm) (State.headers_emptied owner).symm rfl rfl

end Sys2Proof.Machine
end

section
/-! SUPPORT. A meter pulse (R93, R109, R110, R111, R117, R119): the timers it restarts, the tenths it produces, the counts
and the integrity check, for A and B pulses alike. -/

namespace Sys2Proof.Machine

/-! ### The timers and the residue -/

/-- The state before a pulse produces tenths: the timers restarted, the residue laid down. -/
def State.timed (s : State) (m : MeterId) (isA : Bool) (residue : Nat) : State :=
  (s.restartTimers m isA).modMeter m fun x => { x with residue := residue }

section
variable (s : State) (m : MeterId) (isA : Bool) (residue : Nat)

theorem State.timed_eq : s.timed m isA residue = { s with
    arms := (s.timed m isA residue).arms, meters := vset s.meters m { s.meter m with residue := residue } } := by
  unfold State.timed
  rw [State.restartTimers_eq]
  rfl

theorem State.meter_timed : (s.timed m isA residue).meter m = { s.meter m with residue := residue } :=
  (congrArg (State.meter · m) (s.timed_eq m isA residue)).trans (vget_vset_same _ _ _)

theorem State.meter_timed_ne {y : MeterId} (away : y ≠ m) : (s.timed m isA residue).meter y = s.meter y :=
  (congrArg (State.meter · y) (s.timed_eq m isA residue)).trans (vget_vset_ne _ _ away)

theorem State.boundTo_timed : (s.timed m isA residue).boundTo m = s.boundTo m :=
  (restartTimers_coreKept s m isA).boundTo m

theorem State.timed_unbound (free : s.boundTo m = none) :
    s.timed m isA residue = s.modMeter m fun x => { x with residue := residue } := by
  unfold State.timed State.restartTimers
  rw [free]

end

/-! ### The tenths -/

/-- The state after the tenths of a pulse. -/
def State.flowed (s : State) (m : MeterId) (isA : Bool) (residue tenths : Nat) : State :=
  (s.timed m isA residue).produceTenths m tenths

section
variable {s : State} {m : MeterId} {isA : Bool} {residue tenths : Nat}

theorem State.flowed_unauthorized (free : s.boundTo m = none) :
    Unauthorized (s.timed m isA residue) (s.flowed m isA residue tenths) m tenths :=
  produceTenths_unauthorized tenths _ m ((s.boundTo_timed m isA residue).trans free)

theorem State.flowed_credited {arm : ArmId} {role : Role} (bound : s.boundTo m = some (arm, role)) :
    Credited (s.timed m isA residue) (s.flowed m isA residue tenths) m arm role tenths :=
  produceTenths_credited tenths _ m arm role ((s.boundTo_timed m isA residue).trans bound)

theorem State.meter_flowed_bound {arm : ArmId} {role : Role} (bound : s.boundTo m = some (arm, role)) :
    (s.flowed m isA residue tenths).meter m = { s.meter m with
      residue := residue
      totalizer := if tenths = 0 then (s.meter m).totalizer else min (2 ^ 48 - 1) ((s.meter m).totalizer + tenths) } := by
  have flow := (State.flowed_credited (isA := isA) (residue := residue) (tenths := tenths) bound).meters
  have now := (congrArg (vget · m) flow).trans (vget_vset_same _ _ _)
  rw [State.meter_timed] at now
  exact now

/-- Tenths move the totalizer, and on an unbound meter the unauthorized figures (R109, R119). -/
theorem State.meter_flowed (s : State) (m : MeterId) (isA : Bool) (residue tenths : Nat) : ∃ unauthorized flag,
    (s.flowed m isA residue tenths).meter m = { s.meter m with
      residue := residue
      totalizer := if tenths = 0 then (s.meter m).totalizer else min (2 ^ 48 - 1) ((s.meter m).totalizer + tenths)
      unauthorized := unauthorized, unauthorizedFlag := flag } := by
  cases bound : s.boundTo m with
  | none =>
    have flow := (State.flowed_unauthorized (isA := isA) (residue := residue) (tenths := tenths) bound).meter
    rw [State.meter_timed] at flow
    exact ⟨_, _, flow⟩
  | some owner =>
    exact ⟨_, _, State.meter_flowed_bound bound⟩

theorem State.meter_flowed_ne {y : MeterId} (away : y ≠ m) :
    (s.flowed m isA residue tenths).meter y = s.meter y := by
  rw [← s.meter_timed_ne m isA residue away]
  cases bound : s.boundTo m with
  | none => exact (State.flowed_unauthorized bound).others y away
  | some owner => exact (congrArg (vget · y) (State.flowed_credited bound).meters).trans (vget_vset_ne _ _ away)

theorem State.boundTo_flowed : (s.flowed m isA residue tenths).boundTo m = s.boundTo m := by
  rw [← s.boundTo_timed m isA residue]
  cases bound : s.boundTo m with
  | none =>
    rw [(State.flowed_unauthorized bound).eq]
    rfl
  | some owner => exact (State.flowed_credited bound).bound

end

/-! ### The counts and the check -/

/-- The counts of a record laid down. -/
def State.counted (s : State) (m : MeterId) (a b : Nat) : State := s.modMeter m fun x => { x with aCount := a, bCount := b }

/-- The state after a pulse. -/
def State.pulsed (s : State) (m : MeterId) (isA : Bool) (residue tenths a b : Nat) : State :=
  ((s.flowed m isA residue tenths).counted m a b).checkIntegrity m

theorem State.modMeter_congr {v : State} {m : MeterId} {f g : Meter → Meter} (h : f (v.meter m) = g (v.meter m)) :
    v.modMeter m f = v.modMeter m g := by
  unfold State.modMeter; rw [h]

theorem State.pulseA_eq (s : State) (m : MeterId) : s.pulseA m = s.pulsed m true
    (((s.meter m).residue + 10000) % (s.meter m).k) (((s.meter m).residue + 10000) / (s.meter m).k)
    ((s.meter m).aCount + 1) (s.meter m).bCount := by
  obtain ⟨unauthorized, flag, record⟩ := s.meter_flowed m true (((s.meter m).residue + 10000) % (s.meter m).k)
    (((s.meter m).residue + 10000) / (s.meter m).k)
  have laid : (s.restartTimers m true).modMeter m (fun x => { x with residue := ((s.meter m).residue + 10000) % x.k })
      = s.timed m true (((s.meter m).residue + 10000) % (s.meter m).k) :=
    State.modMeter_congr (by rw [State.meter_restartTimers])
  have counts : (s.flowed m true (((s.meter m).residue + 10000) % (s.meter m).k)
      (((s.meter m).residue + 10000) / (s.meter m).k)).modMeter m (fun x => { x with aCount := x.aCount + 1 })
      = (s.flowed m true (((s.meter m).residue + 10000) % (s.meter m).k)
      (((s.meter m).residue + 10000) / (s.meter m).k)).counted m ((s.meter m).aCount + 1) (s.meter m).bCount :=
    State.modMeter_congr (by rw [record])
  unfold State.pulseA
  dsimp only
  rw [laid]
  exact congrArg (State.checkIntegrity · m) counts

theorem State.pulseB_eq (s : State) (m : MeterId) : s.pulseB m = s.pulsed m false
    (s.meter m).residue 0 (s.meter m).aCount ((s.meter m).bCount + 1) := by
  have same : s.timed m false (s.meter m).residue = s.restartTimers m false :=
    State.modMeter_unchanged (by rw [State.meter_restartTimers])
  have counts : (s.restartTimers m false).modMeter m (fun x => { x with bCount := x.bCount + 1 })
      = (s.restartTimers m false).counted m (s.meter m).aCount ((s.meter m).bCount + 1) :=
    State.modMeter_congr (by rw [State.meter_restartTimers])
  unfold State.pulsed State.flowed
  rw [same]
  exact congrArg (State.checkIntegrity · m) counts

section
variable {s : State} {m : MeterId} {isA : Bool} {residue tenths a b : Nat}

theorem State.counted_eq (v : State) (m : MeterId) (a b : Nat) :
    v.counted m a b = { v with meters := vset v.meters m { v.meter m with aCount := a, bCount := b } } := rfl

theorem State.meter_counted (v : State) (m : MeterId) (a b : Nat) :
    (v.counted m a b).meter m = { v.meter m with aCount := a, bCount := b } := State.meter_modMeter_same v m _

theorem State.pulsed_checked (s : State) (m : MeterId) (isA : Bool) (residue tenths a b : Nat) :
    Checked ((s.flowed m isA residue tenths).counted m a b) (s.pulsed m isA residue tenths a b) m :=
  checkIntegrity_checked _ m

/-- The counts and the check leave the unauthorized figures of the meter. -/
theorem State.pulsed_figures :
    ((s.pulsed m isA residue tenths a b).meter m).unauthorized = ((s.flowed m isA residue tenths).meter m).unauthorized ∧
    ((s.pulsed m isA residue tenths a b).meter m).unauthorizedFlag
      = ((s.flowed m isA residue tenths).meter m).unauthorizedFlag := by
  have same := (s.pulsed_checked m isA residue tenths a b).same
  rw [State.meter_counted] at same
  rw [same]
  exact ⟨rfl, rfl⟩

/-- On a meter bound to no batch only meters and event flags change (R119). -/
theorem State.pulsed_unbound (free : s.boundTo m = none) :
    s.pulsed m isA residue tenths a b = { s with
      meters := (s.pulsed m isA residue tenths a b).meters, flags := (s.pulsed m isA residue tenths a b).flags } := by
  have checked := (s.pulsed_checked m isA residue tenths a b).unbound (State.boundTo_flowed.trans free)
  have flow := (State.flowed_unauthorized (isA := isA) (residue := residue) (tenths := tenths) free).eq
  rw [s.timed_unbound m isA residue free] at flow
  rw [State.counted_eq, flow] at checked
  exact checked

/-- The tenths are credited to the batch that has the meter bound, and nothing a pulse does besides changes what a batch
has been given (R110). -/
theorem State.pulsed_batch {arm : ArmId} {role : Role} {y : Batch} (bound : s.boundTo m = some (arm, role))
    (hy : s.batch arm = some y) : ∃ z, (s.pulsed m isA residue tenths a b).batch arm = some z ∧ z.gross = y.gross + tenths ∧
      z.blendGross = (if role = .blend then y.blendGross + tenths else y.blendGross) ∧
      z.ref = y.ref ∧ z.target = y.target ∧ z.snapshot = y.snapshot := by
  obtain ⟨timed, here, core⟩ := coreKept_some (restartTimers_coreKept s m isA).core hy
  obtain ⟨ref, target, snapshot, gross, blendGross⟩ := core_parts core
  obtain ⟨flowed, credited, gross', blendGross', ref', target', snapshot'⟩ :=
    (State.flowed_credited (isA := isA) (residue := residue) (tenths := tenths) bound).core timed here
  obtain ⟨z, hz, core'⟩ := coreKept_some (s.pulsed_checked m isA residue tenths a b).core credited
  obtain ⟨ref'', target'', snapshot'', gross'', blendGross''⟩ := core_parts core'
  refine ⟨z, hz, ?_, ?_, (ref''.trans ref').trans ref, (target''.trans target').trans target,
    (snapshot''.trans snapshot').trans snapshot⟩
  · rw [gross'', gross', gross]
  · rw [blendGross'', blendGross', blendGross]

theorem State.pulsed_bays : (s.pulsed m isA residue tenths a b).bays = s.bays ∧
    (s.pulsed m isA residue tenths a b).permits = s.permits := by
  have checked := s.pulsed_checked m isA residue tenths a b
  have timed := restartTimers_coreKept s m isA
  have flowed : (s.flowed m isA residue tenths).bays = (s.timed m isA residue).bays ∧
      (s.flowed m isA residue tenths).permits = (s.timed m isA residue).permits := by
    cases bound : s.boundTo m with
    | none =>
      have flow := (State.flowed_unauthorized (isA := isA) (residue := residue) (tenths := tenths) bound).eq
      have bays := congrArg State.bays flow
      have permits := congrArg State.permits flow
      exact ⟨bays, permits⟩
    | some owner =>
      have flow := State.flowed_credited (isA := isA) (residue := residue) (tenths := tenths) bound
      exact ⟨flow.bays, flow.permits⟩
  exact ⟨checked.bays.trans (flowed.1.trans timed.bays), checked.permits.trans (flowed.2.trans timed.permits)⟩

end

/-- Settles O43: A and B pulses are one pulse with their residue, tenths and counts; then what each of its parts says. -/
theorem meterPulses : Obligations.MeterPulses := by
  rintro s m isA x tenths a b rfl - htenths ha hb
  generalize hresidue : (if isA then ((s.meter m).residue + 10000) % (s.meter m).k else (s.meter m).residue) = residue
  have pulse : exec (if isA then .meterAPulse m else .meterBPulse m) s = .next (s.pulsed m isA residue tenths a b) := by
    subst htenths ha hb hresidue
    cases isA with
    | true => exact congrArg Host.Outcome.next (s.pulseA_eq m)
    | false => exact congrArg Host.Outcome.next (s.pulseB_eq m)
  have same : s.SameHostRecords (s.pulsed m isA residue tenths a b) := by
    subst htenths ha hb hresidue
    cases isA with
    | true => exact (s.pulseA_eq m) ▸ ((Keeps.refl s).pulseA m).same
    | false => exact (s.pulseB_eq m) ▸ ((Keeps.refl s).pulseB m).same
  obtain ⟨unauthorized, flag, record⟩ := s.meter_flowed m isA residue tenths
  obtain ⟨quiet, level, apart⟩ := State.checkIntegrity_cases (s.flowed m isA residue tenths) m (s.meter m) a b
    (by rw [record]) _ (State.counted_eq _ m a b)
  obtain ⟨figure, raised⟩ := State.pulsed_figures (s := s) (m := m) (isA := isA) (residue := residue) (tenths := tenths)
    (a := a) (b := b)
  refine ⟨_, s.timed m isA residue, s.flowed m isA residue tenths, pulse, s.timed_eq m isA residue,
    s.restartTimers_arm m isA, rfl, by rw [record], by rw [record], fun y away => State.meter_flowed_ne away,
    quiet, level, fun full ok far => ?_, fun free => ⟨?_, fun made much => ?_, State.pulsed_unbound free⟩,
    fun arm role bound => ⟨?_, ?_, fun y hy => State.pulsed_batch bound hy⟩, State.pulsed_bays.1, State.pulsed_bays.2, same⟩
  · obtain ⟨w, hw, unbound, bound⟩ := apart full ok far
    rw [State.boundTo_flowed] at unbound bound
    exact ⟨w, hw, unbound, bound⟩
  · have flow := (State.flowed_unauthorized (isA := isA) (residue := residue) (tenths := tenths) free).meter
    rw [figure, flow, State.meter_timed]
  · have flow := State.flowed_unauthorized (isA := isA) (residue := residue) (tenths := tenths) free
    have flags := flow.flag made (by rw [State.meter_timed]; exact much)
    rw [raised]
    refine ⟨flags.1, fun unset => (s.pulsed_checked m isA residue tenths a b).flags _ (flags.2 ?_)⟩
    rw [State.meter_timed]
    exact unset
  · rw [figure, State.meter_flowed_bound bound]
  · rw [raised, State.meter_flowed_bound bound]

end Sys2Proof.Machine
end

section
/-! SUPPORT. The ESD input (R101, R104, R128, R137, R148, R170): what the change to active does at batches and injectors,
and what the release does to hold sets. -/

namespace Sys2Proof.Machine

/-! ### The change to active -/

/-- The state in which ESD is handed out: input and state active, ESD_CHANGE set. -/
def State.esdRaised (s : State) : State :=
  { s with esd := { active := true, input := true, debounce := none }, flags := addTo EventFlag.all .esdChange s.flags }

/-- The state after the ESD input has gone active in the inactive state. -/
def State.esdActivated (s : State) : State :=
  allInjectors.foldl State.esdInjector (s.esdRaised.handCauses allArms .esd)

section
variable {s : State}

theorem exec_esdInputActive_inactive (inactive : s.esd.active = false) :
    exec .esdInputActive s = .next s.esdActivated :=
  congrArg Host.Outcome.next (if_neg (by rw [inactive]; decide))

theorem exec_esdInputActive_active (active : s.esd.active = true) :
    exec .esdInputActive s = .next { s with esd := { active := true, input := true, debounce := none } } := by
  have same : ({ s.esd with input := true, debounce := none } : Esd) = { active := true, input := true, debounce := none } := by
    rw [← active]
  exact congrArg Host.Outcome.next ((if_pos active).trans (congrArg (fun e => { s with esd := e }) same))

theorem State.esdActivated_keeps (s : State) : Keeps s s.esdActivated :=
  ((Keeps.refl s).setEsd { s.esd with input := true } id).esdActivate

theorem State.esdActivated_coreKept (s : State) : CoreKept s.esdRaised s.esdActivated :=
  (coreKept_handCauses s.esdRaised allArms .esd).trans
    (coreKept_foldl _ _ (fun u i => coreKept_esdInjector u i) allInjectors)

/-- While ESD is active every batch is stopped by it (R104). -/
theorem State.esdActivated_stops (inactive : s.esd.active = false) {a : ArmId} {b : Batch}
    (hb : s.esdActivated.batch a = some b) : b.EsdStopped := by
  have stops : s.EsdStopsFlow := fun active => nomatch inactive.symm.trans active
  refine s.esdActivated_keeps.esd stops ?_ a b hb
  rw [s.esdActivated_coreKept.esd]
  rfl

theorem State.esdActivated_trip (s : State) (a : ArmId) : s.TripReached s.esdActivated a .esd := by
  have reached := State.handCauses_trip s.esdRaised allArms .esd rfl (List.nodup_finRange 12) (mem_allArms a)
  have followed (l : List InjectorId) (u : State) (h : s.esdRaised.TripReached u a .esd) :
      s.esdRaised.TripReached (l.foldl State.esdInjector u) a .esd := by
    induction l generalizing u with
    | nil => exact h
    | cons i l ih => exact ih _ (h.esdInjector i)
  have all := followed allInjectors _ reached
  exact ⟨all.flowing, all.closing⟩

theorem State.esdActivated_isSome (s : State) (a : ArmId) : (s.esdActivated.batch a).isSome = (s.batch a).isSome := by
  have core := congrArg Option.isSome (s.esdActivated_coreKept.core a)
  rwa [Option.isSome_map, Option.isSome_map] at core

/-! ### The injectors -/

/-- What ESD does at one injector, whatever holds have taken from it before, stands when the others have followed. -/
theorem State.esdActivated_at (s : State) (i : InjectorId) {P : State → Prop}
    (now : ∀ u : State, (s.injector i).Bereft (u.injector i) → P (u.esdInjector i))
    (after : ∀ u j, j ≠ i → P u → P (u.esdInjector j)) : P s.esdActivated := by
  refine State.esdInjectors_at (Q := fun u => (s.injector i).Bereft (u.injector i)) allInjectors (List.nodup_finRange 8) _ i
    (mem_allInjectors i) (s.esdRaised.handCauses_bereft allArms .esd i) (fun u j apart bereft => ?_) now after
  rw [(u.esdInjector_step j).others i apart.symm]
  exact bereft

theorem State.esdInjector_other {u : State} {i j : InjectorId} (apart : j ≠ i) :
    (u.esdInjector j).injector i = u.injector i := (u.esdInjector_step j).others i apart.symm

/-- The record of an injector outside PROVING as ESD leaves it: no queue, an open shot ENDED, the shot in service no
longer queued (R137). -/
def Injector.esdEnded (x : Injector) : Injector := { x with
  queue := []
  shot := x.shot.map fun y => { y with
    phase := .tail, queued := y.queued && !x.queue.any (·.inService)
    outcome := if y.phase = .opened then .ended else y.outcome
    window := if y.phase = .opened then none else y.window
    tail := if y.phase = .opened then some 1000 else y.tail } }

theorem State.esdActivated_normal {i : InjectorId} (normal : (s.injector i).state ≠ .proving) :
    s.esdActivated.injector i = (s.injector i).esdEnded :=
  s.esdActivated_at i (P := fun u => u.injector i = (s.injector i).esdEnded) (fun _ bereft => bereft.esd normal)
    fun _ _ apart h => (State.esdInjector_other apart).trans h

/-- A run aborted leaves its injector IDLE without shot and context (R148). -/
theorem State.injector_abortProving (u : State) (i : InjectorId) : ((u.abortProving i).injector i).state = .idle ∧
    ((u.abortProving i).injector i).shot = none ∧ ((u.abortProving i).injector i).proving = none := by
  unfold State.abortProving State.injector
  dsimp only
  rw [State.injectors_setInjectorState, State.modInjector_injectors, vget_vset_same, State.injector_modInjector_same]
  exact ⟨rfl, rfl, rfl⟩

theorem State.esdActivated_proving {i : InjectorId} (proving : (s.injector i).state = .proving) :
    (s.esdActivated.injector i).state = .idle ∧ (s.esdActivated.injector i).shot = none ∧
      (s.esdActivated.injector i).proving = none := by
  refine s.esdActivated_at i (P := fun u => (u.injector i).state = .idle ∧ (u.injector i).shot = none ∧
    (u.injector i).proving = none) (fun u bereft => ?_) fun u j apart h => ?_
  · have running : (u.injector i).state = .proving := by rw [bereft.rest]; exact proving
    have aborts : u.esdInjector i = u.abortProving i := if_pos running
    rw [aborts]
    exact u.injector_abortProving i
  · rw [State.esdInjector_other apart]
    exact h

/-- A run whose shot has no owner ends with the stock lowered by what it has measured (R148). -/
theorem State.esdActivated_run {i : InjectorId} {q stock : Nat} (proving : (s.injector i).state = .proving)
    (unowned : (s.injector i).shot.all (fun y => y.owner.isNone) = true) (hq : q = (s.injector i).shot.elim 0 (·.counted))
    (hstock : stock = (s.injector i).stock - (2 * (q * 1000) + (s.injector i).k) / (2 * (s.injector i).k)) :
    s.esdActivated.injector i = { s.injector i with
      state := .idle, shot := none, proving := none, stock := stock, queue := (s.esdActivated.injector i).queue } ∧
    (∀ e ∈ (s.esdActivated.injector i).queue, e ∈ (s.injector i).queue) ∧
    ((s.injector i).mark ≤ (s.injector i).stock → stock < (s.injector i).mark → .stockLow ∈ s.esdActivated.flags) := by
  refine s.esdActivated_at i (P := fun u => u.injector i = { s.injector i with
      state := .idle, shot := none, proving := none, stock := stock, queue := (u.injector i).queue } ∧
    (∀ e ∈ (u.injector i).queue, e ∈ (s.injector i).queue) ∧
    ((s.injector i).mark ≤ (s.injector i).stock → stock < (s.injector i).mark → .stockLow ∈ u.flags))
    (fun u bereft => bereft.esdProving proving unowned q stock hq hstock) fun u j apart h => ?_
  obtain ⟨record, queue, low⟩ := h
  rw [State.esdInjector_other apart]
  exact ⟨record, queue, fun above below => (u.esdInjector_step j).flags _ (low above below)⟩

theorem State.esdActivated_closed (s : State) (i : InjectorId) :
    (s.esdActivated.injector i).state ≠ .proving ∧ s.esdActivated.solenoid i = false := by
  unfold State.solenoid
  by_cases proving : (s.injector i).state = .proving
  · obtain ⟨idle, shot, -⟩ := State.esdActivated_proving proving
    rw [idle, shot]
    exact ⟨by decide, rfl⟩
  · rw [State.esdActivated_normal proving]
    refine ⟨proving, ?_⟩
    unfold Injector.esdEnded
    cases (s.injector i).shot <;> rfl

end

/-! ### The release -/

/-- The state behind the removal of ESD from the hold sets, before shots start (R101). -/
def State.esdFreed (s : State) : State :=
  ({ s with esd := { s.esd with active := false, debounce := none }
            flags := addTo EventFlag.all .esdChange s.flags } : State).removeCauses allArms .esd

theorem exec_esdDebounceEnd_due {s : State} (active : s.esd.active = true) (due : s.esd.debounce = some 0) :
    exec .esdDebounceEnd s = .next (allInjectors.foldl State.nextShot s.esdFreed) :=
  congrArg Host.Outcome.next ((s.expire_of_due due _).trans (if_pos active))

theorem State.esdFreed_eq (s : State) : s.esdFreed = { s with
    esd := { s.esd with active := false, debounce := none }, flags := addTo EventFlag.all .esdChange s.flags
    arms := s.esdFreed.arms } := State.removeCauses_eq _ _ _

theorem State.arm_esdFreed (s : State) (a : ArmId) : s.esdFreed.arm a = { s.arm a with batch := (s.batch a).map fun b =>
    if b.state = .held then { b with holdSet := dropFrom .esd b.holdSet } else b } := by
  refine (State.arm_removeCauses _ allArms .esd (List.nodup_finRange 12) a).trans ((if_pos (mem_allArms a)).trans ?_)
  simp only [Batch.without, State.conditionHolds, Bool.not_false, and_true]
  rfl

/-- The arm has a HELD batch without the cause ESD. -/
def State.HeldFree (s : State) (a : ArmId) : Prop := ∃ b, s.batch a = some b ∧ b.state = .held ∧ .esd ∉ b.holdSet

section
variable {s : State} {a : ArmId}

theorem State.HeldFree.congr {t : State} (h : s.HeldFree a) (same : t.batch a = s.batch a) : t.HeldFree a := by
  unfold State.HeldFree
  rw [same]
  exact h

theorem State.esdFreed_heldFree {b : Batch} (hb : s.batch a = some b) (held : b.state = .held) : s.esdFreed.HeldFree a := by
  have freed : s.esdFreed.batch a = some { b with holdSet := dropFrom .esd b.holdSet } := by
    unfold State.batch
    rw [State.arm_esdFreed, hb, Option.map_some, if_pos held]
  exact ⟨_, freed, held, fun mem => (mem_dropFrom.mp mem).2 rfl⟩

theorem State.HeldFree.setInjectorState (h : s.HeldFree a) (i : InjectorId) (st : InjectorState) :
    (s.setInjectorState i st).HeldFree a := by
  obtain ⟨b, hb, held, free⟩ := h
  unfold State.setInjectorState
  dsimp only
  split
  · exact ⟨b, hb, held, free⟩
  · have moved := (State.injectorChanged_removed (s.modInjector i fun x => { x with state := st }) i).2 a
    have now := congrArg Arm.batch moved
    have before : (s.modInjector i fun x => { x with state := st }).batch a = some b := hb
    rw [before, Option.map_some] at now
    refine ⟨_, now, ?_⟩
    split
    · exact ⟨held, fun mem => free (mem_dropFrom.mp mem).1⟩
    · exact ⟨held, free⟩

theorem State.HeldFree.handAdditive (h : s.HeldFree a) (x : ArmId) : (s.handCause x .additive).HeldFree a := by
  obtain ⟨b, hb, held, free⟩ := h
  have still : b.state.flowing = false := by rw [held]; rfl
  have eased := s.handCauses_eased [x] .additive
  have raw := State.batch_handCausesRaw [x] s .additive (List.nodup_singleton x) a
  rw [hb] at raw
  by_cases named : a ∈ [x]
  · rw [if_pos named, Option.map_some, Batch.given_inHeld _ held] at raw
    obtain ⟨ceiling, now⟩ := eased.still a _ raw still
    refine ⟨_, now, held, fun mem => ?_⟩
    exact ((mem_addTo (HoldCause.mem_all _)).mp mem).elim (fun same => nomatch same) free
  · rw [if_neg named] at raw
    obtain ⟨ceiling, now⟩ := eased.still a _ raw still
    exact ⟨_, now, held, free⟩

theorem State.HeldFree.cannotDose (h : s.HeldFree a) (i : InjectorId) (x : ArmId) (r : CompRef) (q : Requirement) :
    (s.cannotDose i x r q).HeldFree a := by
  cases q with
  | required => exact h.handAdditive x
  | optional =>
    have flagged := (State.doseFlag_flagged s r i .underdosed).1
    have same := congrArg (State.batch · a) flagged
    exact h.congr same

/-- The start of a shot can take ADDITIVE from a hold set or add it, and frees no batch (R101, R129). -/
theorem State.HeldFree.startShots (h : s.HeldFree a) (i : InjectorId) (fuel : Nat) : (s.startShots i fuel).HeldFree a := by
  induction fuel generalizing s with
  | zero => exact h
  | succ fuel ih =>
    unfold State.startShots
    dsimp only
    split
    · exact h
    · split
      · exact h
      · next e rest _ =>
        split
        · next x' _ =>
          have served : (s.modInjector i fun _ => x'.serve e rest).HeldFree a := h.congr rfl
          exact served.setInjectorState i .shot
        · have shorter : (s.modInjector i fun x => { x with queue := rest }).HeldFree a := h.congr rfl
          exact ih (shorter.cannotDose i e.arm e.ref _)

theorem State.HeldFree.nextShots (h : s.HeldFree a) (l : List InjectorId) : (l.foldl State.nextShot s).HeldFree a := by
  induction l generalizing s with
  | nil => exact h
  | cons i l ih => exact ih (h.startShots i _)

end

/-- Settles O11: the input at both levels, the change of the ESD state to active with the batches and injectors it
reaches, and the release. -/
theorem esdInput : Obligations.EsdInput := by
  intro s
  refine ⟨fun active => exec_esdInputActive_active active, fun inactive => ?_, fun low => ?_, fun high => ?_, fun idle => ?_,
    fun active due => ?_⟩
  · have kept := s.esdActivated_coreKept
    refine ⟨s.esdActivated, exec_esdInputActive_inactive inactive, kept.esd,
      kept.flags _ ((mem_addTo (EventFlag.mem_all _)).mpr (.inl rfl)), fun a b hb => State.esdActivated_stops inactive hb,
      s.esdActivated_trip, s.esdActivated_isSome, s.esdActivated_closed, fun i normal => ?_,
      fun i proving => State.esdActivated_proving proving, ?_, ?_, kept.bays, kept.displays, s.esdActivated_keeps.same⟩
    · rw [State.esdActivated_normal normal]
      exact ⟨rfl, rfl⟩
    · rintro i x rfl normal
      exact State.esdActivated_normal normal
    · rintro i x q stock rfl proving unowned hq hstock
      exact State.esdActivated_run proving unowned hq hstock
  · exact congrArg Host.Outcome.next (if_neg (by rw [low]; decide))
  · exact congrArg Host.Outcome.next (if_pos high)
  · rcases idle with inactive | early
    · exact congrArg Host.Outcome.next (State.expire_without_effect (if_neg (by rw [inactive]; decide)))
    · exact congrArg Host.Outcome.next (State.expire_not s early _)
  · have kept : CoreKept s.esdFreed (allInjectors.foldl State.nextShot s.esdFreed) :=
      coreKept_foldl _ _ (fun u i => coreKept_nextShot u i) allInjectors
    have freed := s.esdFreed_eq
    have taken := exec_esdDebounceEnd_due active due
    have same : s.SameHostRecords (allInjectors.foldl State.nextShot s.esdFreed) := ((Keeps.refl s).esdRelease).same
    refine ⟨_, taken, ?_, ?_, fun a b hb held => ?_, ⟨s.esdFreed, freed, s.arm_esdFreed, rfl, fun unready => ?_⟩,
      ?_, ?_, same⟩
    · rw [kept.esd, freed]
    · refine kept.flags _ ?_
      rw [freed]
      exact (mem_addTo (EventFlag.mem_all _)).mpr (.inl rfl)
    · exact (State.esdFreed_heldFree hb held).nextShots allInjectors
    · refine State.nextShots_none _ (fun i => ?_) _
      have injectors : s.esdFreed.injectors = s.injectors := by rw [freed]
      unfold State.injector
      rw [injectors]
      exact (unready i).symm
    · rw [kept.bays, freed]
    · rw [kept.displays, freed]

end Sys2Proof.Machine
end
